-- ==== Sys2Proof/Word.lean ====
section
/-! DEFINITION. The word types of the FD416: bytes, counters, colours, seeds (00_scope.md 0.7, R66, R199). -/

namespace Sys2Proof

/-- One byte of a frame, a record or the serial memory (R198). -/
abbrev Byte := BitVec 8

/-- A colour: 8 bits each of red, green and blue (R66). -/
abbrev Colour := BitVec 24

/-- A 16-bit counter that stops at 65535 (00_scope.md 0.7). -/
abbrev Counter := BitVec 16

/-- A ring seed, and a CRC register (R3, R199). -/
abbrev Seed := BitVec 32

/-- A set over the 16 event kinds, bit n for the kind with code n (R200). -/
abbrev EventSet := BitVec 16

end Sys2Proof
end

