-- ==== Sys2Proof/Syntax.lean ====
section
/-! DEFINITION. The commands of the FD416: one constructor per row of spec/opcode_table.json, with the operands that the
outside supplies (notes/assumptions/3.md). -/

namespace Sys2Proof

/-- The two link ports (chapter 1): the WLP ends the incoming link, the ELP leads the outgoing one. -/
inductive Port where
  | west
  | east
deriving DecidableEq, Repr

/-- The rate classes of a link (00_scope.md 0.6). -/
inductive Rate where
  | full
  | half
  | quarter
deriving DecidableEq, Repr

/-- The roles of a node (R3). -/
inductive Role where
  | source
  | desk
  | management
deriving DecidableEq, Repr

/-- A set of rate classes (R3). -/
structure RateSet where
  full : Bool
  half : Bool
  quarter : Bool
deriving DecidableEq, Repr

/-- A capability word (R3). -/
structure CapWord where
  rates : RateSet
  address : Byte
  role : Role
  seedTag : Byte
deriving DecidableEq, Repr

/-- The producers that keep a frame the insertion queue refused (R29). -/
inductive Producer where
  | iu
  | cu
  | mu
deriving DecidableEq, Repr

/-- The level of the takeover contact, and the filtered state (R161). -/
inductive ButtonLevel where
  | released
  | pressed
deriving DecidableEq, Repr

/-- Which reads of a load the serial memory completed (R190): the header, the DESK area, the LAYOUT area. -/
structure SerialAnswers where
  header : Bool
  desk : Bool
  layout : Bool
deriving DecidableEq, Repr

/-- The commands. `rxMid` says whether a frame was being received when the WLP left UP (R14). -/
inductive Instr where
  | powerOnReset (loadSel : Bool) (straps : BitVec 6)
  | loadComplete (answers : SerialAnswers) (rxMid : Bool)
  | softReset
  | energyDetected (p : Port)
  | energyLost (p : Port) (rxMid : Bool)
  | energyLossTimerExpires (p : Port)
  | capTaken (p : Port) (w : CapWord) (rxMid : Bool)
  | trialTaken (p : Port) (r : Rate) (rxMid : Bool)
  | goTaken (p : Port)
  | lockTaken (r : Rate)
  | lossTaken
  | retrainTaken
  | trialWindowExpires
  | receiverLocked
  | receiverLockLost (p : Port) (rxMid : Bool)
  | frameReceived (bytes : List Byte)
  | errorBurstRetrain (rxMid : Bool)
  | frameTransmitEnd
  | refusedFrameAppended (p : Producer)
  | beaconTimerExpires
  | absenceTimerExpires (a : Byte)
  | closureTimerExpires
  | staleTimerExpires (e : Fin 32)
  | deskFrameBoundary
  | deskRecordRejected (b0 b1 b2 b3 b4 : Byte)
  | deskKeyDown (usage : Byte)
  | deskKeyUp (usage : Byte)
  | deskButtonPress (b : Byte)
  | deskButtonRelease (b : Byte)
  | deskMotion (dx dy : BitVec 16)
  | deskWheel (v h : Byte)
  | takeoverPress
  | takeoverButtonReleased
  | idleTimerExpires
  | blinkPhaseAdvance
  | requestTimerExpires (slot : Fin 16)
  | noticeIntervalExpires
  | saveLayoutWritten
  | saveCompletes
  | serialMemoryFault (duringHeader : Bool)
  | takeoverButtonSample (level : ButtonLevel)
deriving DecidableEq, Repr

end Sys2Proof
end

