-- ==== Sys2Proof/Decode.lean ====
section
/-! DEFINITION. Commands as words of the table's bits. No row of spec/opcode_table.json has bits ("fields" is empty and "fixed"
absent in every row), so no word spells a command (notes/assumptions/4.md). -/

namespace Sys2Proof

/-- The command that a word of `nbits` bits spells by the table: none, for every word. -/
def decodeTableWord (_nbits _w : Nat) : Option Instr := none

end Sys2Proof
end

