-- ==== Sys2Proof/Config.lean ====
section
/-! DEFINITION. What one implementation fixes and the spec does not state: the free values. None has a body, so no claim
can lean on a value (notes/assumptions/7.md, 8.md, 21.md, 22.md, 23.md). -/

namespace Sys2Proof

/-- The revision byte of IDENT (R201); the spec gives no value. -/
opaque Config.revision : Byte

/-- The filtered button state that STATUS reports before the first sample (R161, R174), numbered by the free counter. -/
opaque Config.unsampledButton : Nat → Bool

/-- A tag byte that a request too short to carry its tag is answered with (R169, R171), numbered by the free counter. -/
opaque Config.missingTagByte : Nat → Byte

/-- Whether a save had written the header when a reset cut it short in WRITING_LAYOUT (R195, R196). -/
opaque Config.headerRewritten : Nat → Bool

/-- The colour of a buffer pixel that no strip has written (R46): buffer, line and column, numbered by the free counter. -/
opaque Config.unwrittenPixel : Nat → Nat → Nat → Nat → Colour

end Sys2Proof
end

