-- ==== Sys2Proof/Machine/Types.lean ====
section
/-! DEFINITION. The types of the pieces of state of each block, as the chapters name them. -/

namespace Sys2Proof.Machine

open Sys2Proof

/-! ## Link ports (chapter 1) -/

/-- Port state (R2). -/
inductive PortState where
  | disabled
  | silent
  | advertise
  | train
  | up
  | mismatch
deriving DecidableEq, Repr

/-- A trial in progress: its rate and the time its window has been open, in ms (R9). -/
structure Trial where
  rate : Rate
  elapsed : Nat
deriving DecidableEq, Repr

/-- The West link port (R2, R13). `silence` is the energy-loss timer in ms; `target` is the rate the last TRIAL named. -/
structure Wlp where
  state : PortState
  partner : Option CapWord
  agreed : Option Rate
  energy : Bool
  silence : Option Nat
  target : Option Rate
  locked : Bool
  badFrames : Nat
  linkDown : Counter
  crcErrors : Counter
  truncated : Counter
deriving DecidableEq, Repr

/-- The East link port (R2). -/
structure Elp where
  state : PortState
  partner : Option CapWord
  agreed : Option Rate
  energy : Bool
  silence : Option Nat
  ceiling : Rate
  attempts : Nat
  trial : Option Trial
  linkDown : Counter
deriving DecidableEq, Repr

/-- The link-control symbols that a port sends once (R1, R9, R10, R15, R16, R18). -/
inductive LineSymbol where
  | cap (w : CapWord)
  | trial (r : Rate)
  | go
  | loss
  | retrain
deriving DecidableEq, Repr

/-! ## Ring forwarder (chapter 2) -/

/-- A ring frame without its CRC, which the ELP computes as the frame leaves (R199, R3). -/
structure Frame where
  kind : Byte
  dest : Byte
  origin : Byte
  hop : Byte
  payload : List Byte
deriving DecidableEq, Repr

/-- The verdict of the WLP on a received frame (R14). -/
inductive Verdict where
  | good
  | crcError
  | truncated
deriving DecidableEq, Repr

/-- A frame of the insertion queue; `resetResponse` marks the response of a RESET, which R179 waits for. -/
structure InsEntry where
  frame : Frame
  resetResponse : Bool
deriving DecidableEq, Repr

/-- The queue a frame on the line came from (R31, R32). -/
inductive SendSource where
  | passThrough
  | insertion
deriving DecidableEq, Repr

/-- The frame that the ELP is sending. -/
structure Sending where
  frame : Frame
  source : SendSource
deriving DecidableEq, Repr

/-- One entry of the presence table (2.6). -/
structure PresenceEntry where
  present : Bool
  role : Option Role
  sol : Option Nat
  priority : Option Byte
  time : Option Nat
  gaps : Counter
deriving DecidableEq, Repr

/-- A running timer with the limit it was started with, both in ms. -/
structure Timer where
  elapsed : Nat
  limit : Nat
deriving DecidableEq, Repr

/-- Ring state (R40). -/
inductive RingState where
  | isolated
  | open
  | closed
deriving DecidableEq, Repr

/-- The forwarding counters (R41). -/
structure RfCounters where
  stripped : Counter
  orphans : Counter
  unexpected : Counter
  loading : Counter
  stripOverflow : Counter
  stripDisplaced : Counter
  overflow : Counter
  noEgress : Counter
  insFull : Counter
  sent : Counter
  beaconsSkipped : Counter
  beaconRejects : Counter
deriving DecidableEq, Repr

/-- The ring forwarder (chapter 2). -/
structure Rf where
  passQ : List Frame
  insQ : List InsEntry
  sending : Option Sending
  share : Nat
  sol : Nat
  restart : Bool
  beaconTimer : Option Timer
  presence : Vector PresenceEntry 62
  closure : Option Timer
  ring : RingState
  c : RfCounters
deriving DecidableEq, Repr

/-! ## Stream receiver (chapter 3) -/

/-- State of a loaded stream entry (R44). -/
inductive StreamState where
  | blocked
  | waiting
  | live
  | stale
deriving DecidableEq, Repr

/-- The three buffers of an entry and their roles (R45); `spare` is kept rising. -/
structure Buffers where
  front : Nat
  ready : Option Nat
  assembling : Option Nat
  spare : List Nat
deriving DecidableEq, Repr

/-- The assembly record: the frame number and the received-strip set, kept rising; the received-strip count is its length. -/
structure Assembly where
  frame : Nat
  received : List Nat
deriving DecidableEq, Repr

/-- The stream counters of one entry (R62). -/
structure StreamCounters where
  completed : Counter
  abandoned : Counter
  superseded : Counter
  duplicates : Counter
  late : Counter
  mismatches : Counter
  noBuffer : Counter
  malformed : Counter
deriving DecidableEq, Repr

/-- What a write of a stream entry names (R47). -/
structure StreamContent where
  id : Nat
  slot : Fin 16
  width : Nat
  height : Nat
  stale : Nat
deriving DecidableEq, Repr

/-- A loaded entry of the stream table (R43). -/
structure StreamEntry where
  content : StreamContent
  state : StreamState
  buffers : Option Buffers
  front : Option Nat
  ready : Option Nat
  assembly : Option Assembly
  timer : Option Nat
  armed : Bool
  c : StreamCounters
deriving DecidableEq, Repr

/-- The stream receiver: the table, the free set (kept rising) and the written lines of the 80 buffers, keyed by
buffer × 2160 + line, keys rising (R43, R46). -/
structure Sr where
  entries : Vector (Option StreamEntry) 32
  free : List Nat
  lines : List (Nat × List Colour)
deriving DecidableEq, Repr

/-! ## Compositor (chapter 4) -/

/-- Desk frame rate (R64). -/
inductive FrameRate where
  | hz50
  | hz60
deriving DecidableEq, Repr

/-- The desk raster: running or not, the rate of the period under way, and the place in it in thirds of a ms (R64, R65). -/
structure Raster where
  running : Bool
  rate : FrameRate
  phase : Nat
deriving DecidableEq, Repr

/-- A head record (R66). -/
structure HeadRecord where
  enabled : Bool
  width : Nat
  height : Nat
  ox : Nat
  oy : Nat
  background : Colour
deriving DecidableEq, Repr

/-- A window record (R69). -/
structure Window where
  id : Nat
  stream : Option Nat
  sx : Nat
  sy : Nat
  d : Nat
  x : Nat
  y : Nat
  w : Nat
  h : Nat
  fill : Colour
  input : Bool
  border : Bool
deriving DecidableEq, Repr

/-- Levels of control (R140). -/
inductive Level where
  | view
  | shared
  | exclusive
deriving DecidableEq, Repr

/-- What the compositor reads of one loaded stream entry for a picture (R60, R78). -/
structure StreamView where
  content : StreamContent
  state : StreamState
  frontPresent : Bool
  frontBuffer : Option Nat
deriving DecidableEq, Repr

/-- The inputs a picture is drawn from (R78). `shown` is false in STANDBY (R81). -/
structure Picture where
  shown : Bool
  heads : Vector HeadRecord 4
  lists : Vector (List Window) 4
  streams : Vector (Option StreamView) 32
  palette : Vector (Option Colour) 6
  focusWindow : Option (Fin 4 × Nat)
  held : Vector (Option Level) 16
deriving DecidableEq, Repr

/-- Border classes, in palette order (R83). -/
inductive BorderClass where
  | stale
  | focusExclusive
  | focus
  | exclusive
  | viewOnly
  | plain
deriving DecidableEq, Repr

/-- The compositor (chapter 4). -/
structure Cp where
  raster : Raster
  heads : Vector HeadRecord 4
  palette : Vector (Option Colour) 6
  active : Vector (List Window) 4
  staged : Vector (List Window) 4
  pending : Vector Bool 4
  presets : Vector (List Window) 32
  current : Option (Fin 8)
  picture : Option Picture
deriving DecidableEq, Repr

/-! ## Focus unit (chapter 5) -/

/-- Focus slot and focus window, present together (R93). -/
structure Focus where
  slot : Fin 16
  head : Fin 4
  win : Nat
deriving DecidableEq, Repr

/-- A point of a stream (R95). -/
structure StreamPoint where
  stream : Nat
  x : Nat
  y : Nat
deriving DecidableEq, Repr

/-- The focus unit (R88, R93, R98). -/
structure Fu where
  x : Nat
  y : Nat
  focus : Option Focus
  last : Option (Fin 16)
  lock : Bool
  reported : Option StreamPoint
  accum : Nat
deriving DecidableEq, Repr

/-! ## Input unit (chapter 6) -/

/-- Hot-key actions (R114). -/
inductive HotAction where
  | selectPreset
  | requestShared
  | requestExclusive
  | release
  | focusLock
  | nextWindow
  | standby
deriving DecidableEq, Repr

/-- A loaded hot-key entry (R114); bit n of `mods` stands for code 224 + n. -/
structure HotKey where
  mods : Byte
  usage : Byte
  action : HotAction
  arg : Byte
deriving DecidableEq, Repr

/-- An input record (R126); bit n of a button set stands for button n + 1. -/
inductive InputRecord where
  | key (usage : Byte) (up : Bool)
  | position (p : StreamPoint) (buttons : BitVec 5)
  | wheel (v h : Byte)
  | resync
deriving DecidableEq, Repr

/-- The input counters (R134). -/
structure IuCounters where
  rejected : Counter
  duplicates : Counter
  hotKeys : Counter
  hotNoTarget : Counter
  consumedFull : Counter
  keysNoFocus : Counter
  keysMapFull : Counter
  unownedUps : Counter
  buttonsNoFocus : Counter
  wheelNoFocus : Counter
  overflows : Counter
  overflowDiscards : Counter
  slotDiscards : Counter
  framesBuilt : Counter
deriving DecidableEq, Repr

/-- The input unit (chapter 6). -/
structure Iu where
  mods : Byte
  buttons : BitVec 5
  hotkeys : Vector (Option HotKey) 16
  consumed : List Byte
  keys : List (Byte × Fin 16)
  owners : Vector (Option (Fin 16)) 5
  queues : Vector (List InputRecord) 16
  seqs : Vector Nat 16
  rr : Fin 16
  held : Option Frame
  c : IuCounters
deriving DecidableEq, Repr

/-! ## Claim unit (chapter 7) -/

/-- Last outcome of a claim record (R140). -/
inductive ClaimOutcome where
  | none
  | granted
  | denied
  | revoked
  | timedOut
  | released
deriving DecidableEq, Repr

/-- An outstanding request: its level, and its deadline as the ms remaining, absent until the REQUEST is appended (R140, R142). -/
structure Request where
  level : Level
  deadline : Option Nat
deriving DecidableEq, Repr

/-- What a write of a directory slot names (R136). -/
structure SlotContent where
  addr : Byte
  autoShare : Bool
  confine : Bool
deriving DecidableEq, Repr

/-- A loaded directory slot with its claim record (R136, R140). -/
structure Slot where
  content : SlotContent
  held : Level
  request : Option Request
  holder : Option Byte
  outcome : ClaimOutcome
deriving DecidableEq, Repr

/-- Kinds of outbox messages (R141). -/
inductive MsgKind where
  | request
  | release
deriving DecidableEq, Repr

/-- A message of the claim outbox (R141). -/
structure ClaimMsg where
  kind : MsgKind
  slot : Fin 16
  level : Level
  dest : Byte
deriving DecidableEq, Repr

/-- The offered message and the frame built from it (R142). -/
structure Offered where
  msg : ClaimMsg
  frame : Frame
deriving DecidableEq, Repr

/-- The claim counters (R154). -/
structure CuCounters where
  requestsSent : Counter
  releasesSent : Counter
  refused : Counter
  replaced : Counter
  grants : Counter
  unsolicited : Counter
  denies : Counter
  unmatchedDenies : Counter
  revokes : Counter
  timeouts : Counter
  absences : Counter
  rejected : Counter
deriving DecidableEq, Repr

/-- The claim unit (chapter 7). Entry a − 1 of `view` says whether address a is in the presence view. -/
structure Cu where
  slots : Vector (Option Slot) 16
  view : Vector Bool 62
  outbox : List ClaimMsg
  offered : Option Offered
  c : CuCounters
deriving DecidableEq, Repr

/-! ## Panel unit (chapter 8) -/

/-- Power state (R156). -/
inductive Power where
  | active
  | standby
deriving DecidableEq, Repr

/-- Desk record kinds that wake (R158, R167). -/
inductive WakeKind where
  | keyDown
  | buttonPress
  | motion
  | wheel
deriving DecidableEq, Repr

/-- The wake cause record (R167). -/
inductive WakeCause where
  | takeover
  | deskInput (k : WakeKind)
  | management
deriving DecidableEq, Repr

/-- Lamp behaviours (R163). -/
inductive Behaviour where
  | off
  | on
  | slow
  | fast
deriving DecidableEq, Repr

/-- The blink clock: phase 0..7 and the ms within it (R166). -/
structure Blink where
  phase : Nat
  elapsed : Nat
deriving DecidableEq, Repr

/-- The panel counters (R168). -/
structure PuCounters where
  presses : Counter
  noTarget : Counter
  standbys : Counter
  wakes : Counter
deriving DecidableEq, Repr

/-- The panel unit (chapter 8). -/
structure Pu where
  power : Power
  idle : Option Nat
  filter : Option ButtonLevel
  run : Nat
  lamps : Vector (Vector Behaviour 4) 5
  blink : Option Blink
  wake : Option WakeCause
  c : PuCounters
deriving DecidableEq, Repr

/-! ## Management unit (chapter 9) -/

/-- Event kinds, in code order (R182, R200). -/
inductive EventKind where
  | ringState
  | linkDown
  | linkDownshift
  | linkMismatch
  | streamStale
  | streamLive
  | geometryMismatch
  | claimChange
  | claimTimeout
  | sourceAbsent
  | queueOverflow
  | poolExhausted
  | loadFault
  | saveDone
  | saveFault
  | wake
deriving DecidableEq, Repr

/-- Protection levels (R180). -/
inductive ProtLevel where
  | open
  | writeLocked
  | readWriteLocked
deriving DecidableEq, Repr

/-- The request in work; `resetQueued` holds once a RESET's response has been appended (R170, R179). -/
structure Work where
  origin : Byte
  tag : BitVec 16
  resetQueued : Bool
deriving DecidableEq, Repr

/-- A response or a notice kept on offer (R170). -/
structure MuOffer where
  entry : InsEntry
  isNotice : Bool
deriving DecidableEq, Repr

/-- The management counters (R187). -/
structure MuCounters where
  taken : Counter
  overruns : Counter
  malformed : Counter
  protectedRefusals : Counter
  responses : Counter
  notices : Counter
deriving DecidableEq, Repr

/-- The management unit (chapter 9). -/
structure Mu where
  work : Option Work
  offer : Option MuOffer
  waiting : Option InsEntry
  resetDue : Bool
  configLevel : ProtLevel
  layoutLevel : ProtLevel
  events : EventSet
  mask : EventSet
  due : Bool
  interval : Option Nat
  c : MuCounters
deriving DecidableEq, Repr

/-- The reason of a refusal of the owning blocks (R171). -/
inductive Reason where
  | invalid
  | inUse
  | overlap
  | latchPending
  | saving
  | notAuthority
  | belowHeld
deriving DecidableEq, Repr

/-! ## Configuration loader and serial memory (chapter 10, R202) -/

/-- Loader state (R189). -/
inductive Loader where
  | loading
  | running
deriving DecidableEq, Repr

/-- Save state (R194). -/
inductive SaveState where
  | idle
  | writingLayout
  | writingDesk
deriving DecidableEq, Repr

/-- Validity flags (R190). -/
inductive Validity where
  | notRead
  | valid
  | invalid
deriving DecidableEq, Repr

/-- The snapshot of a save: the content of both areas as it will be written (R194, R202). -/
structure Snapshot where
  desk : List Byte
  layout : List Byte
deriving DecidableEq, Repr

/-- The configuration loader (chapter 10). `cold` says that LOADING follows power-on (R5). -/
structure Cl where
  loadSel : Bool
  ownAddress : BitVec 6
  loader : Loader
  cold : Bool
  save : SaveState
  snapshot : Option Snapshot
  deskFlag : Validity
  layoutFlag : Validity
  seed : Seed
deriving DecidableEq, Repr

/-- The DESK settings that are not head records or palette entries (R173), as stored. -/
structure Desk where
  rate : FrameRate
  guard : Nat
  standby : Nat
  downshift : Nat
  energyReset : Nat
  beaconPeriod : Nat
  absence : Nat
  priority : Byte
  claimTimeout : Nat
  noticeInterval : Nat
  noticeTarget : Byte
  authority : Byte
  seed : Seed
deriving DecidableEq, Repr

/-- The serial memory (R202): its cells, and which regions a cut or faulted save left part-written (R195, R196). -/
structure Serial where
  cells : List (Nat × Byte)
  headerBad : Bool
  deskBad : Bool
  layoutBad : Bool
deriving DecidableEq, Repr

end Sys2Proof.Machine
end

