-- ==== Sys2Proof/Machine/Defaults.lean ====
section
/-! DEFINITION. The built-in defaults and the start values of each block (R20, R42, R63, R87, R111, R135, R155, R168, R188, R197). -/

namespace Sys2Proof.Machine

open Sys2Proof

/-- The built-in ring seed (R190). -/
def builtinSeed : Seed := 0x5A3C96E1#32

/-- West link port after power-on reset (R20). -/
def wlpStart : Wlp :=
  { state := .disabled, partner := none, agreed := none, energy := false, silence := none, target := none, locked := false,
    badFrames := 0, linkDown := 0, crcErrors := 0, truncated := 0 }

/-- East link port after power-on reset (R20). -/
def elpStart : Elp :=
  { state := .disabled, partner := none, agreed := none, energy := false, silence := none, ceiling := .full, attempts := 0,
    trial := none, linkDown := 0 }

/-- A presence entry after reset (R42). -/
def presenceStart : PresenceEntry :=
  { present := false, role := none, sol := none, priority := none, time := none, gaps := 0 }

/-- Forwarding counters at 0 (R41). -/
def rfCountersZero : RfCounters := ⟨0, 0, 0, 0, 0, 0, 0, 0, 0, 0, 0, 0⟩

/-- Ring forwarder after power-on reset (R42). The RESTART flag is set when the load completes (R34). -/
def rfStart : Rf :=
  { passQ := [], insQ := [], sending := none, share := 0, sol := 1, restart := false, beaconTimer := none,
    presence := Vector.replicate 62 presenceStart, closure := none, ring := .isolated, c := rfCountersZero }

/-- Stream counters at 0 (R47). -/
def streamCountersZero : StreamCounters := ⟨0, 0, 0, 0, 0, 0, 0, 0⟩

/-- Stream table after reset (R63); the written lines stay as they are handed in. -/
def srStart (lines : List (Nat × List Colour)) : Sr :=
  { entries := Vector.replicate 32 none, free := List.range 80, lines := lines }

/-- The default head records: 1920 × 1080 side by side, black (4.10). -/
def defaultHead (h : Fin 4) : HeadRecord :=
  { enabled := true, width := 1920, height := 1080, ox := 1920 * h.val, oy := 0, background := 0x000000#24 }

/-- The default palette (R83). -/
def defaultPalette : Vector (Option Colour) 6 :=
  #v[some 0xFFB000#24, some 0xE02020#24, some 0x20C040#24, some 0x2060E0#24, some 0x808080#24, none]

/-- Compositor after power-on reset (R87). -/
def cpStart : Cp :=
  { raster := ⟨false, .hz60, 0⟩, heads := Vector.ofFn defaultHead, palette := defaultPalette,
    active := Vector.replicate 4 [], staged := Vector.replicate 4 [], pending := Vector.replicate 4 false,
    presets := Vector.replicate 32 [], current := none, picture := none }

/-- Focus unit after reset (R111). -/
def fuStart : Fu := { x := 0, y := 0, focus := none, last := none, lock := false, reported := none, accum := 0 }

/-- Input counters at 0 (R134). -/
def iuCountersZero : IuCounters := ⟨0, 0, 0, 0, 0, 0, 0, 0, 0, 0, 0, 0, 0, 0⟩

/-- Input unit after reset (R135). -/
def iuStart : Iu :=
  { mods := 0, buttons := 0, hotkeys := Vector.replicate 16 none, consumed := [], keys := [],
    owners := Vector.replicate 5 none, queues := Vector.replicate 16 [], seqs := Vector.replicate 16 1, rr := 15,
    held := none, c := iuCountersZero }

/-- Claim counters at 0 (R154). -/
def cuCountersZero : CuCounters := ⟨0, 0, 0, 0, 0, 0, 0, 0, 0, 0, 0, 0⟩

/-- Claim unit after reset (R155). -/
def cuStart : Cu :=
  { slots := Vector.replicate 16 none, view := Vector.replicate 62 false, outbox := [], offered := none, c := cuCountersZero }

/-- The default lamp configuration (R163). -/
def defaultLamp (l : Fin 5) : Vector Behaviour 4 :=
  if l.val < 4 then #v[.on, .off, .slow, .fast] else #v[.fast, .on, .slow, .slow]

/-- Panel counters at 0 (R168). -/
def puCountersZero : PuCounters := ⟨0, 0, 0, 0⟩

/-- Panel unit after reset (R168). -/
def puStart : Pu :=
  { power := .active, idle := none, filter := none, run := 0, lamps := Vector.ofFn defaultLamp, blink := none, wake := none,
    c := puCountersZero }

/-- Management counters at 0 (R187). -/
def muCountersZero : MuCounters := ⟨0, 0, 0, 0, 0, 0⟩

/-- Management unit after reset (R188). -/
def muStart : Mu :=
  { work := none, offer := none, waiting := none, resetDue := false, configLevel := .open, layoutLevel := .open,
    events := 0, mask := 0, due := false, interval := none, c := muCountersZero }

/-- Configuration loader after power-on reset, with the strap samples (R189, R197). The flags and the seed stand until the
load brings theirs (notes/assumptions/6.md). -/
def clStart (loadSel : Bool) (straps : BitVec 6) : Cl :=
  { loadSel := loadSel, ownAddress := straps, loader := .loading, cold := true, save := .idle, snapshot := none,
    deskFlag := .notRead, layoutFlag := .notRead, seed := builtinSeed }

/-- The default DESK settings (R6, R11, R33, R34, R38, R64, R98, R142, R160, R188, R190). -/
def deskDefault : Desk :=
  { rate := .hz60, guard := 0, standby := 0, downshift := 4, energyReset := 4, beaconPeriod := 10, absence := 1000,
    priority := 128#8, claimTimeout := 200, noticeInterval := 100, noticeTarget := 0, authority := 0, seed := builtinSeed }

/-- A serial memory with nothing listed (notes/assumptions/7.md). -/
def serialBlank : Serial := { cells := [], headerBad := false, deskBad := false, layoutBad := false }

end Sys2Proof.Machine
end

