-- ==== Sys2Proof/Machine/State.lean ====
section
/-! DEFINITION. The state of the FD416, its stop reasons, and the state right after power-on reset. -/

namespace Sys2Proof.Machine

open Sys2Proof

/-- Why a command stops the machine. The spec stops it nowhere, so no meaning raises this; it stands for the interface.
Safe: it is never answered. -/
inductive Fault where
  /-- Never raised: the spec describes no stop of the part. Safe. -/
  | noStopDescribed
deriving DecidableEq, Repr

/-- Why a command is refused. -/
inductive Refusal where
  /-- Raised by exec's arm of a command that has no meaning yet (none is left). Safe: the machine stops. -/
  | notModelled (mnemonic : String)
deriving DecidableEq, Repr

/-- The whole state of the part: its eleven blocks, the DESK settings, the serial memory beside it, the record of the one-shot
symbols it has sent, the counter that numbers free values, and the commands that are waiting, oldest first. -/
structure State where
  wlp : Wlp
  elp : Elp
  rf : Rf
  sr : Sr
  cp : Cp
  fu : Fu
  iu : Iu
  cu : Cu
  pu : Pu
  mu : Mu
  cl : Cl
  desk : Desk
  serial : Serial
  lineOut : List (Port × LineSymbol)
  free : Nat
  pending : List Instr
deriving DecidableEq, Repr

/-- The machine right after power-on reset (R189 and the reset table of each chapter). The straps read 0 until POWER_ON_RESET
samples them (notes/assumptions/5.md). -/
def State.reset : State :=
  { wlp := wlpStart, elp := elpStart, rf := rfStart, sr := srStart [], cp := cpStart, fu := fuStart, iu := iuStart,
    cu := cuStart, pu := puStart, mu := muStart, cl := clStart false 0, desk := deskDefault, serial := serialBlank,
    lineOut := [], free := 0, pending := [] }

end Sys2Proof.Machine
end

