-- ==== Sys2Proof/WellFormed.lean ====
section
/-! DEFINITION. Which commands the spec's ranges allow a sender to give (R3, R36, R112). The meanings are total: a command that
is not well formed still has the effect its rule states, where the rule states one (a desk record out of range is rejected). -/

namespace Sys2Proof

/-- A set of rate classes is not empty (R3). -/
def RateSet.nonempty (r : RateSet) : Bool := r.full || r.half || r.quarter

/-- A signed 16-bit movement lies in −2048..2047 (R112). -/
def motionInRange (d : BitVec 16) : Bool := decide (-2048 ≤ d.toInt) && decide (d.toInt ≤ 2047)

/-- A signed wheel byte lies in −127..127 (R112). -/
def wheelInRange (d : Byte) : Bool := decide (-127 ≤ d.toInt)

/-- A button number lies in 1..5 (R112). -/
def buttonInRange (b : Byte) : Bool := decide (1 ≤ b.toNat) && decide (b.toNat ≤ 5)

/-- A node address lies in 1..62 (00_scope.md 0.6). -/
def nodeInRange (a : Byte) : Bool := decide (1 ≤ a.toNat) && decide (a.toNat ≤ 62)

/-- The checks on a command. -/
def Instr.wellFormed : Instr → Bool
  | .capTaken _ w _ => w.rates.nonempty
  | .absenceTimerExpires a => nodeInRange a
  | .deskKeyDown u => decide (u ≠ 0)
  | .deskKeyUp u => decide (u ≠ 0)
  | .deskButtonPress b => buttonInRange b
  | .deskButtonRelease b => buttonInRange b
  | .deskMotion dx dy => motionInRange dx && motionInRange dy
  | .deskWheel v h => wheelInRange v && wheelInRange h
  | .powerOnReset _ _ | .loadComplete _ _ | .softReset | .energyDetected _ | .energyLost _ _
  | .energyLossTimerExpires _ | .trialTaken _ _ _ | .goTaken _ | .lockTaken _ | .lossTaken | .retrainTaken
  | .trialWindowExpires | .receiverLocked | .receiverLockLost _ _ | .frameReceived _ | .errorBurstRetrain _
  | .frameTransmitEnd | .refusedFrameAppended _ | .beaconTimerExpires | .closureTimerExpires | .staleTimerExpires _
  | .deskFrameBoundary | .deskRecordRejected _ _ _ _ _ | .takeoverPress | .takeoverButtonReleased | .idleTimerExpires
  | .blinkPhaseAdvance | .requestTimerExpires _ | .noticeIntervalExpires | .saveLayoutWritten | .saveCompletes
  | .serialMemoryFault _ | .takeoverButtonSample _ => true

end Sys2Proof
end

