-- ==== Sys2Proof/Machine/Ops.lean ====
section
/-! DEFINITION. Shared small operations: the update of each field of State, saturating counters, orders on rates and levels,
the sparse memories and their canonical form, node addresses and the part's own capability word. -/

namespace Sys2Proof.Machine

open Sys2Proof

/-! ## One update per field of State -/

/-- The state with `wlp` replaced. -/
def State.setWlp (s : State) (v : Wlp) : State := { s with wlp := v }

/-- The state with `elp` replaced. -/
def State.setElp (s : State) (v : Elp) : State := { s with elp := v }

/-- The state with `rf` replaced. -/
def State.setRf (s : State) (v : Rf) : State := { s with rf := v }

/-- The state with `sr` replaced. -/
def State.setSr (s : State) (v : Sr) : State := { s with sr := v }

/-- The state with `cp` replaced. -/
def State.setCp (s : State) (v : Cp) : State := { s with cp := v }

/-- The state with `fu` replaced. -/
def State.setFu (s : State) (v : Fu) : State := { s with fu := v }

/-- The state with `iu` replaced. -/
def State.setIu (s : State) (v : Iu) : State := { s with iu := v }

/-- The state with `cu` replaced. -/
def State.setCu (s : State) (v : Cu) : State := { s with cu := v }

/-- The state with `pu` replaced. -/
def State.setPu (s : State) (v : Pu) : State := { s with pu := v }

/-- The state with `mu` replaced. -/
def State.setMu (s : State) (v : Mu) : State := { s with mu := v }

/-- The state with `cl` replaced. -/
def State.setCl (s : State) (v : Cl) : State := { s with cl := v }

/-- The state with `desk` replaced. -/
def State.setDesk (s : State) (v : Desk) : State := { s with desk := v }

/-- The state with `serial` replaced. -/
def State.setSerial (s : State) (v : Serial) : State := { s with serial := v }

/-- The state with `lineOut` replaced. -/
def State.setLineOut (s : State) (v : List (Port × LineSymbol)) : State := { s with lineOut := v }

/-- The state with `free` replaced. -/
def State.setFree (s : State) (v : Nat) : State := { s with free := v }

/-- The state with `pending` replaced. -/
def State.setPending (s : State) (v : List Instr) : State := { s with pending := v }

/-! ## Counters (00_scope.md 0.7) -/

/-- One increment of a counter that stops at 65535. -/
def bump (c : Counter) : Counter := if c = 65535#16 then c else c + 1

/-- An increment by `n` of a counter that stops at 65535. -/
def bumpBy (n : Nat) (c : Counter) : Counter := BitVec.ofNat 16 (min (c.toNat + n) 65535)

/-! ## Tables -/

/-- A function applied to every entry of a table. -/
def mapTable {α β : Type} {n : Nat} (f : α → β) (v : Vector α n) : Vector β n := Vector.ofFn fun i => f v[i]

/-- The first index of a table, in index order, whose entry satisfies `p`. -/
def findIndex {α : Type} {n : Nat} (p : α → Bool) (v : Vector α n) : Option (Fin n) :=
  (List.finRange n).find? fun i => p v[i]

/-- A value put into a rising list without repeats. -/
def insertRising (a : Nat) : List Nat → List Nat
  | [] => [a]
  | b :: bs => if a < b then a :: b :: bs else if a = b then b :: bs else b :: insertRising a bs

/-! ## Orders -/

/-- FULL above HALF above QUARTER (00_scope.md 0.6). -/
def Rate.rank : Rate → Nat
  | .quarter => 0
  | .half => 1
  | .full => 2

/-- The class one below, if there is one (R11). -/
def Rate.below : Rate → Option Rate
  | .full => some .half
  | .half => some .quarter
  | .quarter => none

/-- VIEW below SHARED below EXCLUSIVE (R140). -/
def Level.rank : Level → Nat
  | .view => 0
  | .shared => 1
  | .exclusive => 2

/-- The lower of two levels (R144). -/
def Level.lower (a b : Level) : Level := if Level.rank a ≤ Level.rank b then a else b

/-- Whether a set of rate classes holds a class (R3). -/
def rateIn (s : RateSet) : Rate → Bool
  | .full => s.full
  | .half => s.half
  | .quarter => s.quarter

/-! ## The serial memory's cells (R202) -/

/-- The byte at an address; an unlisted address reads 00h (notes/assumptions/7.md). -/
def Memory.read (m : List (Nat × Byte)) (a : Nat) : Byte := ((m.find? fun c => c.1 = a).map (·.2)).getD 0

/-- The canonical form: addresses rising, no cell equal to what an unlisted address reads as. -/
abbrev Memory.wf (m : List (Nat × Byte)) : Prop :=
  m.Pairwise (fun a b => a.1 < b.1) ∧ ∀ c ∈ m, c.2 ≠ 0

/-- The cells of a run of bytes from an address on, those equal to 00h left out. -/
def cellsFrom (base : Nat) : List Byte → List (Nat × Byte)
  | [] => []
  | b :: bs => if b = 0 then cellsFrom (base + 1) bs else (base, b) :: cellsFrom (base + 1) bs

/-- A run of bytes written from an address on. -/
def Memory.write (m : List (Nat × Byte)) (base : Nat) (bytes : List Byte) : List (Nat × Byte) :=
  (m.filter fun c => c.1 < base) ++ cellsFrom base bytes ++ m.filter fun c => base + bytes.length ≤ c.1

/-- The bytes of a range. -/
def Memory.readRange (m : List (Nat × Byte)) (base len : Nat) : List Byte :=
  (List.range len).map fun i => Memory.read m (base + i)

/-! ## The lines of the video buffers (R46, R53) -/

/-- The canonical form of the written lines: keys rising, no empty line. -/
abbrev Lines.wf (m : List (Nat × List Colour)) : Prop :=
  m.Pairwise (fun a b => a.1 < b.1) ∧ ∀ c ∈ m, c.2 ≠ []

/-- A line written over what the buffer held there: pixels beyond the new line's width stay (R46). -/
def Lines.write (key : Nat) (px : List Colour) : List (Nat × List Colour) → List (Nat × List Colour)
  | [] => if px = [] then [] else [(key, px)]
  | (k, old) :: rest =>
    if key < k then (if px = [] then (k, old) :: rest else (key, px) :: (k, old) :: rest)
    else if key = k then (k, px ++ old.drop px.length) :: rest
    else (k, old) :: Lines.write key px rest

/-- The pixel of a line, if a strip has written it. -/
def Lines.pixel (m : List (Nat × List Colour)) (key x : Nat) : Option Colour :=
  (m.find? fun c => c.1 = key).bind fun c => c.2[x]?

/-! ## Timers -/

/-- Whether a running count has reached a limit. -/
def reached (t : Option Nat) (limit : Nat) : Bool := (t.map fun t => decide (limit ≤ t)).getD false

/-! ## Addresses and the own capability word -/

/-- The own address as a byte (R189). -/
def own (s : State) : Byte := s.cl.ownAddress.setWidth 8

/-- The place of a node address 1..62 in a table of 62 entries (R172). -/
def nodeIndex (a : Byte) : Option (Fin 62) :=
  if h : 1 ≤ a.toNat ∧ a.toNat ≤ 62 then some ⟨a.toNat - 1, by omega⟩ else none

/-- The seed tag: the exclusive-or of the four bytes of the seed (R3). -/
def seedTag (seed : Seed) : Byte :=
  seed.extractLsb' 0 8 ^^^ seed.extractLsb' 8 8 ^^^ seed.extractLsb' 16 8 ^^^ seed.extractLsb' 24 8

/-- The own capability word (R3). -/
def ownWord (s : State) : CapWord :=
  { rates := ⟨true, true, true⟩, address := own s, role := .desk, seedTag := seedTag s.cl.seed }

/-- Symbols sent once by a port (R1). -/
def sendSymbols (p : Port) (l : List LineSymbol) (s : State) : State := s.setLineOut (s.lineOut ++ l.map fun x => (p, x))

/-- Whether the loader is in RUNNING (R189). -/
def running (s : State) : Bool := s.cl.loader = .running

/-- Whether a slot's node is present: its address is in the presence view (R136). -/
def nodePresent (s : State) (a : Byte) : Bool :=
  match nodeIndex a with
  | some i => s.cu.view[i]
  | none => false

/-- The entry index of the loaded stream entry that holds a stream id (R43). -/
def streamIndex (s : State) (id : Nat) : Option (Fin 32) :=
  findIndex (fun e => match e with | some e => e.content.id = id | none => false) s.sr.entries

/-- The loaded stream entry that holds a stream id. -/
def streamOf (s : State) (id : Nat) : Option StreamEntry :=
  (streamIndex s id).bind fun i => s.sr.entries[i]

end Sys2Proof.Machine
end

