-- ==== Sys2Proof/Machine/Operands.lean ====
section
/-! DEFINITION. Byte layouts of chapter 11: fields, the frame CRC, frames, ring payloads, records, table entries, area regions. -/

namespace Sys2Proof.Machine

open Sys2Proof

/-! ## Fields (R198) -/

/-- A two-byte field, most significant byte first. -/
def be16 (n : Nat) : List Byte := [BitVec.ofNat 8 (n / 256), BitVec.ofNat 8 n]

/-- A four-byte field, most significant byte first. -/
def be32 (v : BitVec 32) : List Byte :=
  [v.extractLsb' 24 8, v.extractLsb' 16 8, v.extractLsb' 8 8, v.extractLsb' 0 8]

/-- A one-byte field. -/
def byte (n : Nat) : Byte := BitVec.ofNat 8 n

/-- The byte at a place of a run; 0 past its end. -/
def byteAt (l : List Byte) (i : Nat) : Byte := l.getD i 0

/-- The number a byte of a run holds. -/
def at8 (l : List Byte) (i : Nat) : Nat := (byteAt l i).toNat

/-- The number two bytes of a run hold. -/
def at16 (l : List Byte) (i : Nat) : Nat := at8 l i * 256 + at8 l (i + 1)

/-- The value four bytes of a run hold. -/
def at32 (l : List Byte) (i : Nat) : BitVec 32 :=
  byteAt l i ++ byteAt l (i + 1) ++ byteAt l (i + 2) ++ byteAt l (i + 3)

/-- A colour of three bytes: red, green, blue. -/
def colourAt (l : List Byte) (i : Nat) : Colour := byteAt l i ++ byteAt l (i + 1) ++ byteAt l (i + 2)

/-- The three bytes of a colour. -/
def colourBytes (c : Colour) : List Byte := [c.extractLsb' 16 8, c.extractLsb' 8 8, c.extractLsb' 0 8]

/-- A yes-or-no value as a byte. -/
def flagByte (b : Bool) : Byte := if b then 1 else 0

/-- An optional field: 0 when absent, 1 and the field when present (R201). -/
def optBytes {α : Type} (f : α → List Byte) : Option α → List Byte
  | none => [0]
  | some a => 1 :: f a

/-! ## The CRC (R199) -/

/-- One bit enters the register: shift towards bit 31, and the generator where the bit shifted out differs from the entering one. -/
def crcBit (reg : BitVec 32) (b : Bool) : BitVec 32 :=
  if reg.msb != b then (reg <<< 1) ^^^ 0x04C11DB7#32 else reg <<< 1

/-- One byte enters the register, least significant bit first. -/
def crcByte (reg : BitVec 32) (b : Byte) : BitVec 32 :=
  (List.range 8).foldl (fun r i => crcBit r (b.getLsbD i)) reg

/-- The CRC of a run of bytes, the register started at `seed`. -/
def crc (seed : BitVec 32) (bytes : List Byte) : BitVec 32 := bytes.foldl crcByte seed

/-! ## Frames (R199) -/

def kindStrip : Byte := 1
def kindInput : Byte := 2
def kindClaim : Byte := 3
def kindMgmtReq : Byte := 4
def kindMgmtRsp : Byte := 5
def kindNotice : Byte := 6
def kindBeacon : Byte := 7

/-- The destination that addresses all nodes (00_scope.md 0.6). -/
def allNodes : Byte := 63

/-- Header and payload of a frame, over which its CRC runs. -/
def frameBody (f : Frame) : List Byte :=
  [f.kind, f.dest, f.origin, f.hop] ++ be16 f.payload.length ++ f.payload

/-- A frame as the ELP sends it, with the CRC over the bytes as sent (R3, R199). -/
def wireBytes (seed : Seed) (f : Frame) : List Byte := frameBody f ++ be32 (crc seed (frameBody f))

/-- The WLP's verdict on the bytes of a received frame, and the frame where it is good (R14). -/
def judgeFrame (seed : Seed) (bytes : List Byte) : Verdict × Option Frame :=
  if bytes.length < 6 ∨ bytes.length ≠ at16 bytes 4 + 10 then (.truncated, none)
  else if be32 (crc seed (bytes.take (bytes.length - 4))) = bytes.drop (bytes.length - 4) then
    (.good, some ⟨byteAt bytes 0, byteAt bytes 1, byteAt bytes 2, byteAt bytes 3, (bytes.drop 6).take (at16 bytes 4)⟩)
  else (.crcError, none)

/-! ## Codes -/

/-- Role codes (R200). -/
def Role.code : Role → Byte
  | .source => 1
  | .desk => 2
  | .management => 3

def roleOf (b : Byte) : Option Role :=
  if b = 1 then some .source else if b = 2 then some .desk else if b = 3 then some .management else none

/-- Level codes (R200). -/
def Level.code : Level → Byte
  | .view => 1
  | .shared => 2
  | .exclusive => 3

def levelOf (b : Byte) : Option Level :=
  if b = 1 then some .view else if b = 2 then some .shared else if b = 3 then some .exclusive else none

/-- Rate codes (R201). -/
def Rate.code : Rate → Byte
  | .full => 0
  | .half => 1
  | .quarter => 2

/-- Port state codes (R201). -/
def PortState.code : PortState → Byte
  | .disabled => 0
  | .silent => 1
  | .advertise => 2
  | .train => 3
  | .up => 4
  | .mismatch => 5

/-- Ring state codes (R200). -/
def RingState.code : RingState → Byte
  | .isolated => 0
  | .open => 1
  | .closed => 2

/-- Power state codes (R200). -/
def Power.code : Power → Byte
  | .active => 0
  | .standby => 1

/-- Stream state codes (R201). -/
def StreamState.code : StreamState → Byte
  | .blocked => 0
  | .waiting => 1
  | .live => 2
  | .stale => 3

/-- Save state codes (R201). -/
def SaveState.code : SaveState → Byte
  | .idle => 0
  | .writingLayout => 1
  | .writingDesk => 2

/-- Loader state codes (R201). -/
def Loader.code : Loader → Byte
  | .loading => 0
  | .running => 1

/-- Validity flag codes (R201). -/
def Validity.code : Validity → Byte
  | .notRead => 0
  | .valid => 1
  | .invalid => 2

/-- Protection level codes (R201). -/
def ProtLevel.code : ProtLevel → Byte
  | .open => 0
  | .writeLocked => 1
  | .readWriteLocked => 2

def protLevelOf (b : Byte) : Option ProtLevel :=
  if b = 0 then some .open else if b = 1 then some .writeLocked else if b = 2 then some .readWriteLocked else none

/-- Behaviour codes (R201). -/
def Behaviour.code : Behaviour → Byte
  | .off => 0
  | .on => 1
  | .slow => 2
  | .fast => 3

def behaviourOf (b : Byte) : Option Behaviour :=
  if b = 0 then some .off else if b = 1 then some .on else if b = 2 then some .slow else if b = 3 then some .fast else none

/-- Last outcome codes (R201). -/
def ClaimOutcome.code : ClaimOutcome → Byte
  | .none => 0
  | .granted => 1
  | .denied => 2
  | .revoked => 3
  | .timedOut => 4
  | .released => 5

/-- Button state codes (R201). -/
def ButtonLevel.code : ButtonLevel → Byte
  | .released => 0
  | .pressed => 1

/-- Desk record kind codes of a waking record (R200, R201). -/
def WakeKind.code : WakeKind → Byte
  | .keyDown => 1
  | .buttonPress => 2
  | .motion => 3
  | .wheel => 4

/-- Hot-key action codes (R201). -/
def HotAction.code : HotAction → Byte
  | .selectPreset => 0
  | .requestShared => 1
  | .requestExclusive => 2
  | .release => 3
  | .focusLock => 4
  | .nextWindow => 5
  | .standby => 6

def hotActionOf (b : Byte) : Option HotAction :=
  if b = 0 then some .selectPreset else if b = 1 then some .requestShared else if b = 2 then some .requestExclusive
  else if b = 3 then some .release else if b = 4 then some .focusLock else if b = 5 then some .nextWindow
  else if b = 6 then some .standby else none

/-- Event kind codes (R200). -/
def EventKind.code : EventKind → Nat
  | .ringState => 0
  | .linkDown => 1
  | .linkDownshift => 2
  | .linkMismatch => 3
  | .streamStale => 4
  | .streamLive => 5
  | .geometryMismatch => 6
  | .claimChange => 7
  | .claimTimeout => 8
  | .sourceAbsent => 9
  | .queueOverflow => 10
  | .poolExhausted => 11
  | .loadFault => 12
  | .saveDone => 13
  | .saveFault => 14
  | .wake => 15

/-- An event kind as a set of one. -/
def EventKind.bit (k : EventKind) : EventSet := 1#16 <<< EventKind.code k

/-! ## Ring payloads (R200) -/

/-- An input record of an INPUT frame. -/
def InputRecord.bytes : InputRecord → List Byte
  | .key u up => [1, u, flagByte up]
  | .position p b => [2] ++ be16 p.stream ++ be16 p.x ++ be16 p.y ++ [b.setWidth 8]
  | .wheel v h => [3, v, h]
  | .resync => [4]

/-- An INPUT payload. -/
def inputPayload (seq : Nat) (rs : List InputRecord) : List Byte :=
  [byte seq, byte rs.length] ++ rs.flatMap InputRecord.bytes

/-- A BEACON payload. -/
def beaconPayload (sol : Nat) (priority : Byte) (restart : Bool) (tag : Byte) : List Byte :=
  [Role.code .desk, byte sol, priority, flagByte restart, tag]

/-- A NOTICE payload. -/
def noticePayload (e : EventSet) (r : RingState) (p : Power) : List Byte :=
  be16 e.toNat ++ [RingState.code r, Power.code p]

/-- A CLAIM payload of this part: REQUEST carries the desk priority, RELEASE 0; neither names a holder. -/
def claimPayload (k : MsgKind) (l : Level) (priority : Byte) : List Byte :=
  match k with
  | .request => [1, Level.code l, priority, 0]
  | .release => [2, Level.code l, 0, 0]

/-- The pixels of a run of bytes, three bytes each. -/
def pixelsOf : List Byte → List Colour
  | r :: g :: b :: rest => (r ++ g ++ b) :: pixelsOf rest
  | _ => []

/-! ## Desk records (R112, R200) -/

/-- A record with a direction byte: 0 is DOWN or PRESS, 1 is UP or RELEASE, and no other value names a direction. -/
def byDirection (d : Byte) (down up rejected : Instr) : Instr := if d = 0 then down else if d = 1 then up else rejected

/-- The command that the five bytes of a desk record stand for: kind 1 KEY with usage and direction, 2 BUTTON with number and
direction, 3 MOTION with dx and dy, most significant byte first, 4 WHEEL with the vertical and the horizontal steps. A record that
names none of these, or a field out of range, is a rejected one. -/
def deskCommand (b0 b1 b2 b3 b4 : Byte) : Instr :=
  let rejected := Instr.deskRecordRejected b0 b1 b2 b3 b4
  if b0 = 1 then (if b1 ≠ 0 then byDirection b2 (.deskKeyDown b1) (.deskKeyUp b1) rejected else rejected)
  else if b0 = 2 then
    (if buttonInRange b1 then byDirection b2 (.deskButtonPress b1) (.deskButtonRelease b1) rejected else rejected)
  else if b0 = 3 then
    (if motionInRange (b1 ++ b2) ∧ motionInRange (b3 ++ b4) then .deskMotion (b1 ++ b2) (b3 ++ b4) else rejected)
  else if b0 = 4 then (if wheelInRange b1 ∧ wheelInRange b2 then .deskWheel b1 b2 else rejected)
  else rejected

/-- Whether the five bytes of a desk record name one of the four kinds with fields in range. -/
def deskRecordValid (b0 b1 b2 b3 b4 : Byte) : Bool := decide (deskCommand b0 b1 b2 b3 b4 ≠ .deskRecordRejected b0 b1 b2 b3 b4)

/-! ## Table entries (R201) -/

/-- A length-prefixed entry. -/
def entryBytes (content : List Byte) : List Byte := byte content.length :: content

/-- A head record's content, and its reading (DESK entries 1..4). -/
def headBytes (r : HeadRecord) : List Byte :=
  [flagByte r.enabled] ++ be16 r.width ++ be16 r.height ++ be16 r.ox ++ be16 r.oy ++ colourBytes r.background

def parseHead (l : List Byte) : Option HeadRecord :=
  if l.length = 12 ∧ at8 l 0 ≤ 1 then
    some ⟨at8 l 0 = 1, at16 l 1, at16 l 3, at16 l 5, at16 l 7, colourAt l 9⟩
  else none

/-- One window record of a list. The two stream id bytes are 0 where the stream id is absent (notes/assumptions/46.md). -/
def windowBytes (w : Window) : List Byte :=
  [byte w.id, flagByte w.stream.isSome ||| (flagByte w.input <<< 1) ||| (flagByte w.border <<< 2)] ++ be16 (w.stream.getD 0)
    ++ be16 w.sx ++ be16 w.sy ++ [byte w.d] ++ be16 w.x ++ be16 w.y ++ be16 w.w ++ be16 w.h ++ colourBytes w.fill

/-- The window record at the front of a run of 20 bytes. The two stream id bytes are read where flag bit 0 is set
(notes/assumptions/46.md). -/
def parseWindow (l : List Byte) : Window :=
  { id := at8 l 0, stream := if (byteAt l 1).getLsbD 0 then some (at16 l 2) else none, sx := at16 l 4, sy := at16 l 6,
    d := at8 l 8, x := at16 l 9, y := at16 l 11, w := at16 l 13, h := at16 l 15, fill := colourAt l 17,
    input := (byteAt l 1).getLsbD 1, border := (byteAt l 1).getLsbD 2 }

/-- A window list: the record count, then the records, bottom first. -/
def listBytes (ws : List Window) : List Byte := byte ws.length :: ws.flatMap windowBytes

/-- The windows of a list of `n` records. -/
def parseWindows : Nat → List Byte → List Window
  | 0, _ => []
  | n + 1, l => parseWindow (l.take 20) :: parseWindows n (l.drop 20)

/-- A window list's reading; none where the length is not that of its record count. -/
def parseList : List Byte → Option (List Window)
  | [] => none
  | n :: rest => if rest.length = 20 * n.toNat then some (parseWindows n.toNat rest) else none

/-- A directory slot's content. -/
def slotBytes (c : SlotContent) : List Byte := [c.addr, flagByte c.autoShare ||| (flagByte c.confine <<< 1)]

def parseSlot (l : List Byte) : Option SlotContent :=
  if l.length = 2 then some ⟨byteAt l 0, (byteAt l 1).getLsbD 0, (byteAt l 1).getLsbD 1⟩ else none

/-- The nine bytes a stream entry is written with. -/
def streamBytes (c : StreamContent) : List Byte :=
  be16 c.id ++ [byte c.slot.val] ++ be16 c.width ++ be16 c.height ++ be16 c.stale

/-- A hot-key entry's content. -/
def hotKeyBytes (k : HotKey) : List Byte := [k.mods, k.usage, HotAction.code k.action, k.arg]

/-- A capability word inside STATUS: rate set, address, role, seed tag (notes/assumptions/24.md). -/
def capBytes (w : CapWord) : List Byte :=
  [flagByte w.rates.full ||| (flagByte w.rates.half <<< 1) ||| (flagByte w.rates.quarter <<< 2), w.address, Role.code w.role,
    w.seedTag]

/-- The entries of a run of bytes, each a length byte and its content; an entry that runs past the end, and every entry after
it, is none (R202). The rest is what follows the last entry. -/
def takeEntries : Nat → List Byte → List (Option (List Byte)) × Option (List Byte)
  | 0, l => ([], some l)
  | n + 1, [] => (List.replicate (n + 1) none, none)
  | n + 1, len :: rest =>
    if len.toNat ≤ rest.length then
      let r := takeEntries n (rest.drop len.toNat)
      (some (rest.take len.toNat) :: r.1, r.2)
    else (List.replicate (n + 1) none, none)

/-! ## Area regions (R202) -/

def deskBase : Nat := 16
def deskLen : Nat := 1516
def layoutBase : Nat := 1536
def layoutLen : Nat := 6652

/-- The header: format mark 46443136h, format version 1, eleven zero bytes. -/
def headerBytes : List Byte := be32 0x46443136#32 ++ [1] ++ List.replicate 11 0

/-- An area as a save writes it: its content, zero fill, and the CRC with the register started at FFFFFFFFh. -/
def areaBytes (len : Nat) (content : List Byte) : List Byte :=
  let body := (content ++ List.replicate (len - content.length) 0).take len
  body ++ be32 (crc 0xFFFFFFFF#32 body)

end Sys2Proof.Machine
end

