-- ==== Sys2Proof/Machine/Ring.lean ====
section
/-! DEFINITION. The ring forwarder's queues, arbiter, beacons and ring state (R26 to R35, R39, R40). -/

namespace Sys2Proof.Machine

open Sys2Proof

/-! ## The transmit arbiter (R31, R32) -/

/-- The head of the insertion queue begins to be sent. Where it is a RESET's response, the soft reset begins (R179). -/
def beginInsertion (e : InsEntry) (rest : List InsEntry) (s : State) : State :=
  let s := s.setRf { s.rf with insQ := rest, sending := some ⟨e.frame, .insertion⟩, share := 0 }
  if e.resetResponse then s.setMu { s.mu with resetDue := true } else s

/-- The arbiter's choice, made when the ELP in UP can begin a frame (R31). -/
def arbitrate (s : State) : State :=
  if s.elp.state = .up ∧ s.rf.sending = none then
    match s.rf.passQ, s.rf.insQ with
    | [], [] => s
    | f :: fs, [] => s.setRf { s.rf with passQ := fs, sending := some ⟨f, .passThrough⟩, share := 0 }
    | [], e :: es => beginInsertion e es s
    | f :: fs, e :: es =>
      if s.rf.share < 8 then
        s.setRf { s.rf with passQ := fs, sending := some ⟨f, .passThrough⟩, share := s.rf.share + 1 }
      else beginInsertion e es s
  else s

/-! ## The insertion queue (R29) -/

/-- The frame as it enters the insertion queue: origin the own address, hop count 63. -/
def stamp (s : State) (f : Frame) : Frame := { f with origin := own s, hop := 63 }

/-- A producer offers a frame: appended where the queue holds fewer than 12, refused and counted otherwise. -/
def offerInsertion (e : InsEntry) (s : State) : Bool × State :=
  if s.rf.insQ.length < 12 then
    (true, arbitrate (s.setRf { s.rf with insQ := s.rf.insQ ++ [{ e with frame := stamp s e.frame }] }))
  else (false, s.setRf { s.rf with c := { s.rf.c with insFull := bump s.rf.c.insFull } })

/-! ## Forwarding (R26 to R28) -/

/-- The queue with its oldest STRIP taken out, if it holds one (R27). -/
def dropOldestStrip : List Frame → Option (List Frame)
  | [] => none
  | f :: fs => if f.kind = kindStrip then some fs else (dropOldestStrip fs).map (f :: ·)

/-- A frame is forwarded: appended, or decided by R27 at a full queue, or discarded while the ELP is not UP (R28). -/
def forward (f : Frame) (s : State) : State :=
  if s.elp.state ≠ .up then s.setRf { s.rf with c := { s.rf.c with noEgress := bump s.rf.c.noEgress } }
  else if s.rf.passQ.length < 8 then arbitrate (s.setRf { s.rf with passQ := s.rf.passQ ++ [f] })
  else if f.kind = kindStrip then
    s.setRf { s.rf with c := { s.rf.c with stripOverflow := bump s.rf.c.stripOverflow } }
  else
    match dropOldestStrip s.rf.passQ with
    | some q => s.setRf { s.rf with passQ := q ++ [f], c := { s.rf.c with stripDisplaced := bump s.rf.c.stripDisplaced } }
    | none => s.setRf { s.rf with c := { s.rf.c with overflow := bump s.rf.c.overflow } }

/-- The ELP has left UP: the pass-through queue is emptied and counted, a frame being sent is cut off and counted, the share
count clears and the beacon generator stops (R28, R32, R33). -/
def egressLost (s : State) : State :=
  let cut := if s.rf.sending.isSome then 1 else 0
  s.setRf { s.rf with
    passQ := [], sending := none, share := 0, beaconTimer := none,
    c := { s.rf.c with noEgress := bumpBy (s.rf.passQ.length + cut) s.rf.c.noEgress } }

/-! ## Beacons (R33 to R35) -/

/-- The sign-of-life after `n` (R34). -/
def nextSol (n : Nat) : Nat := if n < 63 then n + 1 else 1

/-- The beacon frame the generator offers (R34). -/
def beaconFrame (s : State) : Frame :=
  ⟨kindBeacon, allNodes, own s, 63, beaconPayload s.rf.sol s.desk.priority s.rf.restart (seedTag s.cl.seed)⟩

/-- One beacon is generated and offered: appended, it takes its number and clears RESTART; refused, it is skipped. -/
def generateBeacon (s : State) : State :=
  match offerInsertion ⟨beaconFrame s, false⟩ s with
  | (true, t) => t.setRf { t.rf with sol := nextSol t.rf.sol, restart := false }
  | (false, t) => t.setRf { t.rf with c := { t.rf.c with beaconsSkipped := bump t.rf.c.beaconsSkipped } }

/-- One beacon, and the beacon timer started with the period in force (R33). -/
def beaconTick (s : State) : State :=
  let s := generateBeacon s
  s.setRf { s.rf with beaconTimer := some ⟨0, s.desk.beaconPeriod⟩ }

/-- The beacon generator starts where the ELP is UP and the loader in RUNNING (R33). -/
def startBeacons (s : State) : State := if s.elp.state = .up ∧ running s then beaconTick s else s

/-! ## Ring closure and ring state (R39, R40) -/

/-- Whether the own entry is present. -/
def ownPresent (s : State) : Bool :=
  match nodeIndex (own s) with
  | some i => s.rf.presence[i].present
  | none => false

/-- The closure timer stops and the own entry becomes not present (R39). -/
def endClosure (s : State) : State :=
  match nodeIndex (own s) with
  | some i =>
    s.setRf { s.rf with closure := none, presence := s.rf.presence.set i { s.rf.presence[i] with present := false } }
  | none => s.setRf { s.rf with closure := none }

/-- The ring state that the ports and the own entry give (R40). -/
def derivedRing (s : State) : RingState :=
  if s.wlp.state = .up ∧ s.elp.state = .up ∧ ownPresent s then .closed
  else if s.wlp.state = .up ∨ s.elp.state = .up then .open
  else .isolated

end Sys2Proof.Machine
end

