-- ==== Sys2Proof/Machine/Flags.lean ====
section
/-! DEFINITION. The event set and the notices (R182 to R185), the offers of the management unit (R170), and the ring state's
event (R40). -/

namespace Sys2Proof.Machine

open Sys2Proof

/-- A response has been appended: counted, and the request leaves work, but a RESET's stays until its soft reset begins,
at once where the ELP is not UP (R170, R179). -/
def responseAppended (e : InsEntry) (s : State) : State :=
  let s := s.setMu { s.mu with c := { s.mu.c with responses := bump s.mu.c.responses } }
  if e.resetResponse then
    s.setMu { s.mu with work := s.mu.work.map fun w => { w with resetQueued := true },
                        resetDue := s.mu.resetDue || decide (s.elp.state ≠ .up) }
  else s.setMu { s.mu with work := none }

/-- A notice has been appended: counted, and the interval starts (R184). -/
def noticeAppended (s : State) : State :=
  s.setMu { s.mu with interval := some 0, c := { s.mu.c with notices := bump s.mu.c.notices } }

/-- The NOTICE frame as built now (R184). -/
def noticeFrame (s : State) : Frame :=
  ⟨kindNotice, s.desk.noticeTarget, own s, 63, noticePayload s.mu.events s.rf.ring s.pu.power⟩

/-- A due notice is built and offered where the interval is not running and the MU has no frame on offer; otherwise it stays
due (R170, R184). -/
def tryNotice (s : State) : State :=
  if s.mu.due ∧ s.mu.interval = none ∧ s.mu.offer = none ∧ ¬ s.mu.resetDue then
    let e : InsEntry := ⟨noticeFrame s, false⟩
    match offerInsertion e (s.setMu { s.mu with due := false }) with
    | (true, t) => noticeAppended t
    | (false, t) => t.setMu { t.mu with offer := some ⟨e, true⟩ }
  else s

/-- A notice becomes due, unless the target is 0 or the loader is in LOADING (R184). -/
def makeDue (s : State) : State :=
  if s.desk.noticeTarget ≠ 0 ∧ running s then tryNotice (s.setMu { s.mu with due := true }) else s

/-- Whether the pending set holds an unmasked kind (R183, R184). -/
def unmaskedPending (s : State) : Bool := decide (s.mu.events &&& ~~~s.mu.mask ≠ 0)

/-- A block raises an event kind: it enters the pending set, and a new unmasked kind makes a notice due (R182, R184). -/
def raise (k : EventKind) (s : State) : State :=
  let fresh := s.mu.events &&& EventKind.bit k = 0
  let t := s.setMu { s.mu with events := s.mu.events ||| EventKind.bit k }
  if fresh ∧ s.mu.mask &&& EventKind.bit k = 0 then makeDue t else t

/-- A built response is offered, or waits behind a notice kept on offer (R170). -/
def offerResponse (e : InsEntry) (s : State) : State :=
  if s.mu.offer.isSome then s.setMu { s.mu with waiting := some e }
  else
    match offerInsertion e s with
    | (true, t) => tryNotice (responseAppended e t)
    | (false, t) => t.setMu { t.mu with offer := some ⟨e, false⟩ }

/-- The ring state is derived anew, and a change raises RING_STATE (R40). -/
def deriveRing (s : State) : State :=
  if derivedRing s = s.rf.ring then s else raise .ringState (s.setRf { s.rf with ring := derivedRing s })

/-- What follows a port's departure from UP, the port's state having been changed: LINK_DOWN, the end of the closure and the
new ring state, which is in force before either event is raised (R16, R39, R40, notes/assumptions/15.md). -/
def afterLeavingUp (s : State) : State :=
  let s := endClosure s
  let changed := derivedRing s ≠ s.rf.ring
  let s := raise .linkDown (s.setRf { s.rf with ring := derivedRing s })
  if changed then raise .ringState s else s

end Sys2Proof.Machine
end

