-- ==== Sys2Proof/Machine/Link.lean ====
section
/-! DEFINITION. The operations of the two link ports (chapter 1). -/

namespace Sys2Proof.Machine

open Sys2Proof

/-- Whether a partner's word is accepted (R4). -/
def accepts (s : State) (w : CapWord) : Bool :=
  w.seedTag = seedTag s.cl.seed && w.address ≠ own s && nodeInRange w.address && w.rates.nonempty

/-- The trial rate: the highest common class not above the ceiling, or else the lowest common class (R9). -/
def trialRate (partner : RateSet) (ceiling : Rate) : Rate :=
  let common := [Rate.full, Rate.half, Rate.quarter].filter (rateIn partner)
  match common.find? fun r => Rate.rank r ≤ Rate.rank ceiling with
  | some r => r
  | none => common.getLastD .quarter

/-- The rate set of the partner record; the empty set where it is absent. -/
def partnerRates (p : Option CapWord) : RateSet := (p.map (·.rates)).getD ⟨false, false, false⟩

/-- The ELP begins a trial at a rate: CAP, TRIAL, and the window opens (R9). -/
def beginTrialAt (r : Rate) (s : State) : State :=
  sendSymbols .east [.cap (ownWord s), .trial r] (s.setElp { s.elp with state := .train, trial := some ⟨r, 0⟩ })

/-- The ELP begins a trial at the rate of R9. -/
def beginTrial (s : State) : State := beginTrialAt (trialRate (partnerRates s.elp.partner) s.elp.ceiling) s

/-- What follows the ELP's departure from UP (R16, R28, R32, R33, R179). -/
def elpLeft (s : State) : State :=
  let s := s.setElp { s.elp with linkDown := bump s.elp.linkDown }
  let s := egressLost s
  let s := if (s.mu.work.map (·.resetQueued)).getD false then s.setMu { s.mu with resetDue := true } else s
  afterLeavingUp s

/-- What follows the WLP's departure from UP; a frame cut off by it is counted as truncated (R14, R16). -/
def wlpLeft (rxMid : Bool) (s : State) : State :=
  let cut := if rxMid then bump s.wlp.truncated else s.wlp.truncated
  afterLeavingUp (s.setWlp { s.wlp with linkDown := bump s.wlp.linkDown, truncated := cut })

/-! ## Energy (R6, R17) -/

/-- A port finds energy. -/
def energyFound (p : Port) (s : State) : State :=
  match p with
  | .west =>
    if s.wlp.state = .silent then s.setWlp { s.wlp with energy := true, silence := none, state := .advertise }
    else s.setWlp { s.wlp with energy := true }
  | .east =>
    if s.elp.state = .silent then s.setElp { s.elp with energy := true, silence := none, state := .advertise }
    else s.setElp { s.elp with energy := true }

/-- Entry to SILENT from DISABLED: ADVERTISE at once where energy is already present (R5, R6). -/
def enterService (p : Port) (s : State) : State :=
  match p with
  | .west =>
    if s.wlp.energy then s.setWlp { s.wlp with state := .advertise, silence := none }
    else s.setWlp { s.wlp with state := .silent, silence := some 0 }
  | .east =>
    if s.elp.energy then s.setElp { s.elp with state := .advertise, silence := none }
    else s.setElp { s.elp with state := .silent, silence := some 0 }

/-- A port finds energy lost (R17). -/
def energyGone (p : Port) (rxMid : Bool) (s : State) : State :=
  match p with
  | .west =>
    let t := s.setWlp { s.wlp with energy := false }
    match s.wlp.state with
    | .disabled | .silent => t
    | .advertise | .train | .mismatch | .up =>
      let t := t.setWlp { t.wlp with state := .silent, partner := none, silence := some 0, target := none, locked := false,
                                     badFrames := 0 }
      if s.wlp.state = .up then wlpLeft rxMid t else t
  | .east =>
    let t := s.setElp { s.elp with energy := false }
    match s.elp.state with
    | .disabled | .silent => t
    | .advertise | .train | .mismatch | .up =>
      let t := t.setElp { t.elp with state := .silent, partner := none, silence := some 0, trial := none }
      if s.elp.state = .up then elpLeft t else t

/-- The energy-loss timer of a port expires (R6). -/
def silenceExpired (p : Port) (s : State) : State :=
  match p with
  | .west =>
    if s.wlp.state = .silent ∧ s.wlp.silence.isSome then s.setWlp { s.wlp with silence := none, agreed := none } else s
  | .east =>
    if s.elp.state = .silent ∧ s.elp.silence.isSome then
      s.setElp { s.elp with silence := none, agreed := none, ceiling := .full, attempts := 0 }
    else s

/-! ## Capability words (R7, R8, R12, R13, R16, R18) -/

/-- The WLP waits in TRAIN for the leader's next TRIAL (R13). -/
def wlpWaits (s : State) : State := s.setWlp { s.wlp with state := .train, target := none, locked := false }

/-- The WLP enters MISMATCH, holding no lock. -/
def wlpMismatch (s : State) : State := s.setWlp { s.wlp with state := .mismatch, target := none, locked := false }

/-- The WLP takes a CAP. A departure from UP for MISMATCH raises LINK_MISMATCH last (notes/assumptions/15.md). -/
def wlpCap (w : CapWord) (rxMid : Bool) (s : State) : State :=
  let t := s.setWlp { s.wlp with partner := some w }
  match s.wlp.state with
  | .disabled | .silent => s
  | .advertise => if accepts s w then wlpWaits t else raise .linkMismatch (wlpMismatch t)
  | .train =>
    if s.wlp.partner = some w then s
    else if accepts s w then wlpWaits t else raise .linkMismatch (wlpMismatch t)
  | .up =>
    if s.wlp.partner = some w then s
    else if accepts s w then wlpLeft rxMid (wlpWaits t) else raise .linkMismatch (wlpLeft rxMid (wlpMismatch t))
  | .mismatch =>
    if s.wlp.partner = some w then s else if accepts s w then wlpWaits t else t

/-- The ELP enters MISMATCH, its trial abandoned. -/
def elpMismatch (s : State) : State := s.setElp { s.elp with state := .mismatch, trial := none }

/-- The ELP takes a CAP. A departure from UP for MISMATCH raises LINK_MISMATCH last (notes/assumptions/15.md). -/
def elpCap (w : CapWord) (s : State) : State :=
  let t := s.setElp { s.elp with partner := some w }
  match s.elp.state with
  | .disabled | .silent => s
  | .advertise => if accepts s w then beginTrial t else raise .linkMismatch (elpMismatch t)
  | .train =>
    if s.elp.partner = some w then s
    else if accepts s w then beginTrial t else raise .linkMismatch (elpMismatch t)
  | .up =>
    if s.elp.partner = some w then s
    else if accepts s w then elpLeft (beginTrial t) else raise .linkMismatch (elpLeft (elpMismatch t))
  | .mismatch =>
    if s.elp.partner = some w then s else if accepts s w then beginTrial t else t

/-- Whether a port's partner record is accepted by the word now in force (R18). -/
def recordAccepted (s : State) (p : Option CapWord) : Bool :=
  match p with
  | some w => accepts s w
  | none => false

/-- The WLP after a change of the own word (R18). A departure from UP for MISMATCH raises LINK_MISMATCH last (notes/assumptions/15.md). -/
def wlpOwnWord (rxMid : Bool) (s : State) : State :=
  let ok := recordAccepted s s.wlp.partner
  match s.wlp.state with
  | .disabled | .silent | .advertise => s
  | .train =>
    let s := sendSymbols .west [.cap (ownWord s)] s
    if ok then wlpWaits s else raise .linkMismatch (wlpMismatch s)
  | .up =>
    let s := sendSymbols .west [.cap (ownWord s)] s
    if ok then wlpLeft rxMid (wlpWaits s) else raise .linkMismatch (wlpLeft rxMid (wlpMismatch s))
  | .mismatch =>
    let s := sendSymbols .west [.cap (ownWord s)] s
    if ok then wlpWaits s else s

/-- The ELP after a change of the own word (R18). A departure from UP for MISMATCH raises LINK_MISMATCH last (notes/assumptions/15.md). -/
def elpOwnWord (s : State) : State :=
  let ok := recordAccepted s s.elp.partner
  match s.elp.state with
  | .disabled | .silent | .advertise => s
  | .train =>
    let s := sendSymbols .east [.cap (ownWord s)] s
    if ok then beginTrial s else raise .linkMismatch (elpMismatch s)
  | .up =>
    let s := sendSymbols .east [.cap (ownWord s)] s
    if ok then elpLeft (beginTrial s) else raise .linkMismatch (elpLeft (elpMismatch s))
  | .mismatch =>
    let s := sendSymbols .east [.cap (ownWord s)] s
    if ok then beginTrial s else s

/-! ## Training (R9 to R11, R13) -/

/-- The WLP takes a TRIAL: it drops its lock and sets its receiver to lock at the named rate, leaving UP if it was UP. -/
def wlpTrial (r : Rate) (rxMid : Bool) (s : State) : State :=
  let t := s.setWlp { s.wlp with state := .train, target := some r, locked := false }
  match s.wlp.state with
  | .train => t
  | .up => wlpLeft rxMid t
  | .disabled | .silent | .advertise | .mismatch => s

/-- The WLP takes GO while locked (R13). -/
def wlpGo (s : State) : State :=
  if s.wlp.state = .train ∧ s.wlp.locked ∧ s.wlp.target.isSome then
    deriveRing (s.setWlp { s.wlp with state := .up, agreed := s.wlp.target, badFrames := 0 })
  else s

/-- The ELP takes a LOCK (R10). The arbiter makes its choice at the entry to UP, and the beacon generator starts. -/
def elpLock (r : Rate) (s : State) : State :=
  if s.elp.state = .train ∧ s.elp.trial.map (·.rate) = some r then
    let s := s.setElp { s.elp with state := .up, trial := none, agreed := some r, attempts := 0 }
    deriveRing (startBeacons (arbitrate (sendSymbols .east [.go] s)))
  else s

/-- A failed trial at rate `r`: the attempt counter, and the downshift (R11). -/
def trialFailed (r : Rate) (s : State) : State :=
  if s.elp.attempts + 1 < s.desk.downshift then s.setElp { s.elp with attempts := s.elp.attempts + 1 }
  else
    match Rate.below r with
    | some b =>
      if Rate.rank b < Rate.rank s.elp.ceiling then
        raise .linkDownshift (s.setElp { s.elp with attempts := 0, ceiling := b })
      else s.setElp { s.elp with attempts := 0 }
    | none => s.setElp { s.elp with attempts := 0 }

/-- The ELP in UP takes RETRAIN: a retrain trial at the agreed rate (R15). -/
def elpRetrain (s : State) : State :=
  if s.elp.state = .up then elpLeft (beginTrialAt (s.elp.agreed.getD .quarter) s) else s

/-- A port in UP loses receiver lock and leaves for ADVERTISE; in TRAIN the WLP stops sending LOCK (R16). -/
def lockLost (p : Port) (rxMid : Bool) (s : State) : State :=
  match p with
  | .west =>
    if s.wlp.state = .up then
      wlpLeft rxMid (sendSymbols .west [.loss]
        (s.setWlp { s.wlp with state := .advertise, partner := none, target := none, locked := false }))
    else s.setWlp { s.wlp with locked := false }
  | .east =>
    if s.elp.state = .up then elpLeft (s.setElp { s.elp with state := .advertise, partner := none }) else s

/-- The error burst: RETRAIN is sent, the count clears and the WLP leaves UP for TRAIN (R15). -/
def errorBurst (rxMid : Bool) (s : State) : State :=
  if s.wlp.state = .up ∧ s.wlp.badFrames = 16 then
    wlpLeft rxMid (wlpWaits (sendSymbols .west [.retrain] (s.setWlp { s.wlp with badFrames := 0 })))
  else s

end Sys2Proof.Machine
end

