-- ==== Sys2Proof/Machine/Reset.lean ====
section
/-! DEFINITION. Power-on reset and soft reset (R5, R20, R30, R42, R63, R87, R111, R135, R155, R168, R188, R189, R193, R196, R197). -/

namespace Sys2Proof.Machine

open Sys2Proof

/-- The cells of the serial memory replaced. -/
def writeCells (base : Nat) (bytes : List Byte) (s : State) : State :=
  s.setSerial { s.serial with cells := Memory.write s.serial.cells base bytes }

/-- A save that a reset cuts short leaves the area being written with a bad CRC (R196). Whether the header had been written by then is
a free value; a header not yet written stands as it was before the save, good or bad (notes/assumptions/7.md). -/
def abandonSave (s : State) : State :=
  match s.cl.save with
  | .idle => s
  | .writingLayout =>
    let t := (s.setSerial { s.serial with layoutBad := true }).setFree (s.free + 1)
    if Config.headerRewritten s.free then
      let t := writeCells 0 headerBytes t
      t.setSerial { t.serial with headerBad := false }
    else t
  | .writingDesk => s.setSerial { s.serial with deskBad := true }

/-- Power-on reset: every block takes its power-on state, the straps are sampled, the loader enters LOADING (R189). What stands
outside the part stays: the energy on the lines, the serial memory, and the waiting commands. -/
def powerOn (loadSel : Bool) (straps : BitVec 6) (s : State) : State :=
  let s := abandonSave s
  { s with
    wlp := { wlpStart with energy := s.wlp.energy }, elp := { elpStart with energy := s.elp.energy }, rf := rfStart,
    sr := srStart [], cp := cpStart, fu := fuStart, iu := iuStart, cu := cuStart, pu := puStart, mu := muStart,
    cl := clStart loadSel straps, desk := deskDefault, free := s.free + 1 }

/-- The ring forwarder after a soft reset; its ring state is derived afterwards (R42). -/
def rfSoft (r : Rf) : Rf :=
  { rfStart with passQ := r.passQ, sending := r.sending, share := r.share }

/-- Soft reset (R193): every block returns to its start state but for the links and the pass-through path. The DESK settings,
head records, palette and lamp table stand until the load replaces them (notes/assumptions/26.md). -/
def softReset (s : State) : State :=
  let s := abandonSave s
  let s := { s with
    wlp := { s.wlp with linkDown := 0, crcErrors := 0, truncated := 0 }, elp := { s.elp with linkDown := 0 },
    rf := rfSoft s.rf, sr := srStart s.sr.lines, cp := { cpStart with heads := s.cp.heads, palette := s.cp.palette },
    fu := fuStart, iu := iuStart, cu := cuStart, pu := { puStart with lamps := s.pu.lamps }, mu := muStart,
    cl := { s.cl with loader := .loading, cold := false, save := .idle, snapshot := none } }
  s.setRf { s.rf with ring := derivedRing s }

/-- The end of a step: the soft reset that the step brought about begins within it (R179, R193). -/
def finish (s : State) : State := if s.mu.resetDue then softReset s else s

/-- What a command answers with. -/
abbrev Result := Host.Outcome State Fault Refusal

/-- A command is complete: the next state is the one it left, ended as every step ends. -/
def completed (s : State) : Result := .next (finish s)

end Sys2Proof.Machine
end

