-- ==== Sys2Proof/Machine/Focus.lean ====
section
/-! DEFINITION. The outbound queues and the INPUT frame builder (R125 to R133), and the focus unit (chapter 5). The functions of
the focus unit that append records take the append as an argument, because an overflow may end drag capture and so lead back to
the focus unit once (R130 step 5). -/

namespace Sys2Proof.Machine

open Sys2Proof

/-! ## The INPUT frame builder (R132, R133) -/

/-- The slots in the order of the builder's search: from the slot after the round-robin pointer, ending with its own. -/
def serveOrder (rr : Fin 16) : List (Fin 16) := (List.finRange 16).map fun i => rr + 1 + i

/-- The slot the builder serves next: loaded, with a queue that is not empty. -/
def nextServed (s : State) : Option (Fin 16) :=
  (serveOrder s.iu.rr).find? fun i => s.cu.slots[i].isSome && !s.iu.queues[i].isEmpty

/-- The node address of a slot, 0 where it is EMPTY. -/
def slotAddr (s : State) (i : Fin 16) : Byte := (s.cu.slots[i].map (·.content.addr)).getD 0

/-- The INPUT frame for a slot: up to 8 records from its queue's head. -/
def inputFrame (i : Fin 16) (s : State) : Frame :=
  ⟨kindInput, slotAddr s i, own s, 63, inputPayload s.iu.seqs[i] (s.iu.queues[i].take 8)⟩

/-- The input unit with that frame built: records taken, sequence advanced, pointer moved, counted. -/
def builtFrom (i : Fin 16) (s : State) : State :=
  s.setIu { s.iu with
    queues := s.iu.queues.set i (s.iu.queues[i].drop 8), seqs := s.iu.seqs.set i (nextSol s.iu.seqs[i]), rr := i,
    c := { s.iu.c with framesBuilt := bump s.iu.c.framesBuilt } }

/-- The builder builds at once while it holds no frame and a loaded slot's queue is not empty. An accepted offer lets it build
the next; the insertion queue refuses the fourteenth at the latest, so `n` need be no more. -/
def pumpBuilder : Nat → State → State
  | 0, s => s
  | n + 1, s =>
    if s.iu.held.isSome then s
    else
      match nextServed s with
      | none => s
      | some i =>
        match offerInsertion ⟨inputFrame i s, false⟩ (builtFrom i s) with
        | (true, t) => pumpBuilder n t
        | (false, t) => t.setIu { t.iu with held := some (inputFrame i s) }

/-- The bound of `pumpBuilder`. -/
def pumpBound : Nat := 14

/-! ## Appends to an outbound queue (R127, R128, R130) -/

/-- The queue with a POSITION coalesced into its tail, where R128 allows. -/
def coalesce (q : List InputRecord) (r : InputRecord) : Option (List InputRecord) :=
  match q.getLast?, r with
  | some (.position p b), .position p' b' =>
    if p.stream = p'.stream ∧ b = b' then some (q.dropLast ++ [.position p' b']) else none
  | _, _ => none

/-- Whether any button is owned: drag capture holds (R100). -/
def anyOwned (s : State) : Bool := s.iu.owners.toList.any Option.isSome

/-- The owners without those that name a slot. -/
def dropOwners (i : Fin 16) (o : Vector (Option (Fin 16)) 5) : Vector (Option (Fin 16)) 5 :=
  mapTable (fun x => if x = some i then none else x) o

/-- The set of buttons a slot owns. -/
def ownedBy (i : Fin 16) (s : State) : BitVec 5 :=
  (List.finRange 5).foldl (fun b k => if s.iu.owners[k] = some i then b ||| (1#5 <<< k.val) else b) 0

/-- The overflow of a slot's queue, `n` records discarded (R130). -/
def overflow (i : Fin 16) (n : Nat) (s : State) : State :=
  raise .queueOverflow (s.setIu { s.iu with
    queues := s.iu.queues.set i [.resync], keys := s.iu.keys.filter fun k => k.2 ≠ i, owners := dropOwners i s.iu.owners,
    c := { s.iu.c with overflows := bump s.iu.c.overflows, overflowDiscards := bumpBy n s.iu.c.overflowDiscards } })

/-- A record is appended to a slot's queue: coalesced, added, or the queue overflows; then the builder builds where it can. -/
def appendRecord (i : Fin 16) (r : InputRecord) (s : State) : State :=
  let q := s.iu.queues[i]
  let s :=
    match coalesce q r with
    | some q' => s.setIu { s.iu with queues := s.iu.queues.set i q' }
    | none =>
      if q.length < 24 then s.setIu { s.iu with queues := s.iu.queues.set i (q ++ [r]) }
      else overflow i (q.length + 1) s
  pumpBuilder pumpBound s

/-! ## Release synthesis (R125) -/

/-- The key-ups of a slot's entries, oldest first. An overflow removes the remaining entries and so ends them. -/
def synthKeys : Nat → Fin 16 → State → State
  | 0, _, s => s
  | n + 1, a, s =>
    match s.iu.keys.find? fun k => k.2 = a with
    | none => s
    | some k =>
      synthKeys n a (appendRecord a (.key k.1 true) (s.setIu { s.iu with keys := s.iu.keys.erase k }))

/-- Release synthesis for a slot. -/
def synthesis (a : Fin 16) (s : State) : State :=
  let s := synthKeys s.iu.keys.length a s
  if ownedBy a s = 0 then s
  else
    let s :=
      match s.fu.reported with
      | some p => appendRecord a (.position p 0) s
      | none => s
    s.setIu { s.iu with owners := dropOwners a s.iu.owners }

/-! ## Hit test (R89, R91, R92) -/

/-- Whether a run of `len` from `lo` contains a coordinate. -/
def within (lo len : Nat) (v : Int) : Bool := decide ((lo : Int) ≤ v) && decide (v < (lo : Int) + len)

/-- Whether a head record's desk rectangle contains a point (R66). -/
def headContains (r : HeadRecord) (x y : Int) : Bool := within r.ox r.width x && within r.oy r.height y

/-- The enabled head that contains a desk point (R91). -/
def headAt (s : State) (x y : Int) : Option (Fin 4) := findIndex (fun r => r.enabled && headContains r x y) s.cp.heads

/-- Whether a window's destination contains a head pixel (R79). -/
def winContains (w : Window) (px py : Int) : Bool := within w.x w.w px && within w.y w.h py

/-- The window that owns a head pixel: the last that contains it (R79). -/
def ownerAt (ws : List Window) (px py : Int) : Option Window := ws.reverse.find? fun w => winContains w px py

/-- The hit test (R91). -/
def hitTest (s : State) (x y : Int) : Option (Fin 4 × Window) :=
  match headAt s x y with
  | none => none
  | some h => (ownerAt s.cp.active[h] (x - s.cp.heads[h].ox) (y - s.cp.heads[h].oy)).map fun w => (h, w)

/-- The source slot of a window's loaded stream (R92). -/
def windowSlot (s : State) (w : Window) : Option (Fin 16) :=
  (w.stream.bind (streamOf s)).map fun e => e.content.slot

/-- Whether a slot takes input: SHARED or EXCLUSIVE with its node present (R92). In STANDBY nothing is focusable, also while the
releases of the entry are still under way (R107, R112, notes/assumptions/16.md). -/
def slotTakesInput (s : State) (i : Fin 16) : Bool :=
  match s.cu.slots[i] with
  | some k => decide (s.pu.power = .active) && decide (k.held ≠ .view) && nodePresent s k.content.addr
  | none => false

/-- The slot of a focusable window (R92). -/
def focusable (s : State) (w : Window) : Option (Fin 16) :=
  if w.input then (windowSlot s w).filter (slotTakesInput s) else none

/-- A focus target: a focusable window found, or none. -/
def asTarget (s : State) (hit : Option (Fin 4 × Window)) : Option Focus :=
  hit.bind fun hw => (focusable s hw.2).map fun k => ⟨k, hw.1, hw.2.id⟩

/-- The target the hit test gives at the pointer. -/
def targetAtPointer (s : State) : Option Focus := asTarget s (hitTest s s.fu.x s.fu.y)

/-- The focus window's record in its head's active list (R93). -/
def windowOf (s : State) (f : Focus) : Option Window := s.cp.active[f.head].find? fun w => w.id = f.win

/-! ## Focus change (R94) -/

/-- A focus change. Release synthesis comes first when a slot loses focus. -/
def changeFocus (target : Option Focus) (s : State) : State :=
  match s.fu.focus, target with
  | none, none => s
  | none, some t => s.setFu { s.fu with focus := some t, last := some t.slot, accum := 0 }
  | some f, some t =>
    if f.slot = t.slot then s.setFu { s.fu with focus := some t }
    else
      let s := synthesis f.slot s
      s.setFu { s.fu with focus := some t, last := some t.slot, accum := 0 }
  | some f, none =>
    let s := synthesis f.slot s
    s.setFu { s.fu with focus := none, last := some f.slot, reported := none, accum := 0 }

/-! ## POSITION requests (R95) -/

/-- A value limited to a run of `len` from `lo`. -/
def clampRun (lo len : Nat) (v : Int) : Nat := (max (lo : Int) (min v ((lo : Int) + len - 1))).toNat

/-- The stream point of a desk point through a window on a head, limited to the stream's geometry (R95). -/
def streamPoint (head : HeadRecord) (w : Window) (c : StreamContent) (x y : Int) : StreamPoint :=
  let qx : Int := (w.sx : Int) + (x - head.ox - w.x) * w.d
  let qy : Int := (w.sy : Int) + (y - head.oy - w.y) * w.d
  ⟨c.id, clampRun 0 c.width qx, clampRun 0 c.height qy⟩

/-- The POSITION the FU requests for the present focus, if one is present. -/
def requestedPoint (s : State) : Option (Fin 16 × StreamPoint) :=
  s.fu.focus.bind fun f =>
    (windowOf s f).bind fun w =>
      (w.stream.bind (streamOf s)).map fun e => (f.slot, streamPoint s.cp.heads[f.head] w e.content s.fu.x s.fu.y)

/-- The FU makes a POSITION request where a focus slot is present; the IU appends the record with the slot's button set. The
reported position is set before the append, whose overflow may move focus (notes/assumptions/17.md). -/
def positionRequest (app : Fin 16 → InputRecord → State → State) (s : State) : State :=
  match requestedPoint s with
  | none => s
  | some (k, p) => app k (.position p (ownedBy k s)) (s.setFu { s.fu with reported := some p })

/-! ## Re-evaluation and forced change (R97, R102, R103) -/

/-- Whether the focus window still holds (R102 step 1). -/
def focusHolds (s : State) (f : Focus) : Bool :=
  s.cp.heads[f.head].enabled &&
    match windowOf s f with
    | some w => focusable s w = some f.slot
    | none => false

/-- The pointer limited to a window's rectangle in desk space (R97). -/
def limitTo (head : HeadRecord) (w : Window) (x y : Int) : Nat × Nat :=
  (clampRun (head.ox + w.x) w.w x, clampRun (head.oy + w.y) w.h y)

/-- The pointer limited to the focus window, from a given point. -/
def confine (x y : Int) (s : State) : State :=
  match s.fu.focus with
  | none => s
  | some f =>
    match windowOf s f with
    | none => s
    | some w =>
      let p := limitTo s.cp.heads[f.head] w x y
      s.setFu { s.fu with x := p.1, y := p.2 }

/-- A forced focus change (R103). -/
def forceFocus (app : Fin 16 → InputRecord → State → State) (s : State) : State :=
  let s := s.setFu { s.fu with lock := false, accum := 0 }
  positionRequest app (changeFocus (targetAtPointer s) s)

/-- Re-evaluation (R102). -/
def reevaluate (app : Fin 16 → InputRecord → State → State) (s : State) : State :=
  if (s.fu.focus.map (focusHolds s)).getD true then
    if s.fu.lock then positionRequest app (confine s.fu.x s.fu.y s)
    else if anyOwned s then positionRequest app s
    else positionRequest app (changeFocus (targetAtPointer s) s)
  else forceFocus app s

/-! ## The append of every rule but release synthesis -/

/-- The end of drag capture reported to the FU (R101). No button is owned then, so no append of this re-evaluation can end a
capture again. -/
def dragEnd (s : State) : State := reevaluate appendRecord s

/-- An append; where its overflow has emptied the button owner set, the FU is told (R127, R130 step 5). -/
def append (i : Fin 16) (r : InputRecord) (s : State) : State :=
  let t := appendRecord i r s
  if anyOwned s ∧ ¬ anyOwned t then dragEnd t else t

/-- A POSITION request as every rule makes it. -/
def requestPosition (s : State) : State := positionRequest append s

/-- Re-evaluation as every rule makes it. -/
def fuReevaluate (s : State) : State := reevaluate append s

/-! ## Motion (R89, R96 to R98) -/

/-- The trial point: the first of the three moves that lands in an enabled head, or the pointer itself (R89). -/
def trialPoint (s : State) (dx dy : Int) : Int × Int :=
  let x : Int := s.fu.x
  let y : Int := s.fu.y
  if (headAt s (x + dx) (y + dy)).isSome then (x + dx, y + dy)
  else if (headAt s (x + dx) y).isSome then (x + dx, y)
  else if (headAt s x (y + dy)).isSome then (x, y + dy)
  else (x, y)

/-- The size of the movement kept (R89). -/
def keptSize (s : State) (p : Int × Int) : Nat := max (p.1 - s.fu.x).natAbs (p.2 - s.fu.y).natAbs

/-- The window under the pointer when a motion to a point would be a blocked crossing (R98). -/
def blockedCrossing (s : State) (p : Int × Int) : Option (Fin 4 × Window) :=
  match s.fu.focus, hitTest s s.fu.x s.fu.y, asTarget s (hitTest s p.1 p.2) with
  | some f, some hw, some t =>
    if 0 < s.desk.guard ∧ ¬ anyOwned s ∧ windowSlot s hw.2 = some f.slot ∧ t.slot ≠ f.slot then some hw else none
  | _, _, _ => none

/-- The pointer after the crossing guard (R98, steps 2 and 3 of R96). -/
def guardedMove (s : State) (p : Int × Int) : State :=
  let go := s.setFu { s.fu with x := p.1.toNat, y := p.2.toNat, accum := 0 }
  match blockedCrossing s p with
  | none => go
  | some (h, w) =>
    let sum := s.fu.accum + keptSize s p
    if s.desk.guard ≤ sum then go
    else
      let l := limitTo s.cp.heads[h] w p.1 p.2
      let back := s.setFu { s.fu with accum := sum }
      match hitTest s l.1 l.2 with
      | some hw =>
        if windowSlot s hw.2 = s.fu.focus.map (·.slot) then back.setFu { back.fu with x := l.1, y := l.2 } else back
      | none => back

/-- Whether a motion to a point is a crossing that the guard holds back: blocked, with the sum still below the guard distance (R98). -/
def heldBack (s : State) (p : Int × Int) : Bool := (blockedCrossing s p).isSome && decide (s.fu.accum + keptSize s p < s.desk.guard)

/-- The focus after the pointer has moved (steps 4 and 5 of R96). A crossing held back leaves the focus slot as it is (R98): the focus
follows the hit test then only to a window of that slot (notes/assumptions/44.md). -/
def followPointer (held : Bool) (s : State) : State :=
  let target := targetAtPointer s
  if anyOwned s ∨ (held ∧ target.map (·.slot) ≠ s.fu.focus.map (·.slot)) then s else changeFocus target s

/-- A MOTION with the focus lock clear (R96). -/
def freeMotion (dx dy : Int) (s : State) : State :=
  let p := trialPoint s dx dy
  requestPosition (followPointer (heldBack s p) (guardedMove s p))

/-- A MOTION with the focus lock set (R97). -/
def lockedMotion (dx dy : Int) (s : State) : State :=
  let s := confine (s.fu.x + dx) (s.fu.y + dy) s
  requestPosition (s.setFu { s.fu with accum := 0 })

/-- A MOTION record at the FU. -/
def fuMotion (dx dy : Int) (s : State) : State := if s.fu.lock then lockedMotion dx dy s else freeMotion dx dy s

/-! ## Reports to the focus unit (R90, R104 to R107) -/

/-- The enabled heads' nearest points to the pointer, in head order, with their distances (R90). -/
def nearestPoints (s : State) : List (Nat × Nat × Nat) :=
  (List.finRange 4).filterMap fun h =>
    let r := s.cp.heads[h]
    if r.enabled then
      let px := clampRun r.ox r.width s.fu.x
      let py := clampRun r.oy r.height s.fu.y
      some (((px : Int) - s.fu.x).natAbs + ((py : Int) - s.fu.y).natAbs, px, py)
    else none

/-- The first of the points with the smallest distance. -/
def leastPoint : List (Nat × Nat × Nat) → Option (Nat × Nat × Nat)
  | [] => none
  | p :: ps =>
    match leastPoint ps with
    | none => some p
    | some q => if p.1 ≤ q.1 then some p else some q

/-- The pointer clamped into the enabled heads (R90). -/
def clampPointer (s : State) : State :=
  if (headAt s s.fu.x s.fu.y).isSome then s
  else
    match leastPoint (nearestPoints s) with
    | none => s
    | some (_, x, y) => s.setFu { s.fu with x := x, y := y }

/-- A head record write reported by the CP: clamp and re-evaluation, not acted on in LOADING (R88, R90, R104). -/
def headReport (s : State) : State := if running s then fuReevaluate (clampPointer s) else s

/-- A report of the claim unit (R105). `exclusive` names a slot that a GRANT raised to EXCLUSIVE with confine-on-exclusive set. -/
def claimReport (exclusive : Option (Fin 16)) (s : State) : State :=
  let s := fuReevaluate s
  match exclusive, s.fu.focus with
  | some k, some f =>
    if f.slot = k then
      let s := confine s.fu.x s.fu.y (s.setFu { s.fu with lock := true, accum := 0 })
      requestPosition s
    else s
  | _, _ => s

/-- The removal of a stream reported by the SR (R106); `wasFocus` says that its id was the focus window's stream id. -/
def removalReport (wasFocus : Bool) (s : State) : State := if wasFocus then fuReevaluate s else s

/-- The stream id of the focus window, if focus is present. -/
def focusStream (s : State) : Option Nat := s.fu.focus.bind fun f => (windowOf s f).bind (·.stream)

/-- The entry to STANDBY at the FU (R107). -/
def standbyFocus (s : State) : State := changeFocus none (s.setFu { s.fu with lock := false, accum := 0 })

/-- The pointer placed at RUNNING (R88). -/
def placePointer (s : State) : State :=
  match findIndex (fun r => r.enabled) s.cp.heads with
  | none => s
  | some h => s.setFu { s.fu with x := s.cp.heads[h].ox + s.cp.heads[h].width / 2, y := s.cp.heads[h].oy + s.cp.heads[h].height / 2 }

/-! ## Focus hot keys (R108, R109) -/

/-- FOCUS_LOCK (R108). -/
def focusLockAction (s : State) : State :=
  if s.fu.lock then fuReevaluate (s.setFu { s.fu with lock := false })
  else if s.fu.focus.isSome then
    requestPosition (confine s.fu.x s.fu.y (s.setFu { s.fu with lock := true, accum := 0 }))
  else s

/-- Whether a window owns a pixel: it contains it and no later window does (R79). -/
def ownsPixel (w : Window) (later : List Window) (px py : Nat) : Bool :=
  winContains w px py && later.all fun v => !winContains v px py

/-- The first pixel a window owns, lines from the top and pixels from the left. It begins in the window's own first line or
column, or right below or right of a later window, so only those are searched (notes/assumptions/35.md). -/
def firstOwned (w : Window) (later : List Window) : Option (Nat × Nat) :=
  let xs := w.x :: later.map fun v => v.x + v.w
  let ys := w.y :: later.map fun v => v.y + v.h
  let cands := (ys.flatMap fun y => xs.map fun x => (x, y)).filter fun p => ownsPixel w later p.1 p.2
  cands.foldl (fun best p =>
    match best with
    | none => some p
    | some b => if p.2 < b.2 ∨ (p.2 = b.2 ∧ p.1 < b.1) then some p else some b) none

/-- The windows of a list with those after each. -/
def withLater : List Window → List (Window × List Window)
  | [] => []
  | w :: ws => (w, ws) :: withLater ws

/-- The focusable windows of the enabled heads that own a pixel, each with the pixel NEXT_WINDOW moves to (R109). The halves
of an odd width or height are rounded down (notes/assumptions/40.md). -/
def nextCandidates (s : State) : List (Focus × Nat × Nat) :=
  (List.finRange 4).flatMap fun h =>
    if s.cp.heads[h].enabled then
      (withLater s.cp.active[h]).filterMap fun wl =>
        let w := wl.1
        match focusable s w, firstOwned w wl.2 with
        | some k, some p =>
          let cx := w.x + w.w / 2
          let cy := w.y + w.h / 2
          let q := if ownsPixel w wl.2 cx cy then (cx, cy) else p
          some (⟨k, h, w.id⟩, s.cp.heads[h].ox + q.1, s.cp.heads[h].oy + q.2)
        | _, _ => none
    else []

/-- The candidate after the focus window, wrapping; the first where focus is none or not in the list. -/
def nextTarget (f : Option Focus) (l : List (Focus × Nat × Nat)) : Option (Focus × Nat × Nat) :=
  match f with
  | none => l.head?
  | some f =>
    match l.dropWhile fun c => ¬ (c.1.head = f.head ∧ c.1.win = f.win) with
    | [] => l.head?
    | _ :: [] => l.head?
    | _ :: c :: _ => some c

/-- NEXT_WINDOW (R109). -/
def nextWindowAction (s : State) : State :=
  if s.fu.lock ∨ anyOwned s then s
  else
    match nextTarget s.fu.focus (nextCandidates s) with
    | none => s
    | some (t, x, y) => requestPosition (changeFocus (some t) (s.setFu { s.fu with x := x, y := y, accum := 0 }))

end Sys2Proof.Machine
end

