-- ==== Sys2Proof/Machine/Claims.lean ====
section
/-! DEFINITION. The claim unit (chapter 7): outbox, local requests and releases, the source's answers, absence, return, standby. -/

namespace Sys2Proof.Machine

open Sys2Proof

/-- A slot's record replaced. -/
def setSlot (i : Fin 16) (k : Option Slot) (s : State) : State := s.setCu { s.cu with slots := s.cu.slots.set i k }

/-- A claim counter updated. -/
def countCu (f : CuCounters → CuCounters) (s : State) : State := s.setCu { s.cu with c := f s.cu.c }

/-! ## The outbox (R141, R142) -/

/-- Whether the outbox holds a message of a kind for a slot. -/
def inOutbox (k : MsgKind) (i : Fin 16) (s : State) : Bool := s.cu.outbox.any fun m => m.kind = k && m.slot = i

/-- A CLAIM frame built from a message (R142, R200). -/
def claimFrame (m : ClaimMsg) (s : State) : Frame :=
  ⟨kindClaim, m.dest, own s, 63, claimPayload m.kind m.level s.desk.priority⟩

/-- An offered frame has been appended: counted, and a REQUEST's deadline set where the slot still waits for it (R142). -/
def claimAppended (m : ClaimMsg) (s : State) : State :=
  let s := s.setCu { s.cu with offered := none }
  match m.kind with
  | .release => countCu (fun c => { c with releasesSent := bump c.releasesSent }) s
  | .request =>
    let s := countCu (fun c => { c with requestsSent := bump c.requestsSent }) s
    match s.cu.slots[m.slot] with
    | some k =>
      match k.request with
      | some ⟨l, none⟩ =>
        if inOutbox .request m.slot s then s
        else setSlot m.slot (some { k with request := some ⟨l, some s.desk.claimTimeout⟩ }) s
      | _ => s
    | none => s

/-- While the CU holds no offered message, the head of the outbox is taken out and offered. The insertion queue refuses the
fourteenth offer at the latest. -/
def pumpOutbox : Nat → State → State
  | 0, s => s
  | n + 1, s =>
    if s.cu.offered.isSome then s
    else
      match s.cu.outbox with
      | [] => s
      | m :: ms =>
        let f := claimFrame m s
        match offerInsertion ⟨f, false⟩ (s.setCu { s.cu with outbox := ms }) with
        | (true, t) => pumpOutbox n (claimAppended m t)
        | (false, t) => t.setCu { t.cu with offered := some ⟨m, f⟩ }

/-- A REQUEST is queued at the tail (R141). -/
def queueRequest (i : Fin 16) (l : Level) (dest : Byte) (s : State) : State :=
  pumpOutbox pumpBound (s.setCu { s.cu with outbox := s.cu.outbox ++ [⟨.request, i, l, dest⟩] })

/-- A slot's REQUEST is removed from the outbox, if one is there. -/
def removeRequest (i : Fin 16) (s : State) : State :=
  s.setCu { s.cu with outbox := s.cu.outbox.filter fun m => ¬ (m.kind = .request ∧ m.slot = i) }

/-- A RELEASE is queued: the slot's REQUEST is removed, and a RELEASE already queued takes the new level and destination in its
place (R141). -/
def queueRelease (i : Fin 16) (l : Level) (dest : Byte) (s : State) : State :=
  let s := removeRequest i s
  if inOutbox .release i s then
    let q := s.cu.outbox.map fun m => if m.kind = .release ∧ m.slot = i then { m with level := l, dest := dest } else m
    let s := countCu (fun c => { c with replaced := bump c.replaced }) (s.setCu { s.cu with outbox := q })
    pumpOutbox pumpBound s
  else pumpOutbox pumpBound (s.setCu { s.cu with outbox := s.cu.outbox ++ [⟨.release, i, l, dest⟩] })

/-! ## Local requests and releases (R143, R144) -/

/-- What an owning block answers: DONE, or REFUSED with a reason. -/
abbrev Answer := Option Reason

/-- A local request is refused: counted, nothing else changes (R143). -/
def refuseRequest (r : Reason) (s : State) : Answer × State :=
  (some r, countCu (fun c => { c with refused := bump c.refused }) s)

/-- A local request for a slot and a level; none stands for a slot or level outside the named ones (R143). -/
def localRequest (slot : Option (Fin 16)) (level : Option Level) (s : State) : Answer × State :=
  match slot with
  | none => refuseRequest .invalid s
  | some i =>
    match s.cu.slots[i], level with
    | none, _ => refuseRequest .invalid s
    | some _, none => refuseRequest .invalid s
    | some k, some l =>
      if s.pu.power = .standby then refuseRequest .invalid s
      else if ¬ nodePresent s k.content.addr then refuseRequest .invalid s
      else if Level.rank l ≤ Level.rank k.held then refuseRequest .belowHeld s
      else if k.request.isSome then refuseRequest .inUse s
      else (none, queueRequest i l k.content.addr (setSlot i (some { k with request := some ⟨l, none⟩ }) s))

/-- The holder after the held level became `l`: an own address goes when the level is not EXCLUSIVE (R140). -/
def holderAfter (s : State) (l : Level) (h : Option Byte) : Option Byte :=
  if l ≠ .exclusive ∧ h = some (own s) then none else h

/-- A local release of a loaded slot to the lower of a level and its held level (R144). -/
def releaseSlot (i : Fin 16) (k : Slot) (l : Level) (s : State) : State :=
  let new := Level.lower l k.held
  let lowered := Level.rank new < Level.rank k.held
  let heard := k.request.isSome && !inOutbox .request i s
  let s :=
    if lowered then
      claimReport none
        (raise .claimChange (setSlot i (some { k with held := new, holder := holderAfter s new k.holder }) s))
    else s
  let s :=
    match s.cu.slots[i] with
    | some k' =>
      if lowered ∨ k.request.isSome then setSlot i (some { k' with request := none, outcome := .released }) s else s
    | none => s
  if lowered ∨ heard then queueRelease i new k.content.addr s else removeRequest i s

/-- A local release (R144). -/
def localRelease (slot : Option (Fin 16)) (level : Option Level) (s : State) : Answer × State :=
  match slot with
  | none => (some .invalid, s)
  | some i =>
    match s.cu.slots[i], level with
    | none, _ => (some .invalid, s)
    | some _, none => (some .invalid, s)
    | some _, some .exclusive => (some .invalid, s)
    | some k, some l => (none, releaseSlot i k l s)

/-! ## Presence and auto-share (R150, R151) -/

/-- The slot that names an address, if one does (R136). -/
def slotOfAddr (s : State) (a : Byte) : Option (Fin 16) :=
  findIndex (fun k => match k with | some k => k.content.addr = a | none => false) s.cu.slots

/-- The auto-share request of a slot, made only when every condition of R151 holds. -/
def autoShare (i : Fin 16) (s : State) : State :=
  match s.cu.slots[i] with
  | none => s
  | some k =>
    if k.content.autoShare ∧ nodePresent s k.content.addr ∧ s.pu.power = .active ∧ k.held = .view ∧ k.request = none then
      (localRequest (some i) (some .shared) s).2
    else s

/-- The RF reports a node present (R151). -/
def nodeIsPresent (a : Byte) (s : State) : State :=
  match nodeIndex a with
  | none => s
  | some n =>
    let s := s.setCu { s.cu with view := s.cu.view.set n true }
    match slotOfAddr s a with
    | none => s
    | some i => autoShare i (claimReport none s)

/-- What the absence of its node does to a slot: back to VIEW, without a request or a holder (R150). -/
def absentSlot (i : Fin 16) (k : Slot) (s : State) : State :=
  let s := if k.request.isSome then removeRequest i s else s
  let s := setSlot i (some { k with request := none, held := .view, holder := none }) s
  let s := if k.held ≠ .view then raise .claimChange s else s
  countCu (fun c => { c with absences := bump c.absences }) (raise .sourceAbsent s)

/-- The RF reports a node absent (R150). -/
def nodeIsAbsent (a : Byte) (s : State) : State :=
  match nodeIndex a with
  | none => s
  | some n =>
    let s := s.setCu { s.cu with view := s.cu.view.set n false }
    match slotOfAddr s a with
    | none => s
    | some i =>
      match s.cu.slots[i] with
      | none => s
      | some k => claimReport none (absentSlot i k s)

/-! ## The source's answers (R145 to R149) -/

/-- The holder field of a CLAIM frame: 0 and bytes above 62 are absent (R200). -/
def holderField (b : Byte) : Option Byte := if nodeInRange b then some b else none

/-- The holder after a DENY or REVOKE with a holder field, `held` being the level after the frame (R140). -/
def holderTaken (s : State) (held : Level) (field : Option Byte) (old : Option Byte) : Option Byte :=
  if held = .exclusive then old else if field = some (own s) then none else field

/-- Whether a slot's outstanding request matches an answer of a level (R146, R147). -/
def answers (k : Slot) (l : Level) : Bool :=
  match k.request with
  | some ⟨r, some _⟩ => r = l
  | _ => false

/-- A GRANT (R146). -/
def grant (i : Fin 16) (k : Slot) (l : Level) (s : State) : State :=
  if answers k l then
    let holder := if l = .exclusive then some (own s) else k.holder
    let s := setSlot i (some { k with held := l, request := none, holder := holder, outcome := .granted }) s
    let s := countCu (fun c => { c with grants := bump c.grants }) (raise .claimChange s)
    claimReport (if l = .exclusive ∧ k.content.confine then some i else none) s
  else
    let s := countCu (fun c => { c with unsolicited := bump c.unsolicited }) s
    if Level.rank k.held < Level.rank l then
      let waiting := inOutbox .request i s
      let s := if waiting then setSlot i (some { k with request := none, outcome := .released }) s else s
      queueRelease i k.held k.content.addr s
    else s

/-- A DENY (R147). -/
def deny (i : Fin 16) (k : Slot) (l : Level) (field : Option Byte) (s : State) : State :=
  if answers k l then
    let s := setSlot i (some { k with request := none, holder := holderTaken s k.held field k.holder, outcome := .denied }) s
    countCu (fun c => { c with denies := bump c.denies }) s
  else countCu (fun c => { c with unmatchedDenies := bump c.unmatchedDenies }) s

/-- A REVOKE (R148). -/
def revoke (i : Fin 16) (k : Slot) (l : Level) (field : Option Byte) (s : State) : State :=
  let held := Level.lower l k.held
  let lowered := Level.rank l < Level.rank k.held
  let outcome := if lowered then .revoked else k.outcome
  let s := setSlot i (some { k with held := held, holder := holderTaken s held field k.holder, outcome := outcome }) s
  let s := countCu (fun c => { c with revokes := bump c.revokes }) s
  if lowered then claimReport none (raise .claimChange s) else s

/-- A CLAIM frame is rejected (R145). -/
def rejectClaim (s : State) : State := countCu (fun c => { c with rejected := bump c.rejected }) s

/-- A taken CLAIM frame (R145, R200). -/
def claimTaken (f : Frame) (s : State) : State :=
  match slotOfAddr s f.origin, f.payload with
  | some i, [kind, level, _, holder] =>
    match s.cu.slots[i], levelOf level with
    | some k, some l =>
      if kind = 3 ∧ f.dest ≠ allNodes then grant i k l s
      else if kind = 4 ∧ f.dest ≠ allNodes then deny i k l (holderField holder) s
      else if kind = 5 then revoke i k l (holderField holder) s
      else rejectClaim s
    | _, _ => rejectClaim s
  | _, _ => rejectClaim s

/-- The request timer of a slot expires with its request outstanding (R149). -/
def requestExpired (i : Fin 16) (s : State) : State :=
  match s.cu.slots[i] with
  | some k =>
    match k.request with
    | some ⟨_, some _⟩ =>
      let s := setSlot i (some { k with request := none, outcome := .timedOut }) s
      countCu (fun c => { c with timeouts := bump c.timeouts }) (raise .claimTimeout s)
    | _ => s
  | none => s

/-! ## Standby and wake (R152) -/

/-- The local release to VIEW of a slot, if it is loaded. -/
def standbyRelease (i : Fin 16) (s : State) : State :=
  match s.cu.slots[i] with
  | some k => releaseSlot i k .view s
  | none => s

/-- Every loaded slot in turn is released to VIEW. -/
def standbyClaims (s : State) : State := (List.finRange 16).foldl (fun s i => standbyRelease i s) s

/-- Every loaded slot in turn makes its auto-share request (R152), in rising order (notes/assumptions/16.md). -/
def wakeClaims (s : State) : State := (List.finRange 16).foldl (fun s i => autoShare i s) s

/-! ## The directory (R131, R137 to R139) -/

/-- The IU empties a slot's queue and counts the records (R131). -/
def emptyQueue (i : Fin 16) (s : State) : State :=
  s.setIu { s.iu with
    queues := s.iu.queues.set i [],
    c := { s.iu.c with slotDiscards := bumpBy s.iu.queues[i].length s.iu.c.slotDiscards } }

/-- A slot's input sequence set to 1 (R131). -/
def freshSequence (i : Fin 16) (s : State) : State := s.setIu { s.iu with seqs := s.iu.seqs.set i 1 }

/-- The report of an address change at the IU (R131). -/
def addressChangeReport (i : Fin 16) (s : State) : State :=
  let had := anyOwned s
  let s := freshSequence i (emptyQueue i s)
  let s := s.setIu { s.iu with keys := s.iu.keys.filter fun k => k.2 ≠ i, owners := dropOwners i s.iu.owners }
  if had ∧ ¬ anyOwned s then dragEnd s else s

/-- A fresh claim record (R137). -/
def freshSlot (c : SlotContent) : Slot := ⟨c, .view, none, none, .none⟩

/-- Whether the source must hear a RELEASE when a slot's record goes: something is held, or a REQUEST it has heard waits. -/
def mustRelease (k : Slot) (requestQueued : Bool) : Bool := decide (k.held ≠ .view) || (k.request.isSome && !requestQueued)

/-- A slot's node address changes (R138). Step 4 makes one report to the FU, also where neither held level nor presence changes
(notes/assumptions/41.md). -/
def moveSlot (i : Fin 16) (k : Slot) (c : SlotContent) (s : State) : State :=
  let heard := mustRelease k (inOutbox .request i s)
  let s := removeRequest i s
  let s := if heard then queueRelease i .view k.content.addr s else s
  let s := setSlot i (some (freshSlot c)) s
  let s := if k.held ≠ .view then raise .claimChange s else s
  autoShare i (claimReport none (addressChangeReport i s))

/-- A slot is cleared, no stream naming it (R139). -/
def clearSlot (i : Fin 16) (k : Slot) (s : State) : State :=
  let heard := mustRelease k (inOutbox .request i s)
  let s := removeRequest i s
  let s := if heard then queueRelease i .view k.content.addr s else s
  let s := setSlot i none s
  let s := if k.held ≠ .view then raise .claimChange s else s
  emptyQueue i s

/-- Whether a loaded stream entry names a slot (R139). -/
def slotNamed (i : Fin 16) (s : State) : Bool :=
  s.sr.entries.toList.any fun e => match e with | some e => e.content.slot = i | none => false

/-- Whether another loaded slot holds an address (R137). -/
def addrInUse (i : Fin 16) (a : Byte) (s : State) : Bool :=
  (List.finRange 16).any fun j =>
    decide (j ≠ i) && match s.cu.slots[j] with | some k => decide (k.content.addr = a) | none => false

/-- A write of a directory slot; `none` is EMPTY content (R137 to R139). -/
def writeSlot (i : Fin 16) (content : Option SlotContent) (s : State) : Answer × State :=
  match content, s.cu.slots[i] with
  | none, none => (none, s)
  | none, some k => if slotNamed i s then (some .inUse, s) else (none, clearSlot i k s)
  | some c, old =>
    if ¬ nodeInRange c.addr ∨ c.addr = own s then (some .invalid, s)
    else if addrInUse i c.addr s then (some .inUse, s)
    else
      match old with
      | none => (none, autoShare i (freshSequence i (setSlot i (some (freshSlot c)) s)))
      | some k =>
        if k.content.addr = c.addr then (none, setSlot i (some { k with content := c }) s)
        else (none, moveSlot i k c s)

end Sys2Proof.Machine
end

