-- ==== Sys2Proof/Machine/Panel.lean ====
section
/-! DEFINITION. The panel unit (chapter 8): power state, idle timer, takeover button, lamps. -/

namespace Sys2Proof.Machine

open Sys2Proof

/-- A panel counter updated. -/
def countPu (f : PuCounters → PuCounters) (s : State) : State := s.setPu { s.pu with c := f s.pu.c }

/-! ## Power (R156 to R160) -/

/-- The idle timer restarts from zero where it may run: ACTIVE, RUNNING, and a standby delay that is not 0 (R159). -/
def restartIdle (s : State) : State :=
  if s.pu.power = .active ∧ running s ∧ s.desk.standby ≠ 0 then s.setPu { s.pu with idle := some 0 }
  else s.setPu { s.pu with idle := none }

/-- Entry to STANDBY; no effect in STANDBY. The FU is told before the CU (R157, notes/assumptions/16.md). -/
def enterStandby (s : State) : State :=
  if s.pu.power = .standby then s
  else
    let s := s.setPu { s.pu with power := .standby, idle := none }
    standbyClaims (standbyFocus (countPu (fun c => { c with standbys := bump c.standbys }) s))

/-- The wake from STANDBY (R158); no effect in ACTIVE. -/
def wake (cause : WakeCause) (s : State) : State :=
  if s.pu.power = .active then s
  else
    let s := s.setPu { s.pu with power := .active, wake := some cause }
    let s := countPu (fun c => { c with wakes := bump c.wakes }) (raise .wake s)
    wakeClaims (restartIdle s)

/-- A valid desk record reported by the IU: in ACTIVE it restarts the idle timer, in STANDBY it wakes where its kind does
(R112, R158, R159). -/
def deskReport (k : Option WakeKind) (s : State) : State :=
  match s.pu.power, k with
  | .active, _ => restartIdle s
  | .standby, some k => wake (.deskInput k) s
  | .standby, none => s

/-- Whether the idle timer has reached the standby delay, in minutes; with delay 0 it never does (R159, R160). -/
def idleReached (s : State) : Bool := decide (s.desk.standby ≠ 0) && reached s.pu.idle (s.desk.standby * 60000)

/-- The idle timer expires, where it has reached the delay: a desk record or a takeover press taken first has restarted it, and the
expiry does not happen (R159). -/
def idleExpired (s : State) : State := if s.pu.power = .active ∧ idleReached s then enterStandby s else s

/-- SET_POWER; none stands for a value that names neither state (R157, R158). -/
def setPower (p : Option Power) (s : State) : Answer × State :=
  match p with
  | none => (some .invalid, s)
  | some .standby => (none, enterStandby s)
  | some .active => (none, if s.pu.power = .standby then wake .management s else restartIdle s)

/-- An accepted write of the standby delay, in minutes (R160). -/
def writeStandby (n : Nat) (s : State) : State :=
  if n = s.desk.standby then s
  else
    let s := s.setDesk { s.desk with standby := n }
    if n = 0 then s.setPu { s.pu with idle := none }
    else if s.pu.power = .standby ∨ ¬ running s then s
    else
      match s.pu.idle with
      | none => s.setPu { s.pu with idle := some 0 }
      | some t => if n * 60000 ≤ t then enterStandby s else s

/-! ## The takeover button (R161, R162) -/

/-- A takeover press (R162). -/
def pressed (s : State) : State :=
  let s := countPu (fun c => { c with presses := bump c.presses }) s
  if s.pu.power = .standby then wake .takeover s
  else
    let s := restartIdle s
    match s.fu.focus.map (·.slot) <|> s.fu.last with
    | some i => (localRequest (some i) (some .exclusive) s).2
    | none => countPu (fun c => { c with noTarget := bump c.noTarget }) s

/-- The filtered state takes a level, the run count clears; a change to PRESSED is a takeover press (R161). -/
def filterChanges (l : ButtonLevel) (s : State) : State :=
  let s := s.setPu { s.pu with filter := some l, run := 0 }
  if l = .pressed then pressed s else s

/-- One sample of the button filter (R161). -/
def sample (l : ButtonLevel) (s : State) : State :=
  if ¬ running s then s
  else
    match s.pu.filter with
    | none => s.setPu { s.pu with filter := some l, run := 0 }
    | some f =>
      if l = f then s.setPu { s.pu with run := 0 }
      else if s.pu.run + 1 < 4 then s.setPu { s.pu with run := s.pu.run + 1 }
      else filterChanges l s

/-! ## Lamps (R163 to R166) -/

/-- The streams that a head's active list names, where loaded, WAITING ones among them (R164, notes/assumptions/48.md). -/
def headStreams (h : Fin 4) (s : State) : List StreamEntry :=
  s.cp.active[h].filterMap fun w => w.stream.bind (streamOf s)

/-- The record of a stream's slot. -/
def streamSlot (s : State) (e : StreamEntry) : Option Slot := s.cu.slots[e.content.slot]

/-- Whether a slot is held EXCLUSIVE. -/
def heldExclusive (k : Option Slot) : Bool := k.map (·.held) = some .exclusive

/-- Whether a slot has an outstanding request. -/
def requesting (k : Option Slot) : Bool := (k.map fun k => k.request.isSome).getD false

/-- The four conditions of a head lamp (R164). -/
def headConditions (h : Fin 4) (s : State) : List Bool :=
  if s.cp.heads[h].enabled ∧ s.pu.power = .active then
    [decide (s.fu.focus.map (·.head) = some h),
     (headStreams h s).any fun e => heldExclusive (streamSlot s e),
     (headStreams h s).any fun e => e.state = .stale,
     (headStreams h s).any fun e => requesting (streamSlot s e)]
  else [false, false, false, false]

/-- The four conditions of the desk lamp (R165). -/
def deskConditions (s : State) : List Bool :=
  [decide (s.rf.ring ≠ .closed), s.cu.slots.toList.any heldExclusive, s.cu.slots.toList.any requesting,
   decide (s.pu.power = .standby)]

/-- The conditions of a lamp. -/
def lampConditions (l : Fin 5) (s : State) : List Bool :=
  if h : l.val < 4 then headConditions ⟨l.val, h⟩ s else deskConditions s

/-- FAST above SLOW above ON above OFF (R166). -/
def Behaviour.rank : Behaviour → Nat
  | .off => 0
  | .on => 1
  | .slow => 2
  | .fast => 3

/-- The shown behaviour of a lamp: the highest ranked of its true conditions, OFF with none (R166). -/
def lampShown (l : Fin 5) (s : State) : Behaviour :=
  ((lampConditions l s).zip s.pu.lamps[l].toList).foldl
    (fun best cb => if cb.1 ∧ best.rank < cb.2.rank then cb.2 else best) .off

/-- Whether a lamp output is lit: unlit while the blink clock is stopped, before and during LOADING (R166). -/
def lampLit (l : Fin 5) (s : State) : Bool :=
  match s.pu.blink with
  | none => false
  | some b =>
    match lampShown l s with
    | .off => false
    | .on => true
    | .slow => decide (b.phase < 4)
    | .fast => decide (b.phase % 2 = 0)

/-- A write of a lamp entry; four behaviours, none for a byte that names none (R163). -/
def writeLamp (l : Fin 5) (bs : List Byte) (s : State) : Answer × State :=
  match bs with
  | [a, b, c, d] =>
    match behaviourOf a, behaviourOf b, behaviourOf c, behaviourOf d with
    | some a, some b, some c, some d => (none, s.setPu { s.pu with lamps := s.pu.lamps.set l #v[a, b, c, d] })
    | _, _, _, _ => (some .invalid, s)
  | _ => (some .invalid, s)

/-- The blink clock advances one phase (R166), also where the phase has not lasted its 125 ms: the command is taken at its word
(notes/assumptions/2.md). -/
def blinkAdvance (s : State) : State :=
  match s.pu.blink with
  | none => s
  | some b => s.setPu { s.pu with blink := some ⟨(b.phase + 1) % 8, b.elapsed - 125⟩ }

end Sys2Proof.Machine
end

