-- ==== Sys2Proof/Machine/Streams.lean ====
section
/-! DEFINITION. The stream receiver (chapter 3): loading, allocation, strips, completion, the boundary swap, staleness. -/

namespace Sys2Proof.Machine

open Sys2Proof

/-- An entry of the stream table replaced. -/
def setEntry (i : Fin 32) (e : Option StreamEntry) (s : State) : State := s.setSr { s.sr with entries := s.sr.entries.set i e }

/-- The strip count S of an entry (R43). -/
def stripCount (e : StreamEntry) : Nat := e.content.height / 4

/-! ## The pool (R46) -/

/-- The BLOCKED entry with the lowest index. -/
def firstBlocked (s : State) : Option (Fin 32) :=
  findIndex (fun e => match e with | some e => e.state = .blocked | none => false) s.sr.entries

/-- Allocation: while three buffers are free, the lowest BLOCKED entry takes the three lowest. One round serves one of at most
32 entries. -/
def allocate : Nat → State → State
  | 0, s => s
  | n + 1, s =>
    match s.sr.free, firstBlocked s with
    | a :: b :: c :: rest, some i =>
      match s.sr.entries[i] with
      | some e =>
        let e' := { e with state := .waiting, buffers := some ⟨a, none, none, [b, c]⟩, front := none, ready := none,
                           assembly := none, timer := none }
        allocate n ((setEntry i (some e') s).setSr { (setEntry i (some e') s).sr with free := rest })
      | none => s
    | _, _ => s

/-- The bound of `allocate`: the number of entries. -/
def allocBound : Nat := 32

/-- The buffers of an entry. -/
def Buffers.all (b : Buffers) : List Nat := [b.front] ++ b.ready.toList ++ b.assembling.toList ++ b.spare

/-- Buffers returned to the free set. -/
def freeBuffers (b : Option Buffers) (free : List Nat) : List Nat :=
  match b with
  | none => free
  | some b => b.all.foldl (fun f n => insertRising n f) free

/-! ## Loading, rewriting, removing (R47 to R49) -/

/-- Whether another loaded entry has a stream id (R47, R48). -/
def idInUse (i : Fin 32) (id : Nat) (s : State) : Bool :=
  (List.finRange 32).any fun j =>
    decide (j ≠ i) && match s.sr.entries[j] with | some e => decide (e.content.id = id) | none => false

/-- The checks of a load or rewrite of entry `i`, in order; the fields come as written (R47). -/
def checkStream (i : Fin 32) (id slot width height stale : Nat) (s : State) : Except Reason StreamContent :=
  if id < 1 ∨ 1023 < id then .error .invalid
  else
    if h : slot < 16 then
      if s.cu.slots[slot].isNone then .error .invalid
      else if width < 64 ∨ 3840 < width ∨ width % 8 ≠ 0 then .error .invalid
      else if height < 64 ∨ 2160 < height ∨ height % 4 ≠ 0 then .error .invalid
      else if stale ≠ 0 ∧ (stale < 16 ∨ 4000 < stale) then .error .invalid
      else if idInUse i id s then .error .inUse
      else .ok ⟨id, ⟨slot, h⟩, width, height, if stale = 0 then 250 else stale⟩
    else .error .invalid

/-- An entry as a load makes it, before allocation (R47). -/
def freshEntry (c : StreamContent) : StreamEntry :=
  ⟨c, .blocked, none, none, none, none, none, true, streamCountersZero⟩

/-- A load into an EMPTY entry (R47). -/
def loadStream (i : Fin 32) (c : StreamContent) (s : State) : State :=
  let s := allocate allocBound (setEntry i (some (freshEntry c)) s)
  if s.sr.entries[i].map (·.state) = some .blocked then raise .poolExhausted s else s

/-- The removal of a loaded entry; the FU is told, and allocation runs where buffers came back (R49, R106). -/
def removeStream (i : Fin 32) (e : StreamEntry) (s : State) : State :=
  let wasFocus := focusStream s = some e.content.id
  let s := setEntry i none s
  let s := s.setSr { s.sr with free := freeBuffers e.buffers s.sr.free }
  let s := removalReport wasFocus s
  if e.buffers.isSome then allocate allocBound s else s

/-- Whether an entry's stale timer has reached its stale timeout (R58). -/
def staleReached (e : StreamEntry) : Bool := reached e.timer e.content.stale

/-- The stale timer of an entry expires, where it has reached the timeout: a completion taken first has restarted it, and the expiry
does not happen (R58). -/
def staleExpired (i : Fin 32) (s : State) : State :=
  match s.sr.entries[i] with
  | some e =>
    if e.state = .live ∧ staleReached e then raise .streamStale (setEntry i (some { e with state := .stale, timer := none }) s)
    else s
  | none => s

/-- A rewrite of a loaded entry with checked content (R48). -/
def rewriteStream (i : Fin 32) (e : StreamEntry) (c : StreamContent) (s : State) : State :=
  if c = e.content then s
  else if { c with stale := e.content.stale } = e.content then
    staleExpired i (setEntry i (some { e with content := c }) s)
  else loadStream i c (removeStream i e s)

/-- A write of a stream entry: 9 bytes or 34, of which the last 25 are not read; 0 bytes are EMPTY (R47, R201). -/
def writeStream (i : Fin 32) (bs : List Byte) (s : State) : Answer × State :=
  if bs = [] then
    match s.sr.entries[i] with
    | some e => (none, removeStream i e s)
    | none => (none, s)
  else if bs.length = 9 ∨ bs.length = 34 then
    match checkStream i (at16 bs 0) (at8 bs 2) (at16 bs 3) (at16 bs 5) (at16 bs 7) s with
    | .error r => (some r, s)
    | .ok c =>
      match s.sr.entries[i] with
      | some e => (none, rewriteStream i e c s)
      | none => (none, loadStream i c s)
  else (some .invalid, s)

/-! ## Strips (R50 to R56, R59) -/

/-- The four lines of a strip written into a buffer (R53). -/
def writeStrip (buffer index width : Nat) (px : List Colour) (lines : List (Nat × List Colour)) : List (Nat × List Colour) :=
  (List.range 4).foldl
    (fun m k => Lines.write (buffer * 2160 + 4 * index + k) ((px.drop (k * width)).take width) m) lines

/-- An entry's stream counters updated. -/
def countStream (f : StreamCounters → StreamCounters) (e : StreamEntry) : StreamEntry := { e with c := f e.c }

/-- The roles when the ASSEMBLING buffer becomes READY; a former READY becomes SPARE (R56). -/
def readyRoles (b : Buffers) : Buffers :=
  { b with
    ready := b.assembling, assembling := none,
    spare := match b.ready with | some r => insertRising r b.spare | none => b.spare }

/-- The entry after a completion, before the events (R56, R59). -/
def completedEntry (a : Assembly) (e : StreamEntry) : StreamEntry :=
  let superseded := (e.buffers.bind (·.ready)).isSome
  { e with
    buffers := e.buffers.map readyRoles, ready := some a.frame, assembly := none, armed := true,
    state := if e.state = .stale then .live else e.state,
    timer := if e.state = .waiting ∨ e.state = .blocked then e.timer else some 0,
    c := { e.c with
      completed := bump e.c.completed,
      superseded := if superseded then bump e.c.superseded else e.c.superseded } }

/-- A video frame completes (R56); a STALE entry raises STREAM_LIVE (R59). -/
def complete (i : Fin 32) (a : Assembly) (e : StreamEntry) (s : State) : State :=
  let t := setEntry i (some (completedEntry a e)) s
  if e.state = .stale then raise .streamLive t else t

/-- A strip's pixels written into the ASSEMBLING buffer and its index put into the assembly, which may complete (R53, R56). -/
def storeStrip (i : Fin 32) (e : StreamEntry) (a : Assembly) (index : Nat) (px : List Colour) (s : State) : State :=
  let a := { a with received := insertRising index a.received }
  let e := { e with assembly := some a }
  let s :=
    match e.buffers.bind (·.assembling) with
    | some b => s.setSr { s.sr with lines := writeStrip b index e.content.width px s.sr.lines }
    | none => s
  if stripCount e ≤ a.received.length then complete i a e s else setEntry i (some e) s

/-- The roles when the lowest SPARE becomes ASSEMBLING (R55). -/
def assemblingRoles (b : Buffers) : Buffers :=
  match b.spare with
  | n :: rest => { b with assembling := some n, spare := rest }
  | [] => b

/-- The first assembly since a completion (R55). -/
def beginAssembly (i : Fin 32) (e : StreamEntry) (frame index : Nat) (px : List Colour) (s : State) : State :=
  storeStrip i { e with buffers := e.buffers.map assemblingRoles } ⟨frame, []⟩ index px s

/-- An offered STRIP's payload: stream id, frame number, strip index, strip count, pixels (R200). -/
structure Strip where
  id : Nat
  frame : Nat
  index : Nat
  count : Nat
  data : List Byte
deriving DecidableEq, Repr

/-- The strip a payload holds; none where it is shorter than 7 bytes (R200). -/
def parseStrip (p : List Byte) : Option Strip :=
  if p.length < 7 then none else some ⟨at16 p 0, at8 p 2, at16 p 3, at16 p 5, p.drop 7⟩

/-- The checks on a STRIP offered to a loaded entry, in the order of R50. Its check 3 names frame number 0 alone, so a byte above
63 passes it (notes/assumptions/31.md). -/
def stripAt (i : Fin 32) (e : StreamEntry) (st : Strip) (s : State) : State :=
  if e.state = .blocked then setEntry i (some (countStream (fun c => { c with noBuffer := bump c.noBuffer }) e)) s
  else if st.count ≠ stripCount e ∨ st.data.length ≠ 12 * e.content.width then
    let t := setEntry i (some (countStream (fun c => { c with mismatches := bump c.mismatches }) { e with armed := false })) s
    if e.armed then raise .geometryMismatch t else t
  else if st.frame = 0 ∨ stripCount e ≤ st.index then
    setEntry i (some (countStream (fun c => { c with malformed := bump c.malformed }) e)) s
  else if e.front = some st.frame ∨ e.ready = some st.frame then
    setEntry i (some (countStream (fun c => { c with late := bump c.late }) e)) s
  else
    let px := pixelsOf st.data
    match e.assembly with
    | some a =>
      if a.frame = st.frame then
        if st.index ∈ a.received then
          setEntry i (some (countStream (fun c => { c with duplicates := bump c.duplicates }) e)) s
        else storeStrip i e a st.index px s
      else
        storeStrip i (countStream (fun c => { c with abandoned := bump c.abandoned }) e) ⟨st.frame, []⟩ st.index px s
    | none => beginAssembly i e st.frame st.index px s

/-- A STRIP payload offered to the SR where its stream id is a loaded entry's (R24, R50, R200). -/
def offerStrip (payload : List Byte) (s : State) : State :=
  match parseStrip payload with
  | none => s
  | some st =>
    match streamIndex s st.id with
    | none => s
    | some i =>
      match s.sr.entries[i] with
      | some e => stripAt i e st s
      | none => s

/-! ## The boundary swap (R57) -/

/-- The roles when READY becomes FRONT and the former FRONT becomes SPARE. -/
def swapRoles (b : Buffers) : Buffers :=
  match b.ready with
  | some r => { b with front := r, ready := none, spare := insertRising b.front b.spare }
  | none => b

/-- One entry at the boundary. -/
def swapEntry (i : Fin 32) (s : State) : State :=
  match s.sr.entries[i] with
  | some e =>
    if (e.buffers.bind (·.ready)).isSome then
      let e' := { e with buffers := e.buffers.map swapRoles, front := e.ready, ready := none }
      if e.state = .waiting then raise .streamLive (setEntry i (some { e' with state := .live, timer := some 0 }) s)
      else setEntry i (some e') s
    else s
  | none => s

/-- Every loaded entry with a READY buffer is swapped, in index order (R57, R76). -/
def swapAll (s : State) : State := (List.finRange 32).foldl (fun s i => swapEntry i s) s

end Sys2Proof.Machine
end

