-- ==== Sys2Proof/Machine/Layouts.lean ====
section
/-! DEFINITION. The compositor's records, lists, presets and the boundary latch (R64 to R77, R83). -/

namespace Sys2Proof.Machine

open Sys2Proof

/-! ## Head records (R66 to R68) -/

/-- The ranges of a head record (R66). -/
def headInRange (r : HeadRecord) : Bool :=
  decide (640 ≤ r.width ∧ r.width ≤ 3840 ∧ r.width % 8 = 0 ∧ 480 ≤ r.height ∧ r.height ≤ 2160 ∧ r.height % 8 = 0 ∧
    r.ox ≤ 16383 ∧ r.oy ≤ 16383 ∧ r.ox + r.width ≤ 16384 ∧ r.oy + r.height ≤ 16384)

/-- Whether two desk rectangles share a point (R66). -/
def rectsMeet (a b : HeadRecord) : Bool :=
  decide (a.ox < b.ox + b.width ∧ b.ox < a.ox + a.width ∧ a.oy < b.oy + b.height ∧ b.oy < a.oy + a.height)

/-- Whether an enabled record for head `h` shares a point with another enabled head. During a load only the heads before `h`
count (R67, R191). -/
def overlaps (loading : Bool) (h : Fin 4) (r : HeadRecord) (s : State) : Bool :=
  r.enabled && (List.finRange 4).any fun k =>
    (if loading then decide (k < h) else decide (k ≠ h)) && s.cp.heads[k].enabled && rectsMeet r s.cp.heads[k]

/-- Whether a window lies wholly within a size (R71). -/
def winFits (width height : Nat) (w : Window) : Bool := decide (w.x + w.w ≤ width ∧ w.y + w.h ≤ height)

/-- Entry p × 4 + h of the PRESETS space (R74). -/
def presetIndex (p : Fin 8) (h : Fin 4) : Fin 32 := ⟨p.val * 4 + h.val, by omega⟩

/-- Every window of head `h` in its active, staged and preset lists (R67). -/
def headWindows (h : Fin 4) (s : State) : List Window :=
  s.cp.active[h] ++ s.cp.staged[h] ++ (List.finRange 8).flatMap fun p => s.cp.presets[presetIndex p h]

/-- The first reason that refuses a head record (R67). -/
def headRefusal (loading : Bool) (h : Fin 4) (r : HeadRecord) (s : State) : Answer :=
  if ¬ headInRange r then some .invalid
  else if overlaps loading h r s then some .overlap
  else if (headWindows h s).any fun w => !winFits r.width r.height w then some .inUse
  else none

/-- Whether a change of record is reported to the FU (R68). -/
def headMoved (a b : HeadRecord) : Bool :=
  decide (a.enabled ≠ b.enabled ∨ a.width ≠ b.width ∨ a.height ≠ b.height ∨ a.ox ≠ b.ox ∨ a.oy ≠ b.oy)

/-- An accepted head record (R68). -/
def storeHead (h : Fin 4) (r : HeadRecord) (s : State) : State :=
  let moved := headMoved s.cp.heads[h] r
  let s := s.setCp { s.cp with heads := s.cp.heads.set h r }
  if moved then headReport s else s

/-- A write of a head record (R67, R68). A management write equal to the record held is DONE and changes nothing. -/
def writeHead (loading : Bool) (h : Fin 4) (r : HeadRecord) (s : State) : Answer × State :=
  if ¬ loading ∧ s.cp.heads[h] = r then (none, s)
  else
    match headRefusal loading h r s with
    | some e => (some e, s)
    | none => (none, storeHead h r s)

/-! ## Window lists (R69 to R75) -/

/-- The values of a window record (R69). -/
def windowInRange (w : Window) : Bool :=
  decide (w.id ≤ 5 ∧ w.sx ≤ 3839 ∧ w.sy ≤ 2159 ∧ (w.d = 1 ∨ w.d = 2 ∨ w.d = 4) ∧ w.x ≤ 3839 ∧ w.y ≤ 2159 ∧
    8 ≤ w.w ∧ w.w ≤ 3840 ∧ 8 ≤ w.h ∧ w.h ≤ 2160) &&
  match w.stream with
  | some id => decide (1 ≤ id ∧ id ≤ 1023)
  | none => true

/-- Whether a window's source area lies within its stream, where the stream is loaded (R71). -/
def sourceFits (s : State) (w : Window) : Bool :=
  match w.stream.bind (streamOf s) with
  | some e => decide (w.sx + w.w * w.d ≤ e.content.width ∧ w.sy + w.h * w.d ≤ e.content.height)
  | none => true

/-- Whether a list is valid for head `h` (R71). -/
def listValid (h : Fin 4) (ws : List Window) (s : State) : Bool :=
  decide (ws.length ≤ 6) && decide (ws.map (·.id)).Nodup &&
    ws.all fun w => windowInRange w && winFits s.cp.heads[h].width s.cp.heads[h].height w && sourceFits s w

/-- A write of a staged list (R72). The pending flag is checked before the entry's length and content (notes/assumptions/39.md). -/
def writeStaged (h : Fin 4) (ws : Option (List Window)) (s : State) : Answer × State :=
  if s.cp.pending[h] then (some .latchPending, s)
  else
    match ws with
    | some ws => if listValid h ws s then (none, s.setCp { s.cp with staged := s.cp.staged.set h ws }) else (some .invalid, s)
    | none => (some .invalid, s)

/-- A write of a preset list (R74). -/
def writePreset (i : Fin 32) (ws : Option (List Window)) (s : State) : Answer × State :=
  match ws with
  | some ws =>
    if listValid ⟨i.val % 4, by omega⟩ ws s then (none, s.setCp { s.cp with presets := s.cp.presets.set i ws })
    else (some .invalid, s)
  | none => (some .invalid, s)

/-- COMMIT_LAYOUT with a head set byte (R73, R201). -/
def commitLayout (heads : Byte) (s : State) : Answer × State :=
  if heads = 0 ∨ 16 ≤ heads.toNat then (some .invalid, s)
  else
    (none, s.setCp { s.cp with
      pending := Vector.ofFn fun h => s.cp.pending[h] || heads.getLsbD h.val, current := none })

/-- SELECT_PRESET (R75). -/
def selectPreset (n : Nat) (s : State) : Answer × State :=
  if h : n < 8 then
    (none, s.setCp { s.cp with
      staged := Vector.ofFn fun k => s.cp.presets[presetIndex ⟨n, h⟩ k], pending := Vector.replicate 4 true,
      current := some ⟨n, h⟩ })
  else (some .invalid, s)

/-! ## The boundary (R57, R65, R76, R78) -/

/-- The raster period in thirds of a millisecond: 20 ms at 50 Hz, 1000/60 ms at 60 Hz (R64). -/
def rasterPeriod : FrameRate → Nat
  | .hz50 => 60
  | .hz60 => 50

/-- The set of heads that latch at the next boundary. -/
def anyPending (s : State) : Bool := s.cp.pending.toList.any id

/-- Every pending head latches (R76). -/
def latchAll (s : State) : State :=
  s.setCp { s.cp with
    active := Vector.ofFn fun h => if s.cp.pending[h] then s.cp.staged[h] else s.cp.active[h],
    pending := Vector.replicate 4 false }

/-- What a picture reads of a stream entry (R60, R78). -/
def viewOf (e : StreamEntry) : StreamView := ⟨e.content, e.state, e.front.isSome, e.buffers.map (·.front)⟩

/-- The inputs of the picture that begins now (R78, R81). -/
def takePicture (s : State) : Picture :=
  { shown := s.pu.power = .active, heads := s.cp.heads, lists := s.cp.active, streams := mapTable (Option.map viewOf) s.sr.entries,
    palette := s.cp.palette, focusWindow := s.fu.focus.map fun f => (f.head, f.win),
    held := mapTable (Option.map fun k => k.held) s.cu.slots }

/-- The period that begins at a boundary: the rate now set, and what the boundary came late by (R65, notes/assumptions/20.md). A boundary
that came early begins its period at once (notes/assumptions/2.md). -/
def nextPeriod (s : State) : Raster := ⟨true, s.desk.rate, s.cp.raster.phase - rasterPeriod s.cp.raster.rate⟩

/-- The desk frame boundary: swaps, then latches, then the inputs of the new picture, then the report of the latched heads
(R76, R78, R104). -/
def boundary (s : State) : State :=
  let s := swapAll s
  let latched := anyPending s
  let s := latchAll s
  let s := s.setCp { s.cp with raster := nextPeriod s, picture := some (takePicture s) }
  if latched then fuReevaluate s else s

end Sys2Proof.Machine
end

