-- ==== Sys2Proof/Machine/Input.lean ====
section
/-! DEFINITION. The input unit's handling of desk records (R112 to R124). -/

namespace Sys2Proof.Machine

open Sys2Proof

/-- An input counter updated. -/
def countIu (f : IuCounters → IuCounters) (s : State) : State := s.setIu { s.iu with c := f s.iu.c }

/-- A desk record is discarded and counted as rejected (R112). -/
def rejectRecord (s : State) : State := countIu (fun c => { c with rejected := bump c.rejected }) s

/-- A duplicate press is discarded and counted (R113, R119). -/
def duplicatePress (s : State) : State := countIu (fun c => { c with duplicates := bump c.duplicates }) s

/-- Whether a usage is a modifier code 224..231 (R113). -/
def isModifier (u : Byte) : Bool := decide (224 ≤ u.toNat) && decide (u.toNat ≤ 231)

/-- A modifier code as a set of one. -/
def modBit (u : Byte) : Byte := 1#8 <<< (u.toNat - 224)

/-- A button as a set of one. -/
def buttonBit (b : Byte) : BitVec 5 := 1#5 <<< (b.toNat - 1)

/-- The place of a button 1..5 in the owner set. -/
def buttonIndex (b : Byte) : Option (Fin 5) :=
  if h : 1 ≤ b.toNat ∧ b.toNat ≤ 5 then some ⟨b.toNat - 1, by omega⟩ else none

/-! ## Hot keys (R115 to R117) -/

/-- The hot-key entry that a usage matches with the modifiers physically down (R115). -/
def matchHotKey (u : Byte) (s : State) : Option HotKey :=
  (findIndex (fun k => match k with | some k => k.usage = u && k.mods = s.iu.mods | none => false) s.iu.hotkeys).bind
    fun i => s.iu.hotkeys[i]

/-- The target slot of a claim action or a takeover press: the focus slot, or the last focus slot (R116, R162). -/
def targetSlot (s : State) : Option (Fin 16) := s.fu.focus.map (·.slot) <|> s.fu.last

/-- A claim action on the target slot; without one it is counted (R116). -/
def claimAction (act : Fin 16 → State → State) (s : State) : State :=
  match targetSlot s with
  | some i => act i s
  | none => countIu (fun c => { c with hotNoTarget := bump c.hotNoTarget }) s

/-- A hot-key action at the block that owns what it changes (R116). -/
def runAction (k : HotKey) (s : State) : State :=
  match k.action with
  | .selectPreset => (selectPreset k.arg.toNat s).2
  | .requestShared => claimAction (fun i s => (localRequest (some i) (some .shared) s).2) s
  | .requestExclusive => claimAction (fun i s => (localRequest (some i) (some .exclusive) s).2) s
  | .release => claimAction (fun i s => (localRelease (some i) (some .view) s).2) s
  | .focusLock => focusLockAction s
  | .nextWindow => nextWindowAction s
  | .standby => enterStandby s

/-- A matched key is consumed, or counted where the consumed-key set is full (R117). -/
def consume (u : Byte) (s : State) : State :=
  if s.iu.consumed.length < 16 then s.setIu { s.iu with consumed := s.iu.consumed ++ [u] }
  else countIu (fun c => { c with consumedFull := bump c.consumedFull }) s

/-! ## Keys (R113, R119, R120) -/

/-- The cases of a KEY DOWN after the physical modifier set (R119). -/
def keyDownCases (u : Byte) (s : State) : State :=
  if u ∈ s.iu.consumed ∨ u ∈ s.iu.keys.map (·.1) then duplicatePress s
  else
    match (if isModifier u then none else matchHotKey u s), s.fu.focus with
    | some k, _ => countIu (fun c => { c with hotKeys := bump c.hotKeys }) (runAction k (consume u s))
    | none, none => countIu (fun c => { c with keysNoFocus := bump c.keysNoFocus }) s
    | none, some f =>
      if 16 ≤ s.iu.keys.length then countIu (fun c => { c with keysMapFull := bump c.keysMapFull }) s
      else append f.slot (.key u false) (s.setIu { s.iu with keys := s.iu.keys ++ [(u, f.slot)] })

/-- A KEY DOWN record with a valid usage, already reported to the PU (R113, R119). -/
def keyDown (u : Byte) (s : State) : State :=
  if isModifier u then
    if s.iu.mods &&& modBit u ≠ 0 then duplicatePress s
    else keyDownCases u (s.setIu { s.iu with mods := s.iu.mods ||| modBit u })
  else keyDownCases u s

/-- The cases of a KEY UP after the physical modifier set (R120). -/
def keyUpCases (u : Byte) (s : State) : State :=
  if u ∈ s.iu.consumed then s.setIu { s.iu with consumed := s.iu.consumed.erase u }
  else
    match s.iu.keys.find? fun k => k.1 = u with
    | some k => append k.2 (.key u true) (s.setIu { s.iu with keys := s.iu.keys.erase k })
    | none => countIu (fun c => { c with unownedUps := bump c.unownedUps }) s

/-- A KEY UP record with a valid usage (R113, R120). -/
def keyUp (u : Byte) (s : State) : State :=
  if isModifier u then keyUpCases u (s.setIu { s.iu with mods := s.iu.mods &&& ~~~modBit u }) else keyUpCases u s

/-! ## Buttons, motion, wheel (R121 to R124) -/

/-- A POSITION record at the reported position with the buttons a slot owns (R121, R122). -/
def appendReported (i : Fin 16) (s : State) : State :=
  match s.fu.reported with
  | some p => append i (.position p (ownedBy i s)) s
  | none => s

/-- A BUTTON PRESS of a button 1..5 (R113, R121). -/
def buttonPress (k : Fin 5) (s : State) : State :=
  let bit := 1#5 <<< k.val
  if s.iu.buttons &&& bit ≠ 0 then duplicatePress s
  else
    let s := s.setIu { s.iu with buttons := s.iu.buttons ||| bit }
    match s.fu.focus with
    | some f => appendReported f.slot (s.setIu { s.iu with owners := s.iu.owners.set k (some f.slot) })
    | none => countIu (fun c => { c with buttonsNoFocus := bump c.buttonsNoFocus }) s

/-- A BUTTON RELEASE of a button 1..5 (R113, R122). The end of drag capture is reported after the append, unless the append's
overflow has already reported it. -/
def buttonRelease (k : Fin 5) (s : State) : State :=
  let s := s.setIu { s.iu with buttons := s.iu.buttons &&& ~~~(1#5 <<< k.val) }
  match s.iu.owners[k] with
  | none => s
  | some i =>
    let s := s.setIu { s.iu with owners := s.iu.owners.set k none }
    if anyOwned s then appendReported i s else dragEnd (appendReported i s)

/-- A WHEEL record in range (R124). -/
def wheelTurn (v h : Byte) (s : State) : State :=
  match s.fu.focus with
  | some f => append f.slot (.wheel v h) s
  | none => countIu (fun c => { c with wheelNoFocus := bump c.wheelNoFocus }) s

/-! ## Taking a record (R112) -/

/-- A desk record with valid fields: rejected in LOADING, otherwise reported to the PU and handled (R112). -/
def takeRecord (valid : Bool) (kind : Option WakeKind) (handle : State → State) (s : State) : State :=
  if running s ∧ valid then handle (deskReport kind s) else rejectRecord s

/-! ## The hot-key table (R114) -/

/-- Whether another loaded entry has the same chord (R114). -/
def chordInUse (i : Fin 16) (mods usage : Byte) (s : State) : Bool :=
  (List.finRange 16).any fun j =>
    decide (j ≠ i) && match s.iu.hotkeys[j] with
      | some k => decide (k.mods = mods ∧ k.usage = usage)
      | none => false

/-- A write of a hot-key entry; no bytes are EMPTY content (R114, R201). INVALID comes before IN_USE where both hold
(notes/assumptions/47.md). -/
def writeHotKey (i : Fin 16) (bs : List Byte) (s : State) : Answer × State :=
  match bs with
  | [] => (none, s.setIu { s.iu with hotkeys := s.iu.hotkeys.set i none })
  | [mods, usage, action, arg] =>
    match hotActionOf action with
    | none => (some .invalid, s)
    | some a =>
      if usage = 0 ∨ isModifier usage then (some .invalid, s)
      else if a = .selectPreset ∧ 8 ≤ arg.toNat then (some .invalid, s)
      else if chordInUse i mods usage s then (some .inUse, s)
      else (none, s.setIu { s.iu with hotkeys := s.iu.hotkeys.set i (some ⟨mods, usage, a, arg⟩) })
  | _ => (some .invalid, s)

end Sys2Proof.Machine
end

