-- ==== Sys2Proof/Machine/Tables.lean ====
section
/-! DEFINITION. The thirteen table spaces of the management unit: their codes, sizes and areas, and what a READ of each entry
returns (R172 to R175, R201). -/

namespace Sys2Proof.Machine

open Sys2Proof

/-- The table spaces, in code order (R172, R201). -/
inductive Space where
  | ident
  | desk
  | sources
  | streams
  | presets
  | staged
  | active
  | hotkeys
  | lamps
  | status
  | presence
  | counters
  | events
deriving DecidableEq, Repr

/-- The protection areas (R180). -/
inductive Area where
  | config
  | layout
deriving DecidableEq, Repr

/-- Every space, in code order. -/
def allSpaces : List Space :=
  [.ident, .desk, .sources, .streams, .presets, .staged, .active, .hotkeys, .lamps, .status, .presence, .counters, .events]

/-- The space of a code byte (R201). -/
def spaceOf (b : Byte) : Option Space := allSpaces[b.toNat]?

/-- The number of entries of a space (R172). -/
def spaceSize : Space → Nat
  | .ident => 1
  | .desk => 23
  | .sources => 16
  | .streams => 32
  | .presets => 32
  | .staged => 4
  | .active => 5
  | .hotkeys => 16
  | .lamps => 5
  | .status => 9
  | .presence => 62
  | .counters => 7
  | .events => 2

/-- The area a space lies in (R172, R180). -/
def spaceArea : Space → Option Area
  | .desk | .sources | .streams | .hotkeys | .lamps => some .config
  | .presets | .staged => some .layout
  | .ident | .active | .status | .presence | .counters | .events => none

/-- Whether every entry of a space is read-only (R176, order 2). -/
def readOnlySpace : Space → Bool
  | .ident | .active | .status | .presence | .counters => true
  | .desk | .sources | .streams | .presets | .staged | .hotkeys | .lamps | .events => false

/-- An entry of a table by a number; the default past the table's end. -/
def tableAt {α : Type} {n : Nat} (v : Vector α n) (i : Nat) (d : α) : α := if h : i < n then v[i] else d

/-! ## Entries of the stored spaces -/

/-- A frame rate as the number the DESK entry carries. -/
def rateByte : FrameRate → Byte
  | .hz50 => 50
  | .hz60 => 60

/-- The content of a DESK entry (R173, R201). -/
def deskContent (s : State) : Nat → List Byte
  | 0 => [rateByte s.desk.rate]
  | 1 => headBytes s.cp.heads[0]
  | 2 => headBytes s.cp.heads[1]
  | 3 => headBytes s.cp.heads[2]
  | 4 => headBytes s.cp.heads[3]
  | 5 => (s.cp.palette[0].map colourBytes).getD []
  | 6 => (s.cp.palette[1].map colourBytes).getD []
  | 7 => (s.cp.palette[2].map colourBytes).getD []
  | 8 => (s.cp.palette[3].map colourBytes).getD []
  | 9 => (s.cp.palette[4].map colourBytes).getD []
  | 10 => (s.cp.palette[5].map colourBytes).getD []
  | 11 => [byte s.desk.guard]
  | 12 => [byte s.desk.standby]
  | 13 => [byte s.desk.downshift]
  | 14 => [byte s.desk.energyReset]
  | 15 => [byte s.desk.beaconPeriod]
  | 16 => be16 s.desk.absence
  | 17 => [s.desk.priority]
  | 18 => be16 s.desk.claimTimeout
  | 19 => be16 s.desk.noticeInterval
  | 20 => [s.desk.noticeTarget]
  | 21 => [s.desk.authority]
  | 22 => be32 s.desk.seed
  | _ => []

/-- The content of a directory slot; nothing when EMPTY. -/
def slotContent (k : Option Slot) : List Byte := (k.map fun k => slotBytes k.content).getD []

/-- A buffer number, FFh for none. -/
def bufferByte (b : Option Nat) : Byte := (b.map byte).getD 0xFF

/-- A frame number, 0 for absent. -/
def frameByte (n : Option Nat) : Byte := (n.map byte).getD 0

/-- A counter as two bytes. -/
def counterBytes (c : Counter) : List Byte := be16 c.toNat

/-- The eight stream counters in the order of R62. -/
def streamCounterBytes (c : StreamCounters) : List Byte :=
  [c.completed, c.abandoned, c.superseded, c.duplicates, c.late, c.mismatches, c.noBuffer, c.malformed].flatMap counterBytes

/-- The 25 bytes that a read of a stream entry appends (R201). -/
def streamRunBytes (e : StreamEntry) : List Byte :=
  [StreamState.code e.state, bufferByte (e.buffers.map (·.front)), bufferByte (e.buffers.bind (·.ready)),
    bufferByte (e.buffers.bind (·.assembling)), frameByte e.front, frameByte e.ready, frameByte (e.assembly.map (·.frame))]
    ++ be16 ((e.assembly.map fun a => a.received.length).getD 0) ++ streamCounterBytes e.c

/-- The content of a stream entry as a READ returns it. -/
def streamContentBytes (e : Option StreamEntry) : List Byte :=
  (e.map fun e => streamBytes e.content ++ streamRunBytes e).getD []

/-- The content of a hot-key entry. -/
def hotKeyContent (k : Option HotKey) : List Byte := (k.map hotKeyBytes).getD []

/-- The content of a lamp entry. -/
def lampBytes (b : Vector Behaviour 4) : List Byte := b.toList.map Behaviour.code

/-! ## Entries of the read-only spaces -/

/-- IDENT (R201). The revision is a free value (notes/assumptions/23.md). -/
def identBytes (s : State) : List Byte :=
  be16 0x0D53 ++ be16 0x0416 ++ [Config.revision, own s, flagByte s.cl.loadSel, Validity.code s.cl.deskFlag,
    Validity.code s.cl.layoutFlag, ProtLevel.code s.mu.configLevel, ProtLevel.code s.mu.layoutLevel, seedTag s.cl.seed]

/-- ACTIVE: entries 0..3 the pending flag and the list, entry 4 the current preset. -/
def activeBytes (s : State) (i : Nat) : List Byte :=
  if h : i < 4 then flagByte s.cp.pending[i] :: listBytes s.cp.active[i]
  else [(s.cp.current.map fun p => byte p.val).getD 0xFF]

/-- The wake cause (R167, R201). -/
def wakeBytes : WakeCause → List Byte
  | .takeover => [0]
  | .deskInput k => [1, WakeKind.code k]
  | .management => [2]

/-- STATUS entry 0 (R174). The widths of the numbers in STATUS that R201 does not give are the model's reading
(notes/assumptions/24.md). -/
def statusWest (s : State) : List Byte :=
  [PortState.code s.wlp.state] ++ optBytes capBytes s.wlp.partner ++ optBytes (fun r => [Rate.code r]) s.wlp.agreed
    ++ [byte s.wlp.badFrames]

/-- STATUS entry 1 (widths: notes/assumptions/24.md). -/
def statusEast (s : State) : List Byte :=
  [PortState.code s.elp.state] ++ optBytes capBytes s.elp.partner ++ optBytes (fun r => [Rate.code r]) s.elp.agreed
    ++ [Rate.code s.elp.ceiling, byte s.elp.attempts]

/-- The filtered button state; before the first sample a free value (notes/assumptions/21.md). -/
def buttonByte (s : State) : Byte :=
  match s.pu.filter with
  | some l => ButtonLevel.code l
  | none => flagByte (Config.unsampledButton s.free)

/-- STATUS entry 2. -/
def statusDesk (s : State) : List Byte :=
  [RingState.code s.rf.ring, Power.code s.pu.power] ++ optBytes wakeBytes s.pu.wake
    ++ [buttonByte s, Loader.code s.cl.loader, SaveState.code s.cl.save]

/-- STATUS entry 3: pointer, focus record, accumulator (widths: notes/assumptions/24.md). -/
def statusFocus (s : State) : List Byte :=
  be16 s.fu.x ++ be16 s.fu.y ++ optBytes (fun f => [byte f.slot.val]) s.fu.focus
    ++ optBytes (fun f => [byte f.head.val, byte f.win]) s.fu.focus ++ optBytes (fun i => [byte i.val]) s.fu.last
    ++ [flagByte s.fu.lock] ++ optBytes (fun p => be16 p.stream ++ be16 p.x ++ be16 p.y) s.fu.reported ++ [byte s.fu.accum]

/-- STATUS entry 4 (widths: notes/assumptions/24.md). -/
def statusInput (s : State) : List Byte :=
  [s.iu.mods, s.iu.buttons.setWidth 8, byte s.iu.keys.length] ++ s.iu.keys.flatMap (fun k => [k.1, byte k.2.val])
    ++ s.iu.owners.toList.map fun o => (o.map fun i => byte i.val).getD 0xFF

/-- A claim record inside STATUS (R140). -/
def claimBytes (k : Slot) : List Byte :=
  [Level.code k.held] ++ optBytes (fun r => Level.code r.level :: optBytes be16 r.deadline) k.request
    ++ optBytes (fun a => [a]) k.holder ++ [ClaimOutcome.code k.outcome]

/-- STATUS entry 5, one slot (widths: notes/assumptions/24.md). -/
def statusSlot (s : State) (i : Fin 16) : List Byte :=
  optBytes (fun k => slotBytes k.content) s.cu.slots[i] ++ optBytes claimBytes s.cu.slots[i]
    ++ [flagByte ((s.cu.slots[i].map fun k => nodePresent s k.content.addr).getD false), byte s.iu.queues[i].length]

/-- STATUS entry 6 (widths: notes/assumptions/24.md). -/
def statusStreams (s : State) : List Byte :=
  s.sr.entries.toList.flatMap (optBytes fun e => be16 e.content.id ++ [StreamState.code e.state]) ++ [byte s.sr.free.length]

/-- A list of conditions as a bit field. -/
def conditionByte (l : List Bool) : Byte := l.foldr (fun b acc => (acc <<< 1) ||| flagByte b) 0

/-- STATUS entry 7. -/
def statusLamps (s : State) : List Byte :=
  (List.finRange 5).flatMap fun l => [Behaviour.code (lampShown l s), conditionByte (lampConditions l s)]

/-- STATUS entry 8 (widths: notes/assumptions/24.md). -/
def statusQueues (s : State) : List Byte :=
  [byte s.cu.outbox.length, byte s.rf.insQ.length, byte s.rf.passQ.length, flagByte s.iu.held.isSome,
    flagByte s.cu.offered.isSome]

/-- STATUS (R174). -/
def statusBytes (s : State) : Nat → List Byte
  | 0 => statusWest s
  | 1 => statusEast s
  | 2 => statusDesk s
  | 3 => statusFocus s
  | 4 => statusInput s
  | 5 => (List.finRange 16).flatMap (statusSlot s)
  | 6 => statusStreams s
  | 7 => statusLamps s
  | _ => statusQueues s

/-- PRESENCE (R201). A role or desk priority that is not recorded is sent as 0 (notes/assumptions/43.md). -/
def presenceBytes (e : PresenceEntry) : List Byte :=
  [flagByte e.present ||| (flagByte e.role.isSome <<< 1) ||| (flagByte e.priority.isSome <<< 2),
    (e.role.map Role.code).getD 0, (e.sol.map byte).getD 0, e.priority.getD 0]
    ++ be16 (e.time.getD 65535) ++ counterBytes e.gaps

/-- COUNTERS, in the orders of R2, R41, R134, R154, R168 and R187. -/
def blockCounters (s : State) : Nat → List Counter
  | 0 => [s.wlp.linkDown, s.wlp.crcErrors, s.wlp.truncated]
  | 1 => [s.elp.linkDown]
  | 2 => [s.rf.c.stripped, s.rf.c.orphans, s.rf.c.unexpected, s.rf.c.loading, s.rf.c.stripOverflow, s.rf.c.stripDisplaced,
      s.rf.c.overflow, s.rf.c.noEgress, s.rf.c.insFull, s.rf.c.sent, s.rf.c.beaconsSkipped, s.rf.c.beaconRejects]
  | 3 => [s.iu.c.rejected, s.iu.c.duplicates, s.iu.c.hotKeys, s.iu.c.hotNoTarget, s.iu.c.consumedFull, s.iu.c.keysNoFocus,
      s.iu.c.keysMapFull, s.iu.c.unownedUps, s.iu.c.buttonsNoFocus, s.iu.c.wheelNoFocus, s.iu.c.overflows,
      s.iu.c.overflowDiscards, s.iu.c.slotDiscards, s.iu.c.framesBuilt]
  | 4 => [s.cu.c.requestsSent, s.cu.c.releasesSent, s.cu.c.refused, s.cu.c.replaced, s.cu.c.grants, s.cu.c.unsolicited,
      s.cu.c.denies, s.cu.c.unmatchedDenies, s.cu.c.revokes, s.cu.c.timeouts, s.cu.c.absences, s.cu.c.rejected]
  | 5 => [s.pu.c.presses, s.pu.c.noTarget, s.pu.c.standbys, s.pu.c.wakes]
  | _ => [s.mu.c.taken, s.mu.c.overruns, s.mu.c.malformed, s.mu.c.protectedRefusals, s.mu.c.responses, s.mu.c.notices]

/-! ## READ (R175) -/

/-- The content of an entry as a READ returns it. -/
def readEntry (sp : Space) (i : Nat) (s : State) : List Byte :=
  match sp with
  | .ident => identBytes s
  | .desk => deskContent s i
  | .sources => slotContent (tableAt s.cu.slots i none)
  | .streams => streamContentBytes (tableAt s.sr.entries i none)
  | .presets => listBytes (tableAt s.cp.presets i [])
  | .staged => listBytes (tableAt s.cp.staged i [])
  | .active => activeBytes s i
  | .hotkeys => hotKeyContent (tableAt s.iu.hotkeys i none)
  | .lamps => lampBytes (tableAt s.pu.lamps i (defaultLamp 0))
  | .status => statusBytes s i
  | .presence => presenceBytes (tableAt s.rf.presence i presenceStart)
  | .counters => (blockCounters s i).flatMap counterBytes
  | .events => if i = 0 then be16 s.mu.events.toNat else be16 s.mu.mask.toNat

/-- The entries from an index on: up to the count, the end of the space, or the first that does not fit in the room left. -/
def readFrom (sp : Space) (s : State) : Nat → Nat → Nat → List (List Byte)
  | 0, _, _ => []
  | n + 1, i, room =>
    if i < spaceSize sp then
      let e := entryBytes (readEntry sp i s)
      if e.length ≤ room then e :: readFrom sp s n (i + 1) (room - e.length) else []
    else []

end Sys2Proof.Machine
end

