-- ==== Sys2Proof/Machine/Settings.lean ====
section
/-! DEFINITION. The write of one table entry at its owning block (R173, R176, R177, R183, R185, R191). -/

namespace Sys2Proof.Machine

open Sys2Proof

/-! ## Effects that a setting has at once -/

/-- The notice interval expires: a due notice is built then, otherwise the interval simply stops (R184). -/
def noticeExpired (s : State) : State := tryNotice (s.setMu { s.mu with interval := none })

/-- The address of an entry of the presence table. -/
def entryAddress (n : Fin 62) : Byte := byte (n.val + 1)

/-- The absence timer of an entry expires (R38). -/
def absenceExpired (n : Fin 62) (s : State) : State :=
  nodeIsAbsent (entryAddress n)
    (s.setRf { s.rf with presence := s.rf.presence.set n { s.rf.presence[n] with present := false } })

/-- Whether an entry's time since its last beacon stands at or beyond a timeout, the entry being present and not the own one. -/
def absenceReached (limit : Nat) (n : Fin 62) (s : State) : Bool :=
  s.rf.presence[n].present && decide (entryAddress n ≠ own s) && decide (limit ≤ s.rf.presence[n].time.getD 0)

/-- Every present entry already beyond a new absence timeout expires at once, in address order (R38). -/
def applyAbsence (s : State) : State :=
  (List.finRange 62).foldl (fun s n => if absenceReached s.desk.absence n s then absenceExpired n s else s) s

/-- A new energy reset time acts on the timers already running (R19). -/
def applyEnergyReset (s : State) : State :=
  let s := if s.desk.energyReset * 1000 ≤ s.wlp.silence.getD 0 then silenceExpired .west s else s
  if s.desk.energyReset * 1000 ≤ s.elp.silence.getD 0 then silenceExpired .east s else s

/-- A new notice interval governs the interval now running (R185). -/
def applyNoticeInterval (s : State) : State :=
  match s.mu.interval with
  | some t => if s.desk.noticeInterval ≤ t then noticeExpired s else s
  | none => s

/-- A write of the event mask; unmasking a pending kind makes a notice due (R183, R184). -/
def writeMask (m : EventSet) (s : State) : State :=
  let unmasked := s.mu.events &&& s.mu.mask &&& ~~~m
  let s := s.setMu { s.mu with mask := m }
  if unmasked ≠ 0 then makeDue s else s

/-! ## DESK entries (R173) -/

/-- A setting written: refused as INVALID outside its values, otherwise applied. -/
def settle (ok : Bool) (f : State → State) (s : State) : Answer × State := if ok then (none, f s) else (some .invalid, s)

/-- The one-byte or two-byte number an entry carries; none where its length is another. -/
def number (width : Nat) (bs : List Byte) : Option Nat :=
  if bs.length = width then some (if width = 1 then at8 bs 0 else at16 bs 0) else none

/-- A number setting: its width, its lowest and highest value, and its effect. -/
def numberSetting (width lo hi : Nat) (bs : List Byte) (f : Nat → State → State) (s : State) : Answer × State :=
  match number width bs with
  | some n => settle (decide (lo ≤ n ∧ n ≤ hi)) (f n) s
  | none => (some .invalid, s)

/-- The desk frame rate, entry 0 (R65). -/
def writeRate (bs : List Byte) (s : State) : Answer × State :=
  if bs = [50] then (none, s.setDesk { s.desk with rate := .hz50 })
  else if bs = [60] then (none, s.setDesk { s.desk with rate := .hz60 })
  else (some .invalid, s)

/-- A head record, entries 1..4 (R67, R201). -/
def writeHeadEntry (loading : Bool) (h : Fin 4) (bs : List Byte) (s : State) : Answer × State :=
  match parseHead bs with
  | some r => writeHead loading h r s
  | none => (some .invalid, s)

/-- A palette entry, entries 5..10: a colour, or absent (R83). -/
def writePalette (k : Fin 6) (bs : List Byte) (s : State) : Answer × State :=
  if bs = [] then (none, s.setCp { s.cp with palette := s.cp.palette.set k none })
  else settle (decide (bs.length = 3)) (fun s => s.setCp { s.cp with palette := s.cp.palette.set k (some (colourAt bs 0)) }) s

/-- The crossing guard distance, entry 11: every write clears the accumulator (R99). -/
def writeGuard (n : Nat) (s : State) : State :=
  (s.setDesk { s.desk with guard := n }).setFu { s.fu with accum := 0 }

/-- The energy reset time, entry 14 (R19). -/
def writeEnergyReset (n : Nat) (s : State) : State :=
  if n = s.desk.energyReset then s else applyEnergyReset (s.setDesk { s.desk with energyReset := n })

/-- The node absence timeout, entry 16 (R38). -/
def writeAbsence (n : Nat) (s : State) : State :=
  if n = s.desk.absence then s else applyAbsence (s.setDesk { s.desk with absence := n })

/-- The notice interval, entry 19 (R185). -/
def writeNoticeInterval (n : Nat) (s : State) : State :=
  if n = s.desk.noticeInterval then s else applyNoticeInterval (s.setDesk { s.desk with noticeInterval := n })

/-- Whether a byte may stand as notice target or authority node: 0, or 1..62 other than the own address (R173). -/
def namesNode (s : State) (b : Byte) : Bool := decide (b = 0) || (nodeInRange b && decide (b ≠ own s))

/-- The notice target, entry 20: a write of 0 clears the due mark (R185). -/
def writeNoticeTarget (b : Byte) (s : State) : State :=
  let s := s.setDesk { s.desk with noticeTarget := b }
  if b = 0 then s.setMu { s.mu with due := false } else s

/-- Whether an origin is the authority node (R180). -/
def isAuthority (origin : Byte) (s : State) : Bool := decide (s.desk.authority = 0) || decide (origin = s.desk.authority)

/-- The authority node, entry 21 (R173). -/
def writeAuthority (loading : Bool) (origin : Byte) (bs : List Byte) (s : State) : Answer × State :=
  if ¬ loading ∧ ¬ isAuthority origin s then (some .notAuthority, s)
  else
    match bs with
    | [b] => settle (namesNode s b) (fun s => s.setDesk { s.desk with authority := b }) s
    | _ => (some .invalid, s)

/-- The write of a DESK entry at its owner. -/
def writeDesk (loading : Bool) (origin : Byte) (i : Nat) (bs : List Byte) (s : State) : Answer × State :=
  match i with
  | 0 => writeRate bs s
  | 1 => writeHeadEntry loading 0 bs s
  | 2 => writeHeadEntry loading 1 bs s
  | 3 => writeHeadEntry loading 2 bs s
  | 4 => writeHeadEntry loading 3 bs s
  | 5 => writePalette 0 bs s
  | 6 => writePalette 1 bs s
  | 7 => writePalette 2 bs s
  | 8 => writePalette 3 bs s
  | 9 => writePalette 4 bs s
  | 10 => writePalette 5 bs s
  | 11 => numberSetting 1 0 255 bs writeGuard s
  | 12 => numberSetting 1 0 240 bs writeStandby s
  | 13 => numberSetting 1 1 15 bs (fun n s => s.setDesk { s.desk with downshift := n }) s
  | 14 => numberSetting 1 1 255 bs writeEnergyReset s
  | 15 => numberSetting 1 1 255 bs (fun n s => s.setDesk { s.desk with beaconPeriod := n }) s
  | 16 => numberSetting 2 100 5000 bs writeAbsence s
  | 17 => numberSetting 1 0 255 bs (fun n s => s.setDesk { s.desk with priority := byte n }) s
  | 18 => numberSetting 2 20 2000 bs (fun n s => s.setDesk { s.desk with claimTimeout := n }) s
  | 19 => numberSetting 2 10 1000 bs writeNoticeInterval s
  | 20 =>
    match bs with
    | [b] => settle (namesNode s b) (writeNoticeTarget b) s
    | _ => (some .invalid, s)
  | 21 => writeAuthority loading origin bs s
  | 22 => settle (decide (bs.length = 4)) (fun s => s.setDesk { s.desk with seed := at32 bs 0 }) s
  | _ => (some .invalid, s)

/-! ## One entry of any space -/

/-- The write of a directory slot's entry; no bytes are EMPTY content (R201). -/
def writeSlotEntry (i : Fin 16) (bs : List Byte) (s : State) : Answer × State :=
  if bs = [] then writeSlot i none s
  else
    match parseSlot bs with
    | some c => writeSlot i (some c) s
    | none => (some .invalid, s)

/-- The write of an entry of the EVENTS space: the mask alone may be written (R176, R183). -/
def writeEvents (i : Nat) (bs : List Byte) (s : State) : Answer × State :=
  if i = 1 then settle (decide (bs.length = 2)) (writeMask (byteAt bs 0 ++ byteAt bs 1)) s else (some .invalid, s)

/-- One entry handed to its owning block; an index past the space's last entry is refused (R176). -/
def writeEntry (loading : Bool) (origin : Byte) (sp : Space) (i : Nat) (bs : List Byte) (s : State) : Answer × State :=
  match sp with
  | .desk => writeDesk loading origin i bs s
  | .sources => if h : i < 16 then writeSlotEntry ⟨i, h⟩ bs s else (some .invalid, s)
  | .streams => if h : i < 32 then writeStream ⟨i, h⟩ bs s else (some .invalid, s)
  | .presets => if h : i < 32 then writePreset ⟨i, h⟩ (parseList bs) s else (some .invalid, s)
  | .staged => if h : i < 4 then writeStaged ⟨i, h⟩ (parseList bs) s else (some .invalid, s)
  | .hotkeys => if h : i < 16 then writeHotKey ⟨i, h⟩ bs s else (some .invalid, s)
  | .lamps => if h : i < 5 then writeLamp ⟨i, h⟩ bs s else (some .invalid, s)
  | .events => writeEvents i bs s
  | .ident | .active | .status | .presence | .counters => (some .invalid, s)

/-- The entries of a WRITE in order, up to the first refused: its answer, the number applied, and the state left (R176). -/
def writeEntries (origin : Byte) (sp : Space) : Nat → List (List Byte) → State → Answer × Nat × State
  | _, [], s => (none, 0, s)
  | i, bs :: rest, s =>
    match writeEntry false origin sp i bs s with
    | (some r, t) => (some r, 0, t)
    | (none, t) =>
      let r := writeEntries origin sp (i + 1) rest t
      (r.1, r.2.1 + 1, r.2.2)

end Sys2Proof.Machine
end

