-- ==== Sys2Proof/Machine/Manage.lean ====
section
/-! DEFINITION. The management unit: taking a request, its form, its handling by kind, and its response (R169 to R171, R175 to
R181, R183, R186, R194). -/

namespace Sys2Proof.Machine

open Sys2Proof

/-! ## Responses (R171, R201) -/

/-- The outcomes of a response. -/
inductive Outcome where
  | done
  | refused (r : Reason)
  | isProtected
  | unknown
deriving DecidableEq, Repr

/-- Outcome codes (R201). -/
def outcomeCode : Outcome → Byte
  | .done => 0
  | .refused _ => 1
  | .isProtected => 2
  | .unknown => 3

/-- Reason codes (R201). -/
def reasonCode : Reason → Byte
  | .invalid => 1
  | .inUse => 2
  | .overlap => 3
  | .latchPending => 4
  | .saving => 5
  | .notAuthority => 6
  | .belowHeld => 7

/-- The reason byte of an outcome; 0 for none. -/
def outcomeReason : Outcome → Byte
  | .refused r => reasonCode r
  | .done | .isProtected | .unknown => 0

/-- What a request is answered with. -/
structure Reply where
  outcome : Outcome
  count : Nat
  entries : List (List Byte)
  reset : Bool
deriving DecidableEq, Repr

/-- An answer with no entries and count done 0. -/
def Reply.plain (o : Outcome) : Reply := ⟨o, 0, [], false⟩

/-- The outcome an owning block's answer gives. -/
def answerOutcome : Answer → Outcome
  | none => .done
  | some r => .refused r

/-- The MGMT_RSP payload (R201). -/
def responsePayload (tag : BitVec 16) (r : Reply) : List Byte :=
  be16 tag.toNat ++ [outcomeCode r.outcome, outcomeReason r.outcome, byte r.count] ++ r.entries.flatten

/-- A management counter updated. -/
def countMu (f : MuCounters → MuCounters) (s : State) : State := s.setMu { s.mu with c := f s.mu.c }

/-! ## READ and WRITE (R175, R176) -/

/-- The level of an area (R180). -/
def areaLevel (a : Area) (s : State) : ProtLevel :=
  match a with
  | .config => s.mu.configLevel
  | .layout => s.mu.layoutLevel

/-- Whether a READ of a space is PROTECTED for an origin (R175, R180). -/
def readProtected (sp : Space) (origin : Byte) (s : State) : Bool :=
  match spaceArea sp with
  | some a => decide (areaLevel a s = .readWriteLocked) && !isAuthority origin s
  | none => false

/-- Whether a WRITE of a space is PROTECTED (R176, R180). -/
def writeProtected (sp : Space) (s : State) : Bool :=
  match spaceArea sp with
  | some a => decide (areaLevel a s ≠ .open)
  | none => false

/-- A request answered PROTECTED (R187). -/
def protect (s : State) : Reply × State :=
  (.plain .isProtected, countMu (fun c => { c with protectedRefusals := bump c.protectedRefusals }) s)

/-- The room for entries in a response payload: 1024 bytes less the 5 fixed ones (R175, R201). -/
def readRoom : Nat := 1019

/-- READ. -/
def doRead (origin : Byte) (space first count : Byte) (s : State) : Reply × State :=
  match spaceOf space with
  | none => (.plain .unknown, s)
  | some sp =>
    if spaceSize sp ≤ first.toNat then (.plain .unknown, s)
    else if readProtected sp origin s then protect s
    else
      let es := readFrom sp s count.toNat first.toNat readRoom
      (⟨.done, es.length, es, false⟩, s)

/-- WRITE, its entries already cut out. -/
def doWrite (origin : Byte) (space first : Byte) (entries : List (List Byte)) (s : State) : Reply × State :=
  match spaceOf space with
  | none => (.plain .unknown, s)
  | some sp =>
    if spaceSize sp ≤ first.toNat then (.plain .unknown, s)
    else if readOnlySpace sp then (.plain (.refused .invalid), s)
    else if writeProtected sp s then protect s
    else if (spaceArea sp).isSome ∧ s.cl.save ≠ .idle then (.plain (.refused .saving), s)
    else
      let r := writeEntries origin sp first.toNat entries s
      (⟨answerOutcome r.1, r.2.1, [], false⟩, r.2.2)

/-! ## Requests that act (R178, R179, R181, R183, R186) -/

/-- A slot byte as a slot 0..15. -/
def slotOfByte (b : Byte) : Option (Fin 16) := if h : b.toNat < 16 then some ⟨b.toNat, h⟩ else none

/-- A power state byte (R201). -/
def powerOf (b : Byte) : Option Power := if b = 0 then some .active else if b = 1 then some .standby else none

/-- Every counter of the part set to 0 (R186). -/
def clearCounters (s : State) : State :=
  let s := (s.setWlp { s.wlp with linkDown := 0, crcErrors := 0, truncated := 0 }).setElp { s.elp with linkDown := 0 }
  let s := s.setRf { s.rf with c := rfCountersZero, presence := mapTable (fun e => { e with gaps := 0 }) s.rf.presence }
  let s := s.setSr { s.sr with entries := mapTable (Option.map fun e => { e with c := streamCountersZero }) s.sr.entries }
  let s := (s.setIu { s.iu with c := iuCountersZero }).setCu { s.cu with c := cuCountersZero }
  (s.setPu { s.pu with c := puCountersZero }).setMu { s.mu with c := muCountersZero }

/-- ACK_EVENTS (R183). -/
def ackEvents (e : EventSet) (s : State) : State := s.setMu { s.mu with events := s.mu.events &&& ~~~e }

/-- An area byte (R201). -/
def areaOf (b : Byte) : Option Area := if b = 0 then some .config else if b = 1 then some .layout else none

/-- SET_PROTECTION (R181). Where several reasons hold, the first that R181 names is answered: NOT_AUTHORITY, INVALID, SAVING
(notes/assumptions/42.md). -/
def setProtection (origin area level : Byte) (s : State) : Answer × State :=
  if ¬ isAuthority origin s then (some .notAuthority, s)
  else
    match areaOf area, protLevelOf level with
    | some a, some l =>
      if s.cl.save ≠ .idle then (some .saving, s)
      else
        match a with
        | .config => (none, s.setMu { s.mu with configLevel := l })
        | .layout => (none, s.setMu { s.mu with layoutLevel := l })
    | _, _ => (some .invalid, s)

/-- The entries of a stored space, each with its length byte. -/
def storedEntries (contents : List (List Byte)) : List Byte := contents.flatMap entryBytes

/-- The content of the DESK area (R194, R202). -/
def deskArea (s : State) : List Byte :=
  storedEntries ((List.range 23).map (deskContent s)) ++ storedEntries (s.cu.slots.toList.map slotContent)
    ++ storedEntries (s.sr.entries.toList.map fun e => (e.map fun e => streamBytes e.content).getD [])
    ++ storedEntries (s.iu.hotkeys.toList.map hotKeyContent) ++ storedEntries (s.pu.lamps.toList.map lampBytes)
    ++ [ProtLevel.code s.mu.configLevel]

/-- The content of the LAYOUT area (R194, R202). -/
def layoutArea (s : State) : List Byte :=
  storedEntries (s.cp.presets.toList.map listBytes) ++ storedEntries (s.cp.staged.toList.map listBytes)
    ++ [ProtLevel.code s.mu.layoutLevel]

/-- SAVE (R179, R194). -/
def beginSave (s : State) : Answer × State :=
  if s.cl.save = .idle then
    (none, s.setCl { s.cl with save := .writingLayout, snapshot := some ⟨deskArea s, layoutArea s⟩ })
  else (some .saving, s)

/-- RESET (R179): answered DONE, the soft reset waits for the response. -/
def doReset (origin : Byte) (s : State) : Reply × State :=
  if isAuthority origin s then (⟨.done, 0, [], true⟩, s) else (.plain (.refused .notAuthority), s)

/-! ## Form (R169, R201) -/

/-- The bytes the fields of a request kind take after the kind byte; none for a kind that is none of the twelve. -/
def fieldBytes (kind : Byte) : Option Nat :=
  [none, some 3, some 3, some 1, some 1, some 2, some 2, some 1, some 2, some 0, some 2, some 0, some 0].getD kind.toNat none

/-- The entries of a WRITE, where they fill the payload exactly. -/
def writeEntriesOf (p : List Byte) : Option (List (List Byte)) :=
  match takeEntries (at8 p 5) (p.drop 6) with
  | (es, some []) => es.mapM id
  | _ => none

/-- Whether a payload passes the form check. -/
def formValid (p : List Byte) : Bool :=
  decide (p.length ≤ 1024) && decide (3 ≤ p.length) &&
    match fieldBytes (byteAt p 2) with
    | some n => decide (3 + n ≤ p.length) && (byteAt p 2 ≠ 2 || (writeEntriesOf p).isSome)
    | none => false

/-- An owning block's answer as a reply. -/
def answered (r : Answer × State) : Reply × State := (.plain (answerOutcome r.1), r.2)

/-- A request that has passed the form check, handled by its kind. -/
def handle (origin : Byte) (p : List Byte) (s : State) : Reply × State :=
  match (byteAt p 2).toNat with
  | 1 => doRead origin (byteAt p 3) (byteAt p 4) (byteAt p 5) s
  | 2 => doWrite origin (byteAt p 3) (byteAt p 4) ((writeEntriesOf p).getD []) s
  | 3 => answered (commitLayout (byteAt p 3) s)
  | 4 => answered (selectPreset (at8 p 3) s)
  | 5 => answered (localRequest (slotOfByte (byteAt p 3)) (levelOf (byteAt p 4)) s)
  | 6 => answered (localRelease (slotOfByte (byteAt p 3)) (levelOf (byteAt p 4)) s)
  | 7 => answered (setPower (powerOf (byteAt p 3)) s)
  | 8 => (.plain .done, ackEvents (byteAt p 3 ++ byteAt p 4) s)
  | 9 => (.plain .done, clearCounters s)
  | 10 => answered (setProtection origin (byteAt p 3) (byteAt p 4) s)
  | 11 => answered (beginSave s)
  | _ => doReset origin s

/-- A request refused for its form (R169). -/
def refuseForm (s : State) : Reply × State :=
  (.plain (.refused .invalid), countMu (fun c => { c with malformed := bump c.malformed }) s)

/-! ## Taking a request (R169, R170) -/

/-- The tag of a request. Bytes that a short payload does not carry are free values (notes/assumptions/22.md). -/
def tagOf (p : List Byte) (s : State) : BitVec 16 × State :=
  match p with
  | a :: b :: _ => (a ++ b, s)
  | [a] => (a ++ Config.missingTagByte s.free, s.setFree (s.free + 1))
  | [] => (Config.missingTagByte s.free ++ Config.missingTagByte (s.free + 1), s.setFree (s.free + 2))

/-- The response to the request in work. -/
def responseEntry (origin : Byte) (tag : BitVec 16) (r : Reply) (s : State) : InsEntry :=
  ⟨⟨kindMgmtRsp, origin, own s, 63, responsePayload tag r⟩, r.reset⟩

/-- A MGMT_REQ from a node 1..62 with no request in work: taken, checked, handled and answered. -/
def serveRequest (f : Frame) (s : State) : State :=
  let t := tagOf f.payload s
  let s := t.2.setMu { t.2.mu with work := some ⟨f.origin, t.1, false⟩ }
  let s := countMu (fun c => { c with taken := bump c.taken }) s
  let r := if formValid f.payload then handle f.origin f.payload s else refuseForm s
  offerResponse (responseEntry f.origin t.1 r.1 r.2) r.2

/-- A MGMT_REQ frame handed to the MU. -/
def requestTaken (f : Frame) (s : State) : State :=
  if ¬ nodeInRange f.origin then countMu (fun c => { c with malformed := bump c.malformed }) s
  else if s.mu.work.isSome then countMu (fun c => { c with overruns := bump c.overruns }) s
  else serveRequest f s

end Sys2Proof.Machine
end

