-- ==== Sys2Proof/Machine/Receive.lean ====
section
/-! DEFINITION. The receive decision of the ring forwarder (R14, R15, R21 to R25) and the presence table (R36, R37, R39). -/

namespace Sys2Proof.Machine

open Sys2Proof

/-- A forwarding counter updated. -/
def countRf (f : RfCounters → RfCounters) (s : State) : State := s.setRf { s.rf with c := f s.rf.c }

/-! ## Beacons (R36, R37, R39, R200) -/

/-- The fields of a beacon. -/
structure Beacon where
  role : Role
  sol : Nat
  priority : Byte
  restart : Bool
deriving DecidableEq, Repr

/-- The beacon a payload holds, none where R36 or R200 rejects it. -/
def parseBeacon (p : List Byte) (s : State) : Option Beacon :=
  match p with
  | [role, sol, priority, flags, tag] =>
    match roleOf role with
    | some r =>
      if 1 ≤ sol.toNat ∧ sol.toNat ≤ 63 ∧ tag = seedTag s.cl.seed then some ⟨r, sol.toNat, priority, flags.getLsbD 0⟩ else none
    | none => none
  | _ => none

/-- A presence entry with a beacon's fields recorded; `gap` says that its number did not follow on. -/
def recordBeacon (b : Beacon) (gap : Bool) (e : PresenceEntry) : PresenceEntry :=
  { present := true, role := some b.role, sol := some b.sol, priority := if b.role = .desk then some b.priority else none,
    time := some 0, gaps := if gap then bump e.gaps else e.gaps }

/-- Whether a number neither follows on from the last one nor repeats it (R36). -/
def notFollowing (last : Option Nat) (sol : Nat) : Bool :=
  match last with
  | some l => decide (sol ≠ nextSol l) && decide (sol ≠ l)
  | none => false

/-- An accepted beacon at the entry of its origin (R36, R37). -/
def updatePresence (n : Fin 62) (b : Beacon) (s : State) : State :=
  let e := s.rf.presence[n]
  let gap := e.present && !b.restart && notFollowing e.sol b.sol
  let s := s.setRf { s.rf with presence := s.rf.presence.set n (recordBeacon b gap e) }
  if ¬ e.present then nodeIsPresent (entryAddress n) s
  else if b.restart then nodeIsPresent (entryAddress n) (nodeIsAbsent (entryAddress n) s)
  else s

/-- A taken BEACON from another node (R36). -/
def beaconTaken (f : Frame) (s : State) : State :=
  match nodeIndex f.origin, parseBeacon f.payload s with
  | some n, some b => updatePresence n b s
  | _, _ => countRf (fun c => { c with beaconRejects := bump c.beaconRejects }) s

/-- What a stripped own beacon records in the own entry; the role is DESK whatever the payload says (R39). Its sign-of-life and
priority bytes are recorded as they stand, and as 0 where the payload is too short to carry them (notes/assumptions/38.md). -/
def ownBeacon (p : List Byte) : Beacon := ⟨.desk, at8 p 1, byteAt p 2, false⟩

/-- A stripped own BEACON refreshes the ring closure where both ports are UP (R39), whatever the length and the fields of its payload
(notes/assumptions/38.md). -/
def refreshClosure (f : Frame) (s : State) : State :=
  if s.wlp.state = .up ∧ s.elp.state = .up then
    match nodeIndex (own s) with
    | some n =>
      let e := s.rf.presence[n]
      let b := ownBeacon f.payload
      deriveRing (s.setRf { s.rf with
        presence := s.rf.presence.set n (recordBeacon b (notFollowing e.sol b.sol) e),
        closure := some ⟨0, 4 * s.desk.beaconPeriod⟩ })
    | none => s
  else s

/-! ## The receive decision (R21 to R25) -/

/-- An own-origin frame is stripped (R22). -/
def stripFrame (f : Frame) (s : State) : State :=
  let s := countRf (fun c => { c with stripped := bump c.stripped }) s
  if f.kind = kindBeacon then refreshClosure f s else s

/-- A taken frame goes to the block that consumes its kind; in LOADING it is discarded and counted (R24, R25). -/
def takeFrame (f : Frame) (s : State) : State :=
  if ¬ running s then countRf (fun c => { c with loading := bump c.loading }) s
  else if f.kind = kindClaim then claimTaken f s
  else if f.kind = kindMgmtReq then requestTaken f s
  else if f.kind = kindBeacon then beaconTaken f s
  else countRf (fun c => { c with unexpected := bump c.unexpected }) s

/-- The offer of a STRIP to the SR, in ACTIVE and RUNNING (R24, R25). -/
def copyStrip (f : Frame) (s : State) : State :=
  if running s ∧ s.pu.power = .active then offerStrip f.payload s else s

/-- A frame with its hop count decremented is handled by kind and destination (R24). It is forwarded before it is taken or
offered (notes/assumptions/14.md). -/
def routeFrame (f : Frame) (s : State) : State :=
  if f.kind = kindStrip then copyStrip f (forward f s)
  else if f.dest = allNodes then takeFrame f (forward f s)
  else if f.dest = own s then takeFrame f s
  else forward f s

/-- The receive decision for a frame judged good (R21). -/
def decideFrame (f : Frame) (s : State) : State :=
  if f.origin = own s then stripFrame f s
  else if f.hop = 0 then countRf (fun c => { c with orphans := bump c.orphans }) s
  else routeFrame { f with hop := f.hop - 1 } s

/-! ## The WLP's judgement (R14, R15) -/

/-- The WLP's counts after a verdict. -/
def countVerdict (v : Verdict) (s : State) : State :=
  match v with
  | .good => s.setWlp { s.wlp with badFrames := 0 }
  | .crcError => s.setWlp { s.wlp with badFrames := s.wlp.badFrames + 1, crcErrors := bump s.wlp.crcErrors }
  | .truncated => s.setWlp { s.wlp with badFrames := s.wlp.badFrames + 1, truncated := bump s.wlp.truncated }

/-- A frame's end is seen at the WLP. Where the count already stands at 16 the error burst comes first, and the WLP is then no
longer UP (notes/assumptions/10.md). -/
def frameSeen (bytes : List Byte) (s : State) : State :=
  if s.wlp.state ≠ .up then s
  else if s.wlp.badFrames = 16 then errorBurst false s
  else
    match judgeFrame s.cl.seed bytes with
    | (.good, some f) => decideFrame f (countVerdict .good s)
    | (v, _) => countVerdict v s

end Sys2Proof.Machine
end

