-- ==== Sys2Proof/Machine/Load.lean ====
section
/-! DEFINITION. The load of the stored image and its completion (R190 to R192, R202), and the steps of a save (R195). -/

namespace Sys2Proof.Machine

open Sys2Proof

/-! ## Reading the image (R190, R202) -/

/-- Whether the header read is good: answered, not left part-written, with the format mark and version. -/
def headerGood (a : SerialAnswers) (s : State) : Bool :=
  a.header && !s.serial.headerBad && decide (Memory.readRange s.serial.cells 0 5 = be32 0x46443136#32 ++ [1])

/-- Whether the bytes of an area and the CRC stored after them agree. -/
def crcGood (base len : Nat) (s : State) : Bool :=
  decide (be32 (crc 0xFFFFFFFF#32 (Memory.readRange s.serial.cells base len)) = Memory.readRange s.serial.cells (base + len) 4)

/-- Whether the DESK area is good. -/
def deskGood (a : SerialAnswers) (s : State) : Bool :=
  headerGood a s && a.desk && !s.serial.deskBad && crcGood deskBase deskLen s

/-- Whether the LAYOUT area is good. -/
def layoutGood (a : SerialAnswers) (s : State) : Bool :=
  headerGood a s && a.layout && !s.serial.layoutBad && crcGood layoutBase layoutLen s

/-- What an area brings: its entries in order, none for one that runs past the CRC field, and its level. -/
structure Image where
  entries : List (Option (List Byte))
  level : Option ProtLevel
deriving DecidableEq, Repr

/-- The image of a good area with `n` entries. -/
def storedImage (base len n : Nat) (s : State) : Image :=
  let r := takeEntries n (Memory.readRange s.serial.cells base len)
  ⟨r.1, (r.2.bind List.head?).bind protLevelOf⟩

/-- The built-in default content of an entry (R190): what it holds right after power-on reset. -/
def defaultContent (sp : Space) (i : Nat) : List Byte :=
  match sp with
  | .desk => deskContent State.reset i
  | .lamps => lampBytes (tableAt State.reset.pu.lamps i (defaultLamp 0))
  | .presets | .staged => [0]
  | .sources | .streams | .hotkeys | .ident | .active | .status | .presence | .counters | .events => []

/-- The entries of a space, in order. -/
def indices (sp : Space) (n : Nat) : List (Space × Nat) := (List.range n).map fun i => (sp, i)

/-- The entries of the DESK area in the order of R191. -/
def deskOrder : List (Space × Nat) :=
  indices .desk 23 ++ indices .sources 16 ++ indices .streams 32 ++ indices .hotkeys 16 ++ indices .lamps 5

/-- The entries of the LAYOUT area in the order of R191. -/
def layoutOrder : List (Space × Nat) := indices .presets 32 ++ indices .staged 4

/-- The image of the built-in defaults of an area, level OPEN. -/
def defaultImage (order : List (Space × Nat)) : Image := ⟨order.map fun e => some (defaultContent e.1 e.2), some .open⟩

/-! ## Bringing an area into force (R191) -/

/-- The default of a head record whose stored record was refused: with its enabled flag clear where it would overlap (R191). -/
def fallbackHead (h : Fin 4) (s : State) : State :=
  let d := defaultHead h
  storeHead h (if overlaps true h d s then { d with enabled := false } else d) s

/-- What stands where a stored entry is refused (R191). A directory slot, stream, hot-key entry or list is EMPTY or empty
already. -/
def fallbackEntry (sp : Space) (i : Nat) (s : State) : State :=
  match sp with
  | .desk =>
    if h : 1 ≤ i ∧ i ≤ 4 then fallbackHead ⟨i - 1, by omega⟩ s else (writeEntry true 0 sp i (defaultContent sp i) s).2
  | .lamps => (writeEntry true 0 sp i (defaultContent sp i) s).2
  | .presets | .staged | .sources | .streams | .hotkeys | .ident | .active | .status | .presence | .counters | .events => s

/-- One stored entry handed to its owner; a refusal raises LOAD_FAULT and the load goes on. -/
def loadEntry (sp : Space) (i : Nat) (content : Option (List Byte)) (s : State) : State :=
  match content with
  | none => fallbackEntry sp i (raise .loadFault s)
  | some bs =>
    match writeEntry true 0 sp i bs s with
    | (none, t) => t
    | (some _, t) => fallbackEntry sp i (raise .loadFault t)

/-- The entries of an area in order. -/
def loadEntries : List (Space × Nat) → List (Option (List Byte)) → State → State
  | (sp, i) :: order, c :: cs, s => loadEntries order cs (loadEntry sp i c s)
  | _, _, s => s

/-- The level of an area; one that is refused is OPEN and raises LOAD_FAULT. -/
def loadLevel (a : Area) (l : Option ProtLevel) (s : State) : State :=
  let s := if l.isNone then raise .loadFault s else s
  match a with
  | .config => s.setMu { s.mu with configLevel := l.getD .open }
  | .layout => s.setMu { s.mu with layoutLevel := l.getD .open }

/-- The validity flag of an area (R190). -/
def loadFlag (loadSel good : Bool) : Validity := if loadSel then (if good then .valid else .invalid) else .notRead

/-- Both areas brought into force, the DESK area first, and every head's pending flag set (R190, R191). -/
def loadAreas (a : SerialAnswers) (s : State) : State :=
  let dg := s.cl.loadSel && deskGood a s
  let lg := s.cl.loadSel && layoutGood a s
  let desk := if dg then storedImage deskBase deskLen deskOrder.length s else defaultImage deskOrder
  let layout := if lg then storedImage layoutBase layoutLen layoutOrder.length s else defaultImage layoutOrder
  let s := s.setCl { s.cl with deskFlag := loadFlag s.cl.loadSel dg, layoutFlag := loadFlag s.cl.loadSel lg }
  let s := if s.cl.loadSel ∧ ¬ (dg ∧ lg) then raise .loadFault s else s
  let s := loadLevel .config desk.level (loadEntries deskOrder desk.entries s)
  let s := loadLevel .layout layout.level (loadEntries layoutOrder layout.entries s)
  s.setCp { s.cp with pending := Vector.replicate 4 true }

/-! ## RUNNING (R3, R5, R18, R192) -/

/-- The change of the own word that a new seed tag brings at the ports (R18). The WLP judges before the ELP: the model's choice, since
R18 names no order (notes/assumptions/37.md). -/
def ownWordChange (rxMid : Bool) (oldTag : Byte) (s : State) : State :=
  if seedTag s.cl.seed = oldTag then s else elpOwnWord (wlpOwnWord rxMid s)

/-- After power-on the ports leave DISABLED where the own address is 1..62 (R5). -/
def portsIntoService (cold : Bool) (s : State) : State :=
  if cold ∧ nodeInRange (own s) then enterService .east (enterService .west s) else s

/-- The blocks behind the ports start: the beacon generator, the raster with a boundary at once, the pointer, the idle timer, the
button filter, the blink clock, and a notice where one `waits` (R192). -/
def startBlocks (waits : Bool) (s : State) : State :=
  let s := startBeacons s
  let s := boundary (s.setCp { s.cp with raster := ⟨true, s.desk.rate, 0⟩ })
  let s := restartIdle (placePointer s)
  let s := s.setPu { s.pu with filter := none, run := 0, blink := some ⟨0, 0⟩ }
  if waits then makeDue s else s

/-- The loader enters RUNNING and the blocks that wait on it start (R192). A notice becomes due for the kinds that were pending
as it entered (R184); a kind that this very step raises makes one due by itself. -/
def enterRunning (rxMid : Bool) (s : State) : State :=
  let cold := s.cl.cold
  let waiting := unmaskedPending s
  let tag := seedTag s.cl.seed
  let s := s.setCl { s.cl with loader := .running, cold := false, seed := s.desk.seed }
  let s := s.setRf { s.rf with sol := 1, restart := true }
  startBlocks waiting (portsIntoService cold (ownWordChange rxMid tag s))

/-- A load completes (R191, R192). -/
def completeLoad (a : SerialAnswers) (rxMid : Bool) (s : State) : State :=
  let s := enterRunning rxMid (loadAreas a s)
  s.setFree (s.free + 1)

/-! ## Saving (R195) -/

/-- The LAYOUT CRC has been written: header and LAYOUT area stand in the memory. -/
def layoutWritten (s : State) : State :=
  match s.cl.save, s.cl.snapshot with
  | .writingLayout, some p =>
    let s := writeCells layoutBase (areaBytes layoutLen p.layout) (writeCells 0 headerBytes s)
    let s := s.setSerial { s.serial with headerBad := false, layoutBad := false }
    s.setCl { s.cl with layoutFlag := .valid, save := .writingDesk }
  | _, _ => s

/-- The DESK CRC has been written: the save completes. -/
def deskWritten (s : State) : State :=
  match s.cl.save, s.cl.snapshot with
  | .writingDesk, some p =>
    let s := writeCells deskBase (areaBytes deskLen p.desk) s
    let s := s.setSerial { s.serial with deskBad := false }
    raise .saveDone (s.setCl { s.cl with deskFlag := .valid, save := .idle, snapshot := none })
  | _, _ => s

/-- The part of the memory that a fault leaves part-written, and the flags (R195, notes/assumptions/32.md). -/
def faultedImage (duringHeader : Bool) (s : State) : State :=
  match s.cl.save with
  | .idle => s
  | .writingLayout =>
    if duringHeader then
      (s.setSerial { s.serial with headerBad := true }).setCl { s.cl with deskFlag := .invalid, layoutFlag := .invalid }
    else
      let s := writeCells 0 headerBytes s
      (s.setSerial { s.serial with headerBad := false, layoutBad := true }).setCl { s.cl with layoutFlag := .invalid }
  | .writingDesk => (s.setSerial { s.serial with deskBad := true }).setCl { s.cl with deskFlag := .invalid }

/-- A serial memory fault ends the save (R195). -/
def saveFaults (duringHeader : Bool) (s : State) : State :=
  if s.cl.save = .idle then s
  else
    let s := faultedImage duringHeader s
    raise .saveFault (s.setCl { s.cl with save := .idle, snapshot := none })

end Sys2Proof.Machine
end

