-- ==== Sys2Proof/Machine/DeskCommands.lean ====
section
/-! DEFINITION. The commands of the video path (chapters 3 and 4) and of the desk input port (chapters 5 and 6). -/

namespace Sys2Proof.Machine

open Sys2Proof

/-- STALE_TIMER_EXPIRES (R58). -/
def execStaleTimerExpires (e : Fin 32) (s : State) : Result := completed (staleExpired e s)

/-- DESK_FRAME_BOUNDARY (R57, R76, R78): none occurs while the raster is stopped (R64). While it runs the
command is taken at its word, also before the period has run out (notes/assumptions/2.md). -/
def execDeskFrameBoundary (s : State) : Result := completed (if s.cp.raster.running then boundary s else s)

/-- DESK_RECORD_REJECTED (R112): any record in LOADING, and a record that names no valid kind or field. -/
def execDeskRecordRejected (b0 b1 b2 b3 b4 : Byte) (s : State) : Result :=
  completed (if running s ∧ deskRecordValid b0 b1 b2 b3 b4 then s else rejectRecord s)

/-- DESK_KEY_DOWN (R112, R119). -/
def execDeskKeyDown (usage : Byte) (s : State) : Result :=
  completed (takeRecord (decide (usage ≠ 0)) (some .keyDown) (keyDown usage) s)

/-- DESK_KEY_UP (R112, R120). -/
def execDeskKeyUp (usage : Byte) (s : State) : Result := completed (takeRecord (decide (usage ≠ 0)) none (keyUp usage) s)

/-- The handling of a button 1..5 by its place in the owner set. -/
def atButton (b : Byte) (act : Fin 5 → State → State) (s : State) : State :=
  match buttonIndex b with
  | some k => act k s
  | none => s

/-- DESK_BUTTON_PRESS (R112, R121). -/
def execDeskButtonPress (b : Byte) (s : State) : Result :=
  completed (takeRecord (buttonInRange b) (some .buttonPress) (atButton b buttonPress) s)

/-- DESK_BUTTON_RELEASE (R112, R122). -/
def execDeskButtonRelease (b : Byte) (s : State) : Result :=
  completed (takeRecord (buttonInRange b) none (atButton b buttonRelease) s)

/-- DESK_MOTION (R112, R123). -/
def execDeskMotion (dx dy : BitVec 16) (s : State) : Result :=
  completed (takeRecord (motionInRange dx && motionInRange dy) (some .motion) (fuMotion dx.toInt dy.toInt) s)

/-- DESK_WHEEL (R112, R124). -/
def execDeskWheel (v h : Byte) (s : State) : Result :=
  completed (takeRecord (wheelInRange v && wheelInRange h) (some .wheel) (wheelTurn v h) s)

end Sys2Proof.Machine
end

