-- ==== Sys2Proof/Machine/LinkCommands.lean ====
section
/-! DEFINITION. The commands at the two link ports (chapter 1). Symbols that the named port does not listen for in its state have
no effect (R5, R6, R12). -/

namespace Sys2Proof.Machine

open Sys2Proof

/-- ENERGY_DETECTED (R6). -/
def execEnergyDetected (p : Port) (s : State) : Result := completed (energyFound p s)

/-- ENERGY_LOST (R17). -/
def execEnergyLost (p : Port) (rxMid : Bool) (s : State) : Result := completed (energyGone p rxMid s)

/-- ENERGY_LOSS_TIMER_EXPIRES (R6). -/
def execEnergyLossTimerExpires (p : Port) (s : State) : Result := completed (silenceExpired p s)

/-- CAP_TAKEN (R7, R8, R12, R13, R16). -/
def execCapTaken (p : Port) (w : CapWord) (rxMid : Bool) (s : State) : Result :=
  match p with
  | .west => completed (wlpCap w rxMid s)
  | .east => completed (elpCap w s)

/-- TRIAL_TAKEN (R13): only the WLP listens for TRIAL. -/
def execTrialTaken (p : Port) (r : Rate) (rxMid : Bool) (s : State) : Result :=
  match p with
  | .west => completed (wlpTrial r rxMid s)
  | .east => completed s

/-- GO_TAKEN (R13): the ELP ignores GO (R12). -/
def execGoTaken (p : Port) (s : State) : Result :=
  match p with
  | .west => completed (wlpGo s)
  | .east => completed s

/-- LOCK_TAKEN (R10). -/
def execLockTaken (r : Rate) (s : State) : Result := completed (elpLock r s)

/-- LOSS_TAKEN (R16): the ELP in UP leaves for ADVERTISE. -/
def execLossTaken (s : State) : Result := completed (lockLost .east false s)

/-- RETRAIN_TAKEN (R15). -/
def execRetrainTaken (s : State) : Result := completed (elpRetrain s)

/-- A trial window runs out: the trial has failed and the next begins (R11). -/
def windowExpires (s : State) : State :=
  match s.elp.trial with
  | some t => if s.elp.state = .train then beginTrial (trialFailed t.rate s) else s
  | none => s

/-- TRIAL_WINDOW_EXPIRES (R11). -/
def execTrialWindowExpires (s : State) : Result := completed (windowExpires s)

/-- The receiver locks at the rate the last TRIAL named (R13). -/
def receiverLocks (s : State) : State :=
  if s.wlp.state = .train ∧ s.wlp.target.isSome then s.setWlp { s.wlp with locked := true } else s

/-- RECEIVER_LOCKED (R13). -/
def execReceiverLocked (s : State) : Result := completed (receiverLocks s)

/-- RECEIVER_LOCK_LOST (R13, R16). -/
def execReceiverLockLost (p : Port) (rxMid : Bool) (s : State) : Result := completed (lockLost p rxMid s)

/-- ERROR_BURST_RETRAIN (R15). -/
def execErrorBurstRetrain (rxMid : Bool) (s : State) : Result := completed (errorBurst rxMid s)

end Sys2Proof.Machine
end

