-- ==== Sys2Proof/Machine/LoadCommands.lean ====
section
/-! DEFINITION. The commands of reset, load and save (chapter 10). -/

namespace Sys2Proof.Machine

open Sys2Proof

/-- POWER_ON_RESET (R189). -/
def execPowerOnReset (loadSel : Bool) (straps : BitVec 6) (s : State) : Result := completed (powerOn loadSel straps s)

/-- LOAD_COMPLETE (R190 to R192): a load is under way in LOADING alone. -/
def execLoadComplete (a : SerialAnswers) (rxMid : Bool) (s : State) : Result :=
  completed (if running s then s else completeLoad a rxMid s)

/-- SOFT_RESET (R193): it begins from RUNNING; in LOADING no request can have asked for one (notes/assumptions/11.md). -/
def execSoftReset (s : State) : Result := completed (if running s then softReset s else s)

/-- SAVE_LAYOUT_WRITTEN (R195). -/
def execSaveLayoutWritten (s : State) : Result := completed (layoutWritten s)

/-- SAVE_COMPLETES (R195). -/
def execSaveCompletes (s : State) : Result := completed (deskWritten s)

/-- SERIAL_MEMORY_FAULT (R195). -/
def execSerialMemoryFault (duringHeader : Bool) (s : State) : Result := completed (saveFaults duringHeader s)

end Sys2Proof.Machine
end

