-- ==== Sys2Proof/Machine/PanelCommands.lean ====
section
/-! DEFINITION. The commands of the panel unit (chapter 8). -/

namespace Sys2Proof.Machine

open Sys2Proof

/-- The fourth agreeing sample changes the filtered state from one level to the other, where it stands there and the filter runs
(R161). -/
def filterTurns (old new : ButtonLevel) (s : State) : State :=
  if running s ∧ s.pu.filter = some old then filterChanges new s else s

/-- TAKEOVER_PRESS (R161, R162). -/
def execTakeoverPress (s : State) : Result := completed (filterTurns .released .pressed s)

/-- TAKEOVER_BUTTON_RELEASED (R161). -/
def execTakeoverButtonReleased (s : State) : Result := completed (filterTurns .pressed .released s)

/-- TAKEOVER_BUTTON_SAMPLE (R161). -/
def execTakeoverButtonSample (level : ButtonLevel) (s : State) : Result := completed (sample level s)

/-- IDLE_TIMER_EXPIRES (R159). -/
def execIdleTimerExpires (s : State) : Result := completed (idleExpired s)

/-- BLINK_PHASE_ADVANCE (R166). -/
def execBlinkPhaseAdvance (s : State) : Result := completed (blinkAdvance s)

end Sys2Proof.Machine
end

