-- ==== Sys2Proof/Machine/Time.lean ====
section
/-! DEFINITION. What the block does while no command waits: it owes itself the steps that follow at once from its state, and
otherwise 1 ms passes and the expiries that have come due join the queue (notes/assumptions/1.md). -/

namespace Sys2Proof.Machine

open Sys2Proof

/-! ## Steps that wait for no time -/

/-- The producers that keep a refused frame (R29). -/
def waitingProducers (s : State) : List Producer :=
  (if s.iu.held.isSome then [Producer.iu] else []) ++ (if s.cu.offered.isSome then [Producer.cu] else [])
    ++ (if s.mu.offer.isSome then [Producer.mu] else [])

/-- The steps that follow at once: the error burst (R15) and the kept frames where a place is free (R29). -/
def owed (s : State) : List Instr :=
  (if s.wlp.state = .up ∧ s.wlp.badFrames = 16 then [Instr.errorBurstRetrain false] else [])
    ++ (if s.rf.insQ.length < 12 then (waitingProducers s).map Instr.refusedFrameAppended else [])

/-! ## One millisecond -/

/-- A presence entry 1 ms later: the time since the last beacon stops at 65535 (2.6). -/
def agePresence (e : PresenceEntry) : PresenceEntry := { e with time := e.time.map fun t => min (t + 1) 65535 }

/-- A stream entry 1 ms later (R58). -/
def ageStream (e : StreamEntry) : StreamEntry := { e with timer := e.timer.map (· + 1) }

/-- A slot 1 ms later: the deadline of an outstanding request is held as the ms remaining (R142). -/
def ageSlot (k : Slot) : Slot :=
  { k with request := k.request.map fun r => { r with deadline := r.deadline.map (· - 1) } }

/-- A timer 1 ms later. -/
def ageTimer (t : Timer) : Timer := { t with elapsed := t.elapsed + 1 }

/-- The raster 1 ms, which is three thirds, later (R64). -/
def ageRaster (r : Raster) : Raster := if r.running then { r with phase := r.phase + 3 } else r

/-- Every running clock moved on by 1 ms. -/
def advance (s : State) : State :=
  { s with
    wlp := { s.wlp with silence := s.wlp.silence.map (· + 1) },
    elp := { s.elp with
      silence := s.elp.silence.map (· + 1), trial := s.elp.trial.map fun t => { t with elapsed := t.elapsed + 1 } },
    rf := { s.rf with
      beaconTimer := s.rf.beaconTimer.map ageTimer, closure := s.rf.closure.map ageTimer,
      presence := mapTable agePresence s.rf.presence },
    sr := { s.sr with entries := mapTable (Option.map ageStream) s.sr.entries },
    cp := { s.cp with raster := ageRaster s.cp.raster },
    cu := { s.cu with slots := mapTable (Option.map ageSlot) s.cu.slots },
    pu := { s.pu with
      idle := s.pu.idle.map (· + 1), blink := s.pu.blink.map fun b => { b with elapsed := b.elapsed + 1 } },
    mu := { s.mu with interval := s.mu.interval.map (· + 1) } }

/-- Whether a timer has reached the limit it runs with. -/
def timedOut (t : Option Timer) : Bool := (t.map fun t => decide (t.limit ≤ t.elapsed)).getD false

/-- One command where its timer is due. -/
def whenDue (due : Bool) (c : Instr) : List Instr := if due then [c] else []

/-- Whether an outstanding request's deadline has come. -/
def deadlinePassed (k : Option Slot) : Bool :=
  match k.bind (·.request) with
  | some ⟨_, some n⟩ => decide (n = 0)
  | _ => false

/-- Whether an entry's stale timer is due. -/
def staleDue (e : Option StreamEntry) : Bool := (e.map staleReached).getD false

/-- The expiries that are due, in the order of the blocks. -/
def due (s : State) : List Instr :=
  whenDue (reached s.wlp.silence (s.desk.energyReset * 1000)) (.energyLossTimerExpires .west)
    ++ whenDue (reached s.elp.silence (s.desk.energyReset * 1000)) (.energyLossTimerExpires .east)
    ++ whenDue (reached (s.elp.trial.map (·.elapsed)) 20) .trialWindowExpires
    ++ whenDue (timedOut s.rf.beaconTimer) .beaconTimerExpires
    ++ whenDue (timedOut s.rf.closure) .closureTimerExpires
    ++ ((List.finRange 62).filter fun n => absenceReached s.desk.absence n s).map
        (fun n => Instr.absenceTimerExpires (entryAddress n))
    ++ ((List.finRange 32).filter fun i => staleDue s.sr.entries[i]).map Instr.staleTimerExpires
    ++ whenDue (s.cp.raster.running && decide (rasterPeriod s.cp.raster.rate ≤ s.cp.raster.phase)) .deskFrameBoundary
    ++ ((List.finRange 16).filter fun i => deadlinePassed s.cu.slots[i]).map Instr.requestTimerExpires
    ++ whenDue (idleReached s) .idleTimerExpires
    ++ whenDue (reached (s.pu.blink.map (·.elapsed)) 125) .blinkPhaseAdvance
    ++ whenDue (reached s.mu.interval s.desk.noticeInterval) .noticeIntervalExpires

/-- What the block does on an empty queue. -/
def idle (s : State) : State :=
  if owed s ≠ [] then s.setPending (owed s)
  else
    let s := advance s
    s.setPending (due s)

end Sys2Proof.Machine
end

