-- ==== Sys2Proof/Machine/RingCommands.lean ====
section
/-! DEFINITION. The commands of ring traffic (chapter 2) and of the timers of the claim and management units. -/

namespace Sys2Proof.Machine

open Sys2Proof

/-- FRAME_RECEIVED (R14, R21). -/
def execFrameReceived (bytes : List Byte) (s : State) : Result := completed (frameSeen bytes s)

/-- The ELP ends a frame: counted, and the arbiter makes its choice (R31). -/
def frameSent (s : State) : State :=
  if s.elp.state = .up ∧ s.rf.sending.isSome then
    arbitrate (s.setRf { s.rf with sending := none, c := { s.rf.c with sent := bump s.rf.c.sent } })
  else s

/-- FRAME_TRANSMIT_END (R31). -/
def execFrameTransmitEnd (s : State) : Result := completed (frameSent s)

/-- The builder's kept frame is appended, and it builds on (R133). -/
def appendBuilt (f : Frame) (s : State) : State :=
  pumpBuilder pumpBound (offerInsertion ⟨f, false⟩ (s.setIu { s.iu with held := none })).2

/-- The offered claim message's kept frame is appended, and the outbox goes on (R142). -/
def appendClaim (o : Offered) (s : State) : State :=
  pumpOutbox pumpBound (claimAppended o.msg (offerInsertion ⟨o.frame, false⟩ s).2)

/-- A response that waited behind a notice is offered (R170). -/
def offerWaiting (s : State) : State :=
  match s.mu.waiting with
  | some e => offerResponse e (s.setMu { s.mu with waiting := none })
  | none => s

/-- The management unit's kept frame is appended; then a response that waited, or a notice that is due, is offered (R170). -/
def appendManagement (o : MuOffer) (s : State) : State :=
  let s := (offerInsertion o.entry (s.setMu { s.mu with offer := none })).2
  if o.isNotice then offerWaiting (noticeAppended s) else tryNotice (responseAppended o.entry s)

/-- The kept frame of a producer, where it keeps one (R29). -/
def appendKept (p : Producer) (s : State) : State :=
  match p with
  | .iu => match s.iu.held with
    | some f => appendBuilt f s
    | none => s
  | .cu => match s.cu.offered with
    | some o => appendClaim o s
    | none => s
  | .mu => match s.mu.offer with
    | some o => appendManagement o s
    | none => s

/-- Each other producer that waits finds the queue full again: its offer is refused and counted (R29, notes/assumptions/12.md). -/
def countStillWaiting (p : Producer) (s : State) : State :=
  if s.rf.insQ.length < 12 then s
  else
    let n := ((waitingProducers s).filter fun q => q ≠ p).length
    s.setRf { s.rf with c := { s.rf.c with insFull := bumpBy n s.rf.c.insFull } }

/-- A place has freed and a producer's kept frame is appended (R29). The place stays free until this command: a producer that was not
waiting, as the beacon generator, may take it first, and no refusal of the kept frame is counted then (notes/assumptions/45.md). -/
def placeFrees (p : Producer) (s : State) : State :=
  if s.rf.insQ.length < 12 ∧ p ∈ waitingProducers s then countStillWaiting p (appendKept p s) else s

/-- REFUSED_FRAME_APPENDED (R29). -/
def execRefusedFrameAppended (p : Producer) (s : State) : Result := completed (placeFrees p s)

/-- The beacon timer runs out while the generator runs (R33). -/
def beaconDue (s : State) : State :=
  if s.rf.beaconTimer.isSome ∧ s.elp.state = .up ∧ running s then beaconTick s else s

/-- BEACON_TIMER_EXPIRES (R33). -/
def execBeaconTimerExpires (s : State) : Result := completed (beaconDue s)

/-- The absence timer of an entry runs out where its time has reached the timeout: a beacon taken first has restarted the time, and
the expiry does not happen (R38). -/
def absenceDue (n : Fin 62) (s : State) : State :=
  if absenceReached s.desk.absence n s then absenceExpired n s else s

/-- ABSENCE_TIMER_EXPIRES (R38). -/
def execAbsenceTimerExpires (a : Byte) (s : State) : Result :=
  match nodeIndex a with
  | some n => completed (absenceDue n s)
  | none => completed s

/-- The closure timer runs out (R39, R40). -/
def closureDue (s : State) : State := if s.rf.closure.isSome then deriveRing (endClosure s) else s

/-- CLOSURE_TIMER_EXPIRES (R39). -/
def execClosureTimerExpires (s : State) : Result := completed (closureDue s)

/-- REQUEST_TIMER_EXPIRES (R149). -/
def execRequestTimerExpires (slot : Fin 16) (s : State) : Result := completed (requestExpired slot s)

/-- The notice interval runs out where it runs (R184). -/
def intervalDue (s : State) : State := if s.mu.interval.isSome then noticeExpired s else s

/-- NOTICE_INTERVAL_EXPIRES (R184). -/
def execNoticeIntervalExpires (s : State) : Result := completed (intervalDue s)

end Sys2Proof.Machine
end

