-- ==== Sys2Proof/Machine/Dispatch.lean ====
section
/-! DEFINITION. Every command's meaning, one arm per constructor. -/

namespace Sys2Proof.Machine

open Sys2Proof

def exec (i : Instr) (s : State) : Host.Outcome State Fault Refusal :=
  match i with
  | .powerOnReset loadSel straps => Sys2Proof.Machine.execPowerOnReset loadSel straps s
  | .loadComplete answers rxMid => Sys2Proof.Machine.execLoadComplete answers rxMid s
  | .softReset => Sys2Proof.Machine.execSoftReset s
  | .energyDetected p => Sys2Proof.Machine.execEnergyDetected p s
  | .energyLost p rxMid => Sys2Proof.Machine.execEnergyLost p rxMid s
  | .energyLossTimerExpires p => Sys2Proof.Machine.execEnergyLossTimerExpires p s
  | .capTaken p w rxMid => Sys2Proof.Machine.execCapTaken p w rxMid s
  | .trialTaken p r rxMid => Sys2Proof.Machine.execTrialTaken p r rxMid s
  | .goTaken p => Sys2Proof.Machine.execGoTaken p s
  | .lockTaken r => Sys2Proof.Machine.execLockTaken r s
  | .lossTaken => Sys2Proof.Machine.execLossTaken s
  | .retrainTaken => Sys2Proof.Machine.execRetrainTaken s
  | .trialWindowExpires => Sys2Proof.Machine.execTrialWindowExpires s
  | .receiverLocked => Sys2Proof.Machine.execReceiverLocked s
  | .receiverLockLost p rxMid => Sys2Proof.Machine.execReceiverLockLost p rxMid s
  | .frameReceived bytes => Sys2Proof.Machine.execFrameReceived bytes s
  | .errorBurstRetrain rxMid => Sys2Proof.Machine.execErrorBurstRetrain rxMid s
  | .frameTransmitEnd => Sys2Proof.Machine.execFrameTransmitEnd s
  | .refusedFrameAppended p => Sys2Proof.Machine.execRefusedFrameAppended p s
  | .beaconTimerExpires => Sys2Proof.Machine.execBeaconTimerExpires s
  | .absenceTimerExpires a => Sys2Proof.Machine.execAbsenceTimerExpires a s
  | .closureTimerExpires => Sys2Proof.Machine.execClosureTimerExpires s
  | .staleTimerExpires e => Sys2Proof.Machine.execStaleTimerExpires e s
  | .deskFrameBoundary => Sys2Proof.Machine.execDeskFrameBoundary s
  | .deskRecordRejected b0 b1 b2 b3 b4 => Sys2Proof.Machine.execDeskRecordRejected b0 b1 b2 b3 b4 s
  | .deskKeyDown usage => Sys2Proof.Machine.execDeskKeyDown usage s
  | .deskKeyUp usage => Sys2Proof.Machine.execDeskKeyUp usage s
  | .deskButtonPress b => Sys2Proof.Machine.execDeskButtonPress b s
  | .deskButtonRelease b => Sys2Proof.Machine.execDeskButtonRelease b s
  | .deskMotion dx dy => Sys2Proof.Machine.execDeskMotion dx dy s
  | .deskWheel v h => Sys2Proof.Machine.execDeskWheel v h s
  | .takeoverPress => Sys2Proof.Machine.execTakeoverPress s
  | .takeoverButtonReleased => Sys2Proof.Machine.execTakeoverButtonReleased s
  | .idleTimerExpires => Sys2Proof.Machine.execIdleTimerExpires s
  | .blinkPhaseAdvance => Sys2Proof.Machine.execBlinkPhaseAdvance s
  | .requestTimerExpires slot => Sys2Proof.Machine.execRequestTimerExpires slot s
  | .noticeIntervalExpires => Sys2Proof.Machine.execNoticeIntervalExpires s
  | .saveLayoutWritten => Sys2Proof.Machine.execSaveLayoutWritten s
  | .saveCompletes => Sys2Proof.Machine.execSaveCompletes s
  | .serialMemoryFault duringHeader => Sys2Proof.Machine.execSerialMemoryFault duringHeader s
  | .takeoverButtonSample level => Sys2Proof.Machine.execTakeoverButtonSample level s

end Sys2Proof.Machine
end

