-- ==== Sys2Proof/Machine/Picture.lean ====
section
/-! DEFINITION. What each head draws (R78 to R85), as a function of the picture's inputs and the buffers. -/

namespace Sys2Proof.Machine

open Sys2Proof

/-- The stream entry a window names, among a picture's inputs. -/
def pictureStream (p : Picture) (w : Window) : Option StreamView :=
  w.stream.bind fun id =>
    (findIndex (fun v => match v with | some v => v.content.id = id | none => false) p.streams).bind fun i => p.streams[i]

/-- Whether a window is the focus window (R84). -/
def isFocusWindow (p : Picture) (h : Fin 4) (w : Window) : Bool := decide (p.focusWindow = some (h, w.id))

/-- The border class of a window (R84). -/
def borderClass (p : Picture) (h : Fin 4) (w : Window) : BorderClass :=
  let focus := isFocusWindow p h w
  match pictureStream p w with
  | none => if focus then .focus else .plain
  | some v =>
    let level := p.held[v.content.slot]
    if v.state = .stale ∨ v.state = .waiting then .stale
    else if focus ∧ level = some .exclusive then .focusExclusive
    else if focus then .focus
    else if level = some .exclusive then .exclusive
    else if level = some .view ∨ w.input = false then .viewOnly
    else .plain

/-- The palette entry of a class (R83, R173). -/
def BorderClass.entry : BorderClass → Fin 6
  | .stale => 0
  | .focusExclusive => 1
  | .focus => 2
  | .exclusive => 3
  | .viewOnly => 4
  | .plain => 5

/-- Whether a head pixel lies in a window's border band (R82). -/
def inBand (w : Window) (px py : Nat) : Bool :=
  w.border && decide (px < w.x + 2 ∨ w.x + w.w - 2 ≤ px ∨ py < w.y + 2 ∨ w.y + w.h - 2 ≤ py)

/-- A pixel of a buffer; one that no strip has written is a free value (R46, notes/assumptions/8.md). -/
def bufferPixel (s : State) (b x y : Nat) : Colour :=
  (Lines.pixel s.sr.lines (b * 2160 + y) x).getD (Config.unwrittenPixel b y x s.free)

/-- The content of a window at a head pixel (R80). -/
def content (s : State) (p : Picture) (w : Window) (px py : Nat) : Colour :=
  match pictureStream p w with
  | none => w.fill
  | some v =>
    match v.frontPresent, v.frontBuffer with
    | true, some b =>
      let qx := w.sx + (px - w.x) * w.d
      let qy := w.sy + (py - w.y) * w.d
      if v.content.width ≤ qx ∨ v.content.height ≤ qy then w.fill else bufferPixel s b qx qy
    | _, _ => w.fill

/-- A pixel of a window: its border colour in the band where its class has one, its content otherwise (R79, R84). -/
def windowPixel (s : State) (p : Picture) (h : Fin 4) (w : Window) (px py : Nat) : Colour :=
  if inBand w px py then
    match p.palette[(borderClass p h w).entry] with
    | some c => c
    | none => content s p w px py
  else content s p w px py

/-- What head `h` drives at a pixel: none while it draws no picture or outside its size (R79, R81). -/
def headPixel (s : State) (h : Fin 4) (px py : Nat) : Option Colour :=
  match s.cp.picture with
  | none => none
  | some p =>
    let r := p.heads[h]
    if p.shown ∧ r.enabled ∧ px < r.width ∧ py < r.height then
      match ownerAt p.lists[h] px py with
      | none => some r.background
      | some w => some (windowPixel s p h w px py)
    else none

end Sys2Proof.Machine
end

