-- ==== Sys2Proof/Machine/Outputs.lean ====
section
/-! DEFINITION. What each port drives without pause in its state (R1), as a function of the state. -/

namespace Sys2Proof.Machine

open Sys2Proof

/-- What a port sends over and over, or the frame it is sending (R1). A `caps` of the main direction carries the rate of its CAP
symbols; the back channel has no rate class and carries none. -/
inductive Line where
  | nothing
  | caps (w : CapWord) (rate : Option Rate)
  | capsAndLock (w : CapWord) (r : Rate)
  | trialPattern (r : Rate)
  | idleFill
  | frame (r : Rate) (bytes : List Byte)
deriving DecidableEq, Repr

/-- The ELP's main direction: CAP at QUARTER, the trial pattern at the trial rate, frames and idle fill at the agreed rate. -/
def eastLine (s : State) : Line :=
  match s.elp.state with
  | .disabled => .nothing
  | .silent | .advertise | .mismatch => .caps (ownWord s) (some .quarter)
  | .train => match s.elp.trial with
    | some t => .trialPattern t.rate
    | none => .caps (ownWord s) (some .quarter)
  | .up => match s.rf.sending with
    | some f => .frame (s.elp.agreed.getD .quarter) (wireBytes s.cl.seed f.frame)
    | none => .idleFill

/-- The WLP's back channel. -/
def westLine (s : State) : Line :=
  match s.wlp.state with
  | .disabled => .nothing
  | .silent | .advertise | .mismatch => .caps (ownWord s) none
  | .train => match s.wlp.locked, s.wlp.target with
    | true, some r => .capsAndLock (ownWord s) r
    | _, _ => .caps (ownWord s) none
  | .up => .idleFill

end Sys2Proof.Machine
end

