-- ==== Sys2Proof/Safety.lean ====
section
/-! DEFINITION. What holds of the block between two steps, in the terms the statements use: the capacities of its queues, what the
port states bring with them, the values of its settings, and the canonical form of its memories. -/

namespace Sys2Proof.Machine

open Sys2Proof

/-! ## Capacities -/

/-- The ring forwarder's queues and share count within R26, R29 and R31. -/
structure RfCaps (r : Rf) : Prop where
  passQ : r.passQ.length ≤ 8
  insQ : r.insQ.length ≤ 12
  share : r.share ≤ 8

/-- The input unit's queues and maps within R117, R118 and R126. -/
structure IuCaps (u : Iu) : Prop where
  queues : ∀ i : Fin 16, u.queues[i].length ≤ 24
  keys : u.keys.length ≤ 16
  consumed : u.consumed.length ≤ 16

/-- Every queue, list and count within the capacity that its rule gives it. -/
structure Capacities (s : State) : Prop where
  rf : RfCaps s.rf
  iu : IuCaps s.iu
  badFrames : s.wlp.badFrames ≤ 16

/-! ## Tables, pool, ownership, claims -/

/-- The training attempt counter and the crossing accumulator within their ranges, with the settings that bound them (R2, R11, R98). -/
structure CountsInRange (s : State) : Prop where
  downshift : s.desk.downshift ≤ 15
  attempts : s.elp.attempts ≤ 15
  guardDistance : s.desk.guard ≤ 255
  accum : s.fu.accum ≤ 254

/-- A window list of 0..6 records, no two with one window id (R70). -/
def listWhole (ws : List Window) : Prop := ws.length ≤ 6 ∧ (ws.map (·.id)).Nodup

/-- Every active list, staged list and preset list is such a list (R70, R71). -/
structure ListsWhole (c : Cp) : Prop where
  active : ∀ h : Fin 4, listWhole c.active[h]
  staged : ∀ h : Fin 4, listWhole c.staged[h]
  presets : ∀ i : Fin 32, listWhole c.presets[i]

/-- Every head record within the ranges of R66. -/
def HeadsInRange (c : Cp) : Prop := ∀ h : Fin 4, headInRange c.heads[h] = true

/-- The buffers that an entry of the stream table holds. -/
def entryBuffers (e : Option StreamEntry) : List Nat := ((e.bind (·.buffers)).map Buffers.all).getD []

/-- A loaded entry is BLOCKED exactly without buffers, and holds three otherwise; a buffer is ASSEMBLING exactly while an assembly is
in progress, and READY exactly with the ready frame number (R44, R45). -/
structure EntryWhole (e : StreamEntry) : Prop where
  blocked : e.state = .blocked ↔ e.buffers = none
  three : ∀ b, e.buffers = some b → b.all.length = 3
  assembling : (e.buffers.bind (·.assembling)).isSome = e.assembly.isSome
  ready : (e.buffers.bind (·.ready)).isSome = e.ready.isSome

/-- Each of the 80 buffers is in the free set or with one entry, once; the free set is kept rising (R43, R46). -/
structure PoolWhole (r : Sr) : Prop where
  whole : (r.free ++ r.entries.toList.flatMap entryBuffers).Perm (List.range 80)
  rising : r.free.Pairwise (· < ·)
  entries : ∀ (i : Fin 32) (e : StreamEntry), r.entries[i] = some e → EntryWhole e

/-- Every key of the key owner map and every owned button names the focus slot, so that none does without one; no key stands twice
(R118). -/
structure OwnedByFocus (u : Iu) (f : Option Focus) : Prop where
  keys : ∀ k ∈ u.keys, f.map (·.slot) = some k.2
  buttons : ∀ (j : Fin 5) (a : Fin 16), u.owners[j] = some a → f.map (·.slot) = some a
  once : (u.keys.map (·.1)).Nodup

/-- The claim records and the outbox, for an own address and a power state: a request asks for more than is held; the holder is the own
address only where EXCLUSIVE is held; the outbox holds at most one REQUEST and one RELEASE of a slot, so at most 32 messages, and a
REQUEST only of a slot whose request has no deadline yet; and in STANDBY every slot is at VIEW without a request (R140, R141, R152). -/
structure ClaimsWhole (a : Byte) (p : Power) (u : Cu) : Prop where
  above : ∀ (i : Fin 16) (k : Slot) (r : Request), u.slots[i] = some k → k.request = some r → Level.rank k.held < Level.rank r.level
  holder : ∀ (i : Fin 16) (k : Slot), u.slots[i] = some k → k.holder = some a → k.held = .exclusive
  once : (u.outbox.map fun m => (m.kind, m.slot)).Nodup
  asked : ∀ m ∈ u.outbox, m.kind = .request → ∃ k l, u.slots[m.slot] = some k ∧ k.request = some ⟨l, none⟩
  standby : p = .standby → ∀ (i : Fin 16) (k : Slot), u.slots[i] = some k → k.held = .view ∧ k.request = none

/-! ## No reset under way -/

/-- The management unit has no RESET response in hand (R179). -/
structure MuQuiet (m : Mu) : Prop where
  due : m.resetDue = false
  work : ∀ w, m.work = some w → w.resetQueued = false
  offer : ∀ o, m.offer = some o → o.entry.resetResponse = false
  waiting : ∀ e, m.waiting = some e → e.resetResponse = false

/-- No RESET response waits or leaves, so no command but a RESET can bring about a soft reset (R179). -/
structure NoReset (s : State) : Prop where
  mu : MuQuiet s.mu
  insQ : ∀ e ∈ s.rf.insQ, e.resetResponse = false

/-! ## Ports and ring -/

/-- The partner record is present exactly in TRAIN, UP and MISMATCH (R2). -/
def partnerWhen (st : PortState) (p : Option CapWord) : Prop := p.isSome = true ↔ st = .train ∨ st = .up ∨ st = .mismatch

/-- What a link port's state brings with it (R2, R6, R9). -/
structure LinksConsistent (s : State) : Prop where
  westPartner : partnerWhen s.wlp.state s.wlp.partner
  eastPartner : partnerWhen s.elp.state s.elp.partner
  westSilence : s.wlp.silence.isSome → s.wlp.state = .silent
  eastSilence : s.elp.silence.isSome → s.elp.state = .silent
  trial : s.elp.trial.isSome ↔ s.elp.state = .train
  cold : s.cl.cold = true → s.cl.loader = .loading ∧ s.wlp.state = .disabled ∧ s.elp.state = .disabled

/-- What the ring forwarder keeps with the port states (R28, R32, R33, R39, R40). -/
structure RingConsistent (s : State) : Prop where
  sending : s.rf.sending.isSome → s.elp.state = .up
  beacons : s.rf.beaconTimer.isSome → s.elp.state = .up ∧ s.cl.loader = .running
  noEgress : s.elp.state ≠ .up → s.rf.passQ = [] ∧ s.rf.share = 0
  closed : ownPresent s = true → s.wlp.state = .up ∧ s.elp.state = .up
  ring : s.rf.ring = derivedRing s

/-- The ports and the ring forwarder agree, and no soft reset is left over from a step. -/
structure LinkInv (s : State) : Prop where
  links : LinksConsistent s
  ring : RingConsistent s
  settled : s.mu.resetDue = false

/-! ## Settings -/

/-- 0, or a node address 1..62 other than the own address (R173). -/
def targetOk (s : State) (b : Byte) : Prop := b = 0 ∨ (nodeInRange b = true ∧ b ≠ own s)

/-- Every DESK setting that is a number within the values of R173. -/
structure SettingsInRange (s : State) : Prop where
  guardDistance : s.desk.guard ≤ 255
  standby : s.desk.standby ≤ 240
  downshift : 1 ≤ s.desk.downshift ∧ s.desk.downshift ≤ 15
  energyReset : 1 ≤ s.desk.energyReset ∧ s.desk.energyReset ≤ 255
  beaconPeriod : 1 ≤ s.desk.beaconPeriod ∧ s.desk.beaconPeriod ≤ 255
  absence : 100 ≤ s.desk.absence ∧ s.desk.absence ≤ 5000
  claimTimeout : 20 ≤ s.desk.claimTimeout ∧ s.desk.claimTimeout ≤ 2000
  noticeInterval : 10 ≤ s.desk.noticeInterval ∧ s.desk.noticeInterval ≤ 1000
  noticeTarget : targetOk s s.desk.noticeTarget
  authority : targetOk s s.desk.authority

/-! ## Memories -/

/-- The serial memory and the buffers' lines in canonical form, and no cell outside the 8 KiB (R202). -/
structure MemoryOk (s : State) : Prop where
  cells : Memory.wf s.serial.cells
  inside : ∀ c ∈ s.serial.cells, c.1 < 8192
  lines : Lines.wf s.sr.lines

/-! ## A capability word taken -/

/-- The state a port is in after it took a CAP in a given state: `same` says that the word is the one on record, `ok` that it is
accepted (R7, R8, R12, R13, R16). -/
def capNext (st : PortState) (same ok : Bool) : PortState :=
  match st with
  | .disabled => .disabled
  | .silent => .silent
  | .advertise => if ok then .train else .mismatch
  | .train => if same then .train else if ok then .train else .mismatch
  | .up => if same then .up else if ok then .train else .mismatch
  | .mismatch => if same then .mismatch else if ok then .train else .mismatch

/-- Whether a CAP taken in a given state replaces the partner record. -/
def capStored (st : PortState) (same : Bool) : Bool :=
  match st with
  | .disabled | .silent => false
  | .advertise => true
  | .train | .up | .mismatch => !same

/-! ## The arbiter's table -/

/-- The ring forwarder after the arbiter's choice at an idle line (R31). -/
def arbiterTable (r : Rf) : Rf :=
  match r.passQ, r.insQ with
  | [], [] => r
  | f :: fs, [] => { r with passQ := fs, sending := some ⟨f, .passThrough⟩, share := 0 }
  | [], e :: es => { r with insQ := es, sending := some ⟨e.frame, .insertion⟩, share := 0 }
  | f :: fs, e :: es =>
    if r.share < 8 then { r with passQ := fs, sending := some ⟨f, .passThrough⟩, share := r.share + 1 }
    else { r with insQ := es, sending := some ⟨e.frame, .insertion⟩, share := 0 }

/-- No frame can begin to be sent now: the ELP is not UP, or it is sending one (R31). -/
def lineBusy (s : State) : Prop := s.elp.state ≠ .up ∨ s.rf.sending.isSome = true

/-- The ring forwarder with a frame appended to its insertion queue: at an idle line of an UP ELP the arbiter chooses at once (R29,
R31). -/
def takeIn (s : State) (e : InsEntry) : Rf :=
  let r := { s.rf with insQ := s.rf.insQ ++ [e] }
  if s.elp.state = .up ∧ r.sending = none then arbiterTable r else r

/-- The state after a kept frame was appended, where `n` other producers keep one: each finds a full queue again, and its refusal counts
(R29, notes/assumptions/12.md). -/
def stillWaiting (n : Nat) (s : State) : State :=
  if s.rf.insQ.length < 12 then s else s.setRf { s.rf with c := { s.rf.c with insFull := bumpBy n s.rf.c.insFull } }

/-! ## A frame at the WLP -/

/-- A frame that the RF gets to decide on (R14, R15): the WLP is UP with fewer than 16 bad frames in a row, and the payload has a
length that a header can state. -/
structure Heard (s : State) (f : Frame) : Prop where
  up : s.wlp.state = .up
  burst : s.wlp.badFrames ≠ 16
  size : f.payload.length ≤ 65535

/-- A frame that reaches check 4 of R21: from another node, with hops left. -/
structure Arrives (s : State) (f : Frame) : Prop extends Heard s f where
  foreign : f.origin ≠ own s
  hops : f.hop ≠ 0

/-- The frame as a sender with the same seed puts it on the line. -/
def hear (s : State) (f : Frame) : Instr := .frameReceived (wireBytes s.cl.seed f)

/-- The state once a good frame has been counted (R15). -/
def goodSeen (s : State) : State := s.setWlp { s.wlp with badFrames := 0 }

/-- The frame as it is forwarded (R24). -/
def hopped (f : Frame) : Frame := { f with hop := f.hop - 1 }

/-- The ring forwarder with a frame appended to its pass-through queue while the ELP is UP: at an idle line the arbiter chooses at
once (R26, R31). -/
def passOn (r : Rf) (f : Frame) : Rf :=
  let r := { r with passQ := r.passQ ++ [f] }
  if r.sending = none then arbiterTable r else r

/-- A STRIP that the RF offers to a loaded stream entry (R24, R43, R200): it arrives while the desk runs in ACTIVE, its payload reads
as `st`, and entry `i` holds its stream as `e`. -/
structure Offers (s : State) (f : Frame) (st : Strip) (i : Fin 32) (e : StreamEntry) : Prop extends Arrives s f where
  strip : f.kind = kindStrip
  loaded : s.cl.loader = .running
  awake : s.pu.power = .active
  reads : parseStrip f.payload = some st
  index : streamIndex s st.id = some i
  entry : s.sr.entries[i] = some e

/-- A STRIP that passes the checks of R50 up to its frame: buffers held, the entry's geometry, a frame and an index in range, and not
late. -/
structure Fits (e : StreamEntry) (st : Strip) : Prop where
  buffers : e.state ≠ .blocked
  strips : st.count = e.content.height / 4
  data : st.data.length = 12 * e.content.width
  frame : st.frame ≠ 0
  index : st.index < e.content.height / 4
  fresh : e.front ≠ some st.frame ∧ e.ready ≠ some st.frame

/-- The stream receiver with one entry replaced. -/
def withEntry (s : State) (i : Fin 32) (e : StreamEntry) : Sr := { s.sr with entries := s.sr.entries.set i (some e) }

/-! ## The desk port -/

/-- The desk runs in ACTIVE, and no RESET response is in hand. -/
structure Awake (s : State) : Prop where
  loaded : s.cl.loader = .running
  active : s.pu.power = .active
  quiet : NoReset s

/-- The state once a valid desk record has been reported in ACTIVE: the idle timer runs from zero, or not at all (R112, R159). -/
def reported (s : State) : State := s.setPu { s.pu with idle := if s.desk.standby = 0 then none else some 0 }

/-- The same for a record that does not wake: in STANDBY nothing changes (R112, R158). -/
def heardQuietly (s : State) : State := if s.pu.power = .active then reported s else s

/-- The six commands that carry a desk record with a kind. -/
def deskRecord : Instr → Bool
  | .deskKeyDown _ | .deskKeyUp _ | .deskButtonPress _ | .deskButtonRelease _ | .deskMotion _ _ | .deskWheel _ _ => true
  | _ => false

/-- The wake cause that a desk record's kind names; a key up and a button release name none (R158). -/
def wakes : Instr → Option WakeKind
  | .deskKeyDown _ => some .keyDown
  | .deskButtonPress _ => some .buttonPress
  | .deskMotion _ _ => some .motion
  | .deskWheel _ _ => some .wheel
  | _ => none

/-- The commands of the desk port, the panel and the idle, blink and request timers. -/
def operatorCommand : Instr → Bool
  | .deskRecordRejected _ _ _ _ _ | .deskKeyDown _ | .deskKeyUp _ | .deskButtonPress _ | .deskButtonRelease _ | .deskMotion _ _
  | .deskWheel _ _ | .takeoverPress | .takeoverButtonReleased | .takeoverButtonSample _ | .idleTimerExpires
  | .blinkPhaseAdvance | .requestTimerExpires _ => true
  | _ => false

/-- A queue with a record appended: in the place of its tail where both are POSITIONs of one stream with one button set, and at its
end otherwise (R127, R128). -/
def queued (q : List InputRecord) (r : InputRecord) : List InputRecord :=
  match q.getLast?, r with
  | some (.position p b), .position p' b' => if p.stream = p'.stream ∧ b = b' then q.dropLast ++ [r] else q ++ [r]
  | _, _ => q ++ [r]

/-- The state with a record appended to a queue that can take it; the builder then builds where it can (R127, R132). -/
def enqueue (i : Fin 16) (r : InputRecord) (s : State) : State :=
  pumpBuilder pumpBound (s.setIu { s.iu with queues := s.iu.queues.set i (queued s.iu.queues[i] r) })

/-- An enabled head contains a desk point (R66, R89). -/
def onDesk (s : State) (x y : Int) : Prop :=
  ∃ h : Fin 4, s.cp.heads[h].enabled = true ∧ (s.cp.heads[h].ox : Int) ≤ x ∧ x < s.cp.heads[h].ox + s.cp.heads[h].width ∧
    (s.cp.heads[h].oy : Int) ≤ y ∧ y < s.cp.heads[h].oy + s.cp.heads[h].height

/-- The point that a movement leads to: the first of the whole movement, its x part and its y part that lands in an enabled head,
and the pointer's own place where none does (R89). -/
def MovesTo (s : State) (dx dy : Int) (p : Int × Int) : Prop :=
  (p = (s.fu.x + dx, s.fu.y + dy) ∧ onDesk s p.1 p.2) ∨
  (¬ onDesk s (s.fu.x + dx) (s.fu.y + dy) ∧ p = (s.fu.x + dx, (s.fu.y : Int)) ∧ onDesk s p.1 p.2) ∨
  (¬ onDesk s (s.fu.x + dx) (s.fu.y + dy) ∧ ¬ onDesk s (s.fu.x + dx) s.fu.y ∧ p = ((s.fu.x : Int), s.fu.y + dy) ∧
    onDesk s p.1 p.2) ∨
  (¬ onDesk s (s.fu.x + dx) (s.fu.y + dy) ∧ ¬ onDesk s (s.fu.x + dx) s.fu.y ∧ ¬ onDesk s s.fu.x (s.fu.y + dy) ∧
    p = ((s.fu.x : Int), (s.fu.y : Int)))

/-- The state with the pointer at a point and the crossing accumulator cleared (R96). -/
def pointerAt (p : Int × Int) (s : State) : State := s.setFu { s.fu with x := p.1.toNat, y := p.2.toNat, accum := 0 }

/-- A motion to a point is a blocked crossing (R98): the guard is on, no button is owned, the pointer lies on a window of the focus slot,
and the hit test at the point finds a focusable window of another slot. -/
structure BlockedCrossing (s : State) (p : Int × Int) : Prop where
  guardOn : 0 < s.desk.guard
  free : ∀ j : Fin 5, s.iu.owners[j] = none
  crosses : ∃ f h w g, s.fu.focus = some f ∧ hitTest s s.fu.x s.fu.y = some (h, w) ∧ windowSlot s w = some f.slot ∧
    asTarget s (hitTest s p.1 p.2) = some g ∧ g.slot ≠ f.slot

/-- What a re-evaluation makes of focus, lock and pointer (R102, R103): a focus window that does not hold is taken away by force; with the
lock set the pointer is limited to one that holds; with the lock clear the focus follows the pointer, and stays under drag capture. The
POSITION request that ends it takes the stream point of the focus it leaves (R95). -/
structure FocusReevaluated (s t : State) : Prop where
  lost : ∀ f, s.fu.focus = some f → focusHolds s f = false →
    t.fu.focus = targetAtPointer s ∧ t.fu.lock = false ∧ t.fu.accum = 0 ∧ t.fu.x = s.fu.x ∧ t.fu.y = s.fu.y
  locked : ∀ f w, s.fu.lock = true → s.fu.focus = some f → windowOf s f = some w → focusHolds s f = true →
    t.fu.focus = some f ∧ t.fu.lock = true ∧ (t.fu.x, t.fu.y) = limitTo s.cp.heads[f.head] w s.fu.x s.fu.y
  clear : s.fu.lock = false → (∀ j : Fin 5, s.iu.owners[j] = none) →
    t.fu.focus = targetAtPointer s ∧ t.fu.lock = false ∧ t.fu.x = s.fu.x ∧ t.fu.y = s.fu.y
  drag : ∀ f, s.fu.lock = false → s.fu.focus = some f → focusHolds s f = true → (∃ j : Fin 5, s.iu.owners[j] ≠ none) →
    (∀ i : Fin 16, s.iu.queues[i].length < 24) →
    t.fu.focus = some f ∧ t.fu.lock = false ∧ t.fu.x = s.fu.x ∧ t.fu.y = s.fu.y
  reported : ∀ k p, (∀ j : Fin 5, s.iu.owners[j] = none) → requestedPoint (s.setFu t.fu) = some (k, p) → t.fu.reported = some p

/-- What a report of the claim unit comes to at the focus unit (R105): the re-evaluation. Where the report is of a GRANT that raised a slot
to EXCLUSIVE with confine-on-exclusive set, and that slot is then the focus slot, the lock is set besides, the accumulator cleared, the
pointer limited to the focus window, and a POSITION request ends it. -/
def ClaimReported (confining : Option (Fin 16)) (s t : State) : Prop :=
  ∃ x : State, FocusReevaluated s x ∧
    ((∀ f, x.fu.focus = some f → confining ≠ some f.slot) → t.fu = x.fu) ∧
    (∀ f w, x.fu.focus = some f → confining = some f.slot → windowOf s f = some w → focusHolds s f = true →
      t.fu.focus = some f ∧ t.fu.lock = true ∧ t.fu.accum = 0 ∧
      (t.fu.x, t.fu.y) = limitTo s.cp.heads[f.head] w x.fu.x x.fu.y ∧
      ∀ k p, (∀ j : Fin 5, s.iu.owners[j] = none) → requestedPoint (s.setFu t.fu) = some (k, p) → t.fu.reported = some p)

/-- The point of a head's desk rectangle that is nearest to a desk point (R90). -/
def nearestPoint (r : HeadRecord) (x y : Nat) : Nat × Nat :=
  (max r.ox (min x (r.ox + r.width - 1)), max r.oy (min y (r.oy + r.height - 1)))

/-- The distance of a desk point from a head's desk rectangle: the sum of the differences in x and in y (R90). -/
def headDistance (r : HeadRecord) (x y : Nat) : Nat :=
  (((nearestPoint r x y).1 : Int) - x).natAbs + (((nearestPoint r x y).2 : Int) - y).natAbs

/-- The pointer clamped into the enabled heads (R90): it stays in one, and stays where none is enabled; otherwise it moves to the nearest
point of the nearest head, the lower-numbered one of equally near heads. -/
structure PointerClamped (s t : State) : Prop where
  stays : onDesk s s.fu.x s.fu.y ∨ (∀ h : Fin 4, s.cp.heads[h].enabled = false) → t = s
  moves : ∀ h : Fin 4, ¬ onDesk s s.fu.x s.fu.y → s.cp.heads[h].enabled = true →
    (∀ k : Fin 4, s.cp.heads[k].enabled = true →
      headDistance s.cp.heads[h] s.fu.x s.fu.y ≤ headDistance s.cp.heads[k] s.fu.x s.fu.y ∧
      (k < h → headDistance s.cp.heads[h] s.fu.x s.fu.y < headDistance s.cp.heads[k] s.fu.x s.fu.y)) →
    t = s.setFu { s.fu with
      x := (nearestPoint s.cp.heads[h] s.fu.x s.fu.y).1, y := (nearestPoint s.cp.heads[h] s.fu.x s.fu.y).2 }

/-- What the report of a moved head record comes to (R90, R104): the clamp, and the re-evaluation. -/
def HeadReportsAct : Prop := ∀ s : State, PointerClamped s (clampPointer s) ∧ FocusReevaluated s (fuReevaluate s)

/-- Window `k` of head `h`'s active list owns a head pixel: it contains it, and no later window does (R79). -/
def Owns (s : State) (h : Fin 4) (k px py : Nat) : Prop :=
  ∃ w, s.cp.active[h][k]? = some w ∧ winContains w px py = true ∧ ∀ v ∈ s.cp.active[h].drop (k + 1), winContains v px py = false

/-- A window that NEXT_WINDOW goes through: window `k` of an enabled head `h`, focusable, and owning a pixel of its head (R109). -/
structure Listed (s : State) (h : Fin 4) (k : Nat) (w : Window) : Prop where
  enabled : s.cp.heads[h].enabled = true
  place : s.cp.active[h][k]? = some w
  input : (focusable s w).isSome = true
  seen : ∃ px py, Owns s h k px py

/-- A place in the list of R109 stands before another: head 0 first, and in a head in the order of its active list. -/
def before (h : Fin 4) (k : Nat) (h' : Fin 4) (k' : Nat) : Prop := h < h' ∨ (h = h' ∧ k < k')

/-- A window of a head is the focus window. -/
def hasFocus (s : State) (h : Fin 4) (w : Window) : Prop := ∃ f, s.fu.focus = some f ∧ f.head = h ∧ f.win = w.id

/-- The window NEXT_WINDOW goes to (R109): the one that follows the focus window in the list, the first where the focus window is the
last, and the first where focus is none or the focus window is not in the list. -/
structure NextWindow (s : State) (h : Fin 4) (k : Nat) (w : Window) : Prop where
  listed : Listed s h k w
  first : (∀ h' k' w', Listed s h' k' w' → ¬ hasFocus s h' w') → ∀ h' k' w', Listed s h' k' w' → ¬ before h' k' h k
  follows : ∀ h' k' w', Listed s h' k' w' → hasFocus s h' w' →
    (before h' k' h k ∧ ∀ h'' k'' w'', Listed s h'' k'' w'' → ¬ (before h' k' h'' k'' ∧ before h'' k'' h k)) ∨
    (∀ h'' k'' w'', Listed s h'' k'' w'' → ¬ before h' k' h'' k'' ∧ ¬ before h'' k'' h k)

/-- The head pixel NEXT_WINDOW moves to (R109): the window's centre where the window owns it, and otherwise the first pixel it owns, lines
from the top and pixels from the left. That an odd width or height is halved downwards is the model's choice
(notes/assumptions/40.md). -/
structure NextPixel (s : State) (h : Fin 4) (k : Nat) (w : Window) (q : Nat × Nat) : Prop where
  centre : Owns s h k (w.x + w.w / 2) (w.y + w.h / 2) → q = (w.x + w.w / 2, w.y + w.h / 2)
  first : ¬ Owns s h k (w.x + w.w / 2) (w.y + w.h / 2) → Owns s h k q.1 q.2 ∧ ∀ px py, Owns s h k px py → q.2 < py ∨ (q.2 = py ∧ q.1 ≤ px)

/-- A frame addressed to this node, whose own address is a node's, that a block of it takes while the desk runs (R24). -/
structure Taken (s : State) (f : Frame) : Prop extends Arrives s f where
  node : nodeInRange (own s) = true
  here : f.dest = own s
  loaded : s.cl.loader = .running

/-! ## What a command leaves alone -/

/-- What the link side of the part never touches: streams, picture, focus, input, claims, panel, loader, settings, the serial memory and
the commands that wait. -/
structure SameDesk (s t : State) : Prop where
  sr : t.sr = s.sr
  cp : t.cp = s.cp
  fu : t.fu = s.fu
  iu : t.iu = s.iu
  cu : t.cu = s.cu
  pu : t.pu = s.pu
  cl : t.cl = s.cl
  desk : t.desk = s.desk
  serial : t.serial = s.serial
  pending : t.pending = s.pending

/-- What the operator's side of the part never touches: the link ports, the stream table, the loader, the settings, the protection
levels, the serial memory, the line's one-shot symbols, presence, closure and beacons, and of the compositor all but what SELECT_PRESET
writes. -/
structure SameRing (s t : State) : Prop where
  wlp : t.wlp = s.wlp
  elp : t.elp = s.elp
  sr : t.sr = s.sr
  cl : t.cl = s.cl
  desk : t.desk = s.desk
  serial : t.serial = s.serial
  lineOut : t.lineOut = s.lineOut
  free : t.free = s.free
  pending : t.pending = s.pending
  presence : t.rf.presence = s.rf.presence
  closure : t.rf.closure = s.rf.closure
  ring : t.rf.ring = s.rf.ring
  sol : t.rf.sol = s.rf.sol
  restart : t.rf.restart = s.rf.restart
  beaconTimer : t.rf.beaconTimer = s.rf.beaconTimer
  heads : t.cp.heads = s.cp.heads
  palette : t.cp.palette = s.cp.palette
  active : t.cp.active = s.cp.active
  presets : t.cp.presets = s.cp.presets
  raster : t.cp.raster = s.cp.raster
  picture : t.cp.picture = s.cp.picture
  levels : t.mu.configLevel = s.mu.configLevel ∧ t.mu.layoutLevel = s.mu.layoutLevel

/-! ## Resets and loads -/

/-- What a reset leaves of the serial memory: nothing changes out of a save; a save cut short leaves the area being written bad, and in
WRITING_LAYOUT whether the header had been rewritten is a free value (R196, notes/assumptions/7.md). -/
structure CutShort (s t : State) : Prop where
  idle : s.cl.save = .idle → t.serial = s.serial
  desk : s.cl.save = .writingDesk → t.serial = { s.serial with deskBad := true }
  header : s.cl.save = .writingLayout → Config.headerRewritten s.free = true →
    t.serial = ⟨Memory.write s.serial.cells 0 headerBytes, false, s.serial.deskBad, true⟩
  layout : s.cl.save = .writingLayout → Config.headerRewritten s.free = false → t.serial = { s.serial with layoutBad := true }

/-- A soft reset has begun (R193): the loader is in LOADING, the insertion queue is empty, the WLP keeps all but its counters, and claims,
focus, input, streams and management stand as a reset leaves them; the settings stay until the load. -/
structure ResetBegun (s t : State) : Prop where
  loading : t.cl = { s.cl with loader := .loading, cold := false, save := .idle, snapshot := none }
  west : t.wlp = { s.wlp with linkDown := 0, crcErrors := 0, truncated := 0 }
  insQ : t.rf.insQ = []
  iu : t.iu = iuStart
  cu : t.cu = cuStart
  fu : t.fu = fuStart
  mu : t.mu = muStart
  sr : t.sr = srStart s.sr.lines
  desk : t.desk = s.desk
  ring : t.rf.ring = derivedRing t

/-- The header read is good: answered, not left part-written, with the format mark 46443136h and version 1 (R190, R202). -/
structure HeaderGood (a : SerialAnswers) (s : State) : Prop where
  answered : a.header = true
  whole : s.serial.headerBad = false
  mark : Memory.readRange s.serial.cells 0 5 = [0x46, 0x44, 0x31, 0x36, 1]

/-- An area is good: the header is, its read was answered, it was not left part-written, and the CRC stored after it agrees (R190). -/
structure AreaGood (a : SerialAnswers) (answered bad : Bool) (base len : Nat) (s : State) : Prop where
  header : HeaderGood a s
  answers : answered = true
  whole : bad = false
  crc : be32 (crc 0xFFFFFFFF#32 (Memory.readRange s.serial.cells base len)) = Memory.readRange s.serial.cells (base + len) 4

/-- What stands where a stored entry is refused: a DESK setting and a lamp entry take their default, a head record's default with its
enabled flag clear where it would share a point with an enabled head before it, and every other entry stays as the empty tables have
it (R191). -/
def FallsBack (sp : Space) (i : Nat) (s t : State) : Prop :=
  (sp = .desk → i < 23 → i = 0 ∨ 4 < i → writeEntry true 0 .desk i (defaultContent .desk i) s = (none, t)) ∧
  (∀ h : Fin 4, sp = .desk → i = h.val + 1 → ∃ r : HeadRecord, t = storeHead h r s ∧
    ((∃ k : Fin 4, k < h ∧ s.cp.heads[k].enabled = true ∧ rectsMeet (defaultHead h) s.cp.heads[k] = true) →
      r = { defaultHead h with enabled := false }) ∧
    ((∀ k : Fin 4, k < h → s.cp.heads[k].enabled = true → rectsMeet (defaultHead h) s.cp.heads[k] = false) →
      r = defaultHead h)) ∧
  (sp = .lamps → i < 5 → writeEntry true 0 .lamps i (defaultContent .lamps i) s = (none, t)) ∧
  (sp ≠ .desk → sp ≠ .lamps → t = s)

/-- One stored entry handed to its owner: applied where the owner accepts it; refused, or not there whole, LOAD_FAULT is raised and the
load goes on with what stands instead (R191, R202). -/
structure EntryLoads (sp : Space) (i : Nat) (c : Option (List Byte)) (s t : State) : Prop where
  applied : ∀ bs u, c = some bs → writeEntry true 0 sp i bs s = (none, u) → t = u
  refused : ∀ bs r u, c = some bs → writeEntry true 0 sp i bs s = (some r, u) → FallsBack sp i (raise .loadFault s) t
  missing : c = none → FallsBack sp i (raise .loadFault s) t

/-- The entries of an area, one whole before the next (R191). -/
def EntriesLoad : List (Space × Nat) → List (Option (List Byte)) → State → State → Prop
  | (sp, i) :: order, c :: cs, s, t => ∃ u, EntryLoads sp i c s u ∧ EntriesLoad order cs u t
  | _, _, s, t => t = s

/-- The state with an area's level loaded; a level that is refused is OPEN and raises LOAD_FAULT (R191). -/
def withLevel (a : Area) (l : Option ProtLevel) (s : State) : State :=
  let s := if l = none then raise .loadFault s else s
  match a with
  | .config => s.setMu { s.mu with configLevel := l.getD .open }
  | .layout => s.setMu { s.mu with layoutLevel := l.getD .open }

/-- The state a port is in after a load brought a new seed tag, `ok` saying that its partner record is accepted by the new word (R18). -/
def judged (st : PortState) (ok : Bool) : PortState :=
  match st with
  | .disabled | .silent | .advertise => st
  | .train | .up | .mismatch => if ok then .train else .mismatch

/-- What a port sends once when a load brought a new seed tag: CAP with the new word, and what a new trial sends after it (R9, R18). -/
def judgedSends (p : Port) (st : PortState) (w : CapWord) (trial : List LineSymbol) : List (Port × LineSymbol) :=
  match st with
  | .disabled | .silent | .advertise => []
  | .train | .up | .mismatch => (p, .cap w) :: trial.map fun x => (p, x)

/-- The ports after a load brought a new seed tag, `u` being the state before (R18, R16): each judges its partner record against the new
word and sends CAP, a record that is refused out of TRAIN or UP raises LINK_MISMATCH, a departure from UP counts and raises LINK_DOWN, and
the ELP begins a new trial where the record is accepted. -/
structure PortsJudged (u t : State) : Prop where
  west : t.wlp.state = judged u.wlp.state (recordAccepted t u.wlp.partner) ∧ t.wlp.partner = u.wlp.partner ∧
    t.wlp.linkDown = (if u.wlp.state = .up then bump u.wlp.linkDown else u.wlp.linkDown)
  east : t.elp.state = judged u.elp.state (recordAccepted t u.elp.partner) ∧ t.elp.partner = u.elp.partner ∧
    t.elp.linkDown = (if u.elp.state = .up then bump u.elp.linkDown else u.elp.linkDown) ∧ t.elp.attempts = u.elp.attempts ∧
    t.elp.ceiling = u.elp.ceiling
  trial : u.elp.state = .train ∨ u.elp.state = .up ∨ u.elp.state = .mismatch →
    (recordAccepted t u.elp.partner = true → t.elp.trial = some ⟨trialRate (partnerRates u.elp.partner) u.elp.ceiling, 0⟩)
  mismatch : (u.wlp.state = .train ∨ u.wlp.state = .up) ∧ recordAccepted t u.wlp.partner = false ∨
      (u.elp.state = .train ∨ u.elp.state = .up) ∧ recordAccepted t u.elp.partner = false →
    t.mu.events &&& EventKind.bit .linkMismatch ≠ 0
  down : u.wlp.state = .up ∨ u.elp.state = .up → t.mu.events &&& EventKind.bit .linkDown ≠ 0
  sends : t.lineOut = u.lineOut ++ judgedSends .west u.wlp.state (ownWord t) [] ++
    judgedSends .east u.elp.state (ownWord t) (if recordAccepted t u.elp.partner
      then [.cap (ownWord t), .trial (trialRate (partnerRates u.elp.partner) u.elp.ceiling)] else [])

/-- What a load brings, up to RUNNING: each area from the image where LOAD_SEL is set and the area is good, and the built-in defaults with
level OPEN otherwise; the validity flags; LOAD_FAULT where an area read was bad; the DESK area before the LAYOUT area; and at the end
every head's pending flag (R190, R191). -/
def Brings (a : SerialAnswers) (s t : State) : Prop :=
  ∃ (dg lg : Bool) (d l : Image) (u v w : State),
    (dg = true ↔ s.cl.loadSel = true ∧ AreaGood a a.desk s.serial.deskBad 16 1516 s) ∧
    (lg = true ↔ s.cl.loadSel = true ∧ AreaGood a a.layout s.serial.layoutBad 1536 6652 s) ∧
    d = (if dg then storedImage 16 1516 92 s else defaultImage deskOrder) ∧
    l = (if lg then storedImage 1536 6652 36 s else defaultImage layoutOrder) ∧
    u = s.setCl { s.cl with
      deskFlag := if s.cl.loadSel then (if dg then .valid else .invalid) else .notRead,
      layoutFlag := if s.cl.loadSel then (if lg then .valid else .invalid) else .notRead } ∧
    EntriesLoad deskOrder d.entries (if s.cl.loadSel = true ∧ (dg = false ∨ lg = false) then raise .loadFault u else u) v ∧
    EntriesLoad layoutOrder l.entries (withLevel .config d.level v) w ∧
    t = (withLevel .layout l.level w).setCp { (withLevel .layout l.level w).cp with pending := Vector.replicate 4 true }

/-- The tables a reset leaves empty: no slot, stream entry or hot key is loaded, and no list holds a window. -/
structure TablesEmpty (s : State) : Prop where
  slots : s.cu.slots = Vector.replicate 16 none
  entries : s.sr.entries = Vector.replicate 32 none
  hotkeys : s.iu.hotkeys = Vector.replicate 16 none
  active : s.cp.active = Vector.replicate 4 []
  staged : s.cp.staged = Vector.replicate 4 []
  presets : s.cp.presets = Vector.replicate 32 []

/-- The built-in defaults of every setting and table (R190 and the chapters' defaults). -/
structure Defaults (s : State) : Prop where
  desk : s.desk = deskDefault
  heads : s.cp.heads = Vector.ofFn defaultHead
  palette : s.cp.palette = defaultPalette
  lamps : s.pu.lamps = Vector.ofFn defaultLamp
  slots : s.cu.slots = Vector.replicate 16 none
  entries : s.sr.entries = Vector.replicate 32 none
  hotkeys : s.iu.hotkeys = Vector.replicate 16 none
  staged : s.cp.staged = Vector.replicate 4 []
  presets : s.cp.presets = Vector.replicate 32 []
  levels : s.mu.configLevel = .open ∧ s.mu.layoutLevel = .open

/-! ## Focus, release synthesis, claims -/

/-- A slot's queue after release synthesis that finds room: a key-up for each of its keys, oldest first, and then, where it owns a button
and a position was reported, a POSITION with no button (R125). -/
def synthesised (i : Fin 16) (s : State) : List InputRecord :=
  let q := s.iu.queues[i] ++ (s.iu.keys.filter fun k => k.2 = i).map fun k => .key k.1 true
  match s.fu.reported with
  | some p => if ∃ j : Fin 5, s.iu.owners[j] = some i then queued q (.position p 0) else q
  | none => q

/-- The outbox after a RELEASE of a slot is queued: the slot's REQUEST is taken out, and a RELEASE already there takes the new level and
destination in its place; otherwise the RELEASE comes last (R141). -/
def withRelease (q : List ClaimMsg) (i : Fin 16) (l : Level) (a : Byte) : List ClaimMsg :=
  let q := q.filter fun m => ¬ (m.kind = .request ∧ m.slot = i)
  if ∃ m ∈ q, m.kind = .release ∧ m.slot = i then
    q.map fun m => if m.kind = .release ∧ m.slot = i then { m with level := l, dest := a } else m
  else q ++ [⟨.release, i, l, a⟩]

/-- The outbox after a slot's REQUEST is taken out, and a RELEASE of VIEW queued where the source must hear that the record goes:
something is held, or it has heard a request that is outstanding (R138, R139). -/
def outboxWithout (i : Fin 16) (k : Slot) (s : State) : List ClaimMsg :=
  if k.held ≠ .view ∨ k.request ≠ none ∧ ¬ ∃ m ∈ s.cu.outbox, m.kind = .request ∧ m.slot = i
  then withRelease s.cu.outbox i .view k.content.addr
  else s.cu.outbox.filter fun m => ¬ (m.kind = .request ∧ m.slot = i)

/-- What a claim record says, but for when the deadline of a request under way runs out: an outbox that empties may set that of any slot
(R142). -/
def claimOf (k : Option Slot) : Option (SlotContent × Level × Option Byte × ClaimOutcome × Option Level) :=
  k.map fun k => (k.content, k.held, k.holder, k.outcome, k.request.map (·.level))

/-- Slot `i` has a record; every other slot's claim is as it was. -/
def slotAlone (i : Fin 16) (k : Option Slot) (s t : State) : Prop :=
  t.cu.slots[i] = k ∧ ∀ j : Fin 16, j ≠ i → claimOf t.cu.slots[j] = claimOf s.cu.slots[j]

/-- A slot makes its auto-share request when one is due: the flag is set, its node is present, the held level is VIEW and no request is
outstanding (R151). -/
def wantsShare (s : State) (k : Slot) : Prop :=
  k.content.autoShare = true ∧ nodePresent s k.content.addr = true ∧ k.held = .view ∧ k.request = none

/-- At a wake every loaded slot that wants to asks for SHARED, and every other claim is as it was (R151, R152). -/
def AutoShared (s t : State) : Prop :=
  ∀ i : Fin 16, (s.cu.slots[i] = none → t.cu.slots[i] = none) ∧ ∀ k, s.cu.slots[i] = some k →
    (wantsShare s k → claimOf t.cu.slots[i] = some (k.content, .view, k.holder, k.outcome, some .shared)) ∧
    (¬ wantsShare s k → claimOf t.cu.slots[i] = claimOf (some k))

/-- A presence report of node `n`, at address `a`, at the claim unit (R37, R151); `returned` says that a beacon with RESTART came from a
node that was present, so that its absence is reported first. The view has the node. Its slot keeps its record, or stands at VIEW without
a request or a holder after the absence, which counts and raises its events; then it asks for SHARED where that is due. -/
structure PresenceReported (a : Byte) (n : Fin 62) (returned : Bool) (s t : State) : Prop where
  view : t.cu.view = s.cu.view.set n true
  unnamed : slotOfAddr s a = none → t.cu.slots = s.cu.slots
  slot : ∀ (i : Fin 16) (k r : Slot), slotOfAddr s a = some i → s.cu.slots[i] = some k →
    r = (if returned then { k with held := .view, request := none, holder := none } else k) →
    (r.content.autoShare = true ∧ s.pu.power = .active ∧ r.held = .view ∧ r.request = none → ∀ j : Fin 16, claimOf t.cu.slots[j] =
      if j = i then some (r.content, .view, r.holder, r.outcome, some .shared) else claimOf s.cu.slots[j]) ∧
    (¬ (r.content.autoShare = true ∧ s.pu.power = .active ∧ r.held = .view ∧ r.request = none) →
      t.cu.slots = s.cu.slots.set i (some r)) ∧
    (returned = true → t.cu.c.absences = bump s.cu.c.absences ∧ t.mu.events &&& EventKind.bit .sourceAbsent ≠ 0 ∧
      (k.held ≠ .view → t.mu.events &&& EventKind.bit .claimChange ≠ 0))

/-- A local request accepted: the request is outstanding without a deadline, its REQUEST stands last in the outbox, and the outbox goes on
(R141, R143). -/
def requested (i : Fin 16) (k : Slot) (l : Level) (s : State) : State :=
  pumpOutbox pumpBound (s.setCu { s.cu with
    slots := s.cu.slots.set i (some { k with request := some ⟨l, none⟩ }),
    outbox := s.cu.outbox ++ [⟨.request, i, l, k.content.addr⟩] })

/-- A RELEASE is queued: it stands in the outbox, counted where it replaces one already queued, and the outbox goes on (R141). -/
def releasing (i : Fin 16) (l : Level) (a : Byte) (s : State) : State :=
  pumpOutbox pumpBound (s.setCu { s.cu with
    outbox := withRelease s.cu.outbox i l a,
    c := { s.cu.c with replaced :=
      if ∃ m ∈ s.cu.outbox, m.kind = .release ∧ m.slot = i then bump s.cu.c.replaced else s.cu.c.replaced } })

/-- A frame comes to the block that takes its kind, in state `u`: addressed to this node, or to all nodes and forwarded first, where the
pass-through queue has room or there is no egress (R24, R26, R28; notes/assumptions/14.md). -/
def ComesTo (s : State) (f : Frame) (u : State) : Prop :=
  (Taken s f ∧ u = goodSeen s) ∨
  (Arrives s f ∧ f.dest = allNodes ∧ s.cl.loader = .running ∧ ∃ r : Rf, u = (goodSeen s).setRf r ∧
    ((s.elp.state = .up ∧ s.rf.passQ.length < 8 ∧ r = passOn s.rf (hopped f)) ∨
      (s.elp.state ≠ .up ∧ r = { s.rf with c := { s.rf.c with noEgress := bump s.rf.c.noEgress } })))

/-- What the answer of a slot's source does to its record `k`, in the state `u` in which it comes to the claim unit (R146, R147, R148): a
GRANT and a DENY that answer the request under way, each at its level and with its deadline set, and those that answer none; a REVOKE. -/
structure AnswerActs (i : Fin 16) (k : Slot) (kind : Byte) (l : Level) (holder : Byte) (u : State) (o : Host.Outcome State Fault Refusal) :
    Prop where
  granted : kind = 3 → (∃ d, k.request = some ⟨l, some d⟩) → ∃ (r : Slot) (t : State),
    r = { k with held := l, request := none, holder := if l = .exclusive then some (own u) else k.holder, outcome := .granted } ∧
    o = .next t ∧ t.cu = { u.cu with slots := u.cu.slots.set i (some r), c := { u.cu.c with grants := bump u.cu.c.grants } } ∧
    t.mu.events &&& EventKind.bit .claimChange ≠ 0 ∧ SameRing u t ∧
    ClaimReported (if l = .exclusive ∧ k.content.confine = true then some i else none) (u.setCu t.cu) t
  ignored : kind = 3 → (∀ d, k.request ≠ some ⟨l, some d⟩) → Level.rank l ≤ Level.rank k.held →
    o = .next (u.setCu { u.cu with c := { u.cu.c with unsolicited := bump u.cu.c.unsolicited } })
  takenBack : kind = 3 → (∀ d, k.request ≠ some ⟨l, some d⟩) → Level.rank k.held < Level.rank l →
    o = .next (releasing i k.held k.content.addr (u.setCu { u.cu with
      slots := if ∃ m ∈ u.cu.outbox, m.kind = .request ∧ m.slot = i
        then u.cu.slots.set i (some { k with request := none, outcome := .released }) else u.cu.slots,
      c := { u.cu.c with unsolicited := bump u.cu.c.unsolicited } }))
  denied : kind = 4 → (∃ d, k.request = some ⟨l, some d⟩) → o = .next (u.setCu { u.cu with
    slots := u.cu.slots.set i (some { k with
      request := none, outcome := .denied,
      holder := if k.held = .exclusive then k.holder else
        if nodeInRange holder = true ∧ holder ≠ own u then some holder else none }),
    c := { u.cu.c with denies := bump u.cu.c.denies } })
  unmatched : kind = 4 → (∀ d, k.request ≠ some ⟨l, some d⟩) →
    o = .next (u.setCu { u.cu with c := { u.cu.c with unmatchedDenies := bump u.cu.c.unmatchedDenies } })
  revoked : kind = 5 → Level.rank l < Level.rank k.held → ∃ (r : Slot) (t : State),
    r = { k with
      held := l, outcome := .revoked, holder := if nodeInRange holder = true ∧ holder ≠ own u then some holder else none } ∧
    o = .next t ∧ t.cu = { u.cu with slots := u.cu.slots.set i (some r), c := { u.cu.c with revokes := bump u.cu.c.revokes } } ∧
    t.mu.events &&& EventKind.bit .claimChange ≠ 0 ∧ SameRing u t ∧
    ClaimReported none (u.setCu t.cu) t
  kept : kind = 5 → Level.rank k.held ≤ Level.rank l → o = .next (u.setCu { u.cu with
    slots := u.cu.slots.set i (some { k with
      holder := if k.held = .exclusive then k.holder else
        if nodeInRange holder = true ∧ holder ≠ own u then some holder else none }),
    c := { u.cu.c with revokes := bump u.cu.c.revokes } })

/-- How the outbox empties: only from its head, while no message is offered; an appended REQUEST sets the deadline of the request that
waits for it, and a refused frame stays on offer (R142). -/
def OutboxEmpties : Prop :=
  ∀ (n : Nat) (s : State), NoReset s →
    (s.cu.offered.isSome = true → pumpOutbox n s = s) ∧
    (s.cu.outbox = [] → pumpOutbox n s = s) ∧
    (∀ (m : ClaimMsg) (ms : List ClaimMsg) (f : Frame), s.cu.offered = none → s.cu.outbox = m :: ms →
      f = ⟨kindClaim, m.dest, own s, 63, match m.kind with
        | .request => [1, Level.code m.level, s.desk.priority, 0]
        | .release => [2, Level.code m.level, 0, 0]⟩ →
      (12 ≤ s.rf.insQ.length → pumpOutbox (n + 1) s = (s.setCu { s.cu with outbox := ms, offered := some ⟨m, f⟩ }).setRf
        { s.rf with c := { s.rf.c with insFull := bump s.rf.c.insFull } }) ∧
      (s.rf.insQ.length < 12 →
        (m.kind = .release → pumpOutbox (n + 1) s = pumpOutbox n ((s.setCu { s.cu with
          outbox := ms, c := { s.cu.c with releasesSent := bump s.cu.c.releasesSent } }).setRf (takeIn s ⟨f, false⟩))) ∧
        (∀ k l, m.kind = .request → s.cu.slots[m.slot] = some k → k.request = some ⟨l, none⟩ →
          (∀ x ∈ ms, ¬ (x.kind = .request ∧ x.slot = m.slot)) →
          pumpOutbox (n + 1) s = pumpOutbox n ((s.setCu { s.cu with
            slots := s.cu.slots.set m.slot (some { k with request := some ⟨l, some s.desk.claimTimeout⟩ }),
            outbox := ms, c := { s.cu.c with requestsSent := bump s.cu.c.requestsSent } }).setRf (takeIn s ⟨f, false⟩))) ∧
        (m.kind = .request → (∀ k l, s.cu.slots[m.slot] = some k → k.request = some ⟨l, none⟩ → ∃ x ∈ ms, x.kind = .request ∧ x.slot = m.slot) →
          pumpOutbox (n + 1) s = pumpOutbox n ((s.setCu { s.cu with
            outbox := ms, c := { s.cu.c with requestsSent := bump s.cu.c.requestsSent } }).setRf (takeIn s ⟨f, false⟩)))))

/-- Local requests: refused for the first condition of R143 that holds, which counts and changes nothing else, and otherwise accepted. A
slot or a level that is none of those named stands as none. -/
def LocalRequestsAct : Prop :=
  ∀ (i : Option (Fin 16)) (l : Option Level) (s n : State), n = s.setCu { s.cu with c := { s.cu.c with refused := bump s.cu.c.refused } } →
    (i = none → localRequest i l s = (some .invalid, n)) ∧
    (∀ j, i = some j → s.cu.slots[j] = none → localRequest i l s = (some .invalid, n)) ∧
    (∀ j k, i = some j → s.cu.slots[j] = some k →
      (l = none ∨ s.pu.power = .standby ∨ nodePresent s k.content.addr = false → localRequest i l s = (some .invalid, n)) ∧
      (∀ m, l = some m → s.pu.power = .active → nodePresent s k.content.addr = true →
        (Level.rank m ≤ Level.rank k.held → localRequest i l s = (some .belowHeld, n)) ∧
        (Level.rank k.held < Level.rank m → k.request.isSome = true → localRequest i l s = (some .inUse, n)) ∧
        (Level.rank k.held < Level.rank m → k.request = none → localRequest i l s = (none, requested j k m s))))

/-- Local releases: refused for an EMPTY or unknown slot and for a level other than VIEW and SHARED; otherwise the held level falls to the
named one where it is lower, a request ends, and a RELEASE is queued where the source must hear of it (R144, R141). -/
def LocalReleasesAct : Prop :=
  ∀ (i : Option (Fin 16)) (l : Option Level) (s : State),
    (i = none ∨ l = none ∨ l = some .exclusive → localRelease i l s = (some .invalid, s)) ∧
    (∀ j, i = some j → s.cu.slots[j] = none → localRelease i l s = (some .invalid, s)) ∧
    (∀ j k m, i = some j → s.cu.slots[j] = some k → l = some m → m ≠ .exclusive → ∃ t, localRelease i l s = (none, t) ∧
      (Level.rank k.held ≤ Level.rank m → k.request = none → inOutbox .request j s = false → t = s) ∧
      (Level.rank k.held ≤ Level.rank m → k.request ≠ none →
        slotAlone j (some { k with request := none, outcome := .released }) s t ∧ t.fu = s.fu ∧ t.iu = s.iu) ∧
      (Level.rank m < Level.rank k.held → slotAlone j (some { k with
          held := m, request := none, holder := if k.holder = some (own s) then none else k.holder, outcome := .released }) s t ∧
        t.mu.events &&& EventKind.bit .claimChange ≠ 0) ∧
      (s.cu.offered.isSome = true → t.cu.outbox =
        if Level.rank m < Level.rank k.held ∨ k.request ≠ none ∧ inOutbox .request j s = false
        then withRelease s.cu.outbox j (Level.lower m k.held) k.content.addr
        else s.cu.outbox.filter fun x => ¬ (x.kind = .request ∧ x.slot = j)))

/-- Writes of a directory slot (R136 to R139): EMPTY content; the refusals in order; the load of an EMPTY slot, with its auto-share
request; new flags in place; and a move to another node address. -/
def SlotWritesAct : Prop :=
  ∀ (i : Fin 16) (o : Byte) (bs : List Byte) (s : State),
    (bs = [] → s.cu.slots[i] = none → writeEntry false o .sources i.val bs s = (none, s)) ∧
    (∀ k, bs = [] → s.cu.slots[i] = some k →
      ((∃ (j : Fin 32) (e : StreamEntry), s.sr.entries[j] = some e ∧ e.content.slot = i) →
        writeEntry false o .sources i.val bs s = (some .inUse, s)) ∧
      ((∀ (j : Fin 32) (e : StreamEntry), s.sr.entries[j] = some e → e.content.slot ≠ i) →
        ∃ t, writeEntry false o .sources i.val bs s = (none, t) ∧ slotAlone i none s t ∧ t.cu.view = s.cu.view ∧
          t.iu.queues = s.iu.queues.set i [] ∧ t.iu.c.slotDiscards = bumpBy s.iu.queues[i].length s.iu.c.slotDiscards ∧ t.fu = s.fu ∧
          (k.held ≠ .view → t.mu.events &&& EventKind.bit .claimChange ≠ 0) ∧
          (s.cu.offered.isSome = true → t.cu.outbox = outboxWithout i k s))) ∧
    (bs ≠ [] → bs.length ≠ 2 → writeEntry false o .sources i.val bs s = (some .invalid, s)) ∧
    (∀ (a g : Byte) (c : SlotContent), bs = [a, g] → c = ⟨a, g.getLsbD 0, g.getLsbD 1⟩ →
      (¬ (1 ≤ a.toNat ∧ a.toNat ≤ 62) ∨ a = own s → writeEntry false o .sources i.val bs s = (some .invalid, s)) ∧
      (1 ≤ a.toNat → a.toNat ≤ 62 → a ≠ own s →
        ((∃ (j : Fin 16) (k : Slot), j ≠ i ∧ s.cu.slots[j] = some k ∧ k.content.addr = a) →
          writeEntry false o .sources i.val bs s = (some .inUse, s)) ∧
        ((∀ (j : Fin 16) (k : Slot), j ≠ i → s.cu.slots[j] = some k → k.content.addr ≠ a) →
          (s.cu.slots[i] = none → ∃ t, writeEntry false o .sources i.val bs s = (none, t) ∧
            (c.autoShare = true ∧ nodePresent s a = true ∧ s.pu.power = .active →
              t = requested i ⟨c, .view, none, none, .none⟩ .shared (s.setIu { s.iu with seqs := s.iu.seqs.set i 1 })) ∧
            (c.autoShare = false ∨ nodePresent s a = false ∨ s.pu.power = .standby →
              t = (s.setIu { s.iu with seqs := s.iu.seqs.set i 1 }).setCu { s.cu with
                slots := s.cu.slots.set i (some ⟨c, .view, none, none, .none⟩) })) ∧
          (∀ k, s.cu.slots[i] = some k →
            (k.content.addr = a → writeEntry false o .sources i.val bs s =
              (none, s.setCu { s.cu with slots := s.cu.slots.set i (some { k with content := c }) })) ∧
            (k.content.addr ≠ a → ∃ t, writeEntry false o .sources i.val bs s = (none, t) ∧
              (c.autoShare = false ∨ nodePresent s a = false ∨ s.pu.power = .standby →
                slotAlone i (some ⟨c, .view, none, none, .none⟩) s t ∧
                (s.cu.offered.isSome = true → t.cu.outbox = outboxWithout i k s)) ∧
              (c.autoShare = true → nodePresent s a = true → s.pu.power = .active →
                (∀ j : Fin 16, claimOf t.cu.slots[j] =
                  if j = i then some (c, .view, none, .none, some .shared) else claimOf s.cu.slots[j]) ∧
                (s.cu.offered.isSome = true → t.cu.slots[i] = some ⟨c, .view, some ⟨.shared, none⟩, none, .none⟩ ∧
                  t.cu.outbox = outboxWithout i k s ++ [⟨.request, i, .shared, a⟩])) ∧
              (k.held ≠ .view → t.mu.events &&& EventKind.bit .claimChange ≠ 0) ∧
              (∀ x ∈ t.iu.keys, x.2 ≠ i) ∧ (∀ j : Fin 5, t.iu.owners[j] ≠ some i))))))

/-! ## The stream table -/

/-- Allocation (R46): while three buffers are free and an entry is BLOCKED, the one with the lowest index takes the three lowest. -/
inductive Allocates : Sr → Sr → Prop
  | ends (r : Sr) : r.free.length < 3 ∨ (∀ (i : Fin 32) (e : StreamEntry), r.entries[i] = some e → e.state ≠ .blocked) → Allocates r r
  | serves (r t : Sr) (i : Fin 32) (e : StreamEntry) (a b c : Nat) (rest : List Nat) : r.free = a :: b :: c :: rest →
      r.entries[i] = some e → e.state = .blocked →
      (∀ (j : Fin 32) (e' : StreamEntry), j < i → r.entries[j] = some e' → e'.state ≠ .blocked) →
      Allocates { r with
        entries := r.entries.set i (some { e with
          state := .waiting, buffers := some ⟨a, none, none, [b, c]⟩, front := none, ready := none, assembly := none, timer := none }),
        free := rest } t → Allocates r t

/-- A load into an EMPTY entry (R47): BLOCKED with nothing but its content and an armed report, then allocation, and POOL_EXHAUSTED where
that leaves it BLOCKED. -/
def StreamLoaded (i : Fin 32) (c : StreamContent) (s t : State) : Prop :=
  ∃ r, Allocates (withEntry s i ⟨c, .blocked, none, none, none, none, none, true, streamCountersZero⟩) r ∧
    (r.entries[i].map (·.state) = some .blocked → t = raise .poolExhausted (s.setSr r)) ∧
    (r.entries[i].map (·.state) ≠ some .blocked → t = s.setSr r)

/-- A removal (R49): the entry EMPTY, its buffers free, the focus re-evaluated where it was the focus window's stream, and allocation where
buffers came back. -/
def StreamRemoved (i : Fin 32) (e : StreamEntry) (s t : State) : Prop :=
  ∃ free u, (∀ n, n ∈ free ↔ n ∈ s.sr.free ∨ n ∈ entryBuffers (some e)) ∧
    u = s.setSr { s.sr with entries := s.sr.entries.set i none, free := free } ∧
    ∀ v, v = (if s.fu.focus.bind (fun f => (windowOf s f).bind (·.stream)) = some e.content.id then fuReevaluate u else u) →
      (e.buffers = none → free = s.sr.free ∧ t = v) ∧ (e.buffers ≠ none → ∃ r, Allocates u.sr r ∧ t = v.setSr r)

/-- Writes of a stream entry (R47 to R49, R201): EMPTY content, the refusals in order, a load, a rewrite with the same content, one of the
stale timeout alone, and any other. -/
def StreamWritesAct : Prop :=
  ∀ (i : Fin 32) (o : Byte) (bs : List Byte) (s : State) (w : Answer × State), w = writeEntry false o .streams i.val bs s →
    (bs = [] → (s.sr.entries[i] = none → w = (none, s)) ∧
      (∀ e, s.sr.entries[i] = some e → ∃ t, w = (none, t) ∧ StreamRemoved i e s t)) ∧
    (bs ≠ [] → bs.length ≠ 9 → bs.length ≠ 34 → w = (some .invalid, s)) ∧
    (∀ id slot width height stale, bs.length = 9 ∨ bs.length = 34 → id = at16 bs 0 → slot = at8 bs 2 → width = at16 bs 3 →
      height = at16 bs 5 → stale = at16 bs 7 →
      (id < 1 ∨ 1023 < id ∨ 16 ≤ slot ∨ (∃ k : Fin 16, k.val = slot ∧ s.cu.slots[k] = none) ∨ width < 64 ∨ 3840 < width ∨
        width % 8 ≠ 0 ∨ height < 64 ∨ 2160 < height ∨ height % 4 ≠ 0 ∨ (stale ≠ 0 ∧ (stale < 16 ∨ 4000 < stale)) →
        w = (some .invalid, s)) ∧
      (∀ k : Fin 16, 1 ≤ id → id ≤ 1023 → k.val = slot → s.cu.slots[k] ≠ none → 64 ≤ width → width ≤ 3840 → width % 8 = 0 →
        64 ≤ height → height ≤ 2160 → height % 4 = 0 → (stale = 0 ∨ (16 ≤ stale ∧ stale ≤ 4000)) →
        ((∃ (j : Fin 32) (e : StreamEntry), j ≠ i ∧ s.sr.entries[j] = some e ∧ e.content.id = id) → w = (some .inUse, s)) ∧
        (∀ c : StreamContent, (∀ (j : Fin 32) (e : StreamEntry), j ≠ i → s.sr.entries[j] = some e → e.content.id ≠ id) →
          c = ⟨id, k, width, height, if stale = 0 then 250 else stale⟩ →
          (s.sr.entries[i] = none → ∃ t, w = (none, t) ∧ StreamLoaded i c s t) ∧
          (∀ e, s.sr.entries[i] = some e →
            (c = e.content → w = (none, s)) ∧
            (c ≠ e.content → { c with stale := e.content.stale } = e.content →
              (∀ n, e.state = .live → e.timer = some n → c.stale ≤ n → w = (none, raise .streamStale (s.setSr
                (withEntry s i { e with content := c, state := .stale, timer := none })))) ∧
              (e.state ≠ .live ∨ e.timer = none ∨ (∃ n, e.timer = some n ∧ n < c.stale) →
                w = (none, s.setSr (withEntry s i { e with content := c })))) ∧
            ({ c with stale := e.content.stale } ≠ e.content →
              ∃ t u, StreamRemoved i e s t ∧ StreamLoaded i c t u ∧ w = (none, u))))))

/-! ## Settings, lists and the other tables -/

/-- A number setting: its entry, its width in bytes, its lowest and highest value, and the settings with it (R173). -/
def numberEntries : List (Nat × Nat × Nat × Nat × (Nat → Desk → Desk)) :=
  [(11, 1, 0, 255, fun n d => { d with guard := n }), (12, 1, 0, 240, fun n d => { d with standby := n }),
   (13, 1, 1, 15, fun n d => { d with downshift := n }), (14, 1, 1, 255, fun n d => { d with energyReset := n }),
   (15, 1, 1, 255, fun n d => { d with beaconPeriod := n }), (16, 2, 100, 5000, fun n d => { d with absence := n }),
   (17, 1, 0, 255, fun n d => { d with priority := byte n }), (18, 2, 20, 2000, fun n d => { d with claimTimeout := n }),
   (19, 2, 10, 1000, fun n d => { d with noticeInterval := n })]

/-- A value outside its setting's range, or of another width, is refused; one inside is applied, and stands as the setting. Those that act
on something running do so at once: the guard distance clears the accumulator (R99), the standby delay governs the idle timer (R160), the
energy reset time the energy-loss timers (R19), the absence timeout the presence entries (R38), the notice interval the interval (R185). -/
def NumberWritesAct : Prop :=
  ∀ (o : Byte) (bs : List Byte) (s : State),
    (∀ e ∈ numberEntries, ∀ w, w = writeEntry false o .desk e.1 bs s →
      (bs.length ≠ e.2.1 → w = (some .invalid, s)) ∧
      (∀ n, bs.length = e.2.1 → n = (if e.2.1 = 1 then at8 bs 0 else at16 bs 0) →
        (n < e.2.2.1 ∨ e.2.2.2.1 < n → w = (some .invalid, s)) ∧
        (e.2.2.1 ≤ n → n ≤ e.2.2.2.1 → ∃ t, w = (none, t) ∧ t.desk = e.2.2.2.2 n s.desk ∧
          (e.1 = 13 ∨ e.1 = 15 ∨ e.1 = 17 ∨ e.1 = 18 → t = s.setDesk t.desk)))) ∧
    (∀ b : Byte, writeEntry false o .desk 11 [b] s =
      (none, (s.setDesk { s.desk with guard := b.toNat }).setFu { s.fu with accum := 0 })) ∧
    (∀ (b : Byte) (t : State), writeEntry false o .desk 12 [b] s = (none, t) →
      (b.toNat = s.desk.standby → t = s) ∧
      (b.toNat ≠ s.desk.standby → b = 0 → t.pu = { s.pu with idle := none }) ∧
      (b.toNat ≠ s.desk.standby → b ≠ 0 →
        (s.pu.power = .standby ∨ s.cl.loader = .loading → t.pu = s.pu) ∧
        (s.pu.power = .active → s.cl.loader = .running → s.pu.idle = none → t.pu = { s.pu with idle := some 0 }) ∧
        (∀ n, s.pu.power = .active → s.cl.loader = .running → s.pu.idle = some n →
          (n < b.toNat * 60000 → t.pu = s.pu) ∧ (b.toNat * 60000 ≤ n → t.pu.power = .standby)))) ∧
    (∀ (b : Byte) (t : State), writeEntry false o .desk 14 [b] s = (none, t) →
      (b.toNat = s.desk.energyReset → t = s) ∧
      (b.toNat ≠ s.desk.energyReset →
        t.wlp = (if s.wlp.state = .silent ∧ reached s.wlp.silence (b.toNat * 1000) = true
          then { s.wlp with silence := none, agreed := none } else s.wlp) ∧
        t.elp = (if s.elp.state = .silent ∧ reached s.elp.silence (b.toNat * 1000) = true
          then { s.elp with silence := none, agreed := none, ceiling := .full, attempts := 0 } else s.elp))) ∧
    (∀ (a b : Byte) (t : State), writeEntry false o .desk 16 [a, b] s = (none, t) →
      (at16 [a, b] 0 = s.desk.absence → t = s) ∧
      (at16 [a, b] 0 ≠ s.desk.absence → ∀ n : Fin 62, t.rf.presence[n] =
        if s.rf.presence[n].present = true ∧ nodeIndex (own s) ≠ some n ∧ at16 [a, b] 0 ≤ s.rf.presence[n].time.getD 0
        then { s.rf.presence[n] with present := false } else s.rf.presence[n])) ∧
    (∀ (a b : Byte) (t : State), writeEntry false o .desk 19 [a, b] s = (none, t) →
      (at16 [a, b] 0 = s.desk.noticeInterval → t = s) ∧
      (at16 [a, b] 0 ≠ s.desk.noticeInterval →
        (∀ n, s.mu.interval = some n → at16 [a, b] 0 ≤ n → s.mu.due = false → t.mu = { s.mu with interval := none }) ∧
        (s.mu.interval = none ∨ (∃ n, s.mu.interval = some n ∧ n < at16 [a, b] 0) →
          t = s.setDesk { s.desk with noticeInterval := at16 [a, b] 0 })))

/-- The other single settings: the desk frame rate (R65), the palette (R83), the notice target (R185), the authority node (R173) and the
ring seed (R3); the space has no other entry. -/
def SettingWritesAct : Prop :=
  ∀ (o : Byte) (bs : List Byte) (s : State),
    writeEntry false o .desk 0 [50] s = (none, s.setDesk { s.desk with rate := .hz50 }) ∧
    writeEntry false o .desk 0 [60] s = (none, s.setDesk { s.desk with rate := .hz60 }) ∧
    (bs ≠ [50] → bs ≠ [60] → writeEntry false o .desk 0 bs s = (some .invalid, s)) ∧
    (∀ k : Fin 6,
      writeEntry false o .desk (5 + k.val) [] s = (none, s.setCp { s.cp with palette := s.cp.palette.set k none }) ∧
      (∀ r g b : Byte, writeEntry false o .desk (5 + k.val) [r, g, b] s =
        (none, s.setCp { s.cp with palette := s.cp.palette.set k (some (r ++ g ++ b)) })) ∧
      (bs ≠ [] → bs.length ≠ 3 → writeEntry false o .desk (5 + k.val) bs s = (some .invalid, s))) ∧
    (bs.length ≠ 1 → writeEntry false o .desk 20 bs s = (some .invalid, s)) ∧
    (∀ b : Byte,
      (targetOk s b → writeEntry false o .desk 20 [b] s = (none,
        if b = 0 then (s.setDesk { s.desk with noticeTarget := b }).setMu { s.mu with due := false }
        else s.setDesk { s.desk with noticeTarget := b })) ∧
      (¬ targetOk s b → writeEntry false o .desk 20 [b] s = (some .invalid, s))) ∧
    (s.desk.authority ≠ 0 → o ≠ s.desk.authority → writeEntry false o .desk 21 bs s = (some .notAuthority, s)) ∧
    (s.desk.authority = 0 ∨ o = s.desk.authority →
      (bs.length ≠ 1 → writeEntry false o .desk 21 bs s = (some .invalid, s)) ∧
      (∀ b : Byte, (targetOk s b → writeEntry false o .desk 21 [b] s = (none, s.setDesk { s.desk with authority := b })) ∧
        (¬ targetOk s b → writeEntry false o .desk 21 [b] s = (some .invalid, s)))) ∧
    (∀ a b c d : Byte, writeEntry false o .desk 22 [a, b, c, d] s = (none, s.setDesk { s.desk with seed := a ++ b ++ c ++ d })) ∧
    (bs.length ≠ 4 → writeEntry false o .desk 22 bs s = (some .invalid, s)) ∧
    (∀ i, 23 ≤ i → writeEntry false o .desk i bs s = (some .invalid, s))

/-- Writes of a head record (R66 to R68): DONE where it equals the record held; refused out of range, overlapping another enabled head, or
too small for one of the head's windows; and otherwise stored, with a report where it moved. -/
def HeadWritesAct : Prop :=
  ∀ (h : Fin 4) (o : Byte) (bs : List Byte) (s : State) (w : Answer × State), w = writeEntry false o .desk (h.val + 1) bs s →
    (bs.length ≠ 12 ∨ 2 ≤ at8 bs 0 → w = (some .invalid, s)) ∧
    (∀ r : HeadRecord, bs.length = 12 → at8 bs 0 < 2 →
      r = ⟨at8 bs 0 = 1, at16 bs 1, at16 bs 3, at16 bs 5, at16 bs 7, colourAt bs 9⟩ →
      (s.cp.heads[h] = r → w = (none, s)) ∧
      (s.cp.heads[h] ≠ r →
        (headInRange r = false → w = (some .invalid, s)) ∧
        (headInRange r = true →
          ((∃ k : Fin 4, k ≠ h ∧ r.enabled = true ∧ s.cp.heads[k].enabled = true ∧ rectsMeet r s.cp.heads[k] = true) →
            w = (some .overlap, s)) ∧
          ((∀ k : Fin 4, k ≠ h → r.enabled = true → s.cp.heads[k].enabled = true → rectsMeet r s.cp.heads[k] = false) →
            ((∃ v : Window, (v ∈ s.cp.active[h] ∨ v ∈ s.cp.staged[h] ∨ ∃ p : Fin 8, v ∈ s.cp.presets[presetIndex p h]) ∧
                winFits r.width r.height v = false) → w = (some .inUse, s)) ∧
            ((∀ v : Window, (v ∈ s.cp.active[h] ∨ v ∈ s.cp.staged[h] ∨ ∃ p : Fin 8, v ∈ s.cp.presets[presetIndex p h]) →
                winFits r.width r.height v = true) → ∃ t, w = (none, t) ∧ t.cp = { s.cp with heads := s.cp.heads.set h r } ∧
              (s.cl.loader = .loading ∨ headMoved s.cp.heads[h] r = false →
                t = s.setCp { s.cp with heads := s.cp.heads.set h r }) ∧
              (s.cl.loader = .running → headMoved s.cp.heads[h] r = true →
                t = fuReevaluate (clampPointer (s.setCp { s.cp with heads := s.cp.heads.set h r }))))))))

/-- A window list is valid for a head: at most 6 records, no two with one window id, each within its ranges, within the head, and with its
source area within its stream where that is loaded (R69 to R71). -/
structure ListFits (h : Fin 4) (ws : List Window) (s : State) : Prop where
  whole : listWhole ws
  ranges : ∀ w ∈ ws, w.id ≤ 5 ∧ (∀ id, w.stream = some id → 1 ≤ id ∧ id ≤ 1023) ∧ w.sx ≤ 3839 ∧ w.sy ≤ 2159 ∧
    (w.d = 1 ∨ w.d = 2 ∨ w.d = 4) ∧ w.x ≤ 3839 ∧ w.y ≤ 2159 ∧ 8 ≤ w.w ∧ w.w ≤ 3840 ∧ 8 ≤ w.h ∧ w.h ≤ 2160
  head : ∀ w ∈ ws, w.x + w.w ≤ s.cp.heads[h].width ∧ w.y + w.h ≤ s.cp.heads[h].height
  source : ∀ w ∈ ws, ∀ id e, w.stream = some id → streamOf s id = some e →
    w.sx + w.w * w.d ≤ e.content.width ∧ w.sy + w.h * w.d ≤ e.content.height

/-- Writes of staged and preset lists (R70 to R74, R201): a valid list written in the encoding of the space is stored, any other is
refused, and a head whose pending flag is set refuses every staged list (which of the two checks comes first is the model's choice,
notes/assumptions/39.md). -/
def ListWritesAct : Prop :=
  ∀ (h : Fin 4) (o : Byte) (bs : List Byte) (s : State),
    (s.cp.pending[h] = true → writeEntry false o .staged h.val bs s = (some .latchPending, s)) ∧
    (s.cp.pending[h] = false →
      (∀ ws, parseList bs = some ws → ListFits h ws s →
        writeEntry false o .staged h.val bs s = (none, s.setCp { s.cp with staged := s.cp.staged.set h ws })) ∧
      (parseList bs = none ∨ (∃ ws, parseList bs = some ws ∧ ¬ ListFits h ws s) →
        writeEntry false o .staged h.val bs s = (some .invalid, s))) ∧
    (∀ p : Fin 8,
      (∀ ws, parseList bs = some ws → ListFits h ws s → writeEntry false o .presets (presetIndex p h).val bs s =
        (none, s.setCp { s.cp with presets := s.cp.presets.set (presetIndex p h) ws })) ∧
      (parseList bs = none ∨ (∃ ws, parseList bs = some ws ∧ ¬ ListFits h ws s) →
        writeEntry false o .presets (presetIndex p h).val bs s = (some .invalid, s))) ∧
    (∀ ws, ListFits h ws s → parseList (listBytes ws) = some ws) ∧
    (∀ n rest, bs = n :: rest → rest.length ≠ 20 * n.toNat → parseList bs = none) ∧ parseList [] = none

/-- Writes of hot keys (R114), lamps (R163) and the event mask (R176, R183). -/
def TableWritesAct : Prop :=
  ∀ (o : Byte) (bs : List Byte) (s : State),
    (∀ (i : Fin 16) (w : Answer × State), w = writeEntry false o .hotkeys i.val bs s →
      (bs = [] → w = (none, s.setIu { s.iu with hotkeys := s.iu.hotkeys.set i none })) ∧
      (bs ≠ [] → bs.length ≠ 4 → w = (some .invalid, s)) ∧
      (∀ m u c g : Byte, bs = [m, u, c, g] →
        (u = 0 ∨ isModifier u = true ∨ 7 ≤ c.toNat ∨ (c = 0 ∧ 8 ≤ g.toNat) → w = (some .invalid, s)) ∧
        (∀ a, u ≠ 0 → isModifier u = false → hotActionOf c = some a → (c ≠ 0 ∨ g.toNat < 8) →
          ((∃ (j : Fin 16) (k : HotKey), j ≠ i ∧ s.iu.hotkeys[j] = some k ∧ k.mods = m ∧ k.usage = u) → w = (some .inUse, s)) ∧
          ((∀ (j : Fin 16) (k : HotKey), j ≠ i → s.iu.hotkeys[j] = some k → k.mods ≠ m ∨ k.usage ≠ u) →
            w = (none, s.setIu { s.iu with hotkeys := s.iu.hotkeys.set i (some ⟨m, u, a, g⟩) }))))) ∧
    (∀ (l : Fin 5) (w : Answer × State), w = writeEntry false o .lamps l.val bs s →
      (bs.length ≠ 4 ∨ (∃ b ∈ bs, 4 ≤ b.toNat) → w = (some .invalid, s)) ∧
      (∀ (a b c d : Byte) (p q r t : Behaviour), bs = [a, b, c, d] → behaviourOf a = some p → behaviourOf b = some q →
        behaviourOf c = some r → behaviourOf d = some t →
        w = (none, s.setPu { s.pu with lamps := s.pu.lamps.set l #v[p, q, r, t] }))) ∧
    (∀ a b : Byte, writeEntry false o .events 1 [a, b] s = (none,
      if s.mu.events &&& s.mu.mask &&& ~~~(a ++ b) ≠ 0 then makeDue (s.setMu { s.mu with mask := a ++ b })
      else s.setMu { s.mu with mask := a ++ b })) ∧
    (bs.length ≠ 2 → writeEntry false o .events 1 bs s = (some .invalid, s)) ∧
    writeEntry false o .events 0 bs s = (some .invalid, s)

/-! ## Management requests -/

/-- The state in which a request that is taken is handled: it is in work, and counted (R169). -/
def atWork (f : Frame) (tag : BitVec 16) (s : State) : State :=
  (goodSeen s).setMu { s.mu with work := some ⟨f.origin, tag, false⟩, c := { s.mu.c with taken := bump s.mu.c.taken } }

/-- A request's response without entries: to its origin, under its tag, with an outcome, its reason and the count done (R170, R171,
R201). -/
def response (f : Frame) (t1 t2 : Byte) (o : Outcome) (n : Nat) (s : State) : Frame :=
  ⟨kindMgmtRsp, f.origin, own s, 63, [t1, t2, outcomeCode o, outcomeReason o, byte n]⟩

/-- The request is answered with an outcome and a count done, its handling having left a state, whose management unit then offers the
response (R170). -/
def Answered (f : Frame) (t1 t2 : Byte) (s : State) (o : Outcome) (n : Nat) (t : State) : Prop :=
  exec (hear s f) s = .next (offerResponse ⟨response f t1 t2 o n s, false⟩ t)

/-- The entries of a WRITE applied in order from an index on, up to the first refused: its answer, the number applied before it, and the
state they left (R176, R177). -/
def Applied (origin : Byte) (sp : Space) : Nat → List (List Byte) → State → Answer → Nat → State → Prop
  | _, [], s, a, n, t => a = none ∧ n = 0 ∧ t = s
  | i, e :: es, s, a, n, t =>
    (∃ r, writeEntry false origin sp i e s = (some r, s) ∧ a = some r ∧ n = 0 ∧ t = s) ∨
    (∃ u m, writeEntry false origin sp i e s = (none, u) ∧ Applied origin sp (i + 1) es u a m t ∧ n = m + 1)

/-- A READ and a WRITE, and what forbids them (R175, R176, R180): an unknown space or index; a read-only space; a level; a save. A READ
that none of them stops gives entries in index order up to the count, the end of the space or the first that does not fit in 1024 bytes;
such a WRITE applies its entries in order. -/
structure ReadsAndWrites (f : Frame) (t1 t2 : Byte) (rest : List Byte) (s r : State) : Prop where
  unknown : ∀ kind sp first more, rest = kind :: sp :: first :: more → kind = 1 ∨ kind = 2 →
    spaceOf sp = none ∨ (∃ e, spaceOf sp = some e ∧ spaceSize e ≤ first.toNat) → Answered f t1 t2 s .unknown 0 r
  readLocked : ∀ sp e first n more, rest = 1 :: sp :: first :: n :: more → spaceOf sp = some e → first.toNat < spaceSize e →
    readProtected e f.origin s = true → Answered f t1 t2 s .isProtected 0
      (r.setMu { r.mu with c := { r.mu.c with protectedRefusals := bump r.mu.c.protectedRefusals } })
  read : ∀ sp e first n more, rest = 1 :: sp :: first :: n :: more → spaceOf sp = some e → first.toNat < spaceSize e →
    readProtected e f.origin s = false → ∃ es : List (List Byte),
      (∀ k (h : k < es.length), es[k] = entryBytes (readEntry e (first.toNat + k) r)) ∧
      es.length ≤ n.toNat ∧ first.toNat + es.length ≤ spaceSize e ∧ es.flatten.length ≤ 1019 ∧
      (es.length = n.toNat ∨ first.toNat + es.length = spaceSize e ∨
        1019 < es.flatten.length + (entryBytes (readEntry e (first.toNat + es.length) r)).length) ∧
      exec (hear s f) s = .next (offerResponse
        ⟨⟨kindMgmtRsp, f.origin, own s, 63, [t1, t2, 0, 0, byte es.length] ++ es.flatten⟩, false⟩ r)
  readOnly : ∀ sp e first more, rest = 2 :: sp :: first :: more → spaceOf sp = some e → first.toNat < spaceSize e →
    readOnlySpace e = true → Answered f t1 t2 s (.refused .invalid) 0 r
  writeLocked : ∀ sp e first more, rest = 2 :: sp :: first :: more → spaceOf sp = some e → first.toNat < spaceSize e →
    readOnlySpace e = false → writeProtected e s = true → Answered f t1 t2 s .isProtected 0
      (r.setMu { r.mu with c := { r.mu.c with protectedRefusals := bump r.mu.c.protectedRefusals } })
  saving : ∀ sp e first more, rest = 2 :: sp :: first :: more → spaceOf sp = some e → first.toNat < spaceSize e →
    readOnlySpace e = false → writeProtected e s = false → (spaceArea e).isSome = true → s.cl.save ≠ .idle →
    Answered f t1 t2 s (.refused .saving) 0 r
  applied : ∀ sp e first n more es, rest = 2 :: sp :: first :: n :: more → more = es.flatMap entryBytes → es.length = n.toNat →
    (∀ x ∈ es, x.length < 256) → spaceOf sp = some e → first.toNat < spaceSize e → readOnlySpace e = false →
    writeProtected e s = false → (spaceArea e).isSome = false ∨ s.cl.save = .idle →
    ∃ a m t, Applied f.origin e first.toNat es r a m t ∧
      (a = none → Answered f t1 t2 s .done m t) ∧ (∀ x, a = some x → Answered f t1 t2 s (.refused x) m t)

/-- The answer of an owning block as the response's outcome (R178). -/
def AnsweredBy (f : Frame) (t1 t2 : Byte) (s : State) (a : Answer × State) : Prop :=
  (a.1 = none → Answered f t1 t2 s .done 0 a.2) ∧ ∀ x, a.1 = some x → Answered f t1 t2 s (.refused x) 0 a.2

/-- The requests that act (R178, R179, R181, R183): each is answered with its owning block's outcome, in the state that this leaves. -/
structure RequestsAct (f : Frame) (t1 t2 : Byte) (rest : List Byte) (s r : State) : Prop where
  commit : ∀ h more, rest = 3 :: h :: more →
    (h = 0 ∨ 16 ≤ h.toNat → Answered f t1 t2 s (.refused .invalid) 0 r) ∧
    (h ≠ 0 → h.toNat < 16 → Answered f t1 t2 s .done 0 (r.setCp { s.cp with
      pending := Vector.ofFn fun k => s.cp.pending[k] || h.getLsbD k.val, current := none }))
  select : ∀ b more, rest = 4 :: b :: more →
    (8 ≤ b.toNat → Answered f t1 t2 s (.refused .invalid) 0 r) ∧
    (∀ p : Fin 8, b.toNat = p.val → Answered f t1 t2 s .done 0 (r.setCp { s.cp with
      staged := Vector.ofFn fun k => s.cp.presets[presetIndex p k], pending := Vector.replicate 4 true, current := some p }))
  claim : ∀ b l more, rest = 5 :: b :: l :: more →
    (16 ≤ b.toNat → AnsweredBy f t1 t2 s (localRequest none (levelOf l) r)) ∧
    (∀ i : Fin 16, b.toNat = i.val → AnsweredBy f t1 t2 s (localRequest (some i) (levelOf l) r))
  release : ∀ b l more, rest = 6 :: b :: l :: more →
    (16 ≤ b.toNat → AnsweredBy f t1 t2 s (localRelease none (levelOf l) r)) ∧
    (∀ i : Fin 16, b.toNat = i.val → AnsweredBy f t1 t2 s (localRelease (some i) (levelOf l) r))
  power : ∀ b more, rest = 7 :: b :: more →
    (2 ≤ b.toNat → Answered f t1 t2 s (.refused .invalid) 0 r) ∧
    (b = 0 → s.pu.power = .active → Answered f t1 t2 s .done 0 (r.setPu { s.pu with
      idle := if s.desk.standby = 0 then none else some 0 })) ∧
    (b = 0 → s.pu.power = .standby → ∃ t, Answered f t1 t2 s .done 0 t ∧ t.pu = { s.pu with
        power := .active, wake := some .management, c := { s.pu.c with wakes := bump s.pu.c.wakes },
        idle := if s.desk.standby = 0 then none else some 0 } ∧ t.mu.events &&& EventKind.bit .wake ≠ 0 ∧ AutoShared s t) ∧
    (b = 1 → s.pu.power = .standby → Answered f t1 t2 s .done 0 r) ∧
    (b = 1 → s.pu.power = .active → ∃ t, Answered f t1 t2 s .done 0 t ∧ t.pu = { s.pu with
        power := .standby, idle := none, c := { s.pu.c with standbys := bump s.pu.c.standbys } } ∧ t.fu.focus = none ∧
      t.fu.lock = false ∧ ∀ (i : Fin 16) (k : Slot), t.cu.slots[i] = some k → k.held = .view ∧ k.request = none)
  ack : ∀ a b more, rest = 8 :: a :: b :: more →
    Answered f t1 t2 s .done 0 (r.setMu { r.mu with events := s.mu.events &&& ~~~(a ++ b) })
  protection : ∀ a b more, rest = 10 :: a :: b :: more →
    (s.desk.authority ≠ 0 → f.origin ≠ s.desk.authority → Answered f t1 t2 s (.refused .notAuthority) 0 r) ∧
    (s.desk.authority = 0 ∨ f.origin = s.desk.authority →
      (2 ≤ a.toNat ∨ 3 ≤ b.toNat → Answered f t1 t2 s (.refused .invalid) 0 r) ∧
      (∀ l, a.toNat < 2 → protLevelOf b = some l →
        (s.cl.save ≠ .idle → Answered f t1 t2 s (.refused .saving) 0 r) ∧
        (s.cl.save = .idle → Answered f t1 t2 s .done 0 (r.setMu (if a = 0 then { r.mu with configLevel := l }
          else { r.mu with layoutLevel := l })))))
  save : ∀ more, rest = 11 :: more →
    (s.cl.save ≠ .idle → Answered f t1 t2 s (.refused .saving) 0 r) ∧
    (s.cl.save = .idle → Answered f t1 t2 s .done 0 (r.setCl { s.cl with
      save := .writingLayout, snapshot := some ⟨deskArea s, layoutArea s⟩ }))
  reset : ∀ more, rest = 12 :: more →
    (s.desk.authority ≠ 0 → f.origin ≠ s.desk.authority → Answered f t1 t2 s (.refused .notAuthority) 0 r) ∧
    (s.desk.authority = 0 ∨ f.origin = s.desk.authority → s.mu.offer.isSome = true ∨ 12 ≤ s.rf.insQ.length →
      exec (hear s f) s = .next (offerResponse ⟨response f t1 t2 .done 0 s, true⟩ r)) ∧
    (s.desk.authority = 0 ∨ f.origin = s.desk.authority → s.mu.offer = none → s.rf.insQ.length < 12 →
      (s.elp.state = .up → s.rf.sending.isSome = true → s.mu.due = false → exec (hear s f) s = .next ((r.setMu { r.mu with
          work := some ⟨f.origin, t1 ++ t2, true⟩, c := { r.mu.c with responses := bump r.mu.c.responses } }).setRf { s.rf with
            insQ := s.rf.insQ ++ [⟨response f t1 t2 .done 0 s, true⟩] })) ∧
      (s.elp.state ≠ .up → ∃ t, exec (hear s f) s = .next t ∧ t.cl.loader = .loading ∧ t.rf.insQ = [] ∧ t.mu = muStart) ∧
      (s.elp.state = .up → s.rf.sending = none → s.rf.passQ = [] → s.rf.insQ = [] → ∃ t, exec (hear s f) s = .next t ∧
        t.cl.loader = .loading ∧ t.rf.sending = some ⟨response f t1 t2 .done 0 s, .insertion⟩ ∧ t.mu = muStart))

/-- How the management unit offers a response (R170): appended, counted and its request out of work, where it keeps no frame and the queue
has room; kept on offer at a full queue; and waiting behind a notice kept on offer. -/
def ResponsesOffered : Prop :=
  ∀ (e : InsEntry) (s : State), NoReset s → e.frame.origin = own s → e.frame.hop = 63 →
    (e.resetResponse = false → s.mu.offer = none → s.rf.insQ.length < 12 → s.mu.due = false → offerResponse e s = (s.setMu { s.mu with
      work := none, c := { s.mu.c with responses := bump s.mu.c.responses } }).setRf (takeIn s e)) ∧
    (s.mu.offer = none → 12 ≤ s.rf.insQ.length → offerResponse e s = (s.setMu { s.mu with offer := some ⟨e, false⟩ }).setRf
      { s.rf with c := { s.rf.c with insFull := bump s.rf.c.insFull } }) ∧
    (s.mu.offer.isSome = true → offerResponse e s = s.setMu { s.mu with waiting := some e })

/-- How a due notice is built (R170, R184): at once where the interval is not running and the unit keeps no frame; appended, it starts the
interval and counts; refused, it is kept on offer. Otherwise it stays due. -/
def NoticesOffered : Prop :=
  ∀ (s : State) (e : InsEntry), NoReset s →
    e = ⟨⟨kindNotice, s.desk.noticeTarget, own s, 63, noticePayload s.mu.events s.rf.ring s.pu.power⟩, false⟩ →
    (s.mu.due = false ∨ s.mu.interval.isSome = true ∨ s.mu.offer.isSome = true → tryNotice s = s) ∧
    (s.mu.due = true → s.mu.interval = none → s.mu.offer = none →
      (s.rf.insQ.length < 12 → tryNotice s = (s.setMu { s.mu with
        due := false, interval := some 0, c := { s.mu.c with notices := bump s.mu.c.notices } }).setRf (takeIn s e)) ∧
      (12 ≤ s.rf.insQ.length → tryNotice s = (s.setMu { s.mu with due := false, offer := some ⟨e, true⟩ }).setRf
        { s.rf with c := { s.rf.c with insFull := bump s.rf.c.insFull } }))

/-- The form check (R169, R201): at most 1024 bytes, with a tag, one of the twelve kinds, all the fields of the kind, and the entries of a
WRITE filling the payload exactly. -/
def FormPasses (p : List Byte) : Prop :=
  p.length ≤ 1024 ∧ ∃ (t1 t2 kind : Byte) (more : List Byte), p = t1 :: t2 :: kind :: more ∧
    ((kind = 1 ∧ 3 ≤ more.length) ∨
     (kind = 2 ∧ ∃ (sp first n : Byte) (es : List (List Byte)), more = sp :: first :: n :: es.flatMap entryBytes ∧ es.length = n.toNat ∧ ∀ x ∈ es, x.length < 256) ∨
     ((kind = 3 ∨ kind = 4 ∨ kind = 7) ∧ 1 ≤ more.length) ∨
     ((kind = 5 ∨ kind = 6 ∨ kind = 8 ∨ kind = 10) ∧ 2 ≤ more.length) ∨ kind = 9 ∨ kind = 11 ∨ kind = 12)

end Sys2Proof.Machine
end

