-- ==== Sys2Proof/Certificates/Slice0/Obligations.lean ====
section
/-! DEFINITION. The statements for the provers. Each is about every state that meets its hypotheses; `NoReset` and
`resetDue = false` say that no RESET response is in hand, so that the step does not end in a soft reset (R179). That a command which
names what cannot occur in a state changes nothing there is the model's choice (notes/assumptions/29.md). -/

open Sys2Proof Sys2Proof.Machine

/-! ## The step -/

/-- A step takes the command at the front of the queue and runs it on the rest. -/
def Obligations.StepTakesTheFrontCommand : Prop :=
  ∀ (c : Instr) (rest : List Instr) (s : State), step (s.setPending (c :: rest)) = exec c (s.setPending rest)

/-- With no command waiting, the steps that are owed join the queue, and else 1 ms passes: every running timer counts, the expiries
that have come due join the queue, and nothing else changes (the model's choice, notes/assumptions/1.md). -/
def Obligations.EmptyQueueLetsTimePass : Prop :=
  ∀ s : State, s.pending = [] → ∃ t, step s = .next t ∧
    (owed s ≠ [] → t = s.setPending (owed s)) ∧
    (owed s = [] → t = (advance s).setPending (due (advance s)) ∧
      t.wlp = { s.wlp with silence := s.wlp.silence.map (· + 1) } ∧
      t.elp = { s.elp with
        silence := s.elp.silence.map (· + 1), trial := s.elp.trial.map fun w => { w with elapsed := w.elapsed + 1 } } ∧
      t.rf = { s.rf with
        beaconTimer := s.rf.beaconTimer.map fun w => { w with elapsed := w.elapsed + 1 },
        closure := s.rf.closure.map fun w => { w with elapsed := w.elapsed + 1 },
        presence := mapTable (fun e => { e with time := e.time.map fun n => min (n + 1) 65535 }) s.rf.presence } ∧
      t.sr = { s.sr with entries := mapTable (Option.map fun e => { e with timer := e.timer.map (· + 1) }) s.sr.entries } ∧
      t.cp = { s.cp with
        raster := if s.cp.raster.running then { s.cp.raster with phase := s.cp.raster.phase + 3 } else s.cp.raster } ∧
      t.fu = s.fu ∧ t.iu = s.iu ∧
      t.cu = { s.cu with slots := mapTable (Option.map fun k =>
        { k with request := k.request.map fun r => { r with deadline := r.deadline.map (· - 1) } }) s.cu.slots } ∧
      t.pu = { s.pu with
        idle := s.pu.idle.map (· + 1), blink := s.pu.blink.map fun b => { b with elapsed := b.elapsed + 1 } } ∧
      t.mu = { s.mu with interval := s.mu.interval.map (· + 1) } ∧
      t.cl = s.cl ∧ t.desk = s.desk ∧ t.serial = s.serial ∧ t.lineOut = s.lineOut ∧ t.free = s.free ∧
      t.pending = due (advance s))

/-! ## Reset -/

/-- Power-on reset gives every block its power-on state, samples the straps, and abandons a save that runs (R189, R196 and the reset
tables). That the flags read NOT_READ and the built-in seed is in force until the load brings its own is the model's choice
(notes/assumptions/6.md). The energy on the lines, the symbols sent before, the memory's cells and the waiting commands are outside
the part and stay (notes/assumptions/19.md); what stands of a header being written is a free value (notes/assumptions/7.md). -/
def Obligations.PowerOnResetGivesTheStartState : Prop :=
  ∀ (loadSel : Bool) (straps : BitVec 6) (s : State), ∃ t, exec (.powerOnReset loadSel straps) s = .next t ∧
    t.cl = ⟨loadSel, straps, .loading, true, .idle, none, .notRead, .notRead, 0x5A3C96E1#32⟩ ∧
    t.wlp = { wlpStart with energy := s.wlp.energy } ∧ t.elp = { elpStart with energy := s.elp.energy } ∧
    t.rf = rfStart ∧ t.sr = srStart [] ∧ t.cp = cpStart ∧ t.fu = fuStart ∧ t.iu = iuStart ∧ t.cu = cuStart ∧ t.pu = puStart ∧
    t.mu = muStart ∧ t.desk = deskDefault ∧ CutShort s t ∧ t.lineOut = s.lineOut ∧ t.pending = s.pending

/-- The state after reset meets every invariant of this file. -/
def Obligations.ResetStateMeetsTheInvariants : Prop :=
  Capacities State.reset ∧ LinkInv State.reset ∧ SettingsInRange State.reset ∧ MemoryOk State.reset ∧ NoReset State.reset ∧
  CountsInRange State.reset ∧ ListsWhole State.reset.cp ∧ HeadsInRange State.reset.cp ∧ PoolWhole State.reset.sr ∧
  OwnedByFocus State.reset.iu State.reset.fu.focus ∧ ClaimsWhole (own State.reset) State.reset.pu.power State.reset.cu

/-- A soft reset taken in RUNNING completes: the links, the pass-through path, the straps and the buffers' lines stay, the insertion
queue is emptied, a save that runs is abandoned, and every other block returns to its start state (R20, R42, R63, R87, R111, R135,
R155, R168, R188, R193, R196, R197). That SOFT_RESET is taken without a RESET in work, and has no effect in LOADING, is the model's
choice (notes/assumptions/11.md), and so it is that the flags and the seed (notes/assumptions/6.md) and the DESK settings, head
records, palette and lamp configuration (notes/assumptions/26.md) stand until the load replaces them; what stands of a header being
written is a free value (notes/assumptions/7.md). -/
def Obligations.SoftResetKeepsLinksAndTraffic : Prop :=
  ∀ s : State,
    (s.cl.loader = .running → ∃ t, exec .softReset s = .next t ∧
      t.cl = { s.cl with loader := .loading, cold := false, save := .idle, snapshot := none } ∧
      t.wlp = { s.wlp with linkDown := 0, crcErrors := 0, truncated := 0 } ∧ t.elp = { s.elp with linkDown := 0 } ∧
      t.rf = { rfStart with
        passQ := s.rf.passQ, sending := s.rf.sending, share := s.rf.share,
        ring := if s.wlp.state = .up ∨ s.elp.state = .up then .open else .isolated } ∧
      t.sr = srStart s.sr.lines ∧ t.cp = { cpStart with heads := s.cp.heads, palette := s.cp.palette } ∧ t.fu = fuStart ∧
      t.iu = iuStart ∧ t.cu = cuStart ∧ t.pu = { puStart with lamps := s.pu.lamps } ∧ t.mu = muStart ∧ t.desk = s.desk ∧
      CutShort s t ∧ t.lineOut = s.lineOut ∧ t.pending = s.pending) ∧
    (s.cl.loader = .loading → s.mu.resetDue = false → exec .softReset s = .next s)

/-! ## Invariants of a step -/

/-- What every step keeps: the queues, maps and counts within their capacities; the training attempt counter and the crossing
accumulator in range; window lists of at most 6 records with window ids of their own; each of the 80 buffers free or with one entry,
once; every owned key and button with the focus slot; and the claim records whole, with at most 32 messages in the outbox (R2, R15,
R26, R29, R31, R46, R70, R71, R98, R118, R140, R141, R152). -/
def Obligations.StepKeepsCapacities : Prop :=
  ∀ s t : State, step s = .next t →
    (Capacities s → Capacities t) ∧ (CountsInRange s → CountsInRange t) ∧ (ListsWhole s.cp → ListsWhole t.cp) ∧
    (PoolWhole s.sr → PoolWhole t.sr) ∧ (OwnedByFocus s.iu s.fu.focus → OwnedByFocus t.iu t.fu.focus) ∧
    (ClaimsWhole (own s) s.pu.power s.cu → ClaimsWhole (own t) t.pu.power t.cu ∧ t.cu.outbox.length ≤ 32)

/-- Every step keeps the port states, what they bring with them, and the ring state derived from them in agreement. -/
def Obligations.StepKeepsLinkInvariant : Prop := ∀ s t : State, LinkInv s → step s = .next t → LinkInv t

/-- Every step keeps every DESK setting within its values, the head records of entries 1 to 4 included (R66, R173). -/
def Obligations.StepKeepsSettingsInRange : Prop :=
  ∀ s t : State, step s = .next t → (SettingsInRange s → SettingsInRange t) ∧ (HeadsInRange s.cp → HeadsInRange t.cp)

/-- Every step keeps both memories in canonical form and the serial memory within its 8 KiB. -/
def Obligations.StepKeepsMemoryForm : Prop := ∀ s t : State, MemoryOk s → step s = .next t → MemoryOk t

/-! ## Energy -/

/-- Energy found at a port: in SILENT the timer stops and the port enters ADVERTISE (R6). In another state only the record of the
line's energy changes (the model's choice, notes/assumptions/19.md). -/
def Obligations.EnergyDetectedEntersAdvertise : Prop :=
  ∀ s : State, s.mu.resetDue = false →
    exec (.energyDetected .west) s = .next (s.setWlp (if s.wlp.state = .silent
      then { s.wlp with energy := true, silence := none, state := .advertise } else { s.wlp with energy := true })) ∧
    exec (.energyDetected .east) s = .next (s.setElp (if s.elp.state = .silent
      then { s.elp with energy := true, silence := none, state := .advertise } else { s.elp with energy := true }))

/-- Energy lost at a port in a state that takes it: SILENT, no partner record, the timer from zero; a departure from UP is counted and
raises LINK_DOWN; the other port is left alone. The WLP clears its bad-frame count. At the ELP any trial is abandoned uncounted,
ceiling and attempt counter stay, and a departure from UP empties the pass-through queue, cuts off the frame being sent and stops the
beacons (R16, R17, R28, R32, R33). -/
def Obligations.EnergyLostEntersSilent : Prop :=
  ∀ (rxMid : Bool) (s : State), NoReset s →
    (s.wlp.state = .advertise ∨ s.wlp.state = .train ∨ s.wlp.state = .up ∨ s.wlp.state = .mismatch →
      ∃ t, exec (.energyLost .west rxMid) s = .next t ∧
        t.wlp.state = .silent ∧ t.wlp.partner = none ∧ t.wlp.silence = some 0 ∧ t.wlp.badFrames = 0 ∧
        t.wlp.agreed = s.wlp.agreed ∧ t.wlp.crcErrors = s.wlp.crcErrors ∧
        t.wlp.linkDown = (if s.wlp.state = .up then bump s.wlp.linkDown else s.wlp.linkDown) ∧
        t.wlp.truncated = (if s.wlp.state = .up ∧ rxMid then bump s.wlp.truncated else s.wlp.truncated) ∧
        (s.wlp.state = .up → t.mu.events &&& EventKind.bit .linkDown ≠ 0) ∧
        t.elp = s.elp ∧ SameDesk s t) ∧
    (s.elp.state = .advertise ∨ s.elp.state = .train ∨ s.elp.state = .up ∨ s.elp.state = .mismatch →
      ∃ t, exec (.energyLost .east rxMid) s = .next t ∧
        t.elp.state = .silent ∧ t.elp.partner = none ∧ t.elp.silence = some 0 ∧ t.elp.trial = none ∧
        t.elp.ceiling = s.elp.ceiling ∧ t.elp.attempts = s.elp.attempts ∧ t.elp.agreed = s.elp.agreed ∧
        t.elp.linkDown = (if s.elp.state = .up then bump s.elp.linkDown else s.elp.linkDown) ∧
        (s.elp.state = .up → t.rf.passQ = [] ∧ t.rf.sending = none ∧ t.rf.share = 0 ∧ t.rf.beaconTimer = none ∧
          t.mu.events &&& EventKind.bit .linkDown ≠ 0) ∧
        t.wlp = s.wlp ∧ SameDesk s t)

/-- The energy-loss timer's expiry: the agreed rate goes, and at the ELP the ceiling returns to FULL and the attempt counter
clears; the port stays in SILENT with the timer stopped (R6). A timer that does not run does not expire; that the command acts at any
count of a running timer, taken at its word, is the model's choice (notes/assumptions/2.md). -/
def Obligations.SilenceExpiryForgetsTheRate : Prop :=
  ∀ s : State, s.mu.resetDue = false →
    (s.wlp.state = .silent ∧ s.wlp.silence.isSome →
      exec (.energyLossTimerExpires .west) s = .next (s.setWlp { s.wlp with silence := none, agreed := none })) ∧
    (s.elp.state = .silent ∧ s.elp.silence.isSome →
      exec (.energyLossTimerExpires .east) s =
        .next (s.setElp { s.elp with silence := none, agreed := none, ceiling := .full, attempts := 0 })) ∧
    (s.wlp.silence = none → exec (.energyLossTimerExpires .west) s = .next s) ∧
    (s.elp.silence = none → exec (.energyLossTimerExpires .east) s = .next s)

/-! ## Capability words and training -/

/-- R4: a word is accepted unless its seed tag differs, its address is the own one or outside 1..62, or its rate set shares no class
with the own rate set; its role does not matter. -/
def Obligations.CapabilityWordIsAcceptedByRule : Prop :=
  ∀ (s : State) (w : CapWord),
    (accepts s w = false ↔
      w.seedTag ≠ (ownWord s).seedTag ∨ w.address = (ownWord s).address ∨ ¬ (1 ≤ w.address.toNat ∧ w.address.toNat ≤ 62) ∨
        ¬ ∃ r, rateIn w.rates r = true ∧ rateIn (ownWord s).rates r = true) ∧
    ∀ role : Role, accepts s { w with role := role } = accepts s w

/-- The trial rate is the highest common class not above the ceiling, and the lowest common class where all lie above it (R9). -/
def Obligations.TrialRateIsTheHighestAllowed : Prop :=
  ∀ (p : RateSet) (ceiling : Rate), p.nonempty = true →
    rateIn p (trialRate p ceiling) = true ∧
    (∀ r, rateIn p r = true → Rate.rank r ≤ Rate.rank ceiling →
      Rate.rank (trialRate p ceiling) ≤ Rate.rank ceiling ∧ Rate.rank r ≤ Rate.rank (trialRate p ceiling)) ∧
    ((∀ r, rateIn p r = true → Rate.rank ceiling < Rate.rank r) →
      ∀ r, rateIn p r = true → Rate.rank (trialRate p ceiling) ≤ Rate.rank r)

/-- A CAP taken: the state that `capNext` gives, the record replaced where the word is judged, a fresh trial where the ELP trains with
it, LINK_MISMATCH at an entry to MISMATCH, and a link-down event at a departure from UP (R7, R8, R12, R13, R16). -/
def Obligations.CapTakenMovesThePort : Prop :=
  ∀ (w : CapWord) (rxMid : Bool) (s : State), NoReset s →
    (∃ t, exec (.capTaken .west w rxMid) s = .next t ∧
      t.wlp.state = capNext s.wlp.state (decide (s.wlp.partner = some w)) (accepts s w) ∧
      t.wlp.partner = (if capStored s.wlp.state (decide (s.wlp.partner = some w)) then some w else s.wlp.partner) ∧
      t.wlp.linkDown = (if s.wlp.state = .up ∧ s.wlp.partner ≠ some w then bump s.wlp.linkDown else s.wlp.linkDown) ∧
      (s.wlp.state ≠ .mismatch → t.wlp.state = .mismatch → t.mu.events &&& EventKind.bit .linkMismatch ≠ 0) ∧
      t.wlp.agreed = s.wlp.agreed ∧ t.elp = s.elp ∧ SameDesk s t) ∧
    (∃ t, exec (.capTaken .east w rxMid) s = .next t ∧
      t.elp.state = capNext s.elp.state (decide (s.elp.partner = some w)) (accepts s w) ∧
      t.elp.partner = (if capStored s.elp.state (decide (s.elp.partner = some w)) then some w else s.elp.partner) ∧
      t.elp.linkDown = (if s.elp.state = .up ∧ s.elp.partner ≠ some w then bump s.elp.linkDown else s.elp.linkDown) ∧
      (capStored s.elp.state (decide (s.elp.partner = some w)) = true →
        (accepts s w = true → t.elp.trial = some ⟨trialRate w.rates s.elp.ceiling, 0⟩) ∧
        (accepts s w = false → s.elp.state ≠ .mismatch → t.elp.trial = none)) ∧
      (s.elp.state ≠ .mismatch → t.elp.state = .mismatch → t.mu.events &&& EventKind.bit .linkMismatch ≠ 0) ∧
      t.elp.attempts = s.elp.attempts ∧ t.elp.ceiling = s.elp.ceiling ∧ t.elp.agreed = s.elp.agreed ∧ t.wlp = s.wlp ∧ SameDesk s t)

/-- The follower's training: a TRIAL drops its lock and sets the rate to lock at, its receiver locks, and a GO taken while locked
brings it UP at that rate; without a lock a GO has no effect (R13). The leader takes neither TRIAL nor GO (R12, R16). -/
def Obligations.FollowerTrainsByTrialAndGo : Prop :=
  ∀ (r : Rate) (rxMid : Bool) (s : State), NoReset s →
    (s.wlp.state = .train →
      exec (.trialTaken .west r rxMid) s = .next (s.setWlp { s.wlp with state := .train, target := some r, locked := false })) ∧
    (s.wlp.state = .up → ∃ t, exec (.trialTaken .west r rxMid) s = .next t ∧ t.wlp.state = .train ∧ t.wlp.target = some r ∧
      t.wlp.locked = false ∧ t.wlp.partner = s.wlp.partner ∧ t.wlp.linkDown = bump s.wlp.linkDown ∧ t.elp = s.elp ∧ SameDesk s t) ∧
    (s.wlp.state = .train → s.wlp.target.isSome = true →
      exec .receiverLocked s = .next (s.setWlp { s.wlp with locked := true })) ∧
    (s.wlp.state = .train → s.wlp.target = some r → s.wlp.locked = true →
      ∃ t, exec (.goTaken .west) s = .next t ∧ t.wlp = { s.wlp with state := .up, agreed := some r, badFrames := 0 } ∧
        t.elp = s.elp ∧ t.rf.ring = derivedRing t ∧ SameDesk s t) ∧
    (s.wlp.locked = false → exec (.goTaken .west) s = .next s) ∧
    exec (.trialTaken .east r rxMid) s = .next s ∧ exec (.goTaken .east) s = .next s

/-- A LOCK at the trial rate ends the trial in UP: GO is sent, the rate agreed, the attempt counter cleared, and the beacon generator
starts where the loader is in RUNNING; a LOCK at another rate has no effect (R10, R33). -/
def Obligations.LockEndsTheTrialInUp : Prop :=
  ∀ (r : Rate) (s : State), NoReset s →
    (s.elp.state = .train → s.elp.trial.map (·.rate) = some r →
      ∃ t, exec (.lockTaken r) s = .next t ∧
        t.elp = { s.elp with state := .up, trial := none, agreed := some r, attempts := 0 } ∧
        t.lineOut = s.lineOut ++ [(.east, .go)] ∧ t.rf.ring = derivedRing t ∧
        (s.cl.loader = .running → t.rf.beaconTimer = some ⟨0, s.desk.beaconPeriod⟩) ∧ t.wlp = s.wlp ∧ SameDesk s t) ∧
    (s.elp.trial.map (·.rate) ≠ some r → exec (.lockTaken r) s = .next s)

/-- The leader leaves UP: for ADVERTISE without a partner record at LOSS or a lost lock, for TRAIN with a retrain trial at the agreed
rate at RETRAIN; in another state it takes none of them (R15, R16). -/
def Obligations.LeaderLeavesUp : Prop :=
  ∀ (rxMid : Bool) (s : State), NoReset s →
    (s.elp.state = .up →
      (∃ t, exec .lossTaken s = .next t ∧ t.elp = { s.elp with state := .advertise, partner := none,
                                                               linkDown := bump s.elp.linkDown } ∧
        t.rf.passQ = [] ∧ t.rf.sending = none ∧ t.rf.share = 0 ∧ t.wlp = s.wlp ∧ SameDesk s t ∧
        t.mu.events &&& EventKind.bit .linkDown ≠ 0) ∧
      (∃ t, exec (.receiverLockLost .east rxMid) s = .next t ∧
        t.elp = { s.elp with state := .advertise, partner := none, linkDown := bump s.elp.linkDown } ∧ t.wlp = s.wlp ∧ SameDesk s t) ∧
      (∀ r, s.elp.agreed = some r → ∃ t, exec .retrainTaken s = .next t ∧
        t.elp = { s.elp with state := .train, trial := some ⟨r, 0⟩, linkDown := bump s.elp.linkDown } ∧
        t.lineOut = s.lineOut ++ [(.east, .cap (ownWord s)), (.east, .trial r)] ∧ t.rf.passQ = [] ∧ t.wlp = s.wlp ∧
        SameDesk s t)) ∧
    (s.elp.state ≠ .up → exec .lossTaken s = .next s ∧ exec (.receiverLockLost .east rxMid) s = .next s ∧
      exec .retrainTaken s = .next s)

/-- The follower loses lock: in UP it leaves for ADVERTISE and sends LOSS, otherwise its LOCK symbols end; and at the sixteenth bad
frame in a row it sends RETRAIN, clears the count and waits in TRAIN with its partner record kept (R13, R15, R16). -/
def Obligations.FollowerLeavesUp : Prop :=
  ∀ (rxMid : Bool) (s : State), NoReset s →
    (s.wlp.state = .up → ∃ t, exec (.receiverLockLost .west rxMid) s = .next t ∧ t.wlp.state = .advertise ∧
      t.wlp.partner = none ∧ t.wlp.linkDown = bump s.wlp.linkDown ∧ t.lineOut = s.lineOut ++ [(.west, .loss)] ∧ t.elp = s.elp ∧
      SameDesk s t) ∧
    (s.wlp.state ≠ .up → exec (.receiverLockLost .west rxMid) s = .next (s.setWlp { s.wlp with locked := false })) ∧
    (s.wlp.state = .up → s.wlp.badFrames = 16 → ∃ t, exec (.errorBurstRetrain rxMid) s = .next t ∧ t.wlp.state = .train ∧
      t.wlp.partner = s.wlp.partner ∧ t.wlp.badFrames = 0 ∧ t.wlp.linkDown = bump s.wlp.linkDown ∧
      t.lineOut = s.lineOut ++ [(.west, .retrain)] ∧ t.elp = s.elp ∧ SameDesk s t ∧ t.mu.events &&& EventKind.bit .linkDown ≠ 0)

/-- A trial window that runs out counts one failed trial. At the downshift threshold the counter clears and the ceiling falls to the
class below the trial rate where that is lower; the next trial begins at once (R11). That the command acts at any count of the window,
taken at its word, is the model's choice (notes/assumptions/2.md). -/
def Obligations.FailedTrialDownshifts : Prop :=
  ∀ (w : Trial) (s : State), NoReset s → s.elp.state = .train → s.elp.trial = some w →
    ∃ t, exec .trialWindowExpires s = .next t ∧
      t.elp.attempts = (if s.elp.attempts + 1 < s.desk.downshift then s.elp.attempts + 1 else 0) ∧
      t.elp.ceiling = (if s.elp.attempts + 1 < s.desk.downshift then s.elp.ceiling else
        match Rate.below w.rate with
        | some b => if Rate.rank b < Rate.rank s.elp.ceiling then b else s.elp.ceiling
        | none => s.elp.ceiling) ∧
      (t.elp.ceiling ≠ s.elp.ceiling → t.mu.events &&& EventKind.bit .linkDownshift ≠ 0) ∧
      (t.elp.ceiling = s.elp.ceiling → t.mu.events = s.mu.events) ∧
      t.elp.state = .train ∧ t.elp.trial = some ⟨trialRate (partnerRates s.elp.partner) t.elp.ceiling, 0⟩ ∧
      t.lineOut = s.lineOut ++ [(.east, .cap (ownWord s)),
        (.east, .trial (trialRate (partnerRates s.elp.partner) t.elp.ceiling))] ∧
      t.elp.partner = s.elp.partner ∧ t.elp.agreed = s.elp.agreed ∧ t.wlp = s.wlp ∧ SameDesk s t

/-! ## Frames at the WLP -/

/-- A frame that is sent with the seed in force and arrives unchanged is judged good, with every field as it was sent (R3, R14,
R199). -/
def Obligations.SentFrameIsJudgedGood : Prop :=
  ∀ (seed : Seed) (f : Frame), f.payload.length ≤ 65535 → judgeFrame seed (wireBytes seed f) = (.good, some f)

/-- A damaged frame is counted and discarded: truncated where its end does not follow its stated length and CRC, a CRC error where
the CRC fails; both count as bad in a row. Outside UP the WLP receives none (R14, R15, R21). That the sixteenth bad frame in a row leaves the
WLP in UP with its count at 16, and that the burst's RETRAIN is a command of its own, or comes with the next frame in that frame's place,
is the model's choice (notes/assumptions/10.md). -/
def Obligations.DamagedFrameIsCounted : Prop :=
  ∀ (bytes : List Byte) (s : State), s.mu.resetDue = false →
    (s.wlp.state ≠ .up → exec (.frameReceived bytes) s = .next s) ∧
    (s.wlp.state = .up → s.wlp.badFrames = 16 → exec (.frameReceived bytes) s = exec (.errorBurstRetrain false) s) ∧
    (s.wlp.state = .up → s.wlp.badFrames ≠ 16 →
      (bytes.length < 6 ∨ bytes.length ≠ at16 bytes 4 + 10 →
        exec (.frameReceived bytes) s = .next (s.setWlp { s.wlp with
          badFrames := s.wlp.badFrames + 1, truncated := bump s.wlp.truncated })) ∧
      (6 ≤ bytes.length → bytes.length = at16 bytes 4 + 10 →
        be32 (crc s.cl.seed (bytes.take (bytes.length - 4))) ≠ bytes.drop (bytes.length - 4) →
        exec (.frameReceived bytes) s = .next (s.setWlp { s.wlp with
          badFrames := s.wlp.badFrames + 1, crcErrors := bump s.wlp.crcErrors })))

/-- R23: a foreign frame with hop count 0 is discarded and counted as an orphan, whatever its kind and destination; nothing is
taken, offered or forwarded. -/
def Obligations.OrphanIsDiscarded : Prop :=
  ∀ (f : Frame) (s : State), s.mu.resetDue = false → Heard s f → f.origin ≠ own s → f.hop = 0 →
    exec (hear s f) s =
      .next ((goodSeen s).setRf { s.rf with c := { s.rf.c with orphans := bump s.rf.c.orphans } })

/-- An own-origin frame is stripped and counted, and only an own BEACON at two UP ports does more: it refreshes the ring closure
(R22, R39, R40). That a sign-of-life outside 1..63 is recorded as it stands is the model's choice (notes/assumptions/38.md). -/
def Obligations.OwnFrameIsStripped : Prop :=
  ∀ (f : Frame) (s : State), NoReset s → Heard s f → f.origin = own s →
    (f.kind ≠ kindBeacon ∨ s.elp.state ≠ .up →
      exec (hear s f) s =
        .next ((goodSeen s).setRf { s.rf with c := { s.rf.c with stripped := bump s.rf.c.stripped } })) ∧
    (∀ (role n p x g : Byte) (i : Fin 62), f.kind = kindBeacon → s.elp.state = .up → f.payload = [role, n, p, x, g] →
      nodeIndex (own s) = some i →
      ∃ t, exec (hear s f) s = .next t ∧ t.rf.ring = .closed ∧ t.rf.closure = some ⟨0, 4 * s.desk.beaconPeriod⟩ ∧
        t.rf.presence[i] = { present := true, role := some .desk, sol := some n.toNat, priority := some p, time := some 0,
                             gaps := match s.rf.presence[i].sol with
                               | some l => if n.toNat ≠ nextSol l ∧ n.toNat ≠ l then bump s.rf.presence[i].gaps
                                           else s.rf.presence[i].gaps
                               | none => s.rf.presence[i].gaps } ∧
        (∀ j : Fin 62, j ≠ i → t.rf.presence[j] = s.rf.presence[j]) ∧
        (s.rf.ring ≠ .closed → t.mu.events &&& EventKind.bit .ringState ≠ 0) ∧
        t.rf.c.stripped = bump s.rf.c.stripped ∧ t.elp = s.elp ∧ t.sr = s.sr ∧ t.cu = s.cu)

/-- A frame is forwarded with its hop count decremented where it is a STRIP, is addressed to 63 or to another node: appended to the
pass-through queue where that has room, counted as lost while there is no egress. In RUNNING a STRIP is offered to the stream receiver
besides, in ACTIVE alone, and a frame addressed to 63 is taken besides; in LOADING nothing is offered, and what would be taken is
discarded and counted. A frame addressed to this node alone is not forwarded; one of a kind that no block consumes counts as unexpected
(R24, R25, R26, R28, R31). That a frame is forwarded before it is taken or offered is the model's choice (notes/assumptions/14.md). -/
def Obligations.FrameForElsewhereIsForwarded : Prop :=
  ∀ (f : Frame) (s : State), NoReset s → Arrives s f →
    (∀ r : Rf, (s.elp.state = .up ∧ s.rf.passQ.length < 8 ∧ r = passOn s.rf (hopped f)) ∨
        (s.elp.state ≠ .up ∧ r = { s.rf with c := { s.rf.c with noEgress := bump s.rf.c.noEgress } }) →
      (f.kind ≠ kindStrip → f.dest ≠ own s → f.dest ≠ allNodes → exec (hear s f) s = .next ((goodSeen s).setRf r)) ∧
      (f.kind = kindStrip →
        (s.cl.loader = .loading ∨ s.pu.power = .standby → exec (hear s f) s = .next ((goodSeen s).setRf r)) ∧
        (s.cl.loader = .running → s.pu.power = .active →
          exec (hear s f) s = .next (offerStrip f.payload ((goodSeen s).setRf r)))) ∧
      (f.kind ≠ kindStrip → f.dest = allNodes →
        (s.cl.loader = .loading →
          exec (hear s f) s = .next ((goodSeen s).setRf { r with c := { r.c with loading := bump r.c.loading } })) ∧
        (s.cl.loader = .running → ∃ t, exec (hear s f) s = .next t ∧
          t.rf.passQ = r.passQ ∧ t.rf.sending = r.sending ∧ t.rf.share = r.share ∧
          (f.kind ≠ kindClaim → f.kind ≠ kindMgmtReq → f.kind ≠ kindBeacon →
            t = (goodSeen s).setRf { r with c := { r.c with unexpected := bump r.c.unexpected } })))) ∧
    (f.kind ≠ kindStrip → f.dest = own s → f.dest ≠ allNodes →
      (s.cl.loader = .loading → exec (hear s f) s =
        .next ((goodSeen s).setRf { s.rf with c := { s.rf.c with loading := bump s.rf.c.loading } })) ∧
      (s.cl.loader = .running → f.kind ≠ kindClaim → f.kind ≠ kindMgmtReq → f.kind ≠ kindBeacon → exec (hear s f) s =
        .next ((goodSeen s).setRf { s.rf with c := { s.rf.c with unexpected := bump s.rf.c.unexpected } })))

/-- At a full pass-through queue an arriving STRIP is discarded but still offered, and another frame displaces the oldest STRIP, or
is lost where there is none (R27). -/
def Obligations.FullPassThroughQueue : Prop :=
  ∀ (f : Frame) (s : State), NoReset s → Arrives s f → s.elp.state = .up → s.rf.passQ.length = 8 →
    (f.kind ≠ kindStrip → f.dest ≠ own s → f.dest ≠ allNodes →
      (∀ a g b, s.rf.passQ = a ++ g :: b → (∀ x ∈ a, x.kind ≠ kindStrip) → g.kind = kindStrip →
        exec (hear s f) s = .next ((goodSeen s).setRf { s.rf with
          passQ := a ++ b ++ [hopped f], c := { s.rf.c with stripDisplaced := bump s.rf.c.stripDisplaced } })) ∧
      ((∀ x ∈ s.rf.passQ, x.kind ≠ kindStrip) →
        exec (hear s f) s = .next ((goodSeen s).setRf { s.rf with
          c := { s.rf.c with overflow := bump s.rf.c.overflow } }))) ∧
    (f.kind = kindStrip → s.rf.sending.isSome →
      ∃ t, exec (hear s f) s = .next t ∧ t.rf.passQ = s.rf.passQ ∧ t.rf.c.stripOverflow = bump s.rf.c.stripOverflow ∧
        (running s = true → s.pu.power = .active → t.sr = (offerStrip f.payload s).sr) ∧
        (running s = false ∨ s.pu.power = .standby → t.sr = s.sr))

/-! ## The ring's transmit side -/

/-- The end of a frame is counted, and the arbiter chooses the next by its table; with no frame on the line nothing happens (R31). -/
def Obligations.ArbiterChoosesAtFrameEnd : Prop :=
  ∀ s : State, NoReset s →
    (s.elp.state = .up → s.rf.sending.isSome = true →
      exec .frameTransmitEnd s = .next (s.setRf (arbiterTable { s.rf with
        sending := none, c := { s.rf.c with sent := bump s.rf.c.sent } }))) ∧
    (s.elp.state ≠ .up ∨ s.rf.sending = none → exec .frameTransmitEnd s = .next s)

/-- The soft reset begins when the ELP begins to send a RESET's response, which is sent to its end: with no frame in the pass-through
queue, or at share count 8, where those frames stay. It begins as well when the ELP leaves UP while the response waits: the frame being
sent is cut off, and the pass-through queue is empty. The frames behind the response are dropped, and the links stay (R28, R30, R31, R32,
R179, R193). -/
def Obligations.ResetResponseBeginsTheSoftReset : Prop :=
  ∀ s : State, s.elp.state = .up →
    (∀ (e : InsEntry) (es : List InsEntry), s.rf.sending.isSome = true → s.rf.passQ = [] ∨ 8 ≤ s.rf.share → s.rf.insQ = e :: es →
      e.resetResponse = true → ∃ t, exec .frameTransmitEnd s = .next t ∧ ResetBegun s t ∧ t.elp = { s.elp with linkDown := 0 } ∧
        t.rf.sending = some ⟨e.frame, .insertion⟩ ∧ t.rf.passQ = s.rf.passQ ∧ t.rf.share = 0) ∧
    (∀ (w : Work) (c : Instr) (rxMid : Bool), s.mu.work = some w → w.resetQueued = true →
      c = .lossTaken ∨ c = .receiverLockLost .east rxMid ∨ c = .retrainTaken ∨ c = .energyLost .east rxMid ∨
        (∃ x, s.elp.partner ≠ some x ∧ c = .capTaken .east x rxMid) →
      ∃ t, exec c s = .next t ∧ ResetBegun s t ∧ t.rf.sending = none ∧ t.rf.passQ = [] ∧ t.rf.share = 0 ∧
        (c = .lossTaken ∨ c = .receiverLockLost .east rxMid →
          t.elp = { s.elp with state := .advertise, partner := none, linkDown := 0 }) ∧
        (∀ r, c = .retrainTaken → s.elp.agreed = some r →
          t.elp = { s.elp with state := .train, trial := some ⟨r, 0⟩, linkDown := 0 }) ∧
        (c = .energyLost .east rxMid → t.elp = { s.elp with
          energy := false, state := .silent, partner := none, silence := some 0, trial := none, linkDown := 0 }) ∧
        (∀ x, c = .capTaken .east x rxMid → t.elp.state = (if accepts s x then .train else .mismatch) ∧ t.elp.partner = some x))

/-- A place has freed: a producer's kept frame is appended at the tail, as the origin the own address and hop count 63, and its producer
goes on: the builder holds no frame and builds on (R133); a RELEASE and a REQUEST are counted, an appended REQUEST starts the deadline of
the request that waits for it, and the outbox goes on (R142); a response is counted and its request leaves work, a notice starts the
interval and is counted, and a response that waited or a notice that is due follows (R170, R184). Each other producer that keeps a frame
and finds the queue full again counts a refusal (notes/assumptions/12.md). Without a place or a kept frame nothing happens; the place is
the next comer's until the command comes (notes/assumptions/45.md) (R29). -/
def Obligations.KeptFrameIsAppended : Prop :=
  ∀ s : State, NoReset s →
    (s.rf.insQ.length < 12 →
      (∀ f, s.iu.held = some f → exec (.refusedFrameAppended .iu) s = .next (stillWaiting
        (s.cu.offered.isSome.toNat + s.mu.offer.isSome.toNat) (pumpBuilder pumpBound ((s.setIu { s.iu with held := none }).setRf
          (takeIn s ⟨{ f with origin := own s, hop := 63 }, false⟩))))) ∧
      (∀ o u n, s.cu.offered = some o → u = s.setRf (takeIn s ⟨{ o.frame with origin := own s, hop := 63 }, false⟩) →
        n = s.iu.held.isSome.toNat + s.mu.offer.isSome.toNat →
        (o.msg.kind = .release → exec (.refusedFrameAppended .cu) s = .next (stillWaiting n (pumpOutbox pumpBound (u.setCu { s.cu with
          offered := none, c := { s.cu.c with releasesSent := bump s.cu.c.releasesSent } })))) ∧
        (∀ k l, o.msg.kind = .request → s.cu.slots[o.msg.slot] = some k → k.request = some ⟨l, none⟩ →
          (∀ x ∈ s.cu.outbox, ¬ (x.kind = .request ∧ x.slot = o.msg.slot)) →
          exec (.refusedFrameAppended .cu) s = .next (stillWaiting n (pumpOutbox pumpBound (u.setCu { s.cu with
            slots := s.cu.slots.set o.msg.slot (some { k with request := some ⟨l, some s.desk.claimTimeout⟩ }),
            offered := none, c := { s.cu.c with requestsSent := bump s.cu.c.requestsSent } })))) ∧
        (o.msg.kind = .request → (∀ k l, s.cu.slots[o.msg.slot] = some k → k.request = some ⟨l, none⟩ →
            ∃ x ∈ s.cu.outbox, x.kind = .request ∧ x.slot = o.msg.slot) →
          exec (.refusedFrameAppended .cu) s = .next (stillWaiting n (pumpOutbox pumpBound (u.setCu { s.cu with
            offered := none, c := { s.cu.c with requestsSent := bump s.cu.c.requestsSent } }))))) ∧
      (∀ o u n, s.mu.offer = some o → u = s.setRf (takeIn s ⟨{ o.entry.frame with origin := own s, hop := 63 }, false⟩) →
        n = s.iu.held.isSome.toNat + s.cu.offered.isSome.toNat →
        (o.isNotice = false → exec (.refusedFrameAppended .mu) s = .next (stillWaiting n (tryNotice (u.setMu { s.mu with
          offer := none, work := none, c := { s.mu.c with responses := bump s.mu.c.responses } })))) ∧
        (o.isNotice = true → s.mu.waiting = none → exec (.refusedFrameAppended .mu) s = .next (stillWaiting n (u.setMu { s.mu with
          offer := none, interval := some 0, c := { s.mu.c with notices := bump s.mu.c.notices } }))) ∧
        (∀ e, o.isNotice = true → s.mu.waiting = some e → exec (.refusedFrameAppended .mu) s = .next (stillWaiting n (offerResponse e
          (u.setMu { s.mu with
            offer := none, waiting := none, interval := some 0, c := { s.mu.c with notices := bump s.mu.c.notices } })))))) ∧
    (12 ≤ s.rf.insQ.length → ∀ p, exec (.refusedFrameAppended p) s = .next s) ∧
    (s.iu.held = none → exec (.refusedFrameAppended .iu) s = .next s) ∧
    (s.cu.offered = none → exec (.refusedFrameAppended .cu) s = .next s) ∧
    (s.mu.offer = none → exec (.refusedFrameAppended .mu) s = .next s)

/-- The beacon timer's expiry generates one beacon and restarts the timer. Appended, it advances the sign-of-life from 63 back to 1
and clears RESTART; at a full insertion queue it is skipped and keeps its number (R33, R34, R35). That the command acts at any count of a
running timer, taken at its word, is the model's choice (notes/assumptions/2.md). -/
def Obligations.BeaconTimerGeneratesABeacon : Prop :=
  ∀ s : State, NoReset s →
    (s.rf.beaconTimer.isSome = true → s.elp.state = .up → s.cl.loader = .running →
      exec .beaconTimerExpires s = .next (s.setRf (if s.rf.insQ.length < 12
        then { takeIn s ⟨⟨kindBeacon, 63, own s, 63,
            [2, byte s.rf.sol, s.desk.priority, flagByte s.rf.restart, seedTag s.cl.seed]⟩, false⟩ with
          sol := if s.rf.sol < 63 then s.rf.sol + 1 else 1, restart := false, beaconTimer := some ⟨0, s.desk.beaconPeriod⟩ }
        else { s.rf with
          beaconTimer := some ⟨0, s.desk.beaconPeriod⟩,
          c := { s.rf.c with insFull := bump s.rf.c.insFull, beaconsSkipped := bump s.rf.c.beaconsSkipped } }))) ∧
    (s.rf.beaconTimer = none ∨ s.elp.state ≠ .up ∨ s.cl.loader = .loading → exec .beaconTimerExpires s = .next s)

/-! ## Presence and closure -/

/-- An absence timer's expiry: the entry is not present any more and keeps what else it recorded, the claim unit's view loses the
address, and a slot that names it returns to VIEW without a request or a holder, with SOURCE_ABSENT. The expiry does not happen below
the timeout, where a beacon has restarted the time, and the own entry has no absence timer (R38, R150). -/
def Obligations.AbsenceTimerReportsTheNode : Prop :=
  ∀ (a : Byte) (s : State), NoReset s →
    (∀ n : Fin 62, nodeIndex a = some n → s.rf.presence[n].present = true → a ≠ own s →
      s.desk.absence ≤ s.rf.presence[n].time.getD 0 →
      ∃ t, exec (.absenceTimerExpires a) s = .next t ∧
        t.rf.presence[n] = { s.rf.presence[n] with present := false } ∧
        (∀ m : Fin 62, m ≠ n → t.rf.presence[m] = s.rf.presence[m]) ∧
        t.cu.view = s.cu.view.set n false ∧
        (∀ i k, slotOfAddr s a = some i → s.cu.slots[i] = some k →
          t.cu.slots = s.cu.slots.set i (some { k with held := .view, request := none, holder := none }) ∧
          inOutbox .request i t = (inOutbox .request i s && k.request.isNone) ∧
          t.cu.c.absences = bump s.cu.c.absences ∧
          (k.held ≠ .view → t.mu.events &&& EventKind.bit .claimChange ≠ 0) ∧
          t.mu.events &&& EventKind.bit .sourceAbsent ≠ 0) ∧
        (slotOfAddr s a = none → t.cu.slots = s.cu.slots) ∧
        t.wlp = s.wlp ∧ t.elp = s.elp ∧ t.sr = s.sr ∧ t.pu = s.pu ∧ t.desk = s.desk ∧ t.rf.ring = s.rf.ring) ∧
    (∀ n : Fin 62, nodeIndex a = some n → s.rf.presence[n].present = false ∨ a = own s ∨
        s.rf.presence[n].time.getD 0 < s.desk.absence →
      exec (.absenceTimerExpires a) s = .next s) ∧
    (nodeIndex a = none → exec (.absenceTimerExpires a) s = .next s)

/-- The closure timer's expiry: the own entry is not present any more, the timer stops, and the ring state is derived anew, a change
raising RING_STATE (R39, R40). That the command acts at any count of a running timer, taken at its word, is the model's choice
(notes/assumptions/2.md). -/
def Obligations.ClosureTimerOpensTheRing : Prop :=
  ∀ s : State, NoReset s →
    (s.rf.closure.isSome = true → ∃ t, exec .closureTimerExpires s = .next t ∧ t.rf.closure = none ∧
      (∀ n, nodeIndex (own s) = some n → t.rf.presence = s.rf.presence.set n { s.rf.presence[n] with present := false }) ∧
      t.rf.ring = (if s.wlp.state = .up ∨ s.elp.state = .up then .open else .isolated) ∧
      (t.rf.ring ≠ s.rf.ring → t.mu.events &&& EventKind.bit .ringState ≠ 0) ∧
      t.wlp = s.wlp ∧ t.elp = s.elp ∧ SameDesk s t) ∧
    (s.rf.closure = none → exec .closureTimerExpires s = .next s)

/-- A taken beacon: a well-formed one with the own seed tag is recorded at its origin's entry, with a gap counted where its number
neither follows on from the last one nor repeats it. A first beacon brings the address into the claim unit's view, and its slot asks for
SHARED where auto-share is due; a beacon with RESTART from a node that was present first returns its slot to VIEW as absent. Any other
beacon is counted as rejected and changes no entry (R36, R37, R150, R151). -/
def Obligations.BeaconUpdatesThePresenceTable : Prop :=
  ∀ (f : Frame) (role n p x g : Byte) (s : State), NoReset s → Arrives s f → s.cl.loader = .running → f.kind = kindBeacon →
    f.dest = allNodes → f.payload = [role, n, p, x, g] →
    (∀ (i : Fin 62) (r : Role), nodeIndex f.origin = some i → roleOf role = some r → 1 ≤ n.toNat → n.toNat ≤ 63 →
      g = seedTag s.cl.seed →
      ∃ t, exec (hear s f) s = .next t ∧
        t.rf.presence = s.rf.presence.set i {
          present := true, role := some r, sol := some n.toNat, priority := if r = .desk then some p else none,
          time := some 0,
          gaps := match s.rf.presence[i].sol with
            | some l => if s.rf.presence[i].present = true ∧ x.getLsbD 0 = false ∧ n.toNat ≠ nextSol l ∧ n.toNat ≠ l
                        then bump s.rf.presence[i].gaps else s.rf.presence[i].gaps
            | none => s.rf.presence[i].gaps } ∧
        (s.rf.presence[i].present = false ∨ x.getLsbD 0 = true → PresenceReported f.origin i s.rf.presence[i].present s t) ∧
        (s.rf.presence[i].present = true → x.getLsbD 0 = false → t.cu = s.cu) ∧
        t.elp = s.elp ∧ t.sr = s.sr ∧ t.desk = s.desk) ∧
    (nodeIndex f.origin = none ∨ roleOf role = none ∨ n.toNat = 0 ∨ 63 < n.toNat ∨ g ≠ seedTag s.cl.seed →
      ∃ t, exec (hear s f) s = .next t ∧ t.rf.presence = s.rf.presence ∧ t.cu = s.cu ∧
        t.rf.c.beaconRejects = bump s.rf.c.beaconRejects)

/-! ## Stream reception -/

/-- The stale timer of a LIVE entry expires: the entry is STALE, its timer stops, STREAM_STALE is raised, and its picture stays. The expiry does not
happen below the stale timeout, where a completion has restarted the timer (R58). -/
def Obligations.StaleTimerTurnsTheEntryStale : Prop :=
  ∀ (i : Fin 32) (s : State), NoReset s →
    (∀ e n, s.sr.entries[i] = some e → e.state = .live → e.timer = some n → e.content.stale ≤ n →
      ∃ t, exec (.staleTimerExpires i) s = .next t ∧ t.sr = withEntry s i { e with state := .stale, timer := none } ∧
        t.mu.events &&& EventKind.bit .streamStale ≠ 0 ∧ t.cp = s.cp ∧ t.fu = s.fu ∧ t.iu = s.iu ∧ t.cu = s.cu ∧ t.pu = s.pu ∧
        t.wlp = s.wlp ∧ t.elp = s.elp) ∧
    (s.sr.entries[i] = none → exec (.staleTimerExpires i) s = .next s) ∧
    (∀ e, s.sr.entries[i] = some e → e.state ≠ .live ∨ e.timer = none ∨ (∃ n, e.timer = some n ∧ n < e.content.stale) →
      exec (.staleTimerExpires i) s = .next s)

/-- A STRIP that a check of R50 discards, or that repeats one received, counts in its entry and changes nothing else there: no
buffer, geometry mismatch (which disarms the report and raises GEOMETRY_MISMATCH where it was armed), malformed, late, duplicate (R50
to R53). -/
def Obligations.DiscardedStripIsCounted : Prop :=
  ∀ (f : Frame) (st : Strip) (i : Fin 32) (e : StreamEntry) (s : State), NoReset s → Offers s f st i e →
    ∃ t, exec (hear s f) s = .next t ∧
      (e.state = .blocked → t.sr = withEntry s i { e with c := { e.c with noBuffer := bump e.c.noBuffer } }) ∧
      (e.state ≠ .blocked → st.count ≠ e.content.height / 4 ∨ st.data.length ≠ 12 * e.content.width →
        t.sr = withEntry s i { e with armed := false, c := { e.c with mismatches := bump e.c.mismatches } } ∧
        (e.armed = true → t.mu.events &&& EventKind.bit .geometryMismatch ≠ 0)) ∧
      (e.state ≠ .blocked → st.count = e.content.height / 4 → st.data.length = 12 * e.content.width →
        (st.frame = 0 ∨ e.content.height / 4 ≤ st.index →
          t.sr = withEntry s i { e with c := { e.c with malformed := bump e.c.malformed } }) ∧
        (st.frame ≠ 0 → st.index < e.content.height / 4 → e.front = some st.frame ∨ e.ready = some st.frame →
          t.sr = withEntry s i { e with c := { e.c with late := bump e.c.late } })) ∧
      (∀ a, Fits e st → e.assembly = some a → a.frame = st.frame → st.index ∈ a.received →
        t.sr = withEntry s i { e with c := { e.c with duplicates := bump e.c.duplicates } })

/-- A STRIP that leaves its picture incomplete is written: into the picture in progress, into a new one in the same buffer that
abandons it, or into a first one in the lowest spare buffer (R53, R54, R55). -/
def Obligations.StripIsWrittenIntoItsPicture : Prop :=
  ∀ (f : Frame) (st : Strip) (i : Fin 32) (e : StreamEntry) (b : Buffers) (s : State), NoReset s → Offers s f st i e →
    Fits e st → e.buffers = some b →
    (∀ a n, e.assembly = some a → a.frame = st.frame → st.index ∉ a.received → b.assembling = some n →
      (insertRising st.index a.received).length < e.content.height / 4 →
      ∃ t, exec (hear s f) s = .next t ∧ t.sr = { withEntry s i { e with
          assembly := some ⟨st.frame, insertRising st.index a.received⟩ } with
        lines := writeStrip n st.index e.content.width (pixelsOf st.data) s.sr.lines }) ∧
    (∀ a n, e.assembly = some a → a.frame ≠ st.frame → b.assembling = some n → 1 < e.content.height / 4 →
      ∃ t, exec (hear s f) s = .next t ∧ t.sr = { withEntry s i { e with
          assembly := some ⟨st.frame, [st.index]⟩, c := { e.c with abandoned := bump e.c.abandoned } } with
        lines := writeStrip n st.index e.content.width (pixelsOf st.data) s.sr.lines }) ∧
    (∀ n rest, e.assembly = none → b.spare = n :: rest → 1 < e.content.height / 4 →
      ∃ t, exec (hear s f) s = .next t ∧ t.sr = { withEntry s i { e with
          assembly := some ⟨st.frame, [st.index]⟩, buffers := some { b with assembling := some n, spare := rest } } with
        lines := writeStrip n st.index e.content.width (pixelsOf st.data) s.sr.lines })

/-- What a written strip reads back as: line 4 × index + k of the buffer holds the strip's k-th line of colours, and every line of
other keys reads as before (R53, R200). -/
def Obligations.WrittenStripReadsBack : Prop :=
  ∀ (buffer index width : Nat) (data : List Byte) (m : List (Nat × List Colour)), data.length = 12 * width →
    (∀ k x, k < 4 → x < width →
      Lines.pixel (writeStrip buffer index width (pixelsOf data) m) (buffer * 2160 + 4 * index + k) x =
        some (colourAt data (3 * (k * width + x)))) ∧
    (∀ key x, (∀ k, k < 4 → key ≠ buffer * 2160 + 4 * index + k) →
      Lines.pixel (writeStrip buffer index width (pixelsOf data) m) key x = Lines.pixel m key x)

/-- The strip that completes its picture: the assembly's buffer is READY with the picture's number, a picture that waited READY is
superseded, the report is armed, and a STALE entry is LIVE again with STREAM_LIVE (R56, R59). -/
def Obligations.LastStripCompletesThePicture : Prop :=
  ∀ (f : Frame) (st : Strip) (i : Fin 32) (e : StreamEntry) (b : Buffers) (a : Assembly) (n : Nat) (s : State), NoReset s →
    Offers s f st i e → Fits e st → e.buffers = some b → e.assembly = some a → a.frame = st.frame → st.index ∉ a.received →
    b.assembling = some n → e.content.height / 4 ≤ (insertRising st.index a.received).length →
    ∃ t, exec (hear s f) s = .next t ∧ t.sr = { withEntry s i { e with
        buffers := some ⟨b.front, some n, none, match b.ready with | some r => insertRising r b.spare | none => b.spare⟩,
        ready := some st.frame, assembly := none, armed := true,
        state := if e.state = .stale then .live else e.state,
        timer := if e.state = .live ∨ e.state = .stale then some 0 else e.timer,
        c := { e.c with
          completed := bump e.c.completed,
          superseded := if b.ready.isSome then bump e.c.superseded else e.c.superseded } } with
        lines := writeStrip n st.index e.content.width (pixelsOf st.data) s.sr.lines } ∧
      (e.state = .stale → t.mu.events &&& EventKind.bit .streamLive ≠ 0)

/-! ## The picture -/

/-- The desk frame boundary: READY buffers become FRONT, and a WAITING entry LIVE with STREAM_LIVE; pending heads latch their staged
lists; the picture takes its inputs, the held levels among them; staged lists, presets and the current preset stay; and where a head
latched, the focus is re-evaluated against the latched lists. No boundary occurs while the raster is stopped; that the command is taken
at its word while it runs, also before the period has run out, is the model's choice (notes/assumptions/2.md) (R57, R64, R65, R76, R78,
R102, R104). -/
def Obligations.BoundarySwapsAndLatches : Prop :=
  ∀ s : State, NoReset s →
    (s.cp.raster.running = false → exec .deskFrameBoundary s = .next s) ∧
    (s.cp.raster.running = true → ∃ t, exec .deskFrameBoundary s = .next t ∧
      (∀ h : Fin 4, t.cp.active[h] = if s.cp.pending[h] then s.cp.staged[h] else s.cp.active[h]) ∧
      t.cp.pending = Vector.replicate 4 false ∧ t.cp.staged = s.cp.staged ∧ t.cp.presets = s.cp.presets ∧
      t.cp.current = s.cp.current ∧ t.cp.heads = s.cp.heads ∧ t.cp.palette = s.cp.palette ∧
      t.cp.raster.running = true ∧ t.cp.raster.rate = s.desk.rate ∧
      (∀ (i : Fin 32) (e : StreamEntry) (b : Buffers) (r : Nat), s.sr.entries[i] = some e → e.buffers = some b →
        b.ready = some r →
        t.sr.entries[i] = some { e with
          buffers := some ⟨r, none, b.assembling, insertRising b.front b.spare⟩, front := e.ready, ready := none,
          state := if e.state = .waiting then .live else e.state,
          timer := if e.state = .waiting then some 0 else e.timer } ∧
        (e.state = .waiting → t.mu.events &&& EventKind.bit .streamLive ≠ 0)) ∧
      (∀ (i : Fin 32) (e : StreamEntry), s.sr.entries[i] = some e → e.buffers.bind (·.ready) = none →
        t.sr.entries[i] = some e) ∧
      (∀ i : Fin 32, s.sr.entries[i] = none → t.sr.entries[i] = none) ∧ t.sr.free = s.sr.free ∧ t.sr.lines = s.sr.lines ∧
      (∃ p, t.cp.picture = some p ∧ p.shown = decide (s.pu.power = .active) ∧ p.heads = s.cp.heads ∧ p.lists = t.cp.active ∧
        p.palette = s.cp.palette ∧ p.focusWindow = s.fu.focus.map (fun f => (f.head, f.win)) ∧
        (∀ i : Fin 16, p.held[i] = s.cu.slots[i].map (·.held)) ∧ ∀ i : Fin 32, p.streams[i] = t.sr.entries[i].map viewOf) ∧
      ((∀ h : Fin 4, s.cp.pending[h] = false) → t.fu = s.fu ∧ t.iu = s.iu) ∧
      ((∃ h : Fin 4, s.cp.pending[h] = true) → FocusReevaluated ((s.setCp t.cp).setSr t.sr) t) ∧
      t.wlp = s.wlp ∧ t.elp = s.elp ∧ t.cu = s.cu ∧ t.pu = s.pu ∧ t.desk = s.desk)

/-- R84: the border class of a window is the first of its table, and its band shows the class's palette colour, or its content where
the entry is absent. -/
def Obligations.BorderClassFollowsItsTable : Prop :=
  ∀ (s : State) (p : Picture) (h : Fin 4) (w : Window) (px py : Nat) (stale excl view focus : Prop),
    (stale ↔ ∃ v, pictureStream p w = some v ∧ (v.state = .stale ∨ v.state = .waiting)) →
    (excl ↔ ∃ v, pictureStream p w = some v ∧ p.held[v.content.slot] = some .exclusive) →
    (view ↔ ∃ v, pictureStream p w = some v ∧ (p.held[v.content.slot] = some .view ∨ w.input = false)) →
    (focus ↔ p.focusWindow = some (h, w.id)) →
    (stale → borderClass p h w = .stale) ∧
    (¬ stale → focus → excl → borderClass p h w = .focusExclusive) ∧
    (¬ stale → focus → ¬ excl → borderClass p h w = .focus) ∧
    (¬ stale → ¬ focus → excl → borderClass p h w = .exclusive) ∧
    (¬ stale → ¬ focus → ¬ excl → view → borderClass p h w = .viewOnly) ∧
    (¬ stale → ¬ focus → ¬ excl → ¬ view → borderClass p h w = .plain) ∧
    (inBand w px py = true → windowPixel s p h w px py = (p.palette[(borderClass p h w).entry]).getD (content s p w px py)) ∧
    (inBand w px py = false → windowPixel s p h w px py = content s p w px py)

/-- What a head drives: nothing while it is disabled, in STANDBY or without a picture; the background where no window lies; otherwise
the pixel of the last window that contains the point, whose content is its fill colour or the stream's front picture (R79 to R81). -/
def Obligations.HeadPixelComesFromItsOwner : Prop :=
  ∀ (s : State) (h : Fin 4) (px py : Nat), (s.cp.picture = none → headPixel s h px py = none) ∧ ∀ p, s.cp.picture = some p →
    (p.shown = false ∨ p.heads[h].enabled = false ∨ p.heads[h].width ≤ px ∨ p.heads[h].height ≤ py →
      headPixel s h px py = none) ∧
    (p.shown = true → p.heads[h].enabled = true → px < p.heads[h].width → py < p.heads[h].height →
      ((∀ v ∈ p.lists[h], winContains v px py = false) → headPixel s h px py = some p.heads[h].background) ∧
      (∀ below w above, p.lists[h] = below ++ w :: above → winContains w px py = true →
        (∀ v ∈ above, winContains v px py = false) →
        headPixel s h px py = some (windowPixel s p h w px py) ∧
        (pictureStream p w = none → content s p w px py = w.fill) ∧
        (∀ v, pictureStream p w = some v →
          (v.frontPresent = false ∨ v.frontBuffer = none ∨ v.content.width ≤ w.sx + (px - w.x) * w.d ∨
            v.content.height ≤ w.sy + (py - w.y) * w.d → content s p w px py = w.fill) ∧
          (∀ b c, v.frontPresent = true → v.frontBuffer = some b → w.sx + (px - w.x) * w.d < v.content.width →
            w.sy + (py - w.y) * w.d < v.content.height →
            Lines.pixel s.sr.lines (b * 2160 + (w.sy + (py - w.y) * w.d)) (w.sx + (px - w.x) * w.d) = some c →
            content s p w px py = c))))

/-! ## Start-up -/

/-- A load completes. It brings each area from the stored image where LOAD_SEL is set and the area is good, and from the built-in defaults
otherwise, entry by entry in the order of R191, with LOAD_FAULT where an area read was bad; into empty tables and with no good area it
brings the built-in defaults of every setting. What it brought stands as the loader enters RUNNING with the loaded seed in force: the
raster starts with a boundary that latches every head, the button filter and blink clock start, and the idle timer where a delay is set;
the pointer is placed at the centre of the lowest enabled head, and stays where none is; the sign-of-life is 1 with RESTART set, which the
first beacon takes where the ELP is UP. After power-on the ports enter service; after a soft reset they judge a new seed tag, and stay as
they are at the same one. In RUNNING no load is under way and nothing changes (R5, R18, R33, R34, R88, R190, R191, R192; the last is the
model's choice, notes/assumptions/29.md; that the WLP judges before the ELP is so too, notes/assumptions/37.md). -/
def Obligations.LoadCompleteEntersRunning : Prop :=
  ∀ (a : SerialAnswers) (rxMid : Bool) (s : State),
    (s.cl.loader = .loading → NoReset s → ∃ u t, Brings a s u ∧ exec (.loadComplete a rxMid) s = .next t ∧
      t.desk = u.desk ∧ t.cu = u.cu ∧ t.iu.hotkeys = u.iu.hotkeys ∧ t.cp.heads = u.cp.heads ∧ t.cp.palette = u.cp.palette ∧
      t.cp.staged = u.cp.staged ∧ t.cp.presets = u.cp.presets ∧ t.pu.lamps = u.pu.lamps ∧
      (∀ i : Fin 32, t.sr.entries[i].map (·.content) = u.sr.entries[i].map (·.content)) ∧
      t.mu.configLevel = u.mu.configLevel ∧ t.mu.layoutLevel = u.mu.layoutLevel ∧
      t.cl.deskFlag = u.cl.deskFlag ∧ t.cl.layoutFlag = u.cl.layoutFlag ∧
      (s.cl.loadSel = true → ¬ (AreaGood a a.desk s.serial.deskBad 16 1516 s ∧ AreaGood a a.layout s.serial.layoutBad 1536 6652 s) →
        t.mu.events &&& EventKind.bit .loadFault ≠ 0) ∧
      (TablesEmpty s → s.cl.loadSel = false ∨
          (¬ AreaGood a a.desk s.serial.deskBad 16 1516 s ∧ ¬ AreaGood a a.layout s.serial.layoutBad 1536 6652 s) → Defaults t) ∧
      t.cl.loader = .running ∧ t.cl.cold = false ∧ t.cl.seed = t.desk.seed ∧ t.cl.ownAddress = s.cl.ownAddress ∧
      t.cp.raster = ⟨true, t.desk.rate, 0⟩ ∧ t.cp.pending = Vector.replicate 4 false ∧ t.cp.active = t.cp.staged ∧
      t.pu.filter = none ∧ t.pu.run = 0 ∧ t.pu.blink = some ⟨0, 0⟩ ∧ t.pu.power = s.pu.power ∧
      t.pu.idle = (if s.pu.power = .active ∧ t.desk.standby ≠ 0 then some 0 else none) ∧
      (s.cl.loadSel = false → t.cl.deskFlag = .notRead ∧ t.cl.layoutFlag = .notRead) ∧ t.pending = s.pending ∧
      (s.cl.cold = true → s.wlp.state = .disabled → s.elp.state = .disabled → 1 ≤ (own s).toNat → (own s).toNat ≤ 62 →
        t.wlp.state = (if s.wlp.energy then .advertise else .silent) ∧
        t.elp.state = (if s.elp.energy then .advertise else .silent)) ∧
      (∀ h : Fin 4, t.cp.heads[h].enabled = true → (∀ k : Fin 4, k < h → t.cp.heads[k].enabled = false) →
        t.fu.x = t.cp.heads[h].ox + t.cp.heads[h].width / 2 ∧ t.fu.y = t.cp.heads[h].oy + t.cp.heads[h].height / 2) ∧
      ((∀ h : Fin 4, t.cp.heads[h].enabled = false) → t.fu.x = u.fu.x ∧ t.fu.y = u.fu.y) ∧
      (t.elp.state ≠ .up → t.rf.sol = 1 ∧ t.rf.restart = true) ∧
      (t.elp.state = .up → t.rf.beaconTimer = some ⟨0, t.desk.beaconPeriod⟩ ∧
        (u.rf.insQ.length < 12 → t.rf.sol = 2 ∧ t.rf.restart = false) ∧
        (12 ≤ u.rf.insQ.length → t.rf.sol = 1 ∧ t.rf.restart = true)) ∧
      (s.cl.cold = false →
        (seedTag t.cl.seed = seedTag s.cl.seed → t.wlp = u.wlp ∧ t.elp = u.elp ∧ t.lineOut = u.lineOut) ∧
        (seedTag t.cl.seed ≠ seedTag s.cl.seed → PortsJudged u t))) ∧
    (s.cl.loader = .running → s.mu.resetDue = false → exec (.loadComplete a rxMid) s = .next s)

/-! ## Desk records -/

/-- The five bytes of a desk record stand for a command by kind, direction and range. A record is rejected in LOADING, and where it names
no valid kind, direction or field: it counts, and nothing else changes (R112, R200). That DESK_RECORD_REJECTED changes nothing where its
bytes are valid in RUNNING is the model's choice (notes/assumptions/29.md). -/
def Obligations.RejectedDeskRecordIsCounted : Prop :=
  (∀ b0 b1 b2 b3 b4 : Byte,
    (b0 = 1 → b1 ≠ 0 → (b2 = 0 → deskCommand b0 b1 b2 b3 b4 = .deskKeyDown b1) ∧ (b2 = 1 → deskCommand b0 b1 b2 b3 b4 = .deskKeyUp b1)) ∧
    (b0 = 2 → 1 ≤ b1.toNat → b1.toNat ≤ 5 →
      (b2 = 0 → deskCommand b0 b1 b2 b3 b4 = .deskButtonPress b1) ∧ (b2 = 1 → deskCommand b0 b1 b2 b3 b4 = .deskButtonRelease b1)) ∧
    (b0 = 3 → -2048 ≤ (b1 ++ b2).toInt → (b1 ++ b2).toInt ≤ 2047 → -2048 ≤ (b3 ++ b4).toInt → (b3 ++ b4).toInt ≤ 2047 →
      deskCommand b0 b1 b2 b3 b4 = .deskMotion (b1 ++ b2) (b3 ++ b4)) ∧
    (b0 = 4 → -127 ≤ b1.toInt → -127 ≤ b2.toInt → deskCommand b0 b1 b2 b3 b4 = .deskWheel b1 b2) ∧
    (b0 = 0 ∨ 4 < b0.toNat ∨ (b0 = 1 ∧ (b1 = 0 ∨ 2 ≤ b2.toNat)) ∨ (b0 = 2 ∧ (b1 = 0 ∨ 5 < b1.toNat ∨ 2 ≤ b2.toNat)) ∨
        (b0 = 3 ∧ ((b1 ++ b2).toInt < -2048 ∨ 2047 < (b1 ++ b2).toInt ∨ (b3 ++ b4).toInt < -2048 ∨ 2047 < (b3 ++ b4).toInt)) ∨
        (b0 = 4 ∧ (b1.toInt < -127 ∨ b2.toInt < -127)) →
      deskCommand b0 b1 b2 b3 b4 = .deskRecordRejected b0 b1 b2 b3 b4) ∧
    (deskRecordValid b0 b1 b2 b3 b4 = false ↔ deskCommand b0 b1 b2 b3 b4 = .deskRecordRejected b0 b1 b2 b3 b4)) ∧
  ∀ s : State, s.mu.resetDue = false →
    (∀ b0 b1 b2 b3 b4 : Byte,
      (s.cl.loader = .loading ∨ deskRecordValid b0 b1 b2 b3 b4 = false → exec (.deskRecordRejected b0 b1 b2 b3 b4) s =
        .next (countIu (fun c => { c with rejected := bump c.rejected }) s)) ∧
      (s.cl.loader = .running → deskRecordValid b0 b1 b2 b3 b4 = true → exec (.deskRecordRejected b0 b1 b2 b3 b4) s = .next s)) ∧
    (∀ i : Instr, deskRecord i = true → s.cl.loader = .loading ∨ i.wellFormed = false →
      exec i s = .next (countIu (fun c => { c with rejected := bump c.rejected }) s))

/-- The commands of the desk port, the panel and their timers complete, and leave alone the link ports, the stream table, the
settings, the serial memory, presence, closure and beacons, and the picture. -/
def Obligations.OperatorCommandsLeaveTheRing : Prop :=
  ∀ (i : Instr) (s : State), NoReset s → operatorCommand i = true → ∃ t, exec i s = .next t ∧ SameRing s t

/-- A key down in ACTIVE, case by case: a repeated press counts as a duplicate; a modifier joins the physical set; a hot key is
consumed, counted and acted on; without a focus slot or with a full key owner map it counts; otherwise it is owned by the focus slot and
its record appended. Of the actions, SELECT_PRESET stages its preset on every head; the claim actions make a local request or release
for the focus slot, or else the last one, and count without either; STANDBY enters STANDBY; and NEXT_WINDOW moves pointer and focus to the
next window that takes input, unless the lock is set or drag capture holds (R75, R109, R113, R115 to R117, R119); the rounding of the centre of a
window of odd size is the model's choice (notes/assumptions/40.md). FOCUS_LOCK is with the lock. -/
def Obligations.KeyDownIsHandledByItsCases : Prop :=
  ∀ (u : Byte) (r m s : State), Awake s → u ≠ 0 → r = reported s →
    m = r.setIu { s.iu with mods := if isModifier u then s.iu.mods ||| modBit u else s.iu.mods } →
    (isModifier u = true → s.iu.mods &&& modBit u ≠ 0 →
      exec (.deskKeyDown u) s = .next (countIu (fun c => { c with duplicates := bump c.duplicates }) r)) ∧
    ((isModifier u = true → s.iu.mods &&& modBit u = 0) →
      (u ∈ s.iu.consumed ∨ u ∈ s.iu.keys.map (·.1) →
        exec (.deskKeyDown u) s = .next (countIu (fun c => { c with duplicates := bump c.duplicates }) m)) ∧
      (u ∉ s.iu.consumed → u ∉ s.iu.keys.map (·.1) →
        (∀ (i : Fin 16) (k : HotKey) (v w : State), isModifier u = false → s.iu.hotkeys[i] = some k → k.usage = u → k.mods = s.iu.mods →
          (∀ (j : Fin 16) (k' : HotKey), j < i → s.iu.hotkeys[j] = some k' → ¬ (k'.usage = u ∧ k'.mods = s.iu.mods)) →
          v = (if s.iu.consumed.length < 16 then m.setIu { m.iu with consumed := s.iu.consumed ++ [u] }
            else countIu (fun c => { c with consumedFull := bump c.consumedFull }) m) → w = runAction k v →
          exec (.deskKeyDown u) s = .next (countIu (fun c => { c with hotKeys := bump c.hotKeys }) w) ∧
          (∀ n : Fin 8, k.action = .selectPreset → k.arg.toNat = n.val → w = v.setCp { s.cp with
            staged := Vector.ofFn fun h => s.cp.presets[presetIndex n h], pending := Vector.replicate 4 true, current := some n }) ∧
          (∀ j, s.fu.focus.map (·.slot) = some j ∨ (s.fu.focus = none ∧ s.fu.last = some j) →
            (k.action = .requestShared → w = (localRequest (some j) (some .shared) v).2) ∧
            (k.action = .requestExclusive → w = (localRequest (some j) (some .exclusive) v).2) ∧
            (k.action = .release → w = (localRelease (some j) (some .view) v).2)) ∧
          (s.fu.focus = none → s.fu.last = none → k.action = .requestShared ∨ k.action = .requestExclusive ∨ k.action = .release →
            w = countIu (fun c => { c with hotNoTarget := bump c.hotNoTarget }) v) ∧
          (k.action = .standby → w.pu = { v.pu with power := .standby, idle := none, c := { s.pu.c with standbys := bump s.pu.c.standbys } } ∧
            w.fu.focus = none ∧ w.fu.lock = false ∧
            ∀ (j : Fin 16) (c : Slot), w.cu.slots[j] = some c → c.held = .view ∧ c.request = none) ∧
          (k.action = .nextWindow →
            (s.fu.lock = true ∨ (∃ j : Fin 5, s.iu.owners[j] ≠ none) ∨ (∀ h n x, ¬ Listed s h n x) → w = v) ∧
            (∀ h n x q g, s.fu.lock = false → (∀ j : Fin 5, s.iu.owners[j] = none) → NextWindow s h n x → NextPixel s h n x q →
              focusable s x = some g → w.fu.focus = some ⟨g, h, x.id⟩ ∧ w.fu.x = s.cp.heads[h].ox + q.1 ∧
              w.fu.y = s.cp.heads[h].oy + q.2 ∧ w.fu.accum = 0 ∧ w.fu.lock = false ∧
              w.fu.last = (if s.fu.focus.map (·.slot) = some g then s.fu.last else some g) ∧
              (∀ pt, requestedPoint (s.setFu { s.fu with
                  x := s.cp.heads[h].ox + q.1, y := s.cp.heads[h].oy + q.2, focus := some ⟨g, h, x.id⟩ }) = some (g, pt) →
                w.fu.reported = some pt) ∧
              ∀ f, s.fu.focus = some f → f.slot ≠ g → ∀ y ∈ w.iu.keys, y.2 ≠ f.slot))) ∧
        (isModifier u = true ∨ (∀ (i : Fin 16) (k : HotKey), s.iu.hotkeys[i] = some k → k.usage ≠ u ∨ k.mods ≠ s.iu.mods) →
          (s.fu.focus = none →
            exec (.deskKeyDown u) s = .next (countIu (fun c => { c with keysNoFocus := bump c.keysNoFocus }) m)) ∧
          (∀ f, s.fu.focus = some f → 16 ≤ s.iu.keys.length →
            exec (.deskKeyDown u) s = .next (countIu (fun c => { c with keysMapFull := bump c.keysMapFull }) m)) ∧
          (∀ f, s.fu.focus = some f → s.iu.keys.length < 16 → s.iu.queues[f.slot].length < 24 →
            exec (.deskKeyDown u) s = .next (enqueue f.slot (.key u false)
              (m.setIu { m.iu with keys := s.iu.keys ++ [(u, f.slot)] }))) ∧
          (∀ f, s.fu.focus = some f → s.iu.keys.length < 16 → 24 ≤ s.iu.queues[f.slot].length →
            ∃ t, exec (.deskKeyDown u) s = .next t ∧ t.mu.events &&& EventKind.bit .queueOverflow ≠ 0))))

/-- A key up, in ACTIVE as in STANDBY: a consumed key is forgotten, an owned key leaves the key owner map and its record goes to its
owner, whatever the focus is, and any other counts; a modifier leaves the physical set (R113, R120). -/
def Obligations.KeyUpGoesToItsOwner : Prop :=
  ∀ (u : Byte) (m s : State), NoReset s → s.cl.loader = .running → u ≠ 0 →
    m = (heardQuietly s).setIu { s.iu with mods := if isModifier u then s.iu.mods &&& ~~~modBit u else s.iu.mods } →
    (u ∈ s.iu.consumed → exec (.deskKeyUp u) s = .next (m.setIu { m.iu with consumed := s.iu.consumed.erase u })) ∧
    (u ∉ s.iu.consumed →
      (u ∉ s.iu.keys.map (·.1) →
        exec (.deskKeyUp u) s = .next (countIu (fun c => { c with unownedUps := bump c.unownedUps }) m)) ∧
      (∀ before owner after, s.iu.keys = before ++ (u, owner) :: after → u ∉ before.map (·.1) →
        s.iu.queues[owner].length < 24 →
        exec (.deskKeyUp u) s = .next (enqueue owner (.key u true) (m.setIu { m.iu with keys := before ++ after }))) ∧
      (∀ before owner after, s.iu.keys = before ++ (u, owner) :: after → u ∉ before.map (·.1) →
        24 ≤ s.iu.queues[owner].length →
        ∃ t, exec (.deskKeyUp u) s = .next t ∧ t.mu.events &&& EventKind.bit .queueOverflow ≠ 0))

/-- A button press in ACTIVE: a repeated one counts; otherwise the button is physically down, and the focus slot owns it and gets a
POSITION at the reported position with the buttons it owns; without a focus slot it counts (R113, R121). -/
def Obligations.ButtonPressIsOwnedByTheFocusSlot : Prop :=
  ∀ (b : Byte) (k : Fin 5) (p s : State), Awake s → b.toNat = k.val + 1 →
    p = (reported s).setIu { s.iu with buttons := s.iu.buttons ||| (1#5 <<< k.val) } →
    (s.iu.buttons.getLsbD k.val = true →
      exec (.deskButtonPress b) s = .next (countIu (fun c => { c with duplicates := bump c.duplicates }) (reported s))) ∧
    (s.iu.buttons.getLsbD k.val = false →
      (s.fu.focus = none →
        exec (.deskButtonPress b) s = .next (countIu (fun c => { c with buttonsNoFocus := bump c.buttonsNoFocus }) p)) ∧
      (∀ f o, s.fu.focus = some f → o = p.setIu { p.iu with owners := s.iu.owners.set k (some f.slot) } →
        (s.fu.reported = none → exec (.deskButtonPress b) s = .next o) ∧
        (∀ pt, s.fu.reported = some pt → (queued s.iu.queues[f.slot] (.position pt (ownedBy f.slot o))).length ≤ 24 →
          exec (.deskButtonPress b) s = .next (enqueue f.slot (.position pt (ownedBy f.slot o)) o)) ∧
        (∀ pt, s.fu.reported = some pt → s.iu.queues[f.slot].length = 24 →
          24 < (queued s.iu.queues[f.slot] (.position pt (ownedBy f.slot o))).length →
          ∃ t, exec (.deskButtonPress b) s = .next t ∧ t.mu.events &&& EventKind.bit .queueOverflow ≠ 0) ∧
        ∀ (i : Fin 16) (j : Fin 5), (ownedBy i o).getLsbD j.val = decide (o.iu.owners[j] = some i)))

/-- A button release: a button that no slot owns leaves the physical set; an owned one loses its owner, which gets a POSITION with
the buttons it still owns, or overflows. With the last owned button that POSITION carries no button, and after it drag capture ends: with
the lock clear the focus follows the pointer, which stays; with the lock set it stays with a window that holds, the pointer limited to it,
and is taken away by force, lock cleared, where the window no longer holds (R101 to R103, R122). -/
def Obligations.ButtonReleaseGoesToItsOwner : Prop :=
  ∀ (b : Byte) (k : Fin 5) (p s : State), NoReset s → s.cl.loader = .running → b.toNat = k.val + 1 →
    p = (heardQuietly s).setIu { s.iu with buttons := s.iu.buttons &&& ~~~(1#5 <<< k.val) } →
    (s.iu.owners[k] = none → exec (.deskButtonRelease b) s = .next p) ∧
    (∀ i o, s.iu.owners[k] = some i → o = p.setIu { p.iu with owners := s.iu.owners.set k none } →
      ((∃ j : Fin 5, j ≠ k ∧ s.iu.owners[j] ≠ none) →
        (s.fu.reported = none → exec (.deskButtonRelease b) s = .next o) ∧
        (∀ pt, s.fu.reported = some pt → (queued s.iu.queues[i] (.position pt (ownedBy i o))).length ≤ 24 →
          exec (.deskButtonRelease b) s = .next (enqueue i (.position pt (ownedBy i o)) o)) ∧
        (∀ pt, s.fu.reported = some pt → s.iu.queues[i].length = 24 →
          24 < (queued s.iu.queues[i] (.position pt (ownedBy i o))).length →
          ∃ t, exec (.deskButtonRelease b) s = .next t ∧ t.mu.events &&& EventKind.bit .queueOverflow ≠ 0)) ∧
      ((∀ j : Fin 5, j ≠ k → s.iu.owners[j] = none) → ∃ t, exec (.deskButtonRelease b) s = .next t ∧
        (s.fu.reported = none → t = dragEnd o) ∧
        (∀ pt, s.fu.reported = some pt → (queued s.iu.queues[i] (.position pt 0)).length ≤ 24 →
          t = dragEnd (enqueue i (.position pt 0) o)) ∧
        (∀ pt, s.fu.reported = some pt → s.iu.queues[i].length = 24 → 24 < (queued s.iu.queues[i] (.position pt 0)).length →
          t.mu.events &&& EventKind.bit .queueOverflow ≠ 0) ∧
        t.iu.buttons = p.iu.buttons ∧ (∀ j : Fin 5, t.iu.owners[j] = none) ∧
        (s.fu.lock = false → t.fu.focus = targetAtPointer s ∧ t.fu.x = s.fu.x ∧ t.fu.y = s.fu.y ∧ t.fu.lock = false) ∧
        (∀ f w, s.fu.lock = true → s.fu.focus = some f → windowOf s f = some w → focusHolds s f = true →
          t.fu.focus = some f ∧ t.fu.lock = true ∧ (t.fu.x, t.fu.y) = limitTo s.cp.heads[f.head] w s.fu.x s.fu.y) ∧
        (∀ f, s.fu.lock = true → s.fu.focus = some f → focusHolds s f = false →
          t.fu.focus = targetAtPointer s ∧ t.fu.lock = false ∧ t.fu.x = s.fu.x ∧ t.fu.y = s.fu.y) ∧
        t.cu = s.cu ∧ t.cp = s.cp ∧ t.pu = p.pu))

/-- A motion with the lock clear that is no blocked crossing, whatever the guard distance: the pointer goes to the first of the three
points that lies in an enabled head, or stays, and the accumulator clears; with no button owned the focus follows the hit test there, and
under drag capture it stays; where it stays at its slot, the slot gets a POSITION (R89, R95, R96, R98, R99, R100). -/
def Obligations.MotionMovesPointerAndFocus : Prop :=
  ∀ (dx dy : BitVec 16) (p : Int × Int) (u s : State), Awake s → (Instr.deskMotion dx dy).wellFormed = true →
    s.fu.lock = false → ¬ BlockedCrossing s p → MovesTo s dx.toInt dy.toInt p → u = pointerAt p (reported s) →
    (∃ t, exec (.deskMotion dx dy) s = .next t ∧ t.fu.x = p.1.toNat ∧ t.fu.y = p.2.toNat ∧ t.fu.lock = false ∧
      t.fu.accum = 0 ∧ t.cp = s.cp ∧ t.cu = s.cu ∧ t.pu = u.pu ∧ t.iu.mods = s.iu.mods ∧ t.iu.buttons = s.iu.buttons ∧
      ((∀ j : Fin 5, s.iu.owners[j] = none) → t.fu.focus = targetAtPointer u) ∧
      ((∃ j : Fin 5, s.iu.owners[j] ≠ none) → (∀ i : Fin 16, s.iu.queues[i].length < 24) → t.fu.focus = s.fu.focus)) ∧
    (∀ f k pt, (∀ j : Fin 5, s.iu.owners[j] = none) → targetAtPointer u = some f → s.fu.focus.map (·.slot) = some f.slot →
      requestedPoint (u.setFu { u.fu with focus := some f }) = some (k, pt) → (queued s.iu.queues[k] (.position pt 0)).length ≤ 24 →
      exec (.deskMotion dx dy) s = .next (enqueue k (.position pt 0) (u.setFu { u.fu with focus := some f, reported := some pt })))

/-- A motion under the focus lock moves the pointer within the focus window, also while a button is owned. A motion that would cross to another slot's window within the
guard distance is held back at the window, its size adds up, and the focus slot stays (that the focus may then follow the hit test to
another window of its slot is the model's choice, notes/assumptions/44.md); where the sum reaches the distance, focus crosses after the
release synthesis of the slot it leaves. FOCUS_LOCK clears a lock that is set, and the focus follows the pointer unless drag capture
holds; with a focus slot it sets a lock that is clear, the pointer limited to the focus window; without one it does nothing (R94, R97,
R98, R102, R108, R125). -/
def Obligations.LockAndGuardHoldThePointer : Prop :=
  (∀ (dx dy : BitVec 16) (f : Focus) (s : State), Awake s → (Instr.deskMotion dx dy).wellFormed = true →
    s.fu.focus = some f →
    (∀ w, s.fu.lock = true → windowOf s f = some w → (∀ j : Fin 5, s.iu.owners[j] = none) ∨ focusHolds s f = true → ∃ t, exec (.deskMotion dx dy) s = .next t ∧ t.fu.lock = true ∧
      (t.fu.x, t.fu.y) = limitTo s.cp.heads[f.head] w (s.fu.x + dx.toInt) (s.fu.y + dy.toInt) ∧ t.fu.focus = some f ∧
      t.fu.accum = 0) ∧
    (∀ p h w g n, s.fu.lock = false → (∀ j : Fin 5, s.iu.owners[j] = none) → 0 < s.desk.guard → MovesTo s dx.toInt dy.toInt p →
      hitTest s s.fu.x s.fu.y = some (h, w) → windowSlot s w = some f.slot → asTarget s (hitTest s p.1 p.2) = some g →
      g.slot ≠ f.slot → n = s.fu.accum + max (p.1 - s.fu.x).natAbs (p.2 - s.fu.y).natAbs →
      ∃ t, exec (.deskMotion dx dy) s = .next t ∧
        (s.desk.guard ≤ n → t.fu.x = p.1.toNat ∧ t.fu.y = p.2.toNat ∧ t.fu.accum = 0 ∧ t.fu.focus = some g ∧ t.fu.last = some g.slot ∧
          (∀ k ∈ t.iu.keys, k.2 ≠ f.slot) ∧
          (s.iu.held.isSome = true → (synthesised f.slot s).length ≤ 24 → t.iu.queues[f.slot] = synthesised f.slot s)) ∧
        (n < s.desk.guard → t.fu.focus.map (·.slot) = some f.slot ∧ t.fu.accum = n ∧ t.fu.lock = false ∧
          ((hitTest s (limitTo s.cp.heads[h] w p.1 p.2).1 (limitTo s.cp.heads[h] w p.1 p.2).2).bind
              (fun hw => windowSlot s hw.2) = some f.slot →
            (t.fu.x, t.fu.y) = limitTo s.cp.heads[h] w p.1 p.2) ∧
          ((hitTest s (limitTo s.cp.heads[h] w p.1 p.2).1 (limitTo s.cp.heads[h] w p.1 p.2).2).bind
              (fun hw => windowSlot s hw.2) ≠ some f.slot →
            t.fu.x = s.fu.x ∧ t.fu.y = s.fu.y)))) ∧
  ∀ (k : HotKey) (v t : State), k.action = .focusLock → t = runAction k v →
    (v.fu.lock = true → (∀ j : Fin 5, v.iu.owners[j] = none) →
      t.fu.lock = false ∧ t.fu.focus = targetAtPointer v ∧ t.fu.x = v.fu.x ∧ t.fu.y = v.fu.y) ∧
    (∀ f, v.fu.lock = true → v.fu.focus = some f → focusHolds v f = true → (∃ j : Fin 5, v.iu.owners[j] ≠ none) →
      (∀ i : Fin 16, v.iu.queues[i].length < 24) → t.fu.lock = false ∧ t.fu.focus = some f ∧ t.fu.x = v.fu.x ∧ t.fu.y = v.fu.y) ∧
    (∀ f w, v.fu.lock = false → v.fu.focus = some f → windowOf v f = some w →
      (∀ j : Fin 5, v.iu.owners[j] = none) ∨ (∀ i : Fin 16, v.iu.queues[i].length < 24) →
      t.fu.lock = true ∧ t.fu.focus = some f ∧ (t.fu.x, t.fu.y) = limitTo v.cp.heads[f.head] w v.fu.x v.fu.y ∧ t.fu.accum = 0) ∧
    (v.fu.lock = false → v.fu.focus = none → t = v)

/-- A wheel turn goes to the focus slot's queue, or counts without one. At a full queue, the queue's 24 records and the new one are
discarded for a RESYNC, the slot's keys and buttons are no longer owned, and QUEUE_OVERFLOW is raised (R124, R127, R130). -/
def Obligations.WheelIsAppendedOrOverflows : Prop :=
  ∀ (v h : Byte) (s : State), Awake s → (Instr.deskWheel v h).wellFormed = true →
    (s.fu.focus = none →
      exec (.deskWheel v h) s = .next (countIu (fun c => { c with wheelNoFocus := bump c.wheelNoFocus }) (reported s))) ∧
    (∀ f, s.fu.focus = some f → s.iu.queues[f.slot].length < 24 →
      exec (.deskWheel v h) s = .next (enqueue f.slot (.wheel v h) (reported s))) ∧
    (∀ f, s.fu.focus = some f → s.iu.queues[f.slot].length = 24 → ∃ t, exec (.deskWheel v h) s = .next t ∧
      t.mu.events &&& EventKind.bit .queueOverflow ≠ 0 ∧ (∀ k ∈ t.iu.keys, k.2 ≠ f.slot) ∧
      (∀ j : Fin 5, t.iu.owners[j] ≠ some f.slot) ∧ t.cu = s.cu ∧ t.cp = s.cp ∧
      (s.iu.held.isSome = true → t.iu.queues[f.slot].head? = some .resync) ∧
      (s.iu.held.isSome = true → (∀ j : Fin 5, s.iu.owners[j] = none) → t.fu = s.fu ∧ t.iu = { s.iu with
        queues := s.iu.queues.set f.slot [.resync], keys := s.iu.keys.filter fun k => k.2 ≠ f.slot,
        c := { s.iu.c with overflows := bump s.iu.c.overflows, overflowDiscards := bumpBy 25 s.iu.c.overflowDiscards } }))

/-- The builder takes the slots in turn: the first loaded one with records after the last it served; the frame carries up to 8 of
the queue's oldest records, under the slot's own sequence; and it stops only with a frame kept or nothing left to build (R132,
R133). -/
def Obligations.BuilderServesSlotsInTurn : Prop :=
  ∀ (n : Nat) (s : State), NoReset s →
    (s.iu.held.isSome = true → pumpBuilder n s = s) ∧
    (s.iu.held = none → (∀ (i : Fin 16) (k : Slot), s.cu.slots[i] = some k → s.iu.queues[i] = []) → pumpBuilder n s = s) ∧
    (∀ (i : Fin 16) (k : Slot) (f : Frame) (b : Iu), s.iu.held = none → s.cu.slots[i] = some k → s.iu.queues[i] ≠ [] →
      (∀ j : Fin 16, (j - s.iu.rr - 1).val < (i - s.iu.rr - 1).val → s.cu.slots[j] = none ∨ s.iu.queues[j] = []) →
      f = ⟨kindInput, k.content.addr, own s, 63, inputPayload s.iu.seqs[i] (s.iu.queues[i].take 8)⟩ →
      b = { s.iu with queues := s.iu.queues.set i (s.iu.queues[i].drop 8), rr := i,
                      seqs := s.iu.seqs.set i (if s.iu.seqs[i] < 63 then s.iu.seqs[i] + 1 else 1),
                      c := { s.iu.c with framesBuilt := bump s.iu.c.framesBuilt } } →
      (s.rf.insQ.length < 12 →
        pumpBuilder (n + 1) s = pumpBuilder n ((s.setIu b).setRf (takeIn s ⟨f, false⟩))) ∧
      (12 ≤ s.rf.insQ.length → pumpBuilder (n + 1) s = (s.setIu { b with held := some f }).setRf { s.rf with
        c := { s.rf.c with insFull := bump s.rf.c.insFull } })) ∧
    ((pumpBuilder pumpBound s).iu.held.isSome = true ∨ nextServed (pumpBuilder pumpBound s) = none)

/-! ## Power and panel -/

/-- In STANDBY a key down, button press, motion or wheel record wakes the desk before it is handled: ACTIVE, with its kind as the wake
cause, counted, WAKE raised, the idle timer started, and SHARED asked for by every slot whose auto-share is due (a key down may be a hot
key that takes the desk back to STANDBY or makes a request of its own); a key up or a button release leaves the panel unit as it is
(R112, R151, R152, R158, R159). -/
def Obligations.DeskRecordWakesTheDesk : Prop :=
  ∀ (i : Instr) (s : State), NoReset s → s.cl.loader = .running → s.pu.power = .standby → deskRecord i = true →
    i.wellFormed = true → ∃ t, exec i s = .next t ∧
      (wakes i = none → t.pu = s.pu) ∧
      (∀ k, wakes i = some k →
        t.pu.wake = some (.deskInput k) ∧ t.pu.c.wakes = bump s.pu.c.wakes ∧ t.mu.events &&& EventKind.bit .wake ≠ 0 ∧
        ((∀ u, i = .deskKeyDown u → ∀ (j : Fin 16) (k' : HotKey), s.iu.hotkeys[j] = some k' → k'.usage ≠ u ∨ k'.action ≠ .standby) →
          t.pu.power = .active ∧ t.pu.idle = (if s.desk.standby = 0 then none else some 0)) ∧
        ((∀ u, i = .deskKeyDown u → ∀ (j : Fin 16) (k' : HotKey), s.iu.hotkeys[j] = some k' →
            k'.usage ≠ u ∨ k'.action = .selectPreset ∨ k'.action = .focusLock ∨ k'.action = .nextWindow) → AutoShared s t))

/-- The idle timer's expiry: STANDBY, the timer stopped, no focus and no lock, release synthesis for the slot that loses focus, and every
loaded slot given back to VIEW without a request, with CLAIM_CHANGE for what was held; the links and streams go on. A timer that does not
run, or that a desk record has restarted below the standby delay, does not expire (R94, R107, R125, R144, R152, R157, R159). -/
def Obligations.IdleExpiryEntersStandby : Prop :=
  ∀ s : State, NoReset s →
    (∀ n, s.pu.power = .active → s.pu.idle = some n → s.desk.standby ≠ 0 → s.desk.standby * 60000 ≤ n → ∃ t, exec .idleTimerExpires s = .next t ∧
      t.pu = { s.pu with power := .standby, idle := none, c := { s.pu.c with standbys := bump s.pu.c.standbys } } ∧
      t.fu.focus = none ∧ t.fu.lock = false ∧ t.fu.accum = 0 ∧ t.fu.x = s.fu.x ∧ t.fu.y = s.fu.y ∧
      (∀ f, s.fu.focus = some f → t.fu.last = some f.slot ∧ (∀ x ∈ t.iu.keys, x.2 ≠ f.slot) ∧ (∀ j : Fin 5, t.iu.owners[j] ≠ some f.slot) ∧
        (s.iu.held.isSome = true → (synthesised f.slot s).length ≤ 24 → t.iu.queues[f.slot] = synthesised f.slot s)) ∧
      (∀ i : Fin 16, s.cu.slots[i] = none → t.cu.slots[i] = none) ∧
      (∀ (i : Fin 16) (k : Slot), s.cu.slots[i] = some k →
        t.cu.slots[i] = some { k with
          held := .view, request := none,
          holder := if k.held ≠ .view ∧ k.holder = some (own s) then none else k.holder,
          outcome := if k.held ≠ .view ∨ k.request ≠ none then .released else k.outcome } ∧
        (k.held ≠ .view → t.mu.events &&& EventKind.bit .claimChange ≠ 0)) ∧
      SameRing s t) ∧
    (s.pu.power = .standby ∨ s.pu.idle = none ∨ s.desk.standby = 0 ∨ (∃ n, s.pu.idle = some n ∧ n < s.desk.standby * 60000) →
      exec .idleTimerExpires s = .next s)

/-- The takeover button: the filter takes its first sample at once, and then a level that four samples in a row show; a change to
PRESSED is counted, and wakes the desk in STANDBY, with its auto-share requests, or requests EXCLUSIVE of the focus slot, or of the last
one (R143, R152, R161, R162). That the fourth
sample is the change itself, and that TAKEOVER_PRESS and TAKEOVER_BUTTON_RELEASED change the filtered state at any run count, is the
model's choice (notes/assumptions/21.md). -/
def Obligations.TakeoverButtonIsFiltered : Prop :=
  ∀ s : State, NoReset s → s.cl.loader = .running →
    (∀ l, s.pu.filter = none → exec (.takeoverButtonSample l) s = .next (s.setPu { s.pu with filter := some l, run := 0 })) ∧
    (∀ l, s.pu.filter = some l → exec (.takeoverButtonSample l) s = .next (s.setPu { s.pu with run := 0 })) ∧
    (∀ l f, s.pu.filter = some f → l ≠ f → s.pu.run < 3 →
      exec (.takeoverButtonSample l) s = .next (s.setPu { s.pu with run := s.pu.run + 1 })) ∧
    (s.pu.filter = some .released → 3 ≤ s.pu.run → exec (.takeoverButtonSample .pressed) s = exec .takeoverPress s) ∧
    (s.pu.filter = some .pressed → 3 ≤ s.pu.run →
      exec (.takeoverButtonSample .released) s = exec .takeoverButtonReleased s) ∧
    (s.pu.filter = some .pressed →
      exec .takeoverButtonReleased s = .next (s.setPu { s.pu with filter := some .released, run := 0 })) ∧
    (s.pu.filter = some .released → ∃ t, exec .takeoverPress s = .next t ∧
      t.pu.filter = some .pressed ∧ t.pu.run = 0 ∧ t.pu.c.presses = bump s.pu.c.presses ∧ t.pu.power = .active ∧
      (s.pu.power = .standby → t.pu.wake = some .takeover ∧ t.pu.c.wakes = bump s.pu.c.wakes ∧
        t.mu.events &&& EventKind.bit .wake ≠ 0 ∧ AutoShared s t) ∧
      (s.pu.power = .active → s.fu.focus = none → s.fu.last = none →
        t.pu.c.noTarget = bump s.pu.c.noTarget ∧ t.cu = s.cu) ∧
      (∀ (i : Fin 16) (k : Slot), s.pu.power = .active → s.fu.focus.map (·.slot) = some i ∨ s.fu.focus = none ∧ s.fu.last = some i →
        s.cu.slots[i] = some k →
        (nodePresent s k.content.addr = true → k.held ≠ .exclusive → k.request = none →
          t.cu.slots[i] = some { k with request := some ⟨.exclusive, none⟩ } ∨
          t.cu.slots[i] = some { k with request := some ⟨.exclusive, some s.desk.claimTimeout⟩ }) ∧
        (nodePresent s k.content.addr = false ∨ k.held = .exclusive ∨ k.request ≠ none →
          t.cu = { s.cu with c := { s.cu.c with refused := bump s.cu.c.refused } })))

/-- A head lamp's conditions follow the focus window, the streams that its head's active list names and their slots, while the head is
enabled and the desk ACTIVE (that WAITING streams count for the slots' conditions is read so by notes/assumptions/48.md); the desk lamp's
follow the ring, the slots and the power state. The blink clock counts its eight phases round; that BLINK_PHASE_ADVANCE is taken at its
word, whatever the phase's time, is the model's choice (notes/assumptions/2.md). A lamp shows the highest ranked behaviour among its true conditions, OFF with
none; SLOW is lit in phases 0 to 3 and FAST in the even phases, and no lamp is lit while the clock is stopped (R163 to R166). -/
def Obligations.BlinkClockDrivesTheLamps : Prop :=
  ∀ (s : State) (l : Fin 5),
    (∀ b, s.pu.blink = some b → s.mu.resetDue = false → exec .blinkPhaseAdvance s =
      .next (s.setPu { s.pu with blink := some ⟨(b.phase + 1) % 8, b.elapsed - 125⟩ })) ∧
    (s.pu.blink = none → s.mu.resetDue = false → exec .blinkPhaseAdvance s = .next s) ∧
    (∀ j : Fin 4, (lampConditions l s)[j.val]? = some true → Behaviour.rank s.pu.lamps[l][j] ≤ Behaviour.rank (lampShown l s)) ∧
    (lampShown l s = .off ∨ ∃ j : Fin 4, (lampConditions l s)[j.val]? = some true ∧ s.pu.lamps[l][j] = lampShown l s) ∧
    (lampConditions l s).length = 4 ∧
    (∀ h : Fin 4, l.val = h.val →
      ((lampConditions l s)[0]? = some true ↔
        s.cp.heads[h].enabled = true ∧ s.pu.power = .active ∧ ∃ f, s.fu.focus = some f ∧ f.head = h) ∧
      ((lampConditions l s)[1]? = some true ↔ s.cp.heads[h].enabled = true ∧ s.pu.power = .active ∧ ∃ w ∈ s.cp.active[h], ∃ id e k,
        w.stream = some id ∧ streamOf s id = some e ∧ s.cu.slots[e.content.slot] = some k ∧ k.held = .exclusive) ∧
      ((lampConditions l s)[2]? = some true ↔ s.cp.heads[h].enabled = true ∧ s.pu.power = .active ∧ ∃ w ∈ s.cp.active[h], ∃ id e,
        w.stream = some id ∧ streamOf s id = some e ∧ e.state = .stale) ∧
      ((lampConditions l s)[3]? = some true ↔ s.cp.heads[h].enabled = true ∧ s.pu.power = .active ∧ ∃ w ∈ s.cp.active[h], ∃ id e k,
        w.stream = some id ∧ streamOf s id = some e ∧ s.cu.slots[e.content.slot] = some k ∧ k.request ≠ none)) ∧
    (l = 4 →
      ((lampConditions l s)[0]? = some true ↔ s.rf.ring ≠ .closed) ∧
      ((lampConditions l s)[1]? = some true ↔ ∃ (i : Fin 16) (k : Slot), s.cu.slots[i] = some k ∧ k.held = .exclusive) ∧
      ((lampConditions l s)[2]? = some true ↔ ∃ (i : Fin 16) (k : Slot), s.cu.slots[i] = some k ∧ k.request ≠ none) ∧
      ((lampConditions l s)[3]? = some true ↔ s.pu.power = .standby)) ∧
    (s.pu.blink = none → lampLit l s = false) ∧
    (∀ b, s.pu.blink = some b →
      (lampShown l s = .off → lampLit l s = false) ∧ (lampShown l s = .on → lampLit l s = true) ∧
      (lampShown l s = .slow → (lampLit l s = true ↔ b.phase < 4)) ∧
      (lampShown l s = .fast → (lampLit l s = true ↔ b.phase % 2 = 0)))

/-! ## Claims -/

/-- The claim unit's outbox empties only from its head, while no message is on offer; local requests and releases, and writes of a directory
slot, change the claim record and queue what the source must hear of. A source's answer changes its slot's record: a GRANT raises an
outstanding request's slot to its level, a DENY ends the request, a REVOKE lowers the level, each with the holder it names, and a change of
level is reported to the focus unit, which sets its lock where an EXCLUSIVE grant of the focus slot is to confine. A GRANT that answers no
request is counted, and one above the held level is released again, the slot's request ended where its REQUEST has not left the outbox. A
frame is rejected, counted and changes nothing else where its length is not 4, no loaded slot names its origin, its kind or level is
unknown, or it is a GRANT or DENY to all nodes; a REVOKE to all nodes is taken (R105, R136 to R148, R200). That a frame to all nodes is
forwarded before it is taken is the model's choice (notes/assumptions/14.md). -/
def Obligations.SourceAnswersChangeTheClaim : Prop :=
  OutboxEmpties ∧ LocalRequestsAct ∧ LocalReleasesAct ∧ SlotWritesAct ∧ ∀ (f : Frame) (s u v : State), NoReset s → ComesTo s f u →
    f.kind = kindClaim → v = u.setCu { u.cu with c := { u.cu.c with rejected := bump u.cu.c.rejected } } →
    (f.payload.length ≠ 4 ∨ (∀ (i : Fin 16) (k : Slot), s.cu.slots[i] = some k → k.content.addr ≠ f.origin) →
      exec (hear s f) s = .next v) ∧
    ∀ (kind level prio holder : Byte) (i : Fin 16) (k : Slot), f.payload = [kind, level, prio, holder] →
      slotOfAddr s f.origin = some i → s.cu.slots[i] = some k →
      (levelOf level = none ∨ (kind ≠ 3 ∧ kind ≠ 4 ∧ kind ≠ 5) ∨ (f.dest = allNodes ∧ kind ≠ 5) → exec (hear s f) s = .next v) ∧
      ∀ l, levelOf level = some l → f.dest ≠ allNodes ∨ kind = 5 → AnswerActs i k kind l holder u (exec (hear s f) s)

/-- The request timer's expiry ends the request, counted, with CLAIM_TIMEOUT; without an outstanding request that has a deadline
nothing happens (R149). The notice interval's expiry lets a notice that is due be built and offered, and starts the interval again;
with none due the interval stops; at a full insertion queue the notice is kept on offer, and the interval starts when it is appended
(R170, R184). Where the unit keeps a frame on offer, the interval stops and the notice stays due until that frame is appended (R170, read
so by notes/assumptions/28.md). That both commands act at any remaining time, taken at their word, is the model's choice
(notes/assumptions/2.md). -/
def Obligations.RequestAndNoticeTimersExpire : Prop :=
  NoticesOffered ∧ ∀ s : State, NoReset s →
    (∀ (i : Fin 16) (k : Slot) (l : Level) (d : Nat), s.cu.slots[i] = some k → k.request = some ⟨l, some d⟩ → ∃ t, exec (.requestTimerExpires i) s = .next t ∧
      t.cu = { s.cu with
        slots := s.cu.slots.set i (some { k with request := none, outcome := .timedOut }),
        c := { s.cu.c with timeouts := bump s.cu.c.timeouts } } ∧
      t.mu.events &&& EventKind.bit .claimTimeout ≠ 0 ∧ t.fu = s.fu ∧ t.iu = s.iu ∧ t.pu = s.pu ∧ SameRing s t) ∧
    (∀ i : Fin 16, (∀ k l d, s.cu.slots[i] = some k → k.request ≠ some ⟨l, some d⟩) →
      exec (.requestTimerExpires i) s = .next s) ∧
    (s.mu.interval = none → exec .noticeIntervalExpires s = .next s) ∧
    (s.mu.interval.isSome = true → s.mu.due = false ∨ s.mu.offer.isSome = true →
      exec .noticeIntervalExpires s = .next (s.setMu { s.mu with interval := none })) ∧
    (s.mu.interval.isSome = true → s.mu.due = true → s.mu.offer = none → s.rf.insQ.length < 12 →
      exec .noticeIntervalExpires s = .next ((s.setMu { s.mu with
        due := false, interval := some 0, c := { s.mu.c with notices := bump s.mu.c.notices } }).setRf (takeIn s
          ⟨⟨kindNotice, s.desk.noticeTarget, own s, 63, noticePayload s.mu.events s.rf.ring s.pu.power⟩, false⟩))) ∧
    (∀ e, s.mu.interval.isSome = true → s.mu.due = true → s.mu.offer = none → 12 ≤ s.rf.insQ.length →
      e = ⟨⟨kindNotice, s.desk.noticeTarget, own s, 63, noticePayload s.mu.events s.rf.ring s.pu.power⟩, false⟩ →
      exec .noticeIntervalExpires s = .next ((s.setMu { s.mu with due := false, interval := none, offer := some ⟨e, true⟩ }).setRf
        { s.rf with c := { s.rf.c with insFull := bump s.rf.c.insFull } }))

/-! ## Management -/

/-- A management request that finds none in work is counted, checked for its form and answered to its origin under its own tag: a request
that fails the check is INVALID and counted; READ gives the entries' content as it stands with the request in work, in index order up to
the count, the end of the space or 1024 bytes, and changes nothing else; a WRITE to an unknown, read-only or locked space or during a save is refused whole, and otherwise applies its entries in order up
to the first that its owner refuses; a head record that moves its head clamps the pointer to the nearest point of an enabled head and
re-evaluates the focus; the other requests act at their owners, whose refusals are the answer; CLEAR_COUNTERS zeroes every
counter. One that finds a request in work counts as an overrun, one from outside 1..62 as malformed. Which refusal comes first where a
staged entry or a SET_PROTECTION has several is the model's choice (notes/assumptions/39.md, notes/assumptions/42.md), and tag bytes that
a payload does not carry are free values (notes/assumptions/22.md). A window record without a stream id carries bytes that read as 0 and
are not read (notes/assumptions/46.md), and a hot key both INVALID and IN_USE is INVALID (notes/assumptions/47.md). The response is offered
as any frame of the unit (R66 to R75, R90, R102, R104, R136 to R139, R169 to R181, R183, R186, R201). -/
def Obligations.ManagementRequestsAreAnswered : Prop :=
  ResponsesOffered ∧ StreamWritesAct ∧ HeadWritesAct ∧ HeadReportsAct ∧ ListWritesAct ∧ NumberWritesAct ∧ SettingWritesAct ∧ TableWritesAct ∧
  ∀ (f : Frame) (s : State), NoReset s → Taken s f → f.kind = kindMgmtReq →
    (nodeInRange f.origin = false → exec (hear s f) s = .next ((goodSeen s).setMu { s.mu with
      c := { s.mu.c with malformed := bump s.mu.c.malformed } })) ∧
    (nodeInRange f.origin = true → s.mu.work.isSome = true → exec (hear s f) s = .next ((goodSeen s).setMu { s.mu with
      c := { s.mu.c with overruns := bump s.mu.c.overruns } })) ∧
    (nodeInRange f.origin = true → s.mu.work = none → f.payload.length < 2 → ∃ t1 t2 n, f.payload <+: [t1, t2] ∧
      Answered f t1 t2 s (.refused .invalid) 0 (((atWork f (t1 ++ t2) s).setMu { (atWork f (t1 ++ t2) s).mu with
        c := { (atWork f (t1 ++ t2) s).mu.c with malformed := bump s.mu.c.malformed } }).setFree n)) ∧
    (∀ (t1 t2 : Byte) (rest : List Byte), nodeInRange f.origin = true → s.mu.work = none → f.payload = t1 :: t2 :: rest →
      (¬ FormPasses f.payload →
        Answered f t1 t2 s (.refused .invalid) 0 ((atWork f (t1 ++ t2) s).setMu { (atWork f (t1 ++ t2) s).mu with
          c := { (atWork f (t1 ++ t2) s).mu.c with malformed := bump s.mu.c.malformed } })) ∧
      (FormPasses f.payload →
        ReadsAndWrites f t1 t2 rest s (atWork f (t1 ++ t2) s) ∧ RequestsAct f t1 t2 rest s (atWork f (t1 ++ t2) s)) ∧
      (s.mu.offer = none → s.mu.due = false → s.rf.insQ.length < 12 →
        (∀ sp e first r, rest = [1, sp, first, 1] → spaceOf sp = some e → first.toNat < spaceSize e →
          readProtected e f.origin s = false → r = atWork f (t1 ++ t2) s → (entryBytes (readEntry e first.toNat r)).length ≤ 1019 →
          exec (hear s f) s = .next (((goodSeen s).setMu { s.mu with
            c := { s.mu.c with taken := bump s.mu.c.taken, responses := bump s.mu.c.responses } }).setRf (takeIn s
              ⟨⟨kindMgmtRsp, f.origin, own s, 63, [t1, t2, 0, 0, 1] ++ entryBytes (readEntry e first.toNat r)⟩, false⟩))) ∧
        (rest = [9] → ∃ t, exec (hear s f) s = .next t ∧
          t.wlp = { s.wlp with badFrames := 0, linkDown := 0, crcErrors := 0, truncated := 0 } ∧
          t.elp = { s.elp with linkDown := 0 } ∧ t.rf.c = rfCountersZero ∧
          (∀ n : Fin 62, t.rf.presence[n] = { s.rf.presence[n] with gaps := 0 }) ∧
          (∀ i : Fin 32, t.sr.entries[i] = s.sr.entries[i].map fun e => { e with c := streamCountersZero }) ∧
          t.iu = { s.iu with c := iuCountersZero } ∧ t.cu = { s.cu with c := cuCountersZero } ∧
          t.pu = { s.pu with c := puCountersZero } ∧
          t.mu = { s.mu with c := { muCountersZero with responses := 1 } } ∧ t.fu = s.fu ∧ t.cp = s.cp ∧ t.desk = s.desk)))

/-! ## Saving -/

/-- A save writes header and LAYOUT area, then the DESK area, from its snapshot: each area reads back as it was kept, its CRC agrees,
and the flags turn VALID; SAVE_DONE follows. A fault ends the save with the flag of what it left part-written INVALID and SAVE_FAULT,
and out of a save none of the three does anything (R190, R194, R195, R202). -/
def Obligations.SaveWritesTheStoredImage : Prop :=
  ∀ (p : Snapshot) (s : State), NoReset s →
    (s.cl.save = .writingLayout → s.cl.snapshot = some p → p.layout.length ≤ layoutLen →
      (∃ t, exec .saveLayoutWritten s = .next t ∧ t.cl = { s.cl with layoutFlag := .valid, save := .writingDesk } ∧
        Memory.readRange t.serial.cells 0 16 = [0x46, 0x44, 0x31, 0x36, 1, 0, 0, 0, 0, 0, 0, 0, 0, 0, 0, 0] ∧
        Memory.readRange t.serial.cells layoutBase layoutLen = p.layout ++ List.replicate (layoutLen - p.layout.length) 0 ∧
        crcGood layoutBase layoutLen t = true ∧
        (∀ a, deskBase ≤ a → a < deskBase + deskLen + 4 → Memory.read t.serial.cells a = Memory.read s.serial.cells a)) ∧
      (∃ t, exec (.serialMemoryFault true) s = .next t ∧
        t.cl = { s.cl with deskFlag := .invalid, layoutFlag := .invalid, save := .idle, snapshot := none } ∧
        t.mu.events &&& EventKind.bit .saveFault ≠ 0) ∧
      (∃ t, exec (.serialMemoryFault false) s = .next t ∧
        t.cl = { s.cl with layoutFlag := .invalid, save := .idle, snapshot := none } ∧
        t.mu.events &&& EventKind.bit .saveFault ≠ 0)) ∧
    (s.cl.save = .writingDesk → s.cl.snapshot = some p → p.desk.length ≤ deskLen →
      (∃ t, exec .saveCompletes s = .next t ∧ t.cl = { s.cl with deskFlag := .valid, save := .idle, snapshot := none } ∧
        t.mu.events &&& EventKind.bit .saveDone ≠ 0 ∧
        Memory.readRange t.serial.cells deskBase deskLen = p.desk ++ List.replicate (deskLen - p.desk.length) 0 ∧
        crcGood deskBase deskLen t = true ∧
        (∀ a, a < deskBase ∨ deskBase + deskLen + 4 ≤ a →
          Memory.read t.serial.cells a = Memory.read s.serial.cells a)) ∧
      (∀ d, ∃ t, exec (.serialMemoryFault d) s = .next t ∧
        t.cl = { s.cl with deskFlag := .invalid, save := .idle, snapshot := none } ∧
        t.mu.events &&& EventKind.bit .saveFault ≠ 0)) ∧
    (s.cl.save = .idle → exec .saveLayoutWritten s = .next s ∧ exec .saveCompletes s = .next s ∧
      ∀ d, exec (.serialMemoryFault d) s = .next s)
end

