-- ==== Sys2Proof/Laws/State.lean ====
section
/-! SUPPORT. What each update of one field of State does to every field. -/

namespace Sys2Proof.Machine

open Sys2Proof

@[simp] theorem State.setWlp_wlp (s : State) (v : Wlp) : (s.setWlp v).wlp = v := rfl
@[simp] theorem State.setWlp_elp (s : State) (v : Wlp) : (s.setWlp v).elp = s.elp := rfl
@[simp] theorem State.setWlp_rf (s : State) (v : Wlp) : (s.setWlp v).rf = s.rf := rfl
@[simp] theorem State.setWlp_sr (s : State) (v : Wlp) : (s.setWlp v).sr = s.sr := rfl
@[simp] theorem State.setWlp_cp (s : State) (v : Wlp) : (s.setWlp v).cp = s.cp := rfl
@[simp] theorem State.setWlp_fu (s : State) (v : Wlp) : (s.setWlp v).fu = s.fu := rfl
@[simp] theorem State.setWlp_iu (s : State) (v : Wlp) : (s.setWlp v).iu = s.iu := rfl
@[simp] theorem State.setWlp_cu (s : State) (v : Wlp) : (s.setWlp v).cu = s.cu := rfl
@[simp] theorem State.setWlp_pu (s : State) (v : Wlp) : (s.setWlp v).pu = s.pu := rfl
@[simp] theorem State.setWlp_mu (s : State) (v : Wlp) : (s.setWlp v).mu = s.mu := rfl
@[simp] theorem State.setWlp_cl (s : State) (v : Wlp) : (s.setWlp v).cl = s.cl := rfl
@[simp] theorem State.setWlp_desk (s : State) (v : Wlp) : (s.setWlp v).desk = s.desk := rfl
@[simp] theorem State.setWlp_serial (s : State) (v : Wlp) : (s.setWlp v).serial = s.serial := rfl
@[simp] theorem State.setWlp_lineOut (s : State) (v : Wlp) : (s.setWlp v).lineOut = s.lineOut := rfl
@[simp] theorem State.setWlp_free (s : State) (v : Wlp) : (s.setWlp v).free = s.free := rfl
@[simp] theorem State.setWlp_pending (s : State) (v : Wlp) : (s.setWlp v).pending = s.pending := rfl

@[simp] theorem State.setElp_wlp (s : State) (v : Elp) : (s.setElp v).wlp = s.wlp := rfl
@[simp] theorem State.setElp_elp (s : State) (v : Elp) : (s.setElp v).elp = v := rfl
@[simp] theorem State.setElp_rf (s : State) (v : Elp) : (s.setElp v).rf = s.rf := rfl
@[simp] theorem State.setElp_sr (s : State) (v : Elp) : (s.setElp v).sr = s.sr := rfl
@[simp] theorem State.setElp_cp (s : State) (v : Elp) : (s.setElp v).cp = s.cp := rfl
@[simp] theorem State.setElp_fu (s : State) (v : Elp) : (s.setElp v).fu = s.fu := rfl
@[simp] theorem State.setElp_iu (s : State) (v : Elp) : (s.setElp v).iu = s.iu := rfl
@[simp] theorem State.setElp_cu (s : State) (v : Elp) : (s.setElp v).cu = s.cu := rfl
@[simp] theorem State.setElp_pu (s : State) (v : Elp) : (s.setElp v).pu = s.pu := rfl
@[simp] theorem State.setElp_mu (s : State) (v : Elp) : (s.setElp v).mu = s.mu := rfl
@[simp] theorem State.setElp_cl (s : State) (v : Elp) : (s.setElp v).cl = s.cl := rfl
@[simp] theorem State.setElp_desk (s : State) (v : Elp) : (s.setElp v).desk = s.desk := rfl
@[simp] theorem State.setElp_serial (s : State) (v : Elp) : (s.setElp v).serial = s.serial := rfl
@[simp] theorem State.setElp_lineOut (s : State) (v : Elp) : (s.setElp v).lineOut = s.lineOut := rfl
@[simp] theorem State.setElp_free (s : State) (v : Elp) : (s.setElp v).free = s.free := rfl
@[simp] theorem State.setElp_pending (s : State) (v : Elp) : (s.setElp v).pending = s.pending := rfl

@[simp] theorem State.setRf_wlp (s : State) (v : Rf) : (s.setRf v).wlp = s.wlp := rfl
@[simp] theorem State.setRf_elp (s : State) (v : Rf) : (s.setRf v).elp = s.elp := rfl
@[simp] theorem State.setRf_rf (s : State) (v : Rf) : (s.setRf v).rf = v := rfl
@[simp] theorem State.setRf_sr (s : State) (v : Rf) : (s.setRf v).sr = s.sr := rfl
@[simp] theorem State.setRf_cp (s : State) (v : Rf) : (s.setRf v).cp = s.cp := rfl
@[simp] theorem State.setRf_fu (s : State) (v : Rf) : (s.setRf v).fu = s.fu := rfl
@[simp] theorem State.setRf_iu (s : State) (v : Rf) : (s.setRf v).iu = s.iu := rfl
@[simp] theorem State.setRf_cu (s : State) (v : Rf) : (s.setRf v).cu = s.cu := rfl
@[simp] theorem State.setRf_pu (s : State) (v : Rf) : (s.setRf v).pu = s.pu := rfl
@[simp] theorem State.setRf_mu (s : State) (v : Rf) : (s.setRf v).mu = s.mu := rfl
@[simp] theorem State.setRf_cl (s : State) (v : Rf) : (s.setRf v).cl = s.cl := rfl
@[simp] theorem State.setRf_desk (s : State) (v : Rf) : (s.setRf v).desk = s.desk := rfl
@[simp] theorem State.setRf_serial (s : State) (v : Rf) : (s.setRf v).serial = s.serial := rfl
@[simp] theorem State.setRf_lineOut (s : State) (v : Rf) : (s.setRf v).lineOut = s.lineOut := rfl
@[simp] theorem State.setRf_free (s : State) (v : Rf) : (s.setRf v).free = s.free := rfl
@[simp] theorem State.setRf_pending (s : State) (v : Rf) : (s.setRf v).pending = s.pending := rfl

@[simp] theorem State.setSr_wlp (s : State) (v : Sr) : (s.setSr v).wlp = s.wlp := rfl
@[simp] theorem State.setSr_elp (s : State) (v : Sr) : (s.setSr v).elp = s.elp := rfl
@[simp] theorem State.setSr_rf (s : State) (v : Sr) : (s.setSr v).rf = s.rf := rfl
@[simp] theorem State.setSr_sr (s : State) (v : Sr) : (s.setSr v).sr = v := rfl
@[simp] theorem State.setSr_cp (s : State) (v : Sr) : (s.setSr v).cp = s.cp := rfl
@[simp] theorem State.setSr_fu (s : State) (v : Sr) : (s.setSr v).fu = s.fu := rfl
@[simp] theorem State.setSr_iu (s : State) (v : Sr) : (s.setSr v).iu = s.iu := rfl
@[simp] theorem State.setSr_cu (s : State) (v : Sr) : (s.setSr v).cu = s.cu := rfl
@[simp] theorem State.setSr_pu (s : State) (v : Sr) : (s.setSr v).pu = s.pu := rfl
@[simp] theorem State.setSr_mu (s : State) (v : Sr) : (s.setSr v).mu = s.mu := rfl
@[simp] theorem State.setSr_cl (s : State) (v : Sr) : (s.setSr v).cl = s.cl := rfl
@[simp] theorem State.setSr_desk (s : State) (v : Sr) : (s.setSr v).desk = s.desk := rfl
@[simp] theorem State.setSr_serial (s : State) (v : Sr) : (s.setSr v).serial = s.serial := rfl
@[simp] theorem State.setSr_lineOut (s : State) (v : Sr) : (s.setSr v).lineOut = s.lineOut := rfl
@[simp] theorem State.setSr_free (s : State) (v : Sr) : (s.setSr v).free = s.free := rfl
@[simp] theorem State.setSr_pending (s : State) (v : Sr) : (s.setSr v).pending = s.pending := rfl

@[simp] theorem State.setCp_wlp (s : State) (v : Cp) : (s.setCp v).wlp = s.wlp := rfl
@[simp] theorem State.setCp_elp (s : State) (v : Cp) : (s.setCp v).elp = s.elp := rfl
@[simp] theorem State.setCp_rf (s : State) (v : Cp) : (s.setCp v).rf = s.rf := rfl
@[simp] theorem State.setCp_sr (s : State) (v : Cp) : (s.setCp v).sr = s.sr := rfl
@[simp] theorem State.setCp_cp (s : State) (v : Cp) : (s.setCp v).cp = v := rfl
@[simp] theorem State.setCp_fu (s : State) (v : Cp) : (s.setCp v).fu = s.fu := rfl
@[simp] theorem State.setCp_iu (s : State) (v : Cp) : (s.setCp v).iu = s.iu := rfl
@[simp] theorem State.setCp_cu (s : State) (v : Cp) : (s.setCp v).cu = s.cu := rfl
@[simp] theorem State.setCp_pu (s : State) (v : Cp) : (s.setCp v).pu = s.pu := rfl
@[simp] theorem State.setCp_mu (s : State) (v : Cp) : (s.setCp v).mu = s.mu := rfl
@[simp] theorem State.setCp_cl (s : State) (v : Cp) : (s.setCp v).cl = s.cl := rfl
@[simp] theorem State.setCp_desk (s : State) (v : Cp) : (s.setCp v).desk = s.desk := rfl
@[simp] theorem State.setCp_serial (s : State) (v : Cp) : (s.setCp v).serial = s.serial := rfl
@[simp] theorem State.setCp_lineOut (s : State) (v : Cp) : (s.setCp v).lineOut = s.lineOut := rfl
@[simp] theorem State.setCp_free (s : State) (v : Cp) : (s.setCp v).free = s.free := rfl
@[simp] theorem State.setCp_pending (s : State) (v : Cp) : (s.setCp v).pending = s.pending := rfl

@[simp] theorem State.setFu_wlp (s : State) (v : Fu) : (s.setFu v).wlp = s.wlp := rfl
@[simp] theorem State.setFu_elp (s : State) (v : Fu) : (s.setFu v).elp = s.elp := rfl
@[simp] theorem State.setFu_rf (s : State) (v : Fu) : (s.setFu v).rf = s.rf := rfl
@[simp] theorem State.setFu_sr (s : State) (v : Fu) : (s.setFu v).sr = s.sr := rfl
@[simp] theorem State.setFu_cp (s : State) (v : Fu) : (s.setFu v).cp = s.cp := rfl
@[simp] theorem State.setFu_fu (s : State) (v : Fu) : (s.setFu v).fu = v := rfl
@[simp] theorem State.setFu_iu (s : State) (v : Fu) : (s.setFu v).iu = s.iu := rfl
@[simp] theorem State.setFu_cu (s : State) (v : Fu) : (s.setFu v).cu = s.cu := rfl
@[simp] theorem State.setFu_pu (s : State) (v : Fu) : (s.setFu v).pu = s.pu := rfl
@[simp] theorem State.setFu_mu (s : State) (v : Fu) : (s.setFu v).mu = s.mu := rfl
@[simp] theorem State.setFu_cl (s : State) (v : Fu) : (s.setFu v).cl = s.cl := rfl
@[simp] theorem State.setFu_desk (s : State) (v : Fu) : (s.setFu v).desk = s.desk := rfl
@[simp] theorem State.setFu_serial (s : State) (v : Fu) : (s.setFu v).serial = s.serial := rfl
@[simp] theorem State.setFu_lineOut (s : State) (v : Fu) : (s.setFu v).lineOut = s.lineOut := rfl
@[simp] theorem State.setFu_free (s : State) (v : Fu) : (s.setFu v).free = s.free := rfl
@[simp] theorem State.setFu_pending (s : State) (v : Fu) : (s.setFu v).pending = s.pending := rfl

@[simp] theorem State.setIu_wlp (s : State) (v : Iu) : (s.setIu v).wlp = s.wlp := rfl
@[simp] theorem State.setIu_elp (s : State) (v : Iu) : (s.setIu v).elp = s.elp := rfl
@[simp] theorem State.setIu_rf (s : State) (v : Iu) : (s.setIu v).rf = s.rf := rfl
@[simp] theorem State.setIu_sr (s : State) (v : Iu) : (s.setIu v).sr = s.sr := rfl
@[simp] theorem State.setIu_cp (s : State) (v : Iu) : (s.setIu v).cp = s.cp := rfl
@[simp] theorem State.setIu_fu (s : State) (v : Iu) : (s.setIu v).fu = s.fu := rfl
@[simp] theorem State.setIu_iu (s : State) (v : Iu) : (s.setIu v).iu = v := rfl
@[simp] theorem State.setIu_cu (s : State) (v : Iu) : (s.setIu v).cu = s.cu := rfl
@[simp] theorem State.setIu_pu (s : State) (v : Iu) : (s.setIu v).pu = s.pu := rfl
@[simp] theorem State.setIu_mu (s : State) (v : Iu) : (s.setIu v).mu = s.mu := rfl
@[simp] theorem State.setIu_cl (s : State) (v : Iu) : (s.setIu v).cl = s.cl := rfl
@[simp] theorem State.setIu_desk (s : State) (v : Iu) : (s.setIu v).desk = s.desk := rfl
@[simp] theorem State.setIu_serial (s : State) (v : Iu) : (s.setIu v).serial = s.serial := rfl
@[simp] theorem State.setIu_lineOut (s : State) (v : Iu) : (s.setIu v).lineOut = s.lineOut := rfl
@[simp] theorem State.setIu_free (s : State) (v : Iu) : (s.setIu v).free = s.free := rfl
@[simp] theorem State.setIu_pending (s : State) (v : Iu) : (s.setIu v).pending = s.pending := rfl

@[simp] theorem State.setCu_wlp (s : State) (v : Cu) : (s.setCu v).wlp = s.wlp := rfl
@[simp] theorem State.setCu_elp (s : State) (v : Cu) : (s.setCu v).elp = s.elp := rfl
@[simp] theorem State.setCu_rf (s : State) (v : Cu) : (s.setCu v).rf = s.rf := rfl
@[simp] theorem State.setCu_sr (s : State) (v : Cu) : (s.setCu v).sr = s.sr := rfl
@[simp] theorem State.setCu_cp (s : State) (v : Cu) : (s.setCu v).cp = s.cp := rfl
@[simp] theorem State.setCu_fu (s : State) (v : Cu) : (s.setCu v).fu = s.fu := rfl
@[simp] theorem State.setCu_iu (s : State) (v : Cu) : (s.setCu v).iu = s.iu := rfl
@[simp] theorem State.setCu_cu (s : State) (v : Cu) : (s.setCu v).cu = v := rfl
@[simp] theorem State.setCu_pu (s : State) (v : Cu) : (s.setCu v).pu = s.pu := rfl
@[simp] theorem State.setCu_mu (s : State) (v : Cu) : (s.setCu v).mu = s.mu := rfl
@[simp] theorem State.setCu_cl (s : State) (v : Cu) : (s.setCu v).cl = s.cl := rfl
@[simp] theorem State.setCu_desk (s : State) (v : Cu) : (s.setCu v).desk = s.desk := rfl
@[simp] theorem State.setCu_serial (s : State) (v : Cu) : (s.setCu v).serial = s.serial := rfl
@[simp] theorem State.setCu_lineOut (s : State) (v : Cu) : (s.setCu v).lineOut = s.lineOut := rfl
@[simp] theorem State.setCu_free (s : State) (v : Cu) : (s.setCu v).free = s.free := rfl
@[simp] theorem State.setCu_pending (s : State) (v : Cu) : (s.setCu v).pending = s.pending := rfl

@[simp] theorem State.setPu_wlp (s : State) (v : Pu) : (s.setPu v).wlp = s.wlp := rfl
@[simp] theorem State.setPu_elp (s : State) (v : Pu) : (s.setPu v).elp = s.elp := rfl
@[simp] theorem State.setPu_rf (s : State) (v : Pu) : (s.setPu v).rf = s.rf := rfl
@[simp] theorem State.setPu_sr (s : State) (v : Pu) : (s.setPu v).sr = s.sr := rfl
@[simp] theorem State.setPu_cp (s : State) (v : Pu) : (s.setPu v).cp = s.cp := rfl
@[simp] theorem State.setPu_fu (s : State) (v : Pu) : (s.setPu v).fu = s.fu := rfl
@[simp] theorem State.setPu_iu (s : State) (v : Pu) : (s.setPu v).iu = s.iu := rfl
@[simp] theorem State.setPu_cu (s : State) (v : Pu) : (s.setPu v).cu = s.cu := rfl
@[simp] theorem State.setPu_pu (s : State) (v : Pu) : (s.setPu v).pu = v := rfl
@[simp] theorem State.setPu_mu (s : State) (v : Pu) : (s.setPu v).mu = s.mu := rfl
@[simp] theorem State.setPu_cl (s : State) (v : Pu) : (s.setPu v).cl = s.cl := rfl
@[simp] theorem State.setPu_desk (s : State) (v : Pu) : (s.setPu v).desk = s.desk := rfl
@[simp] theorem State.setPu_serial (s : State) (v : Pu) : (s.setPu v).serial = s.serial := rfl
@[simp] theorem State.setPu_lineOut (s : State) (v : Pu) : (s.setPu v).lineOut = s.lineOut := rfl
@[simp] theorem State.setPu_free (s : State) (v : Pu) : (s.setPu v).free = s.free := rfl
@[simp] theorem State.setPu_pending (s : State) (v : Pu) : (s.setPu v).pending = s.pending := rfl

@[simp] theorem State.setMu_wlp (s : State) (v : Mu) : (s.setMu v).wlp = s.wlp := rfl
@[simp] theorem State.setMu_elp (s : State) (v : Mu) : (s.setMu v).elp = s.elp := rfl
@[simp] theorem State.setMu_rf (s : State) (v : Mu) : (s.setMu v).rf = s.rf := rfl
@[simp] theorem State.setMu_sr (s : State) (v : Mu) : (s.setMu v).sr = s.sr := rfl
@[simp] theorem State.setMu_cp (s : State) (v : Mu) : (s.setMu v).cp = s.cp := rfl
@[simp] theorem State.setMu_fu (s : State) (v : Mu) : (s.setMu v).fu = s.fu := rfl
@[simp] theorem State.setMu_iu (s : State) (v : Mu) : (s.setMu v).iu = s.iu := rfl
@[simp] theorem State.setMu_cu (s : State) (v : Mu) : (s.setMu v).cu = s.cu := rfl
@[simp] theorem State.setMu_pu (s : State) (v : Mu) : (s.setMu v).pu = s.pu := rfl
@[simp] theorem State.setMu_mu (s : State) (v : Mu) : (s.setMu v).mu = v := rfl
@[simp] theorem State.setMu_cl (s : State) (v : Mu) : (s.setMu v).cl = s.cl := rfl
@[simp] theorem State.setMu_desk (s : State) (v : Mu) : (s.setMu v).desk = s.desk := rfl
@[simp] theorem State.setMu_serial (s : State) (v : Mu) : (s.setMu v).serial = s.serial := rfl
@[simp] theorem State.setMu_lineOut (s : State) (v : Mu) : (s.setMu v).lineOut = s.lineOut := rfl
@[simp] theorem State.setMu_free (s : State) (v : Mu) : (s.setMu v).free = s.free := rfl
@[simp] theorem State.setMu_pending (s : State) (v : Mu) : (s.setMu v).pending = s.pending := rfl

@[simp] theorem State.setCl_wlp (s : State) (v : Cl) : (s.setCl v).wlp = s.wlp := rfl
@[simp] theorem State.setCl_elp (s : State) (v : Cl) : (s.setCl v).elp = s.elp := rfl
@[simp] theorem State.setCl_rf (s : State) (v : Cl) : (s.setCl v).rf = s.rf := rfl
@[simp] theorem State.setCl_sr (s : State) (v : Cl) : (s.setCl v).sr = s.sr := rfl
@[simp] theorem State.setCl_cp (s : State) (v : Cl) : (s.setCl v).cp = s.cp := rfl
@[simp] theorem State.setCl_fu (s : State) (v : Cl) : (s.setCl v).fu = s.fu := rfl
@[simp] theorem State.setCl_iu (s : State) (v : Cl) : (s.setCl v).iu = s.iu := rfl
@[simp] theorem State.setCl_cu (s : State) (v : Cl) : (s.setCl v).cu = s.cu := rfl
@[simp] theorem State.setCl_pu (s : State) (v : Cl) : (s.setCl v).pu = s.pu := rfl
@[simp] theorem State.setCl_mu (s : State) (v : Cl) : (s.setCl v).mu = s.mu := rfl
@[simp] theorem State.setCl_cl (s : State) (v : Cl) : (s.setCl v).cl = v := rfl
@[simp] theorem State.setCl_desk (s : State) (v : Cl) : (s.setCl v).desk = s.desk := rfl
@[simp] theorem State.setCl_serial (s : State) (v : Cl) : (s.setCl v).serial = s.serial := rfl
@[simp] theorem State.setCl_lineOut (s : State) (v : Cl) : (s.setCl v).lineOut = s.lineOut := rfl
@[simp] theorem State.setCl_free (s : State) (v : Cl) : (s.setCl v).free = s.free := rfl
@[simp] theorem State.setCl_pending (s : State) (v : Cl) : (s.setCl v).pending = s.pending := rfl

@[simp] theorem State.setDesk_wlp (s : State) (v : Desk) : (s.setDesk v).wlp = s.wlp := rfl
@[simp] theorem State.setDesk_elp (s : State) (v : Desk) : (s.setDesk v).elp = s.elp := rfl
@[simp] theorem State.setDesk_rf (s : State) (v : Desk) : (s.setDesk v).rf = s.rf := rfl
@[simp] theorem State.setDesk_sr (s : State) (v : Desk) : (s.setDesk v).sr = s.sr := rfl
@[simp] theorem State.setDesk_cp (s : State) (v : Desk) : (s.setDesk v).cp = s.cp := rfl
@[simp] theorem State.setDesk_fu (s : State) (v : Desk) : (s.setDesk v).fu = s.fu := rfl
@[simp] theorem State.setDesk_iu (s : State) (v : Desk) : (s.setDesk v).iu = s.iu := rfl
@[simp] theorem State.setDesk_cu (s : State) (v : Desk) : (s.setDesk v).cu = s.cu := rfl
@[simp] theorem State.setDesk_pu (s : State) (v : Desk) : (s.setDesk v).pu = s.pu := rfl
@[simp] theorem State.setDesk_mu (s : State) (v : Desk) : (s.setDesk v).mu = s.mu := rfl
@[simp] theorem State.setDesk_cl (s : State) (v : Desk) : (s.setDesk v).cl = s.cl := rfl
@[simp] theorem State.setDesk_desk (s : State) (v : Desk) : (s.setDesk v).desk = v := rfl
@[simp] theorem State.setDesk_serial (s : State) (v : Desk) : (s.setDesk v).serial = s.serial := rfl
@[simp] theorem State.setDesk_lineOut (s : State) (v : Desk) : (s.setDesk v).lineOut = s.lineOut := rfl
@[simp] theorem State.setDesk_free (s : State) (v : Desk) : (s.setDesk v).free = s.free := rfl
@[simp] theorem State.setDesk_pending (s : State) (v : Desk) : (s.setDesk v).pending = s.pending := rfl

@[simp] theorem State.setSerial_wlp (s : State) (v : Serial) : (s.setSerial v).wlp = s.wlp := rfl
@[simp] theorem State.setSerial_elp (s : State) (v : Serial) : (s.setSerial v).elp = s.elp := rfl
@[simp] theorem State.setSerial_rf (s : State) (v : Serial) : (s.setSerial v).rf = s.rf := rfl
@[simp] theorem State.setSerial_sr (s : State) (v : Serial) : (s.setSerial v).sr = s.sr := rfl
@[simp] theorem State.setSerial_cp (s : State) (v : Serial) : (s.setSerial v).cp = s.cp := rfl
@[simp] theorem State.setSerial_fu (s : State) (v : Serial) : (s.setSerial v).fu = s.fu := rfl
@[simp] theorem State.setSerial_iu (s : State) (v : Serial) : (s.setSerial v).iu = s.iu := rfl
@[simp] theorem State.setSerial_cu (s : State) (v : Serial) : (s.setSerial v).cu = s.cu := rfl
@[simp] theorem State.setSerial_pu (s : State) (v : Serial) : (s.setSerial v).pu = s.pu := rfl
@[simp] theorem State.setSerial_mu (s : State) (v : Serial) : (s.setSerial v).mu = s.mu := rfl
@[simp] theorem State.setSerial_cl (s : State) (v : Serial) : (s.setSerial v).cl = s.cl := rfl
@[simp] theorem State.setSerial_desk (s : State) (v : Serial) : (s.setSerial v).desk = s.desk := rfl
@[simp] theorem State.setSerial_serial (s : State) (v : Serial) : (s.setSerial v).serial = v := rfl
@[simp] theorem State.setSerial_lineOut (s : State) (v : Serial) : (s.setSerial v).lineOut = s.lineOut := rfl
@[simp] theorem State.setSerial_free (s : State) (v : Serial) : (s.setSerial v).free = s.free := rfl
@[simp] theorem State.setSerial_pending (s : State) (v : Serial) : (s.setSerial v).pending = s.pending := rfl

@[simp] theorem State.setLineOut_wlp (s : State) (v : List (Port × LineSymbol)) : (s.setLineOut v).wlp = s.wlp := rfl
@[simp] theorem State.setLineOut_elp (s : State) (v : List (Port × LineSymbol)) : (s.setLineOut v).elp = s.elp := rfl
@[simp] theorem State.setLineOut_rf (s : State) (v : List (Port × LineSymbol)) : (s.setLineOut v).rf = s.rf := rfl
@[simp] theorem State.setLineOut_sr (s : State) (v : List (Port × LineSymbol)) : (s.setLineOut v).sr = s.sr := rfl
@[simp] theorem State.setLineOut_cp (s : State) (v : List (Port × LineSymbol)) : (s.setLineOut v).cp = s.cp := rfl
@[simp] theorem State.setLineOut_fu (s : State) (v : List (Port × LineSymbol)) : (s.setLineOut v).fu = s.fu := rfl
@[simp] theorem State.setLineOut_iu (s : State) (v : List (Port × LineSymbol)) : (s.setLineOut v).iu = s.iu := rfl
@[simp] theorem State.setLineOut_cu (s : State) (v : List (Port × LineSymbol)) : (s.setLineOut v).cu = s.cu := rfl
@[simp] theorem State.setLineOut_pu (s : State) (v : List (Port × LineSymbol)) : (s.setLineOut v).pu = s.pu := rfl
@[simp] theorem State.setLineOut_mu (s : State) (v : List (Port × LineSymbol)) : (s.setLineOut v).mu = s.mu := rfl
@[simp] theorem State.setLineOut_cl (s : State) (v : List (Port × LineSymbol)) : (s.setLineOut v).cl = s.cl := rfl
@[simp] theorem State.setLineOut_desk (s : State) (v : List (Port × LineSymbol)) : (s.setLineOut v).desk = s.desk := rfl
@[simp] theorem State.setLineOut_serial (s : State) (v : List (Port × LineSymbol)) : (s.setLineOut v).serial = s.serial := rfl
@[simp] theorem State.setLineOut_lineOut (s : State) (v : List (Port × LineSymbol)) : (s.setLineOut v).lineOut = v := rfl
@[simp] theorem State.setLineOut_free (s : State) (v : List (Port × LineSymbol)) : (s.setLineOut v).free = s.free := rfl
@[simp] theorem State.setLineOut_pending (s : State) (v : List (Port × LineSymbol)) : (s.setLineOut v).pending = s.pending := rfl

@[simp] theorem State.setFree_wlp (s : State) (v : Nat) : (s.setFree v).wlp = s.wlp := rfl
@[simp] theorem State.setFree_elp (s : State) (v : Nat) : (s.setFree v).elp = s.elp := rfl
@[simp] theorem State.setFree_rf (s : State) (v : Nat) : (s.setFree v).rf = s.rf := rfl
@[simp] theorem State.setFree_sr (s : State) (v : Nat) : (s.setFree v).sr = s.sr := rfl
@[simp] theorem State.setFree_cp (s : State) (v : Nat) : (s.setFree v).cp = s.cp := rfl
@[simp] theorem State.setFree_fu (s : State) (v : Nat) : (s.setFree v).fu = s.fu := rfl
@[simp] theorem State.setFree_iu (s : State) (v : Nat) : (s.setFree v).iu = s.iu := rfl
@[simp] theorem State.setFree_cu (s : State) (v : Nat) : (s.setFree v).cu = s.cu := rfl
@[simp] theorem State.setFree_pu (s : State) (v : Nat) : (s.setFree v).pu = s.pu := rfl
@[simp] theorem State.setFree_mu (s : State) (v : Nat) : (s.setFree v).mu = s.mu := rfl
@[simp] theorem State.setFree_cl (s : State) (v : Nat) : (s.setFree v).cl = s.cl := rfl
@[simp] theorem State.setFree_desk (s : State) (v : Nat) : (s.setFree v).desk = s.desk := rfl
@[simp] theorem State.setFree_serial (s : State) (v : Nat) : (s.setFree v).serial = s.serial := rfl
@[simp] theorem State.setFree_lineOut (s : State) (v : Nat) : (s.setFree v).lineOut = s.lineOut := rfl
@[simp] theorem State.setFree_free (s : State) (v : Nat) : (s.setFree v).free = v := rfl
@[simp] theorem State.setFree_pending (s : State) (v : Nat) : (s.setFree v).pending = s.pending := rfl

@[simp] theorem State.setPending_wlp (s : State) (v : List Instr) : (s.setPending v).wlp = s.wlp := rfl
@[simp] theorem State.setPending_elp (s : State) (v : List Instr) : (s.setPending v).elp = s.elp := rfl
@[simp] theorem State.setPending_rf (s : State) (v : List Instr) : (s.setPending v).rf = s.rf := rfl
@[simp] theorem State.setPending_sr (s : State) (v : List Instr) : (s.setPending v).sr = s.sr := rfl
@[simp] theorem State.setPending_cp (s : State) (v : List Instr) : (s.setPending v).cp = s.cp := rfl
@[simp] theorem State.setPending_fu (s : State) (v : List Instr) : (s.setPending v).fu = s.fu := rfl
@[simp] theorem State.setPending_iu (s : State) (v : List Instr) : (s.setPending v).iu = s.iu := rfl
@[simp] theorem State.setPending_cu (s : State) (v : List Instr) : (s.setPending v).cu = s.cu := rfl
@[simp] theorem State.setPending_pu (s : State) (v : List Instr) : (s.setPending v).pu = s.pu := rfl
@[simp] theorem State.setPending_mu (s : State) (v : List Instr) : (s.setPending v).mu = s.mu := rfl
@[simp] theorem State.setPending_cl (s : State) (v : List Instr) : (s.setPending v).cl = s.cl := rfl
@[simp] theorem State.setPending_desk (s : State) (v : List Instr) : (s.setPending v).desk = s.desk := rfl
@[simp] theorem State.setPending_serial (s : State) (v : List Instr) : (s.setPending v).serial = s.serial := rfl
@[simp] theorem State.setPending_lineOut (s : State) (v : List Instr) : (s.setPending v).lineOut = s.lineOut := rfl
@[simp] theorem State.setPending_free (s : State) (v : List Instr) : (s.setPending v).free = s.free := rfl
@[simp] theorem State.setPending_pending (s : State) (v : List Instr) : (s.setPending v).pending = v := rfl

end Sys2Proof.Machine
end

