-- ==== Sys2Proof/Laws/Frame.lean ====
section
/-! SUPPORT. What the operations of the ring's producers, the focus unit, the input unit, the claim unit and the panel unit leave
alone, one lemma per operation. Each lemma is stated after a first part of a step, so that they chain in the order of a body. -/

namespace Sys2Proof.Machine

open Sys2Proof

/-- What a producer may do to the ring's transmit side: at a busy line the queues only grow at the insertion queue's tail, and no
forwarding counter but that of refused offers moves (R29). -/
structure OnLine (s t : State) : Prop where
  busy : lineBusy s → lineBusy t ∧ t.rf.passQ = s.rf.passQ ∧ t.rf.sending = s.rf.sending ∧ t.rf.share = s.rf.share ∧
    s.rf.insQ <+: t.rf.insQ
  counts : { t.rf.c with insFull := s.rf.c.insFull } = s.rf.c

theorem OnLine.refl (s : State) : OnLine s s := ⟨fun h => ⟨h, rfl, rfl, rfl, List.prefix_refl _⟩, rfl⟩

theorem OnLine.trans {s t u : State} (h : OnLine s t) (k : OnLine t u) : OnLine s u := by
  constructor
  · intro b
    obtain ⟨b1, p1, s1, c1, i1⟩ := h.busy b
    obtain ⟨b2, p2, s2, c2, i2⟩ := k.busy b1
    exact ⟨b2, p2.trans p1, s2.trans s1, c2.trans c1, i1.trans i2⟩
  · have a := h.counts
    rw [← k.counts] at a
    exact a

/-- A part of a step on the operator's side: `SameRing` and `OnLine`; the capacities, the absence of a RESET and the idleness of a
port that is not UP are kept; and no pending event is lost. -/
structure Keeps (s t : State) : Prop where
  same : SameRing s t
  caps : Capacities s → Capacities t
  quiet : NoReset s → NoReset t
  sending : (s.rf.sending.isSome → s.elp.state = .up) → (t.rf.sending.isSome → t.elp.state = .up)
  noEgress : (s.elp.state ≠ .up → s.rf.passQ = [] ∧ s.rf.share = 0) → (t.elp.state ≠ .up → t.rf.passQ = [] ∧ t.rf.share = 0)
  line : OnLine s t
  events : ∀ m : EventSet, s.mu.events &&& m ≠ 0 → t.mu.events &&& m ≠ 0

theorem SameRing.refl (s : State) : SameRing s s := by constructor <;> first | rfl | exact ⟨rfl, rfl⟩

theorem SameRing.trans {s t u : State} (h : SameRing s t) (k : SameRing t u) : SameRing s u := by
  constructor
  all_goals first
    | exact k.wlp.trans h.wlp | exact k.elp.trans h.elp | exact k.sr.trans h.sr | exact k.cl.trans h.cl
    | exact k.desk.trans h.desk | exact k.serial.trans h.serial | exact k.lineOut.trans h.lineOut
    | exact k.free.trans h.free | exact k.pending.trans h.pending | exact k.presence.trans h.presence
    | exact k.closure.trans h.closure | exact k.ring.trans h.ring | exact k.sol.trans h.sol
    | exact k.restart.trans h.restart | exact k.beaconTimer.trans h.beaconTimer | exact k.heads.trans h.heads
    | exact k.palette.trans h.palette | exact k.active.trans h.active | exact k.presets.trans h.presets
    | exact k.raster.trans h.raster | exact k.picture.trans h.picture
    | exact ⟨k.levels.1.trans h.levels.1, k.levels.2.trans h.levels.2⟩

theorem Keeps.refl (s : State) : Keeps s s := ⟨.refl s, id, id, id, id, .refl s, fun _ => id⟩

theorem Keeps.trans {s t u : State} (h : Keeps s t) (k : Keeps t u) : Keeps s u :=
  ⟨h.same.trans k.same, k.caps ∘ h.caps, k.quiet ∘ h.quiet, k.sending ∘ h.sending, k.noEgress ∘ h.noEgress,
    h.line.trans k.line, fun m x => k.events m (h.events m x)⟩

/-- An event stays in the pending set when another is raised. -/
theorem pending_or (e a b : EventSet) (h : e &&& a ≠ 0) : (e ||| b) &&& a ≠ 0 := by
  intro x; apply h
  have : e &&& a = ((e ||| b) &&& a) &&& e := by
    ext i; simp; cases e[i] <;> simp
  rw [this, x]; simp

/-! ## Field updates -/

/-- An update of the ring forwarder that leaves presence, closure, beacons and ring state alone. -/
theorem setRf_keeps {s t : State} (h : Keeps s t) (v : Rf)
    (hp : v.presence = t.rf.presence) (hc : v.closure = t.rf.closure) (hr : v.ring = t.rf.ring) (hs : v.sol = t.rf.sol)
    (hf : v.restart = t.rf.restart) (hb : v.beaconTimer = t.rf.beaconTimer) (caps : RfCaps t.rf → RfCaps v)
    (ins : (∀ e ∈ t.rf.insQ, e.resetResponse = false) → ∀ e ∈ v.insQ, e.resetResponse = false)
    (snd : (t.rf.sending.isSome → t.elp.state = .up) → (v.sending.isSome → t.elp.state = .up))
    (eg : (t.elp.state ≠ .up → t.rf.passQ = [] ∧ t.rf.share = 0) → (t.elp.state ≠ .up → v.passQ = [] ∧ v.share = 0))
    (line : OnLine t (t.setRf v)) : Keeps s (t.setRf v) :=
  h.trans ⟨by constructor <;> first | rfl | assumption | exact ⟨rfl, rfl⟩, fun c => ⟨caps c.rf, c.iu, c.badFrames⟩,
    fun q => ⟨q.mu, ins q.insQ⟩, snd, eg, line, fun _ => id⟩

theorem setFu_keeps {s t : State} (h : Keeps s t) (v : Fu) : Keeps s (t.setFu v) :=
  h.trans ⟨by constructor <;> first | rfl | exact ⟨rfl, rfl⟩, fun c => ⟨c.rf, c.iu, c.badFrames⟩, fun q => ⟨q.mu, q.insQ⟩, id, id,
    ⟨fun h => ⟨h, rfl, rfl, rfl, List.prefix_refl _⟩, rfl⟩, fun _ => id⟩

theorem setCu_keeps {s t : State} (h : Keeps s t) (v : Cu) : Keeps s (t.setCu v) :=
  h.trans ⟨by constructor <;> first | rfl | exact ⟨rfl, rfl⟩, fun c => ⟨c.rf, c.iu, c.badFrames⟩, fun q => ⟨q.mu, q.insQ⟩, id, id,
    ⟨fun h => ⟨h, rfl, rfl, rfl, List.prefix_refl _⟩, rfl⟩, fun _ => id⟩

theorem setPu_keeps {s t : State} (h : Keeps s t) (v : Pu) : Keeps s (t.setPu v) :=
  h.trans ⟨by constructor <;> first | rfl | exact ⟨rfl, rfl⟩, fun c => ⟨c.rf, c.iu, c.badFrames⟩, fun q => ⟨q.mu, q.insQ⟩, id, id,
    ⟨fun h => ⟨h, rfl, rfl, rfl, List.prefix_refl _⟩, rfl⟩, fun _ => id⟩

theorem setIu_keeps {s t : State} (h : Keeps s t) (v : Iu) (caps : IuCaps t.iu → IuCaps v) : Keeps s (t.setIu v) :=
  h.trans ⟨by constructor <;> first | rfl | exact ⟨rfl, rfl⟩, fun c => ⟨c.rf, caps c.iu, c.badFrames⟩, fun q => ⟨q.mu, q.insQ⟩, id, id,
    ⟨fun h => ⟨h, rfl, rfl, rfl, List.prefix_refl _⟩, rfl⟩, fun _ => id⟩

theorem setMu_keeps {s t : State} (h : Keeps s t) (v : Mu) (q : MuQuiet t.mu → MuQuiet v)
    (ev : ∀ m : EventSet, t.mu.events &&& m ≠ 0 → v.events &&& m ≠ 0 := by exact fun _ => id)
    (lv : v.configLevel = t.mu.configLevel ∧ v.layoutLevel = t.mu.layoutLevel := by exact ⟨rfl, rfl⟩) : Keeps s (t.setMu v) :=
  h.trans ⟨by constructor <;> first | rfl | exact lv, fun c => ⟨c.rf, c.iu, c.badFrames⟩, fun n => ⟨q n.mu, n.insQ⟩, id, id,
    ⟨fun h => ⟨h, rfl, rfl, rfl, List.prefix_refl _⟩, rfl⟩, ev⟩

/-! ## The insertion queue -/

/-- At an idle line of an UP ELP anything may be done to the queues; a counter is another matter. -/
theorem idle_line {t u : State} (up : t.elp.state = .up) (hs : t.rf.sending = none) (hc : u.rf.c = t.rf.c) : OnLine t u :=
  ⟨fun b => by rcases b with b | b; exact absurd up b; simp [hs] at b, by rw [hc]⟩

/-- The head of the insertion queue begins to be sent while the ELP is UP. -/
theorem beginInsertion_keeps {t : State} (up : t.elp.state = .up) (hs : t.rf.sending = none) (e : InsEntry) (es : List InsEntry)
    (hi : t.rf.insQ = e :: es) : Keeps t (beginInsertion e es t) := by
  have base : Keeps t (t.setRf { t.rf with insQ := es, sending := some ⟨e.frame, .insertion⟩, share := 0 }) := by
    refine setRf_keeps (.refl t) _ rfl rfl rfl rfl rfl rfl ?_ ?_ ?_ ?_ (idle_line up hs rfl)
    · intro c; exact ⟨c.passQ, by have := c.insQ; rw [hi] at this; simp at this ⊢; omega, by simp⟩
    · intro q x hx; exact q x (by rw [hi]; exact List.mem_cons_of_mem _ hx)
    · intro _ _; exact up
    · intro _ n; exact absurd up n
  unfold beginInsertion
  dsimp only
  split
  · rename_i hr
    refine ⟨base.same.trans (by constructor <;> first | rfl | exact ⟨rfl, rfl⟩), fun c => ?_, fun q => ?_, base.sending, base.noEgress,
      idle_line up hs rfl, fun _ => id⟩
    · have := base.caps c; exact ⟨this.rf, this.iu, this.badFrames⟩
    · have := q.insQ e (by rw [hi]; simp); simp [this] at hr
  · exact base

theorem arbitrate_keeps {s t : State} (h : Keeps s t) : Keeps s (arbitrate t) := by
  refine h.trans ?_
  unfold arbitrate
  split
  · rename_i hu
    have up := hu.1
    split
    · exact .refl t
    · rename_i f fs hp hi
      refine setRf_keeps (.refl t) _ rfl rfl rfl rfl rfl rfl ?_ id (fun _ _ => up) (fun _ n => absurd up n) (idle_line up hu.2 rfl)
      intro c; exact ⟨by have := c.passQ; rw [hp] at this; simp at this ⊢; omega, c.insQ, by simp⟩
    · rename_i e es hp hi
      exact beginInsertion_keeps up hu.2 e es hi
    · rename_i f fs e es hp hi
      split
      · refine setRf_keeps (.refl t) _ rfl rfl rfl rfl rfl rfl ?_ id (fun _ _ => up) (fun _ n => absurd up n)
          (idle_line up hu.2 rfl)
        intro c; exact ⟨by have := c.passQ; rw [hp] at this; simp at this ⊢; omega, c.insQ, by simp; omega⟩
      · exact beginInsertion_keeps up hu.2 e es hi
  · exact .refl t

/-- A producer's offer of a frame that is no RESET response. -/
theorem offerInsertion_keeps {s t : State} (h : Keeps s t) (e : InsEntry) (he : e.resetResponse = false) :
    Keeps s (offerInsertion e t).2 := by
  unfold offerInsertion
  split
  · rename_i hl
    refine arbitrate_keeps (setRf_keeps h _ rfl rfl rfl rfl rfl rfl ?_ ?_ id id
      ⟨fun b => ⟨b, rfl, rfl, rfl, List.prefix_append _ _⟩, rfl⟩)
    · intro c; exact ⟨c.passQ, by simp; omega, c.share⟩
    · intro q x hx
      rcases List.mem_append.1 hx with hx | hx
      · exact q x hx
      · simp at hx; subst hx; exact he
  · exact setRf_keeps h _ rfl rfl rfl rfl rfl rfl (fun c => ⟨c.passQ, c.insQ, c.share⟩) id id id
      ⟨fun b => ⟨b, rfl, rfl, rfl, List.prefix_refl _⟩, rfl⟩

/-! ## Events and notices -/

theorem noticeAppended_keeps {s t : State} (h : Keeps s t) : Keeps s (noticeAppended t) :=
  setMu_keeps h _ fun q => ⟨q.due, q.work, q.offer, q.waiting⟩

theorem tryNotice_keeps {s t : State} (h : Keeps s t) : Keeps s (tryNotice t) := by
  unfold tryNotice
  split
  · have k := offerInsertion_keeps (setMu_keeps h { t.mu with due := false } fun q => ⟨q.due, q.work, q.offer, q.waiting⟩)
      ⟨noticeFrame t, false⟩ rfl
    dsimp only
    split <;> rename_i u hu <;> rw [hu] at k
    · exact noticeAppended_keeps k
    · refine setMu_keeps k _ fun q => ⟨q.due, q.work, ?_, q.waiting⟩
      intro o ho; cases ho; rfl
  · exact h

theorem makeDue_keeps {s t : State} (h : Keeps s t) : Keeps s (makeDue t) := by
  unfold makeDue
  split
  · exact tryNotice_keeps (setMu_keeps h _ fun q => ⟨q.due, q.work, q.offer, q.waiting⟩)
  · exact h

theorem raise_keeps {s t : State} (h : Keeps s t) (k : EventKind) : Keeps s (raise k t) := by
  have b : Keeps s (t.setMu { t.mu with events := t.mu.events ||| EventKind.bit k }) :=
    setMu_keeps h _ (fun q => ⟨q.due, q.work, q.offer, q.waiting⟩) fun m x => pending_or _ _ _ x
  unfold raise
  dsimp only
  split
  · exact makeDue_keeps b
  · exact b

/-! ## The input unit's queues -/

/-- An update of the input unit that leaves the bounded parts no longer than they were. -/
theorem setIu_shrink {s t : State} (h : Keeps s t) (v : Iu) (hq : v.queues = t.iu.queues) (hk : v.keys.length ≤ t.iu.keys.length)
    (hc : v.consumed.length ≤ t.iu.consumed.length) : Keeps s (t.setIu v) :=
  setIu_keeps h v fun c => ⟨by rw [hq]; exact c.queues, hk.trans c.keys, hc.trans c.consumed⟩

/-- One queue replaced by one within the capacity. -/
theorem queue_set_caps {u : Iu} (c : IuCaps u) (i : Fin 16) (q : List InputRecord) (hq : q.length ≤ 24) (j : Fin 16) :
    ((u.queues.set i q)[j]).length ≤ 24 := by
  have := c.queues j
  simp only [Fin.getElem_fin, Vector.getElem_set] at this ⊢
  split <;> assumption

theorem builtFrom_keeps {s t : State} (h : Keeps s t) (i : Fin 16) : Keeps s (builtFrom i t) := by
  refine setIu_keeps h _ fun c => ⟨fun j => ?_, c.keys, c.consumed⟩
  exact queue_set_caps c i _ (by have := c.queues i; simp at this ⊢; omega) j

theorem pumpBuilder_keeps (n : Nat) {s t : State} (h : Keeps s t) : Keeps s (pumpBuilder n t) := by
  induction n generalizing t with
  | zero => exact h
  | succ n ih =>
    unfold pumpBuilder
    split
    · exact h
    · split
      · exact h
      · rename_i i hi
        have k := offerInsertion_keeps (builtFrom_keeps h i) ⟨inputFrame i t, false⟩ rfl
        split <;> rename_i u hu <;> rw [hu] at k
        · exact ih k
        · exact setIu_shrink k _ rfl (Nat.le_refl _) (Nat.le_refl _)

theorem overflow_keeps (i : Fin 16) (n : Nat) {s t : State} (h : Keeps s t) : Keeps s (overflow i n t) := by
  unfold overflow
  refine raise_keeps ?_ _
  refine setIu_keeps h _ fun c => ⟨fun j => ?_, ?_, c.consumed⟩
  · exact queue_set_caps c i _ (by simp) j
  · exact (List.length_filter_le _ _).trans c.keys

/-- A coalesced queue is as long as it was. -/
theorem coalesce_length {q q' : List InputRecord} {r : InputRecord} (h : coalesce q r = some q') : q'.length = q.length := by
  unfold coalesce at h
  split at h
  · rename_i hl
    split at h
    · cases h
      have : q ≠ [] := by rintro rfl; cases hl
      have := List.length_pos_iff.2 this
      simp; omega
    · cases h
  · cases h

theorem appendRecord_keeps (i : Fin 16) (r : InputRecord) {s t : State} (h : Keeps s t) :
    Keeps s (appendRecord i r t) := by
  unfold appendRecord
  dsimp only
  refine pumpBuilder_keeps _ ?_
  split
  · rename_i q' hq
    refine setIu_keeps h _ fun c => ⟨queue_set_caps c i _ ?_, c.keys, c.consumed⟩
    rw [coalesce_length hq]; exact c.queues i
  · split
    · rename_i hl
      exact setIu_keeps h _ fun c => ⟨queue_set_caps c i _ (by simp at hl ⊢; omega), c.keys, c.consumed⟩
    · exact overflow_keeps _ _ h

theorem synthKeys_keeps (n : Nat) (a : Fin 16) {s t : State} (h : Keeps s t) : Keeps s (synthKeys n a t) := by
  induction n generalizing t with
  | zero => exact h
  | succ n ih =>
    unfold synthKeys
    split
    · exact h
    · refine ih (appendRecord_keeps _ _ (setIu_shrink h _ rfl ?_ (Nat.le_refl _)))
      exact List.length_erase_le

theorem synthesis_keeps (a : Fin 16) {s t : State} (h : Keeps s t) : Keeps s (synthesis a t) := by
  have k := synthKeys_keeps t.iu.keys.length a h
  unfold synthesis
  dsimp only
  split
  · exact k
  · refine setIu_shrink ?_ _ rfl (Nat.le_refl _) (Nat.le_refl _)
    split
    · exact appendRecord_keeps _ _ k
    · exact k

/-! ## The focus unit -/

theorem changeFocus_keeps (target : Option Focus) {s t : State} (h : Keeps s t) : Keeps s (changeFocus target t) := by
  unfold changeFocus
  split
  · exact h
  · exact setFu_keeps h _
  · split
    · exact setFu_keeps h _
    · exact setFu_keeps (synthesis_keeps _ h) _
  · exact setFu_keeps (synthesis_keeps _ h) _

/-- What the focus unit's functions ask of the append they are given. -/
def AppendKeeps (app : Fin 16 → InputRecord → State → State) : Prop := ∀ i r {s t : State}, Keeps s t → Keeps s (app i r t)

theorem positionRequest_keeps {app : Fin 16 → InputRecord → State → State} (ha : AppendKeeps app) {s t : State} (h : Keeps s t) :
    Keeps s (positionRequest app t) := by
  unfold positionRequest
  split
  · exact h
  · exact ha _ _ (setFu_keeps h _)

theorem confine_keeps (x y : Int) {s t : State} (h : Keeps s t) : Keeps s (confine x y t) := by
  unfold confine
  split
  · exact h
  · split
    · exact h
    · exact setFu_keeps h _

theorem forceFocus_keeps {app : Fin 16 → InputRecord → State → State} (ha : AppendKeeps app) {s t : State} (h : Keeps s t) :
    Keeps s (forceFocus app t) :=
  positionRequest_keeps ha (changeFocus_keeps _ (setFu_keeps h _))

theorem reevaluate_keeps {app : Fin 16 → InputRecord → State → State} (ha : AppendKeeps app) {s t : State} (h : Keeps s t) :
    Keeps s (reevaluate app t) := by
  unfold reevaluate
  split
  · split
    · exact positionRequest_keeps ha (confine_keeps _ _ h)
    · split
      · exact positionRequest_keeps ha h
      · exact positionRequest_keeps ha (changeFocus_keeps _ h)
  · exact forceFocus_keeps ha h

theorem dragEnd_keeps {s t : State} (h : Keeps s t) : Keeps s (dragEnd t) :=
  reevaluate_keeps (fun i r _ _ h => appendRecord_keeps i r h) h

theorem append_keeps : AppendKeeps append := by
  intro i r s t h
  have k := appendRecord_keeps i r h
  unfold append
  dsimp only
  split
  · exact dragEnd_keeps k
  · exact k

theorem requestPosition_keeps {s t : State} (h : Keeps s t) : Keeps s (requestPosition t) := positionRequest_keeps append_keeps h

theorem fuReevaluate_keeps {s t : State} (h : Keeps s t) : Keeps s (fuReevaluate t) := reevaluate_keeps append_keeps h

theorem guardedMove_keeps (p : Int × Int) {s t : State} (h : Keeps s t) : Keeps s (guardedMove t p) := by
  unfold guardedMove
  dsimp only
  split
  · exact setFu_keeps h _
  · split
    · exact setFu_keeps h _
    · split
      · split
        · exact setFu_keeps (setFu_keeps h _) _
        · exact setFu_keeps h _
      · exact setFu_keeps h _

theorem fuMotion_keeps (dx dy : Int) {s t : State} (h : Keeps s t) : Keeps s (fuMotion dx dy t) := by
  unfold fuMotion
  split
  · exact requestPosition_keeps (setFu_keeps (confine_keeps _ _ h) _)
  · unfold freeMotion followPointer
    dsimp only
    refine requestPosition_keeps ?_
    split
    · exact guardedMove_keeps _ h
    · exact changeFocus_keeps _ (guardedMove_keeps _ h)

theorem clampPointer_keeps {s t : State} (h : Keeps s t) : Keeps s (clampPointer t) := by
  unfold clampPointer
  split
  · exact h
  · split
    · exact h
    · exact setFu_keeps h _

theorem headReport_keeps {s t : State} (h : Keeps s t) : Keeps s (headReport t) := by
  unfold headReport
  split
  · exact fuReevaluate_keeps (clampPointer_keeps h)
  · exact h

theorem claimReport_keeps (x : Option (Fin 16)) {s t : State} (h : Keeps s t) : Keeps s (claimReport x t) := by
  have k := fuReevaluate_keeps h
  unfold claimReport
  dsimp only
  split
  · split
    · exact requestPosition_keeps (confine_keeps _ _ (setFu_keeps k _))
    · exact k
  · exact k

theorem removalReport_keeps (b : Bool) {s t : State} (h : Keeps s t) : Keeps s (removalReport b t) := by
  unfold removalReport
  split
  · exact fuReevaluate_keeps h
  · exact h

theorem standbyFocus_keeps {s t : State} (h : Keeps s t) : Keeps s (standbyFocus t) := changeFocus_keeps _ (setFu_keeps h _)

theorem placePointer_keeps {s t : State} (h : Keeps s t) : Keeps s (placePointer t) := by
  unfold placePointer
  split
  · exact h
  · exact setFu_keeps h _

theorem focusLockAction_keeps {s t : State} (h : Keeps s t) : Keeps s (focusLockAction t) := by
  unfold focusLockAction
  split
  · exact fuReevaluate_keeps (setFu_keeps h _)
  · split
    · exact requestPosition_keeps (confine_keeps _ _ (setFu_keeps h _))
    · exact h

theorem nextWindowAction_keeps {s t : State} (h : Keeps s t) : Keeps s (nextWindowAction t) := by
  unfold nextWindowAction
  split
  · exact h
  · split
    · exact h
    · exact requestPosition_keeps (changeFocus_keeps _ (setFu_keeps h _))

end Sys2Proof.Machine
end

