-- ==== Sys2Proof/Laws/FrameDesk.lean ====
section
/-! SUPPORT. What the operations of the claim unit, the panel unit and the input unit leave alone, one lemma per operation. -/

namespace Sys2Proof.Machine

open Sys2Proof

/-! ## The claim unit -/

theorem setSlot_keeps (i : Fin 16) (k : Option Slot) {s t : State} (h : Keeps s t) : Keeps s (setSlot i k t) := setCu_keeps h _

theorem countCu_keeps (f : CuCounters → CuCounters) {s t : State} (h : Keeps s t) : Keeps s (countCu f t) := setCu_keeps h _

theorem claimAppended_keeps (m : ClaimMsg) {s t : State} (h : Keeps s t) : Keeps s (claimAppended m t) := by
  have k := setCu_keeps h { t.cu with offered := none }
  unfold claimAppended
  dsimp only
  split
  · exact countCu_keeps _ k
  · split
    · split
      · split
        · exact countCu_keeps _ k
        · exact setSlot_keeps _ _ (countCu_keeps _ k)
      · exact countCu_keeps _ k
    · exact countCu_keeps _ k

theorem pumpOutbox_keeps (n : Nat) {s t : State} (h : Keeps s t) : Keeps s (pumpOutbox n t) := by
  induction n generalizing t with
  | zero => exact h
  | succ n ih =>
    unfold pumpOutbox
    split
    · exact h
    · split
      · exact h
      · rename_i m ms hm
        have k := offerInsertion_keeps (setCu_keeps h { t.cu with outbox := ms }) ⟨claimFrame m t, false⟩ rfl
        dsimp only
        split <;> rename_i u hu <;> rw [hu] at k
        · exact ih (claimAppended_keeps m k)
        · exact setCu_keeps k _

theorem queueRequest_keeps (i : Fin 16) (l : Level) (a : Byte) {s t : State} (h : Keeps s t) :
    Keeps s (queueRequest i l a t) := pumpOutbox_keeps _ (setCu_keeps h _)

theorem removeRequest_keeps (i : Fin 16) {s t : State} (h : Keeps s t) : Keeps s (removeRequest i t) := setCu_keeps h _

theorem queueRelease_keeps (i : Fin 16) (l : Level) (a : Byte) {s t : State} (h : Keeps s t) :
    Keeps s (queueRelease i l a t) := by
  have k := removeRequest_keeps i h
  unfold queueRelease
  dsimp only
  split
  · exact pumpOutbox_keeps _ (countCu_keeps _ (setCu_keeps k _))
  · exact pumpOutbox_keeps _ (setCu_keeps k _)

theorem refuseRequest_keeps (r : Reason) {s t : State} (h : Keeps s t) : Keeps s (refuseRequest r t).2 := setCu_keeps h _

theorem localRequest_keeps (slot : Option (Fin 16)) (level : Option Level) {s t : State} (h : Keeps s t) :
    Keeps s (localRequest slot level t).2 := by
  unfold localRequest
  split
  · exact refuseRequest_keeps _ h
  · split
    · exact refuseRequest_keeps _ h
    · exact refuseRequest_keeps _ h
    · split
      · exact refuseRequest_keeps _ h
      · split
        · exact refuseRequest_keeps _ h
        · split
          · exact refuseRequest_keeps _ h
          · split
            · exact refuseRequest_keeps _ h
            · exact queueRequest_keeps _ _ _ (setSlot_keeps _ _ h)

theorem releaseSlot_keeps (i : Fin 16) (k : Slot) (l : Level) {s t : State} (h : Keeps s t) :
    Keeps s (releaseSlot i k l t) := by
  unfold releaseSlot
  dsimp only
  have a : Keeps s (if Level.rank (Level.lower l k.held) < Level.rank k.held then
      claimReport none (raise .claimChange (setSlot i (some { k with
        held := Level.lower l k.held, holder := holderAfter t (Level.lower l k.held) k.holder }) t)) else t) := by
    split
    · exact claimReport_keeps _ (raise_keeps (setSlot_keeps _ _ h) _)
    · exact h
  generalize (if Level.rank (Level.lower l k.held) < Level.rank k.held then
      claimReport none (raise .claimChange (setSlot i (some { k with
        held := Level.lower l k.held, holder := holderAfter t (Level.lower l k.held) k.holder }) t)) else t) = u at a ⊢
  have b : Keeps s (match u.cu.slots[i] with
      | some k' => if Level.rank (Level.lower l k.held) < Level.rank k.held ∨ k.request.isSome then
          setSlot i (some { k' with request := none, outcome := .released }) u else u
      | none => u) := by
    split
    · split
      · exact setSlot_keeps _ _ a
      · exact a
    · exact a
  split
  · exact queueRelease_keeps _ _ _ b
  · exact removeRequest_keeps _ b

theorem localRelease_keeps (slot : Option (Fin 16)) (level : Option Level) {s t : State} (h : Keeps s t) :
    Keeps s (localRelease slot level t).2 := by
  unfold localRelease
  split
  · exact h
  · split
    · exact h
    · exact h
    · exact h
    · exact releaseSlot_keeps _ _ _ h

theorem autoShare_keeps (i : Fin 16) {s t : State} (h : Keeps s t) : Keeps s (autoShare i t) := by
  unfold autoShare
  split
  · exact h
  · split
    · exact localRequest_keeps _ _ h
    · exact h

theorem nodeIsPresent_keeps (a : Byte) {s t : State} (h : Keeps s t) : Keeps s (nodeIsPresent a t) := by
  unfold nodeIsPresent
  split
  · exact h
  · dsimp only
    split
    · exact setCu_keeps h _
    · exact autoShare_keeps _ (claimReport_keeps _ (setCu_keeps h _))

theorem absentSlot_keeps (i : Fin 16) (k : Slot) {s t : State} (h : Keeps s t) : Keeps s (absentSlot i k t) := by
  unfold absentSlot
  dsimp only
  refine countCu_keeps _ (raise_keeps ?_ _)
  have b : Keeps s (setSlot i (some { k with request := none, held := .view, holder := none })
      (if k.request.isSome = true then removeRequest i t else t)) := by
    refine setSlot_keeps _ _ ?_
    split
    · exact removeRequest_keeps _ h
    · exact h
  split
  · exact raise_keeps b _
  · exact b

theorem nodeIsAbsent_keeps (a : Byte) {s t : State} (h : Keeps s t) : Keeps s (nodeIsAbsent a t) := by
  unfold nodeIsAbsent
  split
  · exact h
  · rename_i n hn
    have k0 := setCu_keeps h { t.cu with view := t.cu.view.set n false }
    dsimp only
    split
    · exact k0
    · split
      · exact k0
      · exact claimReport_keeps _ (absentSlot_keeps _ _ k0)

theorem grant_keeps (i : Fin 16) (k : Slot) (l : Level) {s t : State} (h : Keeps s t) : Keeps s (grant i k l t) := by
  unfold grant
  dsimp only
  split
  · exact claimReport_keeps _ (countCu_keeps _ (raise_keeps (setSlot_keeps _ _ h) _))
  · split
    · refine queueRelease_keeps _ _ _ ?_
      split
      · exact setSlot_keeps _ _ (countCu_keeps _ h)
      · exact countCu_keeps _ h
    · exact countCu_keeps _ h

theorem deny_keeps (i : Fin 16) (k : Slot) (l : Level) (f : Option Byte) {s t : State} (h : Keeps s t) :
    Keeps s (deny i k l f t) := by
  unfold deny
  dsimp only
  split
  · exact countCu_keeps _ (setSlot_keeps _ _ h)
  · exact countCu_keeps _ h

theorem revoke_keeps (i : Fin 16) (k : Slot) (l : Level) (f : Option Byte) {s t : State} (h : Keeps s t) :
    Keeps s (revoke i k l f t) := by
  unfold revoke
  dsimp only
  split
  · exact claimReport_keeps _ (raise_keeps (countCu_keeps _ (setSlot_keeps _ _ h)) _)
  · exact countCu_keeps _ (setSlot_keeps _ _ h)

theorem claimTaken_keeps (f : Frame) {s t : State} (h : Keeps s t) : Keeps s (claimTaken f t) := by
  unfold claimTaken rejectClaim
  split
  · split
    · split
      · exact grant_keeps _ _ _ h
      · split
        · exact deny_keeps _ _ _ _ h
        · split
          · exact revoke_keeps _ _ _ _ h
          · exact countCu_keeps _ h
    · exact countCu_keeps _ h
  · exact countCu_keeps _ h

theorem requestExpired_keeps (i : Fin 16) {s t : State} (h : Keeps s t) : Keeps s (requestExpired i t) := by
  unfold requestExpired
  split
  · split
    · exact countCu_keeps _ (raise_keeps (setSlot_keeps _ _ h) _)
    · exact h
  · exact h

/-- A fold of operations that each keep. -/
theorem foldl_keeps {α : Type} (f : State → α → State) (hf : ∀ a {s t : State}, Keeps s t → Keeps s (f t a)) (l : List α)
    {s t : State} (h : Keeps s t) : Keeps s (l.foldl f t) := by
  induction l generalizing t with
  | nil => exact h
  | cons a l ih => exact ih (hf a h)

theorem standbyClaims_keeps {s t : State} (h : Keeps s t) : Keeps s (standbyClaims t) := by
  refine foldl_keeps _ (fun i s t h => ?_) _ h
  unfold standbyRelease
  split
  · exact releaseSlot_keeps _ _ _ h
  · exact h

theorem wakeClaims_keeps {s t : State} (h : Keeps s t) : Keeps s (wakeClaims t) :=
  foldl_keeps _ (fun i _ _ h => autoShare_keeps i h) _ h

theorem emptyQueue_keeps (i : Fin 16) {s t : State} (h : Keeps s t) : Keeps s (emptyQueue i t) :=
  setIu_keeps h _ fun c => ⟨queue_set_caps c i _ (by simp), c.keys, c.consumed⟩

theorem freshSequence_keeps (i : Fin 16) {s t : State} (h : Keeps s t) : Keeps s (freshSequence i t) :=
  setIu_shrink h _ rfl (Nat.le_refl _) (Nat.le_refl _)

theorem addressChangeReport_keeps (i : Fin 16) {s t : State} (h : Keeps s t) : Keeps s (addressChangeReport i t) := by
  have k : Keeps s ((freshSequence i (emptyQueue i t)).setIu { (freshSequence i (emptyQueue i t)).iu with
      keys := (freshSequence i (emptyQueue i t)).iu.keys.filter fun k => k.2 ≠ i,
      owners := dropOwners i (freshSequence i (emptyQueue i t)).iu.owners }) :=
    setIu_shrink (freshSequence_keeps i (emptyQueue_keeps i h)) _ rfl (List.length_filter_le _ _) (Nat.le_refl _)
  unfold addressChangeReport
  dsimp only
  split
  · exact dragEnd_keeps k
  · exact k

theorem moveSlot_keeps (i : Fin 16) (k : Slot) (c : SlotContent) {s t : State} (h : Keeps s t) :
    Keeps s (moveSlot i k c t) := by
  unfold moveSlot
  dsimp only
  refine autoShare_keeps _ (claimReport_keeps _ (addressChangeReport_keeps _ ?_))
  have b : Keeps s (setSlot i (some (freshSlot c)) (if mustRelease k (inOutbox .request i t) = true then
      queueRelease i .view k.content.addr (removeRequest i t) else removeRequest i t)) := by
    refine setSlot_keeps _ _ ?_
    split
    · exact queueRelease_keeps _ _ _ (removeRequest_keeps _ h)
    · exact removeRequest_keeps _ h
  split
  · exact raise_keeps b _
  · exact b

theorem clearSlot_keeps (i : Fin 16) (k : Slot) {s t : State} (h : Keeps s t) : Keeps s (clearSlot i k t) := by
  unfold clearSlot
  dsimp only
  refine emptyQueue_keeps _ ?_
  have b : Keeps s (setSlot i none (if mustRelease k (inOutbox .request i t) = true then
      queueRelease i .view k.content.addr (removeRequest i t) else removeRequest i t)) := by
    refine setSlot_keeps _ _ ?_
    split
    · exact queueRelease_keeps _ _ _ (removeRequest_keeps _ h)
    · exact removeRequest_keeps _ h
  split
  · exact raise_keeps b _
  · exact b

theorem writeSlot_keeps (i : Fin 16) (c : Option SlotContent) {s t : State} (h : Keeps s t) :
    Keeps s (writeSlot i c t).2 := by
  unfold writeSlot
  split
  · exact h
  · split
    · exact h
    · exact clearSlot_keeps _ _ h
  · split
    · exact h
    · split
      · exact h
      · split
        · exact autoShare_keeps _ (freshSequence_keeps _ (setSlot_keeps _ _ h))
        · split
          · exact setSlot_keeps _ _ h
          · exact moveSlot_keeps _ _ _ h

/-! ## The panel unit -/

theorem countPu_keeps (f : PuCounters → PuCounters) {s t : State} (h : Keeps s t) : Keeps s (countPu f t) := setPu_keeps h _

theorem restartIdle_keeps {s t : State} (h : Keeps s t) : Keeps s (restartIdle t) := by
  unfold restartIdle
  split <;> exact setPu_keeps h _

theorem enterStandby_keeps {s t : State} (h : Keeps s t) : Keeps s (enterStandby t) := by
  unfold enterStandby
  split
  · exact h
  · exact standbyClaims_keeps (standbyFocus_keeps (countPu_keeps _ (setPu_keeps h _)))

theorem wake_keeps (c : WakeCause) {s t : State} (h : Keeps s t) : Keeps s (wake c t) := by
  unfold wake
  split
  · exact h
  · exact wakeClaims_keeps (restartIdle_keeps (countPu_keeps _ (raise_keeps (setPu_keeps h _) _)))

theorem deskReport_keeps (k : Option WakeKind) {s t : State} (h : Keeps s t) : Keeps s (deskReport k t) := by
  unfold deskReport
  split
  · exact restartIdle_keeps h
  · exact wake_keeps _ h
  · exact h

theorem idleExpired_keeps {s t : State} (h : Keeps s t) : Keeps s (idleExpired t) := by
  unfold idleExpired
  split
  · exact enterStandby_keeps h
  · exact h

theorem setPower_keeps (p : Option Power) {s t : State} (h : Keeps s t) : Keeps s (setPower p t).2 := by
  unfold setPower
  split
  · exact h
  · exact enterStandby_keeps h
  · dsimp only
    split
    · exact wake_keeps _ h
    · exact restartIdle_keeps h

theorem pressed_keeps {s t : State} (h : Keeps s t) : Keeps s (pressed t) := by
  have k := countPu_keeps (fun c => { c with presses := bump c.presses }) h
  unfold pressed
  dsimp only
  split
  · exact wake_keeps _ k
  · split
    · exact localRequest_keeps _ _ (restartIdle_keeps k)
    · exact countPu_keeps _ (restartIdle_keeps k)

theorem filterChanges_keeps (l : ButtonLevel) {s t : State} (h : Keeps s t) : Keeps s (filterChanges l t) := by
  unfold filterChanges
  dsimp only
  split
  · exact pressed_keeps (setPu_keeps h _)
  · exact setPu_keeps h _

theorem sample_keeps (l : ButtonLevel) {s t : State} (h : Keeps s t) : Keeps s (sample l t) := by
  unfold sample
  split
  · exact h
  · split
    · exact setPu_keeps h _
    · split
      · exact setPu_keeps h _
      · split
        · exact setPu_keeps h _
        · exact filterChanges_keeps _ h

theorem blinkAdvance_keeps {s t : State} (h : Keeps s t) : Keeps s (blinkAdvance t) := by
  unfold blinkAdvance
  split
  · exact h
  · exact setPu_keeps h _

/-! ## The input unit -/

theorem countIu_keeps (f : IuCounters → IuCounters) {s t : State} (h : Keeps s t) : Keeps s (countIu f t) :=
  setIu_shrink h _ rfl (Nat.le_refl _) (Nat.le_refl _)

/-- What SELECT_PRESET writes of the compositor: the staged lists, the pending flags and the current preset. -/
theorem selectPreset_keeps (n : Nat) {s t : State} (h : Keeps s t) : Keeps s (selectPreset n t).2 := by
  unfold selectPreset
  split
  · exact h.trans ⟨by constructor <;> first | rfl | exact ⟨rfl, rfl⟩, fun c => ⟨c.rf, c.iu, c.badFrames⟩, fun q => ⟨q.mu, q.insQ⟩, id, id,
      ⟨fun h => ⟨h, rfl, rfl, rfl, List.prefix_refl _⟩, rfl⟩, fun _ => id⟩
  · exact h

theorem claimAction_keeps {act : Fin 16 → State → State} (ha : ∀ i {s t : State}, Keeps s t → Keeps s (act i t)) {s t : State}
    (h : Keeps s t) : Keeps s (claimAction act t) := by
  unfold claimAction
  split
  · exact ha _ h
  · exact countIu_keeps _ h

theorem runAction_keeps (k : HotKey) {s t : State} (h : Keeps s t) : Keeps s (runAction k t) := by
  unfold runAction
  split
  · exact selectPreset_keeps _ h
  · exact claimAction_keeps (fun i _ _ h => localRequest_keeps _ _ h) h
  · exact claimAction_keeps (fun i _ _ h => localRequest_keeps _ _ h) h
  · exact claimAction_keeps (fun i _ _ h => localRelease_keeps _ _ h) h
  · exact focusLockAction_keeps h
  · exact nextWindowAction_keeps h
  · exact enterStandby_keeps h

theorem consume_keeps (u : Byte) {s t : State} (h : Keeps s t) : Keeps s (consume u t) := by
  unfold consume
  split
  · rename_i hl
    exact setIu_keeps h _ fun c => ⟨c.queues, c.keys, by simp; omega⟩
  · exact countIu_keeps _ h

theorem keyDownCases_keeps (u : Byte) {s t : State} (h : Keeps s t) : Keeps s (keyDownCases u t) := by
  unfold keyDownCases duplicatePress
  split
  · exact countIu_keeps _ h
  · split
    · exact countIu_keeps _ (runAction_keeps _ (consume_keeps _ h))
    · exact countIu_keeps _ h
    · split
      · exact countIu_keeps _ h
      · rename_i hl
        exact append_keeps _ _ (setIu_keeps h _ fun c => ⟨c.queues, by simp; omega, c.consumed⟩)

theorem keyDown_keeps (u : Byte) {s t : State} (h : Keeps s t) : Keeps s (keyDown u t) := by
  unfold keyDown duplicatePress
  split
  · split
    · exact countIu_keeps _ h
    · exact keyDownCases_keeps _ (setIu_shrink h _ rfl (Nat.le_refl _) (Nat.le_refl _))
  · exact keyDownCases_keeps _ h

theorem keyUpCases_keeps (u : Byte) {s t : State} (h : Keeps s t) : Keeps s (keyUpCases u t) := by
  unfold keyUpCases
  split
  · exact setIu_shrink h _ rfl (Nat.le_refl _) List.length_erase_le
  · split
    · exact append_keeps _ _ (setIu_shrink h _ rfl List.length_erase_le (Nat.le_refl _))
    · exact countIu_keeps _ h

theorem keyUp_keeps (u : Byte) {s t : State} (h : Keeps s t) : Keeps s (keyUp u t) := by
  unfold keyUp
  split
  · exact keyUpCases_keeps _ (setIu_shrink h _ rfl (Nat.le_refl _) (Nat.le_refl _))
  · exact keyUpCases_keeps _ h

theorem appendReported_keeps (i : Fin 16) {s t : State} (h : Keeps s t) : Keeps s (appendReported i t) := by
  unfold appendReported
  split
  · exact append_keeps _ _ h
  · exact h

theorem buttonPress_keeps (k : Fin 5) {s t : State} (h : Keeps s t) : Keeps s (buttonPress k t) := by
  unfold buttonPress duplicatePress
  dsimp only
  split
  · exact countIu_keeps _ h
  · have b := setIu_shrink h { t.iu with buttons := t.iu.buttons ||| 1#5 <<< k.val } rfl (Nat.le_refl _) (Nat.le_refl _)
    split
    · exact appendReported_keeps _ (setIu_shrink b _ rfl (Nat.le_refl _) (Nat.le_refl _))
    · exact countIu_keeps _ b

theorem buttonRelease_keeps (k : Fin 5) {s t : State} (h : Keeps s t) : Keeps s (buttonRelease k t) := by
  have b := setIu_shrink h { t.iu with buttons := t.iu.buttons &&& ~~~(1#5 <<< k.val) } rfl (Nat.le_refl _) (Nat.le_refl _)
  unfold buttonRelease
  dsimp only
  split
  · exact b
  · rename_i i hi
    have c := setIu_shrink b
      { (t.setIu { t.iu with buttons := t.iu.buttons &&& ~~~(1#5 <<< k.val) }).iu with owners :=
        (t.setIu { t.iu with buttons := t.iu.buttons &&& ~~~(1#5 <<< k.val) }).iu.owners.set k none } rfl
      (Nat.le_refl _) (Nat.le_refl _)
    split
    · exact appendReported_keeps _ c
    · exact dragEnd_keeps (appendReported_keeps _ c)

theorem wheelTurn_keeps (v x : Byte) {s t : State} (h : Keeps s t) : Keeps s (wheelTurn v x t) := by
  unfold wheelTurn
  split
  · exact append_keeps _ _ h
  · exact countIu_keeps _ h

/-- A desk record, whatever its handling: what the operator's side keeps. -/
theorem takeRecord_keeps (valid : Bool) (kind : Option WakeKind) {handle : State → State}
    (hh : ∀ {s t : State}, Keeps s t → Keeps s (handle t)) {s t : State} (h : Keeps s t) :
    Keeps s (takeRecord valid kind handle t) := by
  unfold takeRecord rejectRecord
  split
  · exact hh (deskReport_keeps _ h)
  · exact countIu_keeps _ h

theorem writeHotKey_keeps (i : Fin 16) (bs : List Byte) {s t : State} (h : Keeps s t) : Keeps s (writeHotKey i bs t).2 := by
  unfold writeHotKey
  split
  · exact setIu_shrink h _ rfl (Nat.le_refl _) (Nat.le_refl _)
  · split
    · exact h
    · split
      · exact h
      · split
        · exact h
        · split
          · exact h
          · exact setIu_shrink h _ rfl (Nat.le_refl _) (Nat.le_refl _)
  · exact h

theorem writeLamp_keeps (l : Fin 5) (bs : List Byte) {s t : State} (h : Keeps s t) : Keeps s (writeLamp l bs t).2 := by
  unfold writeLamp
  split
  · split
    · exact setPu_keeps h _
    · exact h
  · exact h

end Sys2Proof.Machine
end

