-- ==== Sys2Proof/Laws/Parts.lean ====
section
/-! SUPPORT. Which blocks an operation leaves alone altogether: the offer of a frame or a raised event touches the ring forwarder and
the management unit alone; the delivery of input touches besides them the input unit and the focus unit alone. -/

namespace Sys2Proof.Machine

open Sys2Proof

/-- Nothing but the ring forwarder and the management unit's events, notices and counters has changed. -/
structure Posts (s t : State) : Prop where
  iu : t.iu = s.iu
  fu : t.fu = s.fu
  cu : t.cu = s.cu
  pu : t.pu = s.pu
  cp : t.cp = s.cp
  sr : t.sr = s.sr
  wlp : t.wlp = s.wlp
  elp : t.elp = s.elp
  cl : t.cl = s.cl
  desk : t.desk = s.desk
  serial : t.serial = s.serial
  lineOut : t.lineOut = s.lineOut
  pending : t.pending = s.pending
  work : t.mu.work = s.mu.work
  mask : t.mu.mask = s.mu.mask
  configLevel : t.mu.configLevel = s.mu.configLevel
  layoutLevel : t.mu.layoutLevel = s.mu.layoutLevel

theorem Posts.refl (s : State) : Posts s s := by constructor <;> rfl

theorem Posts.trans {s t u : State} (h : Posts s t) (k : Posts t u) : Posts s u := by
  obtain ⟨h1, h2, h3, h4, h5, h6, h7, h8, h9, h10, h11, h12, h13, h14, h15, h16, h17⟩ := h
  obtain ⟨k1, k2, k3, k4, k5, k6, k7, k8, k9, k10, k11, k12, k13, k14, k15, k16, k17⟩ := k
  exact ⟨k1.trans h1, k2.trans h2, k3.trans h3, k4.trans h4, k5.trans h5, k6.trans h6, k7.trans h7, k8.trans h8, k9.trans h9,
    k10.trans h10, k11.trans h11, k12.trans h12, k13.trans h13, k14.trans h14, k15.trans h15, k16.trans h16, k17.trans h17⟩

theorem setRf_posts (t : State) (v : Rf) : Posts t (t.setRf v) := by constructor <;> rfl

theorem arbitrate_posts (t : State) : Posts t (arbitrate t) := by
  unfold arbitrate beginInsertion
  dsimp only
  (repeat' split) <;> constructor <;> rfl

theorem offerInsertion_posts (e : InsEntry) (t : State) : Posts t (offerInsertion e t).2 := by
  unfold offerInsertion
  split
  · exact (setRf_posts t _).trans (arbitrate_posts _)
  · exact setRf_posts t _

theorem arbitrate_events (t : State) : (arbitrate t).mu.events = t.mu.events := by
  unfold arbitrate beginInsertion
  dsimp only
  (repeat' split) <;> rfl

theorem offerInsertion_events (e : InsEntry) (t : State) : (offerInsertion e t).2.mu.events = t.mu.events := by
  unfold offerInsertion
  split
  · exact arbitrate_events _
  · rfl

theorem tryNotice_posts (t : State) : Posts t (tryNotice t) := by
  unfold tryNotice
  split
  · have k := offerInsertion_posts ⟨noticeFrame t, false⟩ (t.setMu { t.mu with due := false })
    have b : Posts t (t.setMu { t.mu with due := false }) := by constructor <;> rfl
    dsimp only
    split <;> rename_i u hu <;> rw [hu] at k
    · exact (b.trans k).trans (by constructor <;> rfl)
    · exact (b.trans k).trans (by constructor <;> rfl)
  · exact .refl t

theorem tryNotice_events (t : State) : (tryNotice t).mu.events = t.mu.events := by
  unfold tryNotice
  split
  · have k := offerInsertion_events ⟨noticeFrame t, false⟩ (t.setMu { t.mu with due := false })
    dsimp only
    split <;> rename_i u hu <;> rw [hu] at k <;> exact k
  · rfl

theorem raise_posts (k : EventKind) (t : State) : Posts t (raise k t) := by
  have b : Posts t (t.setMu { t.mu with events := t.mu.events ||| EventKind.bit k }) := by constructor <;> rfl
  unfold raise
  dsimp only
  split
  · unfold makeDue
    split
    · exact (b.trans (by constructor <;> rfl)).trans (tryNotice_posts _)
    · exact b
  · exact b

/-- A raised event stands in the pending set, whatever notice it brings about (R182). -/
theorem raise_events (k : EventKind) (t : State) : (raise k t).mu.events = t.mu.events ||| EventKind.bit k := by
  unfold raise
  dsimp only
  split
  · unfold makeDue
    split
    · exact tryNotice_events _
    · rfl
  · rfl

/-! ## Input -/

/-- What a delivery leaves of the input unit: the keys and buttons physically down, the hot keys, the consumed keys and their count;
the key owner map and the button owners only lose entries. -/
structure Hands (u v : Iu) : Prop where
  mods : v.mods = u.mods
  buttons : v.buttons = u.buttons
  hotkeys : v.hotkeys = u.hotkeys
  consumed : v.consumed = u.consumed
  hotCount : v.c.hotKeys = u.c.hotKeys
  keys : ∀ k ∈ v.keys, k ∈ u.keys
  owners : ∀ (j : Fin 5) (a : Fin 16), v.owners[j] = some a → u.owners[j] = some a

theorem Hands.refl (u : Iu) : Hands u u := ⟨rfl, rfl, rfl, rfl, rfl, fun _ => id, fun _ _ => id⟩

theorem Hands.trans {u v w : Iu} (h : Hands u v) (k : Hands v w) : Hands u w :=
  ⟨k.mods.trans h.mods, k.buttons.trans h.buttons, k.hotkeys.trans h.hotkeys, k.consumed.trans h.consumed,
    k.hotCount.trans h.hotCount, fun x hx => h.keys x (k.keys x hx), fun j a hj => h.owners j a (k.owners j a hj)⟩

theorem dropOwners_of {a : Fin 16} {o : Vector (Option (Fin 16)) 5} {j : Fin 5} {b : Fin 16} (h : (dropOwners a o)[j] = some b) :
    o[j] = some b ∧ b ≠ a := by
  unfold dropOwners mapTable at h
  simp only [Fin.getElem_fin, Vector.getElem_ofFn] at h ⊢
  split at h
  · cases h
  · rename_i n; exact ⟨h, fun e => n (by rw [h, e])⟩

/-- Nothing of the compositor, the claim unit or the panel unit has changed, nor what `Hands` names. -/
structure Delivers (s t : State) : Prop where
  cp : t.cp = s.cp
  cu : t.cu = s.cu
  pu : t.pu = s.pu
  hands : Hands s.iu t.iu

theorem Delivers.refl (s : State) : Delivers s s := ⟨rfl, rfl, rfl, .refl _⟩

theorem Delivers.trans {s t u : State} (h : Delivers s t) (k : Delivers t u) : Delivers s u :=
  ⟨k.cp.trans h.cp, k.cu.trans h.cu, k.pu.trans h.pu, h.hands.trans k.hands⟩

theorem Posts.delivers {s t : State} (h : Posts s t) : Delivers s t := ⟨h.cp, h.cu, h.pu, h.iu ▸ .refl _⟩

theorem setIu_delivers {s t : State} (h : Delivers s t) (v : Iu) (k : Hands t.iu v) : Delivers s (t.setIu v) :=
  ⟨h.cp, h.cu, h.pu, h.hands.trans k⟩

theorem setFu_delivers {s t : State} (h : Delivers s t) (v : Fu) : Delivers s (t.setFu v) := ⟨h.cp, h.cu, h.pu, h.hands⟩

theorem pumpBuilder_delivers (n : Nat) {s t : State} (h : Delivers s t) : Delivers s (pumpBuilder n t) := by
  induction n generalizing t with
  | zero => exact h
  | succ n ih =>
    unfold pumpBuilder
    split
    · exact h
    · split
      · exact h
      · rename_i i hi
        have k := (setIu_delivers h _ ⟨rfl, rfl, rfl, rfl, rfl, fun _ => id, fun _ _ => id⟩ : Delivers s (builtFrom i t)).trans
          (offerInsertion_posts ⟨inputFrame i t, false⟩ (builtFrom i t)).delivers
        split <;> rename_i u hu <;> rw [hu] at k
        · exact ih k
        · exact setIu_delivers k _ ⟨rfl, rfl, rfl, rfl, rfl, fun _ => id, fun _ _ => id⟩

theorem appendRecord_delivers (i : Fin 16) (r : InputRecord) {s t : State} (h : Delivers s t) :
    Delivers s (appendRecord i r t) := by
  unfold appendRecord
  dsimp only
  refine pumpBuilder_delivers _ ?_
  split
  · exact setIu_delivers h _ ⟨rfl, rfl, rfl, rfl, rfl, fun _ => id, fun _ _ => id⟩
  · split
    · exact setIu_delivers h _ ⟨rfl, rfl, rfl, rfl, rfl, fun _ => id, fun _ _ => id⟩
    · unfold overflow
      dsimp only
      refine Delivers.trans ?_ (raise_posts _ _).delivers
      exact setIu_delivers h _ ⟨rfl, rfl, rfl, rfl, rfl, fun k hk => (List.mem_filter.1 hk).1,
        fun _ _ hj => (dropOwners_of hj).1⟩

theorem synthesis_delivers (a : Fin 16) {s t : State} (h : Delivers s t) : Delivers s (synthesis a t) := by
  have keys (n : Nat) {u : State} (hu : Delivers s u) : Delivers s (synthKeys n a u) := by
    induction n generalizing u with
    | zero => exact hu
    | succ n ih =>
      unfold synthKeys
      split
      · exact hu
      · refine ih (appendRecord_delivers _ _ (setIu_delivers hu _ ⟨rfl, rfl, rfl, rfl, rfl, fun k hk => ?_, fun _ _ => id⟩))
        exact List.mem_of_mem_erase hk
  have k := keys t.iu.keys.length h
  unfold synthesis
  dsimp only
  split
  · exact k
  · split
    · exact setIu_delivers (appendRecord_delivers _ _ k) _
        ⟨rfl, rfl, rfl, rfl, rfl, fun _ => id, fun _ _ hj => (dropOwners_of hj).1⟩
    · exact setIu_delivers k _ ⟨rfl, rfl, rfl, rfl, rfl, fun _ => id, fun _ _ hj => (dropOwners_of hj).1⟩

theorem changeFocus_delivers (target : Option Focus) {s t : State} (h : Delivers s t) : Delivers s (changeFocus target t) := by
  unfold changeFocus
  split
  · exact h
  · exact setFu_delivers h _
  · split
    · exact setFu_delivers h _
    · exact setFu_delivers (synthesis_delivers _ h) _
  · exact setFu_delivers (synthesis_delivers _ h) _

/-- What the focus unit's functions ask of the append they are given. -/
def AppendDelivers (app : Fin 16 → InputRecord → State → State) : Prop :=
  ∀ i r {s t : State}, Delivers s t → Delivers s (app i r t)

theorem positionRequest_delivers {app : Fin 16 → InputRecord → State → State} (ha : AppendDelivers app) {s t : State}
    (h : Delivers s t) : Delivers s (positionRequest app t) := by
  unfold positionRequest
  split
  · exact h
  · exact ha _ _ (setFu_delivers h _)

theorem confine_delivers (x y : Int) {s t : State} (h : Delivers s t) : Delivers s (confine x y t) := by
  unfold confine
  split
  · exact h
  · split
    · exact h
    · exact setFu_delivers h _

theorem reevaluate_delivers {app : Fin 16 → InputRecord → State → State} (ha : AppendDelivers app) {s t : State}
    (h : Delivers s t) : Delivers s (reevaluate app t) := by
  unfold reevaluate
  split
  · split
    · exact positionRequest_delivers ha (confine_delivers _ _ h)
    · split
      · exact positionRequest_delivers ha h
      · exact positionRequest_delivers ha (changeFocus_delivers _ h)
  · exact positionRequest_delivers ha (changeFocus_delivers _ (setFu_delivers h _))

theorem append_delivers : AppendDelivers append := by
  intro i r s t h
  have k := appendRecord_delivers i r h
  have inner : AppendDelivers appendRecord := fun i r _ _ h => appendRecord_delivers i r h
  unfold append
  dsimp only
  split
  · exact reevaluate_delivers inner k
  · exact k

theorem requestPosition_delivers {s t : State} (h : Delivers s t) : Delivers s (requestPosition t) :=
  positionRequest_delivers append_delivers h

theorem fuReevaluate_delivers {s t : State} (h : Delivers s t) : Delivers s (fuReevaluate t) :=
  reevaluate_delivers append_delivers h

/-- A motion changes neither layouts, nor claims, nor the panel (R123). -/
theorem fuMotion_delivers (dx dy : Int) {s t : State} (h : Delivers s t) : Delivers s (fuMotion dx dy t) := by
  have g (p : Int × Int) : Delivers s (guardedMove t p) := by
    unfold guardedMove
    dsimp only
    split
    · exact setFu_delivers h _
    · split
      · exact setFu_delivers h _
      · split
        · split
          · exact setFu_delivers (setFu_delivers h _) _
          · exact setFu_delivers h _
        · exact setFu_delivers h _
  unfold fuMotion
  split
  · exact requestPosition_delivers (setFu_delivers (confine_delivers _ _ h) _)
  · unfold freeMotion followPointer
    dsimp only
    refine requestPosition_delivers ?_
    split
    · exact g _
    · exact changeFocus_delivers _ (g _)

theorem claimReport_delivers (x : Option (Fin 16)) {s t : State} (h : Delivers s t) : Delivers s (claimReport x t) := by
  have k := fuReevaluate_delivers h
  unfold claimReport
  dsimp only
  split
  · split
    · exact requestPosition_delivers (confine_delivers _ _ (setFu_delivers k _))
    · exact k
  · exact k

end Sys2Proof.Machine
end

