-- ==== Sys2Proof/Laws/Sound.lean ====
section
/-! SUPPORT. A part of a step that keeps what holds between steps (Safety.lean), and the operations of the ring forwarder, the link
ports, the stream receiver and the compositor that are such parts. -/

namespace Sys2Proof.Machine

open Sys2Proof

/-- `RingConsistent` but for the ring state itself, which a step may put right last. -/
structure RingPorts (s : State) : Prop where
  sending : s.rf.sending.isSome → s.elp.state = .up
  beacons : s.rf.beaconTimer.isSome → s.elp.state = .up ∧ s.cl.loader = .running
  noEgress : s.elp.state ≠ .up → s.rf.passQ = [] ∧ s.rf.share = 0
  closed : ownPresent s = true → s.wlp.state = .up ∧ s.elp.state = .up

theorem RingConsistent.ports {s : State} (r : RingConsistent s) : RingPorts s := ⟨r.sending, r.beacons, r.noEgress, r.closed⟩

/-- A part of a step that keeps the capacities, the agreement of ports and ring, the settings' values and the memories' form. -/
structure Sound (s t : State) : Prop where
  caps : Capacities s → Capacities t
  ports : LinksConsistent s ∧ RingPorts s → LinksConsistent t ∧ RingPorts t
  ring : LinksConsistent s ∧ RingPorts s → s.rf.ring = derivedRing s → t.rf.ring = derivedRing t
  settings : SettingsInRange s → SettingsInRange t
  memory : MemoryOk s → MemoryOk t

theorem Sound.refl (s : State) : Sound s s := ⟨id, id, fun _ => id, id, id⟩

theorem Sound.trans {s t u : State} (h : Sound s t) (k : Sound t u) : Sound s u :=
  ⟨k.caps ∘ h.caps, k.ports ∘ h.ports, fun p x => k.ring (h.ports p) (h.ring p x), k.settings ∘ h.settings,
    k.memory ∘ h.memory⟩

theorem Sound.link {s t : State} (h : Sound s t) (k : LinksConsistent s ∧ RingConsistent s) :
    LinksConsistent t ∧ RingConsistent t :=
  have ⟨l, r⟩ := h.ports ⟨k.1, k.2.ports⟩
  ⟨l, r.sending, r.beacons, r.noEgress, r.closed, h.ring ⟨k.1, k.2.ports⟩ k.2.ring⟩

/-- Port states and ring state agree in the same way where ports, loader and presence are the same. -/
theorem derivedRing_congr {s t : State} (hw : t.wlp.state = s.wlp.state) (he : t.elp.state = s.elp.state)
    (ho : ownPresent t = ownPresent s) : derivedRing t = derivedRing s := by
  unfold derivedRing; rw [hw, he, ho]

theorem ownPresent_congr {s t : State} (hc : t.cl.ownAddress = s.cl.ownAddress) (hp : t.rf.presence = s.rf.presence) :
    ownPresent t = ownPresent s := by
  unfold ownPresent own; rw [hc, hp]

theorem Keeps.sound {s t : State} (h : Keeps s t) : Sound s t := by
  have e := h.same
  have ho : ownPresent t = ownPresent s := ownPresent_congr (by rw [e.cl]) e.presence
  refine ⟨h.caps, fun ⟨l, r⟩ => ⟨?_, ?_⟩, fun _ x => ?_, fun c => ?_, fun m => ?_⟩
  · constructor
    · rw [e.wlp]; exact l.westPartner
    · rw [e.elp]; exact l.eastPartner
    · rw [e.wlp]; exact l.westSilence
    · rw [e.elp]; exact l.eastSilence
    · rw [e.elp]; exact l.trial
    · rw [e.cl, e.wlp, e.elp]; exact l.cold
  · constructor
    · exact h.sending r.sending
    · rw [e.beaconTimer, e.elp, e.cl]; exact r.beacons
    · exact h.noEgress r.noEgress
    · rw [ho, e.wlp, e.elp]; exact r.closed
  · rw [e.ring, derivedRing_congr (by rw [e.wlp]) (by rw [e.elp]) ho]; exact x
  · have hown : own t = own s := by unfold own; rw [e.cl]
    have ht : ∀ b, targetOk s b → targetOk t b := by intro b; unfold targetOk; rw [hown]; exact id
    constructor
    all_goals rw [e.desk]
    · exact c.guardDistance
    · exact c.standby
    · exact c.downshift
    · exact c.energyReset
    · exact c.beaconPeriod
    · exact c.absence
    · exact c.claimTimeout
    · exact c.noticeInterval
    · exact ht _ c.noticeTarget
    · exact ht _ c.authority
  · exact ⟨by rw [e.serial]; exact m.cells, by rw [e.serial]; exact m.inside, by rw [e.sr]; exact m.lines⟩

/-! ## Updates of one field -/

theorem setRf_sound {s t : State} (h : Sound s t) (v : Rf) (caps : RfCaps t.rf → RfCaps v)
    (ports : LinksConsistent t → RingPorts t → RingPorts (t.setRf v))
    (ring : LinksConsistent t → RingPorts t → t.rf.ring = derivedRing t → v.ring = derivedRing (t.setRf v)) :
    Sound s (t.setRf v) :=
  h.trans ⟨fun c => ⟨caps c.rf, c.iu, c.badFrames⟩,
    fun ⟨l, r⟩ => ⟨⟨l.westPartner, l.eastPartner, l.westSilence, l.eastSilence, l.trial, l.cold⟩, ports l r⟩,
    fun p x => ring p.1 p.2 x,
    fun c => ⟨c.guardDistance, c.standby, c.downshift, c.energyReset, c.beaconPeriod, c.absence, c.claimTimeout,
      c.noticeInterval, c.noticeTarget, c.authority⟩, fun m => ⟨m.cells, m.inside, m.lines⟩⟩

/-- An update of the ring forwarder that leaves presence and ring state alone. -/
theorem setRf_queues {s t : State} (h : Sound s t) (v : Rf) (caps : RfCaps t.rf → RfCaps v)
    (hp : v.presence = t.rf.presence) (hr : v.ring = t.rf.ring)
    (hs : LinksConsistent t → RingPorts t → v.sending.isSome → t.elp.state = .up)
    (hb : LinksConsistent t → RingPorts t → v.beaconTimer.isSome → t.elp.state = .up ∧ t.cl.loader = .running)
    (hn : LinksConsistent t → RingPorts t → t.elp.state ≠ .up → v.passQ = [] ∧ v.share = 0) : Sound s (t.setRf v) :=
  setRf_sound h v caps
    (fun l r => ⟨hs l r, hb l r, hn l r, by simpa [ownPresent_congr (s := t) (t := t.setRf v) rfl hp] using r.closed⟩)
    fun _ _ x => by simpa [hr, derivedRing_congr (s := t) (t := t.setRf v) rfl rfl (ownPresent_congr rfl hp)] using x

/-- An update of the ring forwarder that touches no bounded part and nothing the ports bear on. -/
theorem setRf_plain {s t : State} (h : Sound s t) (v : Rf) (hq : v.passQ = t.rf.passQ) (hi : v.insQ = t.rf.insQ)
    (hs : v.share = t.rf.share) (hn : v.sending = t.rf.sending) (hb : v.beaconTimer = t.rf.beaconTimer)
    (hp : v.presence = t.rf.presence) (hr : v.ring = t.rf.ring) : Sound s (t.setRf v) :=
  setRf_queues h v (fun c => ⟨hq ▸ c.passQ, hi ▸ c.insQ, hs ▸ c.share⟩) hp hr (fun _ r => by simpa [hn] using r.sending)
    (fun _ r => by simpa [hb] using r.beacons) (fun _ r => by simpa [hq, hs] using r.noEgress)

theorem setMu_sound {s t : State} (h : Sound s t) (v : Mu) : Sound s (t.setMu v) :=
  h.trans ⟨fun c => ⟨c.rf, c.iu, c.badFrames⟩,
    fun ⟨l, r⟩ => ⟨⟨l.westPartner, l.eastPartner, l.westSilence, l.eastSilence, l.trial, l.cold⟩,
      ⟨r.sending, r.beacons, r.noEgress, r.closed⟩⟩, fun _ x => x,
    fun c => ⟨c.guardDistance, c.standby, c.downshift, c.energyReset, c.beaconPeriod, c.absence, c.claimTimeout,
      c.noticeInterval, c.noticeTarget, c.authority⟩, fun m => ⟨m.cells, m.inside, m.lines⟩⟩

theorem setCp_sound {s t : State} (h : Sound s t) (v : Cp) : Sound s (t.setCp v) :=
  h.trans ⟨fun c => ⟨c.rf, c.iu, c.badFrames⟩,
    fun ⟨l, r⟩ => ⟨⟨l.westPartner, l.eastPartner, l.westSilence, l.eastSilence, l.trial, l.cold⟩,
      ⟨r.sending, r.beacons, r.noEgress, r.closed⟩⟩, fun _ x => x,
    fun c => ⟨c.guardDistance, c.standby, c.downshift, c.energyReset, c.beaconPeriod, c.absence, c.claimTimeout,
      c.noticeInterval, c.noticeTarget, c.authority⟩, fun m => ⟨m.cells, m.inside, m.lines⟩⟩

theorem setLineOut_sound {s t : State} (h : Sound s t) (v : List (Port × LineSymbol)) : Sound s (t.setLineOut v) :=
  h.trans ⟨fun c => ⟨c.rf, c.iu, c.badFrames⟩,
    fun ⟨l, r⟩ => ⟨⟨l.westPartner, l.eastPartner, l.westSilence, l.eastSilence, l.trial, l.cold⟩,
      ⟨r.sending, r.beacons, r.noEgress, r.closed⟩⟩, fun _ x => x,
    fun c => ⟨c.guardDistance, c.standby, c.downshift, c.energyReset, c.beaconPeriod, c.absence, c.claimTimeout,
      c.noticeInterval, c.noticeTarget, c.authority⟩, fun m => ⟨m.cells, m.inside, m.lines⟩⟩

theorem setFree_sound {s t : State} (h : Sound s t) (v : Nat) : Sound s (t.setFree v) :=
  h.trans ⟨fun c => ⟨c.rf, c.iu, c.badFrames⟩,
    fun ⟨l, r⟩ => ⟨⟨l.westPartner, l.eastPartner, l.westSilence, l.eastSilence, l.trial, l.cold⟩,
      ⟨r.sending, r.beacons, r.noEgress, r.closed⟩⟩, fun _ x => x,
    fun c => ⟨c.guardDistance, c.standby, c.downshift, c.energyReset, c.beaconPeriod, c.absence, c.claimTimeout,
      c.noticeInterval, c.noticeTarget, c.authority⟩, fun m => ⟨m.cells, m.inside, m.lines⟩⟩

theorem setPending_sound {s t : State} (h : Sound s t) (v : List Instr) : Sound s (t.setPending v) :=
  h.trans ⟨fun c => ⟨c.rf, c.iu, c.badFrames⟩,
    fun ⟨l, r⟩ => ⟨⟨l.westPartner, l.eastPartner, l.westSilence, l.eastSilence, l.trial, l.cold⟩,
      ⟨r.sending, r.beacons, r.noEgress, r.closed⟩⟩, fun _ x => x,
    fun c => ⟨c.guardDistance, c.standby, c.downshift, c.energyReset, c.beaconPeriod, c.absence, c.claimTimeout,
      c.noticeInterval, c.noticeTarget, c.authority⟩, fun m => ⟨m.cells, m.inside, m.lines⟩⟩

theorem setSerial_sound {s t : State} (h : Sound s t) (v : Serial)
    (hm : MemoryOk t → Memory.wf v.cells ∧ ∀ c ∈ v.cells, c.1 < 8192) : Sound s (t.setSerial v) :=
  h.trans ⟨fun c => ⟨c.rf, c.iu, c.badFrames⟩,
    fun ⟨l, r⟩ => ⟨⟨l.westPartner, l.eastPartner, l.westSilence, l.eastSilence, l.trial, l.cold⟩,
      ⟨r.sending, r.beacons, r.noEgress, r.closed⟩⟩, fun _ x => x,
    fun c => ⟨c.guardDistance, c.standby, c.downshift, c.energyReset, c.beaconPeriod, c.absence, c.claimTimeout,
      c.noticeInterval, c.noticeTarget, c.authority⟩, fun m => ⟨(hm m).1, (hm m).2, m.lines⟩⟩

theorem setSr_sound {s t : State} (h : Sound s t) (v : Sr) (hl : Lines.wf t.sr.lines → Lines.wf v.lines) :
    Sound s (t.setSr v) :=
  h.trans ⟨fun c => ⟨c.rf, c.iu, c.badFrames⟩,
    fun ⟨l, r⟩ => ⟨⟨l.westPartner, l.eastPartner, l.westSilence, l.eastSilence, l.trial, l.cold⟩,
      ⟨r.sending, r.beacons, r.noEgress, r.closed⟩⟩, fun _ x => x,
    fun c => ⟨c.guardDistance, c.standby, c.downshift, c.energyReset, c.beaconPeriod, c.absence, c.claimTimeout,
      c.noticeInterval, c.noticeTarget, c.authority⟩, fun m => ⟨m.cells, m.inside, hl m.lines⟩⟩

/-- An update of the loader's record that leaves the own address, the loader state and the cold mark alone. -/
theorem setCl_sound {s t : State} (h : Sound s t) (v : Cl) (ho : v.ownAddress = t.cl.ownAddress)
    (hl : v.loader = t.cl.loader) (hc : v.cold = t.cl.cold) : Sound s (t.setCl v) := by
  have hown : own (t.setCl v) = own t := by unfold own; simp [ho]
  have hp : ownPresent (t.setCl v) = ownPresent t := ownPresent_congr ho rfl
  have ht : ∀ b, targetOk t b → targetOk (t.setCl v) b := by intro b; unfold targetOk; rw [hown]; exact id
  exact h.trans ⟨fun c => ⟨c.rf, c.iu, c.badFrames⟩,
    fun ⟨l, r⟩ => ⟨⟨l.westPartner, l.eastPartner, l.westSilence, l.eastSilence, l.trial, by simpa [hc, hl] using l.cold⟩,
      ⟨r.sending, by simpa [hl] using r.beacons, r.noEgress, by simpa [hp] using r.closed⟩⟩,
    fun _ x => by simpa [derivedRing_congr (s := t) (t := t.setCl v) rfl rfl hp] using x,
    fun c => ⟨c.guardDistance, c.standby, c.downshift, c.energyReset, c.beaconPeriod, c.absence, c.claimTimeout,
      c.noticeInterval, ht _ c.noticeTarget, ht _ c.authority⟩, fun m => ⟨m.cells, m.inside, m.lines⟩⟩

/-- An update of a setting that is within its values. -/
theorem setDesk_sound {s t : State} (h : Sound s t) (v : Desk)
    (hs : SettingsInRange t → SettingsInRange (t.setDesk v)) : Sound s (t.setDesk v) :=
  h.trans ⟨fun c => ⟨c.rf, c.iu, c.badFrames⟩,
    fun ⟨l, r⟩ => ⟨⟨l.westPartner, l.eastPartner, l.westSilence, l.eastSilence, l.trial, l.cold⟩,
      ⟨r.sending, r.beacons, r.noEgress, r.closed⟩⟩, fun _ x => x, hs, fun m => ⟨m.cells, m.inside, m.lines⟩⟩

/-- An update of the West port that keeps its state, its partner record and its bad-frame bound, and starts no silence timer. -/
theorem setWlp_sound {s t : State} (h : Sound s t) (v : Wlp) (hs : v.state = t.wlp.state) (hp : v.partner = t.wlp.partner)
    (hi : v.silence.isSome → t.wlp.silence.isSome) (hb : t.wlp.badFrames ≤ 16 → v.badFrames ≤ 16) : Sound s (t.setWlp v) :=
  h.trans ⟨fun c => ⟨c.rf, c.iu, hb c.badFrames⟩,
    fun ⟨l, r⟩ => ⟨⟨by simpa [hs, hp] using l.westPartner, l.eastPartner, fun x => by simpa [hs] using l.westSilence (hi x),
        l.eastSilence, l.trial, by simpa [hs] using l.cold⟩,
      ⟨r.sending, r.beacons, r.noEgress, fun x => by simpa [hs] using r.closed x⟩⟩,
    fun _ x => by simpa [derivedRing_congr (s := t) (t := t.setWlp v) hs rfl rfl] using x,
    fun c => ⟨c.guardDistance, c.standby, c.downshift, c.energyReset, c.beaconPeriod, c.absence, c.claimTimeout,
      c.noticeInterval, c.noticeTarget, c.authority⟩, fun m => ⟨m.cells, m.inside, m.lines⟩⟩

/-- The same for the East port, which also keeps whether a trial is under way. -/
theorem setElp_sound {s t : State} (h : Sound s t) (v : Elp) (hs : v.state = t.elp.state) (hp : v.partner = t.elp.partner)
    (hi : v.silence.isSome → t.elp.silence.isSome) (ht : v.trial.isSome = t.elp.trial.isSome) : Sound s (t.setElp v) :=
  h.trans ⟨fun c => ⟨c.rf, c.iu, c.badFrames⟩,
    fun ⟨l, r⟩ => ⟨⟨l.westPartner, by simpa [hs, hp] using l.eastPartner, l.westSilence,
        fun x => by simpa [hs] using l.eastSilence (hi x), by simpa [hs, ht] using l.trial, by simpa [hs] using l.cold⟩,
      ⟨by simpa [hs] using r.sending, by simpa [hs] using r.beacons, by simpa [hs] using r.noEgress,
        fun x => by simpa [hs] using r.closed x⟩⟩,
    fun _ x => by simpa [derivedRing_congr (s := t) (t := t.setElp v) rfl hs rfl] using x,
    fun c => ⟨c.guardDistance, c.standby, c.downshift, c.energyReset, c.beaconPeriod, c.absence, c.claimTimeout,
      c.noticeInterval, c.noticeTarget, c.authority⟩, fun m => ⟨m.cells, m.inside, m.lines⟩⟩

end Sys2Proof.Machine
end

