-- ==== Sys2Proof/Laws/SoundLinks.lean ====
section
/-! SUPPORT. The ring forwarder's own operations and the link ports' operations keep what holds between steps. -/

namespace Sys2Proof.Machine

open Sys2Proof

/-! ## Forwarding and beacons -/

/-- The insertion queue's offer, whatever the frame. -/
theorem arbitrate_sound {s t : State} (h : Sound s t) : Sound s (arbitrate t) := by
  refine h.trans ?_
  unfold arbitrate
  split
  · rename_i hu
    have up := hu.1
    have one (v : Rf) (hp : v.presence = t.rf.presence) (hr : v.ring = t.rf.ring) (hb : v.beaconTimer = t.rf.beaconTimer)
        (caps : RfCaps t.rf → RfCaps v) : Sound t (t.setRf v) :=
      setRf_queues (.refl t) v caps hp hr (fun _ _ _ => up) (fun _ r => by simpa [hb] using r.beacons)
        (fun _ _ n => absurd up n)
    have ins (e : InsEntry) (es : List InsEntry) (hi : t.rf.insQ = e :: es) : Sound t (beginInsertion e es t) := by
      have b := one { t.rf with insQ := es, sending := some ⟨e.frame, .insertion⟩, share := 0 } rfl rfl rfl
        fun c => ⟨c.passQ, by have := c.insQ; rw [hi] at this; simp at this ⊢; omega, by simp⟩
      unfold beginInsertion
      dsimp only
      split
      · exact setMu_sound b _
      · exact b
    split
    · exact .refl t
    · rename_i f fs hp hi
      exact one _ rfl rfl rfl fun c => ⟨by have := c.passQ; rw [hp] at this; simp at this ⊢; omega, c.insQ, by simp⟩
    · rename_i e es hp hi
      exact ins e es hi
    · rename_i f fs e es hp hi
      split
      · exact one _ rfl rfl rfl fun c => ⟨by have := c.passQ; rw [hp] at this; simp at this ⊢; omega, c.insQ, by simp; omega⟩
      · exact ins e es hi
  · exact .refl t

theorem offerInsertion_sound {s t : State} (h : Sound s t) (e : InsEntry) : Sound s (offerInsertion e t).2 := by
  unfold offerInsertion
  split
  · rename_i hl
    exact arbitrate_sound (setRf_queues h _ (fun c => ⟨c.passQ, by simp; omega, c.share⟩) rfl rfl (fun _ r => r.sending)
      (fun _ r => r.beacons) fun _ r => r.noEgress)
  · exact setRf_plain h _ rfl rfl rfl rfl rfl rfl rfl

theorem forward_sound (f : Frame) {s t : State} (h : Sound s t) : Sound s (forward f t) := by
  have q (v : Rf) (up : t.elp.state = .up) (hn : v.sending = t.rf.sending) (hb : v.beaconTimer = t.rf.beaconTimer)
      (hp : v.presence = t.rf.presence) (hr : v.ring = t.rf.ring) (caps : RfCaps t.rf → RfCaps v) : Sound s (t.setRf v) :=
    setRf_queues h v caps hp hr (fun _ _ _ => up) (fun _ r => by simpa [hb] using r.beacons) fun _ _ n => absurd up n
  have drop : ∀ (l q' : List Frame), dropOldestStrip l = some q' → q'.length + 1 = l.length := by
    intro l
    induction l with
    | nil => intro q' hq; simp [dropOldestStrip] at hq
    | cons a l ih =>
      intro q' hq
      unfold dropOldestStrip at hq
      split at hq
      · cases hq; rfl
      · cases hd : dropOldestStrip l with
        | none => simp [hd] at hq
        | some x => simp [hd] at hq; subst hq; simp [ih x hd]
  unfold forward
  split
  · exact setRf_plain h _ rfl rfl rfl rfl rfl rfl rfl
  · rename_i hu
    have up : t.elp.state = .up := by simpa using hu
    split
    · rename_i hl
      exact arbitrate_sound (q _ up rfl rfl rfl rfl fun c => ⟨by simp; omega, c.insQ, c.share⟩)
    · split
      · exact setRf_plain h _ rfl rfl rfl rfl rfl rfl rfl
      · split
        · rename_i q' hq
          refine q _ up rfl rfl rfl rfl fun c => ⟨?_, c.insQ, c.share⟩
          have := drop _ _ hq; have := c.passQ; simp; omega
        · exact setRf_plain h _ rfl rfl rfl rfl rfl rfl rfl

/-- What the arbiter and an offer leave alone at the ports and the loader. -/
theorem offerInsertion_ports (e : InsEntry) (t : State) :
    (offerInsertion e t).2.elp = t.elp ∧ (offerInsertion e t).2.cl = t.cl ∧ (offerInsertion e t).2.wlp = t.wlp := by
  have arb : ∀ u : State, (arbitrate u).elp = u.elp ∧ (arbitrate u).cl = u.cl ∧ (arbitrate u).wlp = u.wlp := by
    intro u
    have ins (e : InsEntry) (es : List InsEntry) : (beginInsertion e es u).elp = u.elp ∧ (beginInsertion e es u).cl = u.cl ∧
        (beginInsertion e es u).wlp = u.wlp := by
      unfold beginInsertion; dsimp only; split <;> exact ⟨rfl, rfl, rfl⟩
    unfold arbitrate
    split
    · split
      · exact ⟨rfl, rfl, rfl⟩
      · exact ⟨rfl, rfl, rfl⟩
      · exact ins _ _
      · split
        · exact ⟨rfl, rfl, rfl⟩
        · exact ins _ _
    · exact ⟨rfl, rfl, rfl⟩
  unfold offerInsertion
  split
  · have := arb (t.setRf { t.rf with insQ := t.rf.insQ ++ [{ e with frame := stamp t e.frame }] })
    exact this
  · exact ⟨rfl, rfl, rfl⟩

theorem generateBeacon_sound {s t : State} (h : Sound s t) : Sound s (generateBeacon t) := by
  have k := offerInsertion_sound h ⟨beaconFrame t, false⟩
  unfold generateBeacon
  split <;> rename_i u hu <;> rw [hu] at k <;> exact setRf_plain k _ rfl rfl rfl rfl rfl rfl rfl

/-- The generator's tick, while it runs (R33). -/
theorem beaconTick_sound {s t : State} (h : Sound s t) (up : t.elp.state = .up) (run : t.cl.loader = .running) :
    Sound s (beaconTick t) := by
  have p := offerInsertion_ports ⟨beaconFrame t, false⟩ t
  have e : (generateBeacon t).elp = t.elp ∧ (generateBeacon t).cl = t.cl := by
    unfold generateBeacon
    split <;> rename_i u hu <;> rw [hu] at p <;> exact ⟨p.1, p.2.1⟩
  exact setRf_queues (generateBeacon_sound h) _ (fun c => ⟨c.passQ, c.insQ, c.share⟩) rfl rfl (fun _ r => r.sending)
    (fun _ _ _ => ⟨by simp [e, up], by simp [e, run]⟩) fun _ r => r.noEgress

theorem startBeacons_sound {s t : State} (h : Sound s t) : Sound s (startBeacons t) := by
  unfold startBeacons
  split
  · rename_i hc
    exact beaconTick_sound h hc.1 (by have := hc.2; unfold running at this; simpa using this)
  · exact h

/-! ## Closure and ring state -/

theorem endClosure_ownPresent (t : State) : ownPresent (endClosure t) = false := by
  have e : own (endClosure t) = own t := by unfold endClosure; split <;> rfl
  unfold ownPresent
  rw [e]
  split
  · rename_i i hi
    unfold endClosure
    rw [hi]
    simp
  · rfl

theorem endClosure_ports (t : State) : (endClosure t).wlp = t.wlp ∧ (endClosure t).elp = t.elp ∧ (endClosure t).cl = t.cl ∧
    (endClosure t).rf.passQ = t.rf.passQ ∧ (endClosure t).rf.insQ = t.rf.insQ ∧ (endClosure t).rf.share = t.rf.share ∧
    (endClosure t).rf.sending = t.rf.sending ∧ (endClosure t).rf.beaconTimer = t.rf.beaconTimer ∧
    (endClosure t).iu = t.iu ∧ (endClosure t).desk = t.desk ∧ (endClosure t).serial = t.serial ∧ (endClosure t).sr = t.sr := by
  unfold endClosure; split <;> simp

/-- A part of a step that keeps all but the agreement of ports and ring. -/
structure Tidy (s t : State) : Prop where
  caps : Capacities s → Capacities t
  settings : SettingsInRange s → SettingsInRange t
  memory : MemoryOk s → MemoryOk t

theorem Sound.tidy {s t : State} (h : Sound s t) : Tidy s t := ⟨h.caps, h.settings, h.memory⟩

theorem Tidy.trans {s t u : State} (h : Tidy s t) (k : Tidy t u) : Tidy s u :=
  ⟨k.caps ∘ h.caps, k.settings ∘ h.settings, k.memory ∘ h.memory⟩

/-- A part of a step that leaves what `Tidy` speaks of alone. -/
theorem Tidy.same {s t : State} (hr : RfCaps s.rf → RfCaps t.rf) (hi : t.iu = s.iu)
    (hb : s.wlp.badFrames ≤ 16 → t.wlp.badFrames ≤ 16) (hd : t.desk = s.desk) (ho : own t = own s)
    (hs : t.serial = s.serial) (hl : t.sr = s.sr) : Tidy s t := by
  have ht : ∀ b, targetOk s b → targetOk t b := by intro b; unfold targetOk; rw [ho]; exact id
  refine ⟨fun c => ⟨hr c.rf, hi ▸ c.iu, hb c.badFrames⟩, fun c => ?_, fun m => ⟨?_, ?_, ?_⟩⟩
  · constructor
    all_goals rw [hd]
    · exact c.guardDistance
    · exact c.standby
    · exact c.downshift
    · exact c.energyReset
    · exact c.beaconPeriod
    · exact c.absence
    · exact c.claimTimeout
    · exact c.noticeInterval
    · exact ht _ c.noticeTarget
    · exact ht _ c.authority
  · rw [hs]; exact m.cells
  · rw [hs]; exact m.inside
  · rw [hl]; exact m.lines

/-- What the ring forwarder keeps but for closure and ring state. -/
structure RingCore (s : State) : Prop where
  sending : s.rf.sending.isSome → s.elp.state = .up
  beacons : s.rf.beaconTimer.isSome → s.elp.state = .up ∧ s.cl.loader = .running
  noEgress : s.elp.state ≠ .up → s.rf.passQ = [] ∧ s.rf.share = 0

theorem RingPorts.core {s : State} (r : RingPorts s) : RingCore s := ⟨r.sending, r.beacons, r.noEgress⟩

theorem links_congr {s t : State} (l : LinksConsistent s) (hw : t.wlp = s.wlp) (he : t.elp = s.elp) (hc : t.cl = s.cl) :
    LinksConsistent t :=
  ⟨hw ▸ l.westPartner, he ▸ l.eastPartner, hw ▸ l.westSilence, he ▸ l.eastSilence, he ▸ l.trial, by rw [hc, hw, he]; exact l.cold⟩

/-- A port has left UP: whatever the ring state was, it agrees with the ports afterwards (R39, R40). -/
theorem afterLeavingUp_sound {s u : State} (tidy : Tidy s u)
    (link : LinksConsistent s ∧ RingPorts s → LinksConsistent u ∧ RingCore u) : Sound s (afterLeavingUp u) := by
  obtain ⟨pw, pe, pc, pq, pi, ps, pn, pb, piu, pd, pser, psr⟩ := endClosure_ports u
  set v := (endClosure u).setRf { (endClosure u).rf with ring := derivedRing (endClosure u) } with hv
  have tv : Tidy u v :=
    Tidy.same (fun c => ⟨by simpa [v, pq] using c.passQ, by simpa [v, pi] using c.insQ, by simpa [v, ps] using c.share⟩)
      (by simp [v, piu]) (by simp [v, pw]) (by simp [v, pd]) (by unfold own; simp [v, pc]) (by simp [v, pser]) (by simp [v, psr])
  have base : Sound s v := by
    have hp : ownPresent v = false := by
      rw [← endClosure_ownPresent u]; exact ownPresent_congr (by simp [v]) (by simp [v])
    refine ⟨(tidy.trans tv).caps, fun hl => ?_, fun _ _ => ?_, (tidy.trans tv).settings, (tidy.trans tv).memory⟩
    obtain ⟨l, c⟩ := link hl
    refine ⟨links_congr l (by simp [v, pw]) (by simp [v, pe]) (by simp [v, pc]), ?_, ?_, ?_, ?_⟩
    · simpa [v, pn, pe] using c.sending
    · simpa [v, pb, pe, pc] using c.beacons
    · simpa [v, pq, ps, pe] using c.noEgress
    · intro x; rw [hp] at x; cases x
    · rw [derivedRing_congr (s := endClosure u) (t := v) (by simp [v]) (by simp [v]) (by rw [hp, endClosure_ownPresent])]
      simp [v]
  have key : Sound s (raise .linkDown v) := base.trans (raise_keeps (.refl v) _).sound
  unfold afterLeavingUp
  dsimp only
  split
  · exact key.trans (raise_keeps (.refl _) _).sound
  · exact key

/-- The ELP has left UP (R16, R28, R32). -/
theorem elpLeft_sound {s u : State} (tidy : Tidy s u) (link : LinksConsistent s ∧ RingPorts s → LinksConsistent u) :
    Sound s (elpLeft u) := by
  have a : Tidy u (egressLost (u.setElp { u.elp with linkDown := bump u.elp.linkDown })) :=
    Tidy.same (fun c => ⟨by simp [egressLost], c.insQ, by simp [egressLost]⟩) rfl id rfl rfl rfl rfl
  have l : LinksConsistent u → LinksConsistent (egressLost (u.setElp { u.elp with linkDown := bump u.elp.linkDown })) :=
    fun l => ⟨l.westPartner, l.eastPartner, l.westSilence, l.eastSilence, l.trial, l.cold⟩
  have c : RingCore (egressLost (u.setElp { u.elp with linkDown := bump u.elp.linkDown })) :=
    ⟨by simp [egressLost], by simp [egressLost], by simp [egressLost]⟩
  unfold elpLeft
  dsimp only
  split
  · exact afterLeavingUp_sound (tidy.trans (a.trans (Tidy.same id rfl id rfl rfl rfl rfl)))
      fun h => ⟨links_congr (l (link h)) rfl rfl rfl, ⟨c.sending, c.beacons, c.noEgress⟩⟩
  · exact afterLeavingUp_sound (tidy.trans a) fun h => ⟨l (link h), c⟩

/-- The WLP has left UP (R14, R16). -/
theorem wlpLeft_sound (rxMid : Bool) {s u : State} (tidy : Tidy s u)
    (link : LinksConsistent s ∧ RingPorts s → LinksConsistent u ∧ RingCore u) : Sound s (wlpLeft rxMid u) :=
  afterLeavingUp_sound (tidy.trans (Tidy.same id rfl id rfl rfl rfl rfl)) fun h =>
    have ⟨l, c⟩ := link h
    ⟨⟨l.westPartner, l.eastPartner, l.westSilence, l.eastSilence, l.trial, l.cold⟩, ⟨c.sending, c.beacons, c.noEgress⟩⟩

/-- The ring state derived where the own entry is present with both ports UP alone. -/
theorem deriveRing_sound {s u : State} (tidy : Tidy s u)
    (link : LinksConsistent s ∧ RingPorts s → LinksConsistent u ∧ RingCore u ∧
      (ownPresent u = true → u.wlp.state = .up ∧ u.elp.state = .up)) : Sound s (deriveRing u) := by
  unfold deriveRing
  split
  · rename_i hr
    refine ⟨tidy.caps, fun h => ?_, fun _ _ => hr.symm, tidy.settings, tidy.memory⟩
    obtain ⟨l, c, o⟩ := link h
    exact ⟨l, c.sending, c.beacons, c.noEgress, o⟩
  · have base : Sound s (u.setRf { u.rf with ring := derivedRing u }) := by
      have k : Tidy u (u.setRf { u.rf with ring := derivedRing u }) :=
        Tidy.same (fun c => ⟨c.passQ, c.insQ, c.share⟩) rfl id rfl rfl rfl rfl
      refine ⟨(tidy.trans k).caps, fun h => ?_, fun _ _ => rfl, (tidy.trans k).settings, (tidy.trans k).memory⟩
      obtain ⟨l, c, o⟩ := link h
      exact ⟨links_congr l rfl rfl rfl, c.sending, c.beacons, c.noEgress, o⟩
    exact base.trans (raise_keeps (.refl _) _).sound

/-! ## Port transitions -/

theorem west_links {t : State} (l : LinksConsistent t) (v : Wlp) (hd : t.wlp.state ≠ .disabled)
    (hp : partnerWhen v.state v.partner) (hi : v.silence.isSome → v.state = .silent) : LinksConsistent (t.setWlp v) :=
  ⟨hp, l.eastPartner, hi, l.eastSilence, l.trial, fun c => absurd (l.cold c).2.1 hd⟩

theorem east_links {t : State} (l : LinksConsistent t) (v : Elp) (hd : t.elp.state ≠ .disabled)
    (hp : partnerWhen v.state v.partner) (hi : v.silence.isSome → v.state = .silent)
    (ht : v.trial.isSome ↔ v.state = .train) : LinksConsistent (t.setElp v) :=
  ⟨l.westPartner, hp, l.westSilence, hi, ht, fun c => absurd (l.cold c).2.2 hd⟩

theorem west_tidy (t : State) (v : Wlp) (hb : t.wlp.badFrames ≤ 16 → v.badFrames ≤ 16) : Tidy t (t.setWlp v) :=
  Tidy.same id rfl hb rfl rfl rfl rfl

theorem east_tidy (t : State) (v : Elp) : Tidy t (t.setElp v) := Tidy.same id rfl id rfl rfl rfl rfl

/-- A West port that is not UP moves to a state that is not UP. -/
theorem west_move {s t : State} (h : Sound s t) (v : Wlp) (hv : v.state ≠ .up) (ht : t.wlp.state ≠ .up)
    (hd : t.wlp.state ≠ .disabled) (hp : LinksConsistent t → partnerWhen v.state v.partner)
    (hi : LinksConsistent t → v.silence.isSome → v.state = .silent) (hb : t.wlp.badFrames ≤ 16 → v.badFrames ≤ 16) :
    Sound s (t.setWlp v) := by
  refine h.trans ⟨(west_tidy t v hb).caps, fun ⟨l, r⟩ => ?_, fun p x => ?_, (west_tidy t v hb).settings,
    (west_tidy t v hb).memory⟩
  · exact ⟨west_links l v hd (hp l) (hi l), r.sending, r.beacons, r.noEgress, fun x => absurd (r.closed x).1 ht⟩
  · have no : ownPresent t = false := by
      cases ho : ownPresent t with
      | false => rfl
      | true => exact absurd (p.2.closed ho).1 ht
    have no' : ownPresent (t.setWlp v) = false := no
    unfold derivedRing at x ⊢
    simpa [hv, ht, no, no'] using x

/-- An East port that is not UP moves to a state that is not UP. -/
theorem east_move {s t : State} (h : Sound s t) (v : Elp) (hv : v.state ≠ .up) (ht : t.elp.state ≠ .up)
    (hd : t.elp.state ≠ .disabled) (hp : LinksConsistent t → partnerWhen v.state v.partner)
    (hi : LinksConsistent t → v.silence.isSome → v.state = .silent)
    (htr : LinksConsistent t → (v.trial.isSome ↔ v.state = .train)) :
    Sound s (t.setElp v) := by
  refine h.trans ⟨(east_tidy t v).caps, fun ⟨l, r⟩ => ?_, fun p x => ?_, (east_tidy t v).settings, (east_tidy t v).memory⟩
  · exact ⟨east_links l v hd (hp l) (hi l) (htr l), fun x => absurd (r.sending x) ht, fun x => absurd (r.beacons x).1 ht,
      fun _ => r.noEgress ht, fun x => absurd (r.closed x).2 ht⟩
  · have no : ownPresent t = false := by
      cases ho : ownPresent t with
      | false => rfl
      | true => exact absurd (p.2.closed ho).2 ht
    have no' : ownPresent (t.setElp v) = false := no
    unfold derivedRing at x ⊢
    simpa [hv, ht, no, no'] using x

/-- The West port in UP leaves it. -/
theorem west_leave (rxMid : Bool) {s t : State} (h : Sound s t) (v : Wlp) (ht : t.wlp.state = .up)
    (hp : LinksConsistent t → partnerWhen v.state v.partner)
    (hi : LinksConsistent t → v.silence.isSome → v.state = .silent)
    (hb : t.wlp.badFrames ≤ 16 → v.badFrames ≤ 16) : Sound s (wlpLeft rxMid (t.setWlp v)) :=
  wlpLeft_sound rxMid (h.tidy.trans (west_tidy t v hb)) fun hl =>
    have ⟨l, r⟩ := h.ports hl
    ⟨west_links l v (by rw [ht]; decide) (hp l) (hi l), r.sending, r.beacons, r.noEgress⟩

/-- The East port in UP leaves it. -/
theorem east_leave {s t : State} (h : Sound s t) (v : Elp) (ht : t.elp.state = .up)
    (hp : LinksConsistent t → partnerWhen v.state v.partner)
    (hi : LinksConsistent t → v.silence.isSome → v.state = .silent)
    (htr : LinksConsistent t → (v.trial.isSome ↔ v.state = .train)) :
    Sound s (elpLeft (t.setElp v)) :=
  elpLeft_sound (h.tidy.trans (east_tidy t v)) fun hl =>
    east_links (h.ports hl).1 v (by rw [ht]; decide) (hp (h.ports hl).1) (hi (h.ports hl).1) (htr (h.ports hl).1)

/-! ## Energy -/

theorem energyFound_sound (p : Port) {s t : State} (h : Sound s t) : Sound s (energyFound p t) := by
  unfold energyFound
  split
  · split
    · rename_i hs
      refine west_move h _ (by simp) (by simp [hs]) (by simp [hs]) (fun l => ?_) (by simp) (by simp)
      have := l.westPartner; simp [hs, partnerWhen] at this ⊢; exact this
    · exact setWlp_sound h _ rfl rfl id id
  · split
    · rename_i hs
      refine east_move h _ (by simp) (by simp [hs]) (by simp [hs]) (fun l => ?_) (by simp) (fun l => ?_)
      · have := l.eastPartner; simp [hs, partnerWhen] at this ⊢; exact this
      · have := l.trial; simp [hs] at this ⊢; exact this
    · exact setElp_sound h _ rfl rfl id rfl

theorem energyGone_sound (p : Port) (rxMid : Bool) {s t : State} (h : Sound s t) : Sound s (energyGone p rxMid t) := by
  unfold energyGone
  split
  · have e := setWlp_sound h { t.wlp with energy := false } rfl rfl id id
    dsimp only
    split
    · exact e
    · exact e
    all_goals
      rename_i hs
      first
        | (rw [if_neg (by rw [hs]; decide)]
           exact west_move e _ (by simp) (by simp [hs]) (by simp [hs]) (fun _ => by simp [partnerWhen]) (by simp) (by simp))
        | (rw [if_pos hs]
           exact west_leave rxMid e _ (by simp [hs]) (fun _ => by simp [partnerWhen]) (by simp) (by simp))
  · have e := setElp_sound h { t.elp with energy := false } rfl rfl id rfl
    dsimp only
    split
    · exact e
    · exact e
    all_goals
      rename_i hs
      first
        | (rw [if_neg (by rw [hs]; decide)]
           exact east_move e _ (by simp) (by simp [hs]) (by simp [hs]) (fun _ => by simp [partnerWhen]) (by simp) (by simp))
        | (rw [if_pos hs]
           exact east_leave e _ (by simp [hs]) (fun _ => by simp [partnerWhen]) (by simp) (by simp))

theorem silenceExpired_sound (p : Port) {s t : State} (h : Sound s t) : Sound s (silenceExpired p t) := by
  unfold silenceExpired
  split <;> split
  · exact setWlp_sound h _ rfl rfl (by simp) id
  · exact h
  · exact setElp_sound h _ rfl rfl (by simp) rfl
  · exact h

/-! ## Trials and capability words -/

theorem sendSymbols_sound (p : Port) (l : List LineSymbol) {s t : State} (h : Sound s t) : Sound s (sendSymbols p l t) :=
  setLineOut_sound h _

/-- A trial begun by a port in service that is not UP, its partner record present. -/
theorem beginTrialAt_move (r : Rate) {s t : State} (h : Sound s t) (ht : t.elp.state ≠ .up) (hd : t.elp.state ≠ .disabled)
    (hs : t.elp.state ≠ .silent) (hp : LinksConsistent t → t.elp.partner.isSome) : Sound s (beginTrialAt r t) := by
  refine sendSymbols_sound _ _ (east_move h _ (by simp) ht hd (fun l => by simp [partnerWhen, hp l]) (fun l x => ?_) (by simp))
  exact absurd (l.eastSilence x) hs

/-- A trial begun by a port as it leaves UP. -/
theorem beginTrialAt_leave (r : Rate) {s t : State} (h : Sound s t) (ht : t.elp.state = .up)
    (hp : LinksConsistent t → t.elp.partner.isSome) : Sound s (elpLeft (beginTrialAt r t)) := by
  have l0 : Tidy t (beginTrialAt r t) := Tidy.same id rfl id rfl rfl rfl rfl
  refine elpLeft_sound (h.tidy.trans l0) fun hl => ?_
  have l := (h.ports hl).1
  refine links_congr (east_links l { t.elp with state := .train, trial := some ⟨r, 0⟩ } (by rw [ht]; decide)
    (by simp [partnerWhen, hp l]) (fun x => ?_) (by simp)) rfl rfl rfl
  exact absurd (l.eastSilence x) (by rw [ht]; decide)

/-- A stored partner record, the state unchanged in TRAIN, UP or MISMATCH. -/
theorem partner_sound {s t : State} (h : Sound s t) (w : CapWord)
    (hs : t.elp.state = .train ∨ t.elp.state = .up ∨ t.elp.state = .mismatch) :
    Sound s (t.setElp { t.elp with partner := some w }) := by
  refine h.trans ⟨(east_tidy t _).caps, fun ⟨l, r⟩ => ?_, fun _ x => x, (east_tidy t _).settings, (east_tidy t _).memory⟩
  exact ⟨⟨l.westPartner, by simp [partnerWhen, hs], l.westSilence, l.eastSilence, l.trial, l.cold⟩,
    r.sending, r.beacons, r.noEgress, r.closed⟩

theorem wlpCap_sound (w : CapWord) (rxMid : Bool) {s t : State} (h : Sound s t) : Sound s (wlpCap w rxMid t) := by
  have silent (hs : t.wlp.state ≠ .silent) : LinksConsistent t → t.wlp.silence.isSome → False :=
    fun l x => hs (l.westSilence x)
  have mv (v : Wlp) (hv : v.state = .train ∨ v.state = .mismatch) (hp : v.partner = some w) (hsl : v.silence = t.wlp.silence)
      (hb : v.badFrames = t.wlp.badFrames) (h1 : t.wlp.state ≠ .up) (h2 : t.wlp.state ≠ .disabled) (h3 : t.wlp.state ≠ .silent) :
      Sound s (t.setWlp v) :=
    west_move h v (by rcases hv with e | e <;> simp [e]) h1 h2 (fun _ => by rcases hv with e | e <;> simp [partnerWhen, e, hp])
      (fun l x => (silent h3 l (hsl ▸ x)).elim) (hb ▸ id)
  have lv (v : Wlp) (hv : v.state = .train ∨ v.state = .mismatch) (hp : v.partner = some w) (hsl : v.silence = t.wlp.silence)
      (hb : v.badFrames = t.wlp.badFrames) (h1 : t.wlp.state = .up) : Sound s (wlpLeft rxMid (t.setWlp v)) :=
    west_leave rxMid h v h1 (fun _ => by rcases hv with e | e <;> simp [partnerWhen, e, hp])
      (fun l x => (silent (by simp [h1]) l (hsl ▸ x)).elim) (hb ▸ id)
  have r (k : EventKind) {u : State} (hu : Sound s u) : Sound s (raise k u) := hu.trans (raise_keeps (.refl u) k).sound
  unfold wlpCap
  dsimp only
  split
  · exact h
  · exact h
  · rename_i hs
    split
    · exact mv _ (.inl rfl) rfl rfl rfl (by simp [hs]) (by simp [hs]) (by simp [hs])
    · exact r _ (mv _ (.inr rfl) rfl rfl rfl (by simp [hs]) (by simp [hs]) (by simp [hs]))
  · rename_i hs
    split
    · exact h
    · split
      · exact mv _ (.inl rfl) rfl rfl rfl (by simp [hs]) (by simp [hs]) (by simp [hs])
      · exact r _ (mv _ (.inr rfl) rfl rfl rfl (by simp [hs]) (by simp [hs]) (by simp [hs]))
  · rename_i hs
    split
    · exact h
    · split
      · exact lv _ (.inl rfl) rfl rfl rfl hs
      · exact r _ (lv _ (.inr rfl) rfl rfl rfl hs)
  · rename_i hs
    split
    · exact h
    · split
      · exact mv _ (.inl rfl) rfl rfl rfl (by simp [hs]) (by simp [hs]) (by simp [hs])
      · exact mv _ (.inr hs) rfl rfl rfl (by simp [hs]) (by simp [hs]) (by simp [hs])

/-- The ELP begins a trial, or enters MISMATCH, with a partner record stored, from a state in service that is not UP. -/
theorem elp_stores {s t : State} (h : Sound s t) (w : CapWord) (h1 : t.elp.state ≠ .up) (h2 : t.elp.state ≠ .disabled)
    (h3 : t.elp.state ≠ .silent) : Sound s (beginTrial (t.setElp { t.elp with partner := some w })) ∧
      Sound s (elpMismatch (t.setElp { t.elp with partner := some w })) := by
  constructor
  · refine sendSymbols_sound _ _ (east_move h _ (by simp) h1 h2 (fun _ => by simp [partnerWhen]) (fun l x => ?_) (by simp))
    exact absurd (l.eastSilence x) h3
  · refine east_move h _ (by simp) h1 h2 (fun _ => by simp [partnerWhen]) (fun l x => ?_) (by simp)
    exact absurd (l.eastSilence x) h3

theorem elpCap_sound (w : CapWord) {s t : State} (h : Sound s t) : Sound s (elpCap w t) := by
  have r (k : EventKind) {u : State} (hu : Sound s u) : Sound s (raise k u) := hu.trans (raise_keeps (.refl u) k).sound
  unfold elpCap
  dsimp only
  split
  · exact h
  · exact h
  · rename_i hs
    have e := elp_stores h w (by simp [hs]) (by simp [hs]) (by simp [hs])
    split
    · exact e.1
    · exact r _ e.2
  · rename_i hs
    have e := elp_stores h w (by simp [hs]) (by simp [hs]) (by simp [hs])
    split
    · exact h
    · split
      · exact e.1
      · exact r _ e.2
  · rename_i hs
    have e := partner_sound h w (by simp [hs])
    split
    · exact h
    · split
      · exact beginTrialAt_leave _ e (by simp [hs]) (fun _ => by simp)
      · refine r _ (east_leave e { t.elp with partner := some w, state := .mismatch, trial := none } (by simp [hs])
          (fun _ => by simp [partnerWhen]) (fun l x => ?_) (by simp))
        exact absurd (l.eastSilence x) (by simp [hs])
  · rename_i hs
    have e := elp_stores h w (by simp [hs]) (by simp [hs]) (by simp [hs])
    split
    · exact h
    · split
      · exact e.1
      · exact partner_sound h w (by simp [hs])

/-- A partner record that is accepted is present. -/
theorem recordAccepted_some {t : State} {p : Option CapWord} (h : recordAccepted t p = true) : p.isSome := by
  unfold recordAccepted at h; split at h <;> simp_all

theorem wlpOwnWord_sound (rxMid : Bool) {s t : State} (h : Sound s t) : Sound s (wlpOwnWord rxMid t) := by
  have r (k : EventKind) {u : State} (hu : Sound s u) : Sound s (raise k u) := hu.trans (raise_keeps (.refl u) k).sound
  have e := sendSymbols_sound .west [.cap (ownWord t)] h
  have part (hs : t.wlp.state = .train ∨ t.wlp.state = .up ∨ t.wlp.state = .mismatch) : LinksConsistent t → t.wlp.partner.isSome :=
    fun l => l.westPartner.2 hs
  have silent (hs : t.wlp.state ≠ .silent) : LinksConsistent t → t.wlp.silence.isSome → False :=
    fun l x => hs (l.westSilence x)
  unfold wlpOwnWord
  dsimp only
  split
  · exact h
  · exact h
  · exact h
  · rename_i hs
    split
    · exact west_move e _ (by simp) (by simp [sendSymbols, hs]) (by simp [sendSymbols, hs])
        (fun l => by have := part (by simp [hs]) ⟨l.westPartner, l.eastPartner, l.westSilence, l.eastSilence, l.trial, l.cold⟩
                     simpa [partnerWhen, sendSymbols] using this)
        (fun l x => (silent (by simp [hs]) ⟨l.westPartner, l.eastPartner, l.westSilence, l.eastSilence, l.trial, l.cold⟩ x).elim) id
    · exact r _ (west_move e _ (by simp) (by simp [sendSymbols, hs]) (by simp [sendSymbols, hs])
        (fun l => by have := part (by simp [hs]) ⟨l.westPartner, l.eastPartner, l.westSilence, l.eastSilence, l.trial, l.cold⟩
                     simpa [partnerWhen, sendSymbols] using this)
        (fun l x => (silent (by simp [hs]) ⟨l.westPartner, l.eastPartner, l.westSilence, l.eastSilence, l.trial, l.cold⟩ x).elim) id)
  · rename_i hs
    split
    · exact west_leave rxMid e _ (by simp [sendSymbols, hs])
        (fun l => by have := part (by simp [hs]) ⟨l.westPartner, l.eastPartner, l.westSilence, l.eastSilence, l.trial, l.cold⟩
                     simpa [partnerWhen, sendSymbols] using this)
        (fun l x => (silent (by simp [hs]) ⟨l.westPartner, l.eastPartner, l.westSilence, l.eastSilence, l.trial, l.cold⟩ x).elim) id
    · exact r _ (west_leave rxMid e _ (by simp [sendSymbols, hs])
        (fun l => by have := part (by simp [hs]) ⟨l.westPartner, l.eastPartner, l.westSilence, l.eastSilence, l.trial, l.cold⟩
                     simpa [partnerWhen, sendSymbols] using this)
        (fun l x => (silent (by simp [hs]) ⟨l.westPartner, l.eastPartner, l.westSilence, l.eastSilence, l.trial, l.cold⟩ x).elim) id)
  · rename_i hs
    split
    · exact west_move e _ (by simp) (by simp [sendSymbols, hs]) (by simp [sendSymbols, hs])
        (fun l => by have := part (by simp [hs]) ⟨l.westPartner, l.eastPartner, l.westSilence, l.eastSilence, l.trial, l.cold⟩
                     simpa [partnerWhen, sendSymbols] using this)
        (fun l x => (silent (by simp [hs]) ⟨l.westPartner, l.eastPartner, l.westSilence, l.eastSilence, l.trial, l.cold⟩ x).elim) id
    · exact e

theorem elpOwnWord_sound {s t : State} (h : Sound s t) : Sound s (elpOwnWord t) := by
  have r (k : EventKind) {u : State} (hu : Sound s u) : Sound s (raise k u) := hu.trans (raise_keeps (.refl u) k).sound
  have e := sendSymbols_sound .east [.cap (ownWord t)] h
  have part (hs : t.elp.state = .train ∨ t.elp.state = .up ∨ t.elp.state = .mismatch) :
      LinksConsistent (sendSymbols .east [.cap (ownWord t)] t) → t.elp.partner.isSome := fun l => l.eastPartner.2 hs
  have mis (h1 : t.elp.state ≠ .up) (h2 : t.elp.state ≠ .disabled) (h3 : t.elp.state ≠ .silent)
      (hs : t.elp.state = .train ∨ t.elp.state = .up ∨ t.elp.state = .mismatch) :
      Sound s (elpMismatch (sendSymbols .east [.cap (ownWord t)] t)) := by
    refine east_move e _ (by simp) h1 h2 (fun l => ?_) (fun l x => ?_) (by simp)
    · have := part hs l; simpa [partnerWhen, sendSymbols] using this
    · exact absurd (l.eastSilence x) h3
  unfold elpOwnWord
  dsimp only
  split
  · exact h
  · exact h
  · exact h
  · rename_i hs
    split
    · exact beginTrialAt_move _ e (by simp [sendSymbols, hs]) (by simp [sendSymbols, hs]) (by simp [sendSymbols, hs])
        (part (by simp [hs]))
    · exact r _ (mis (by simp [hs]) (by simp [hs]) (by simp [hs]) (by simp [hs]))
  · rename_i hs
    split
    · exact beginTrialAt_leave _ e (by simp [sendSymbols, hs]) (part (by simp [hs]))
    · refine r _ (east_leave e _ (by simp [sendSymbols, hs]) (fun l => ?_) (fun l x => ?_) (by simp))
      · have := part (by simp [hs]) l; simpa [partnerWhen, sendSymbols] using this
      · exact absurd (l.eastSilence x) (by simp [sendSymbols, hs])
  · rename_i hs
    split
    · exact beginTrialAt_move _ e (by simp [sendSymbols, hs]) (by simp [sendSymbols, hs]) (by simp [sendSymbols, hs])
        (part (by simp [hs]))
    · exact e

/-! ## Training -/

theorem wlpTrial_sound (r : Rate) (rxMid : Bool) {s t : State} (h : Sound s t) : Sound s (wlpTrial r rxMid t) := by
  unfold wlpTrial
  dsimp only
  split
  · rename_i hs
    refine west_move h _ (by simp) (by simp [hs]) (by simp [hs]) (fun l => ?_) (fun l x => ?_) id
    · have := l.westPartner; simpa [partnerWhen, hs] using this
    · exact absurd (l.westSilence x) (by simp [hs])
  · rename_i hs
    refine west_leave rxMid h _ hs (fun l => ?_) (fun l x => ?_) id
    · have := l.westPartner; simpa [partnerWhen, hs] using this
    · exact absurd (l.westSilence x) (by simp [hs])
  all_goals exact h

theorem wlpGo_sound {s t : State} (h : Sound s t) : Sound s (wlpGo t) := by
  unfold wlpGo
  split
  · rename_i hs
    refine deriveRing_sound (h.tidy.trans (west_tidy t _ (by simp))) fun hl => ?_
    obtain ⟨l, r⟩ := h.ports hl
    refine ⟨west_links l _ (by rw [hs.1]; decide) ?_ ?_, ⟨r.sending, r.beacons, r.noEgress⟩, ?_⟩
    · have := l.westPartner; simpa [partnerWhen, hs.1] using this
    · intro x; exact absurd (l.westSilence x) (by simp [hs.1])
    · intro x; exact ⟨rfl, (r.closed x).2⟩
  · exact h

theorem elpLock_sound (r : Rate) {s t : State} (h : Sound s t) : Sound s (elpLock r t) := by
  unfold elpLock
  split
  · rename_i hs
    set u := sendSymbols .east [.go] (t.setElp { t.elp with state := .up, trial := none, agreed := some r, attempts := 0 }) with hu
    have tu : Tidy t u := Tidy.same id rfl id rfl rfl rfl rfl
    have pu : LinksConsistent t ∧ RingPorts t → LinksConsistent u ∧ RingPorts u := fun ⟨l, p⟩ => by
      have no : ownPresent t = false := by
        cases ho : ownPresent t with
        | false => rfl
        | true => exact absurd (p.closed ho).2 (by simp [hs.1])
      have no' : ownPresent u = false := no
      refine ⟨links_congr (east_links l { t.elp with state := .up, trial := none, agreed := some r, attempts := 0 }
        (by rw [hs.1]; decide) ?_ ?_ (by simp)) rfl rfl rfl, fun _ => rfl, fun x => absurd (p.beacons x).1 (by simp [hs.1]),
        fun n => absurd rfl n, fun x => by rw [no'] at x; cases x⟩
      · have := l.eastPartner; simpa [partnerWhen, hs.1] using this
      · intro x; exact absurd (l.eastSilence x) (by simp [hs.1])
    have w := startBeacons_sound (arbitrate_sound (.refl u))
    exact deriveRing_sound (h.tidy.trans (tu.trans w.tidy)) fun hl =>
      have ⟨l, p⟩ := w.ports (pu (h.ports hl))
      ⟨l, p.core, p.closed⟩
  · exact h

theorem trialFailed_sound (r : Rate) {s t : State} (h : Sound s t) : Sound s (trialFailed r t) := by
  unfold trialFailed
  split
  · exact setElp_sound h _ rfl rfl id rfl
  · split
    · split
      · exact (setElp_sound h { t.elp with attempts := 0, ceiling := _ } rfl rfl id rfl).trans (raise_keeps (.refl _) _).sound
      · exact setElp_sound h _ rfl rfl id rfl
    · exact setElp_sound h _ rfl rfl id rfl

theorem elpRetrain_sound {s t : State} (h : Sound s t) : Sound s (elpRetrain t) := by
  unfold elpRetrain
  split
  · rename_i hs
    exact beginTrialAt_leave _ h hs fun l => l.eastPartner.2 (by simp [hs])
  · exact h

theorem lockLost_sound (p : Port) (rxMid : Bool) {s t : State} (h : Sound s t) : Sound s (lockLost p rxMid t) := by
  unfold lockLost
  split
  · split
    · rename_i hs
      have k : Tidy t (sendSymbols .west [.loss]
          (t.setWlp { t.wlp with state := .advertise, partner := none, target := none, locked := false })) :=
        Tidy.same id rfl id rfl rfl rfl rfl
      refine wlpLeft_sound rxMid (h.tidy.trans k) fun hl => ?_
      obtain ⟨l, r⟩ := h.ports hl
      refine ⟨links_congr (west_links l { t.wlp with state := .advertise, partner := none, target := none, locked := false }
        (by rw [hs]; decide) (by simp [partnerWhen]) ?_) rfl rfl rfl, r.sending, r.beacons, r.noEgress⟩
      intro x; exact absurd (l.westSilence x) (by simp [hs])
    · exact setWlp_sound h _ rfl rfl id id
  · split
    · rename_i hs
      refine east_leave h _ hs (fun _ => by simp [partnerWhen]) (fun l x => ?_) (fun l => ?_)
      · exact absurd (l.eastSilence x) (by simp [hs])
      · have := l.trial; simpa [hs] using this
    · exact h

theorem errorBurst_sound (rxMid : Bool) {s t : State} (h : Sound s t) : Sound s (errorBurst rxMid t) := by
  unfold errorBurst
  split
  · rename_i hs
    have k : Tidy t (wlpWaits (sendSymbols .west [.retrain] (t.setWlp { t.wlp with badFrames := 0 }))) :=
      Tidy.same id rfl (by simp [wlpWaits, sendSymbols]) rfl rfl rfl rfl
    refine wlpLeft_sound rxMid (h.tidy.trans k) fun hl => ?_
    obtain ⟨l, r⟩ := h.ports hl
    refine ⟨links_congr (west_links l { t.wlp with badFrames := 0, state := .train, target := none, locked := false }
      (by rw [hs.1]; decide) ?_ ?_) rfl rfl rfl, r.sending, r.beacons, r.noEgress⟩
    · have := l.westPartner; simpa [partnerWhen, hs.1] using this
    · intro x; exact absurd (l.westSilence x) (by simp [hs.1])
  · exact h

end Sys2Proof.Machine
end

