-- ==== Sys2Proof/Laws/Quiet.lean ====
section
/-! SUPPORT. Operations that bring no RESET response about, and what a port's departure from UP leaves alone. -/

namespace Sys2Proof.Machine

open Sys2Proof

/-- Where no RESET is in hand, a command ends with the state it left (R179). -/
theorem completed_next {t : State} (h : NoReset t) : completed t = .next t := by
  unfold completed finish; simp [h.mu.due]

theorem completed_settled {t : State} (h : t.mu.resetDue = false) : completed t = .next t := by
  unfold completed finish; simp [h]

/-- No RESET is in hand where the management unit and the insertion queue are as they were. -/
theorem NoReset.congr {s t : State} (h : NoReset s) (hm : t.mu = s.mu) (hi : t.rf.insQ = s.rf.insQ) : NoReset t :=
  ⟨by rw [hm]; exact h.mu, by rw [hi]; exact h.insQ⟩

theorem raise_quiet (k : EventKind) {t : State} (h : NoReset t) : NoReset (raise k t) := (raise_keeps (.refl t) k).quiet h

theorem arbitrate_quiet {t : State} (h : NoReset t) : NoReset (arbitrate t) := (arbitrate_keeps (.refl t)).quiet h

theorem offerInsertion_quiet (e : InsEntry) (he : e.resetResponse = false) {t : State} (h : NoReset t) :
    NoReset (offerInsertion e t).2 := (offerInsertion_keeps (.refl t) e he).quiet h

/-- The arbiter's choice in table form (R31). -/
theorem arbitrate_table {t : State} (n : NoReset t) :
    arbitrate t = if t.elp.state = .up ∧ t.rf.sending = none then t.setRf (arbiterTable t.rf) else t := by
  unfold arbitrate arbiterTable
  split
  · have plain {e : InsEntry} {es : List InsEntry} {p : List Frame} (hi : t.rf.insQ = e :: es) (hp : t.rf.passQ = p) :
        beginInsertion e es t =
          t.setRf { t.rf with passQ := p, insQ := es, sending := some ⟨e.frame, .insertion⟩, share := 0 } := by
      subst hp
      unfold beginInsertion; simp [n.insQ e (by rw [hi]; exact List.mem_cons_self)]
    rcases hp : t.rf.passQ with _ | ⟨f, fs⟩ <;> rcases hi : t.rf.insQ with _ | ⟨e, es⟩
    · rfl
    · exact plain hi hp
    · dsimp only; rw [hi]
    · dsimp only
      split
      · rw [hi]
      · exact plain hi hp
  · rfl

/-- A frame that is no RESET response, offered at a queue with room (R29). -/
theorem offerInsertion_accepted {t : State} (n : NoReset t) (e : InsEntry) (he : e.resetResponse = false)
    (h : t.rf.insQ.length < 12) :
    offerInsertion e t = (true, t.setRf (takeIn t { e with frame := stamp t e.frame })) := by
  have q : NoReset (t.setRf { t.rf with insQ := t.rf.insQ ++ [{ e with frame := stamp t e.frame }] }) := by
    refine ⟨n.mu, fun x hx => ?_⟩
    rcases List.mem_append.1 hx with hx | hx
    · exact n.insQ x hx
    · simp at hx; subst hx; exact he
  unfold offerInsertion takeIn
  rw [if_pos h, arbitrate_table q]
  dsimp only
  congr 1
  split <;> rename_i hc
  · rw [if_pos (by exact hc)]; rfl
  · rw [if_neg (by exact hc)]

/-- A frame, offered at a full queue (R29). -/
theorem offerInsertion_refused (e : InsEntry) (t : State) (h : ¬ t.rf.insQ.length < 12) :
    offerInsertion e t = (false, t.setRf { t.rf with c := { t.rf.c with insFull := bump t.rf.c.insFull } }) := by
  unfold offerInsertion; rw [if_neg h]

theorem deriveRing_quiet {t : State} (h : NoReset t) : NoReset (deriveRing t) := by
  unfold deriveRing
  split
  · exact h
  · exact raise_quiet _ (h.congr rfl rfl)

theorem deriveRing_posts (t : State) : Posts t (deriveRing t) := by
  unfold deriveRing
  split
  · exact .refl t
  · exact (setRf_posts t _).trans (raise_posts _ _)

/-- The ring state stands as derived (R40). -/
theorem deriveRing_ring (t : State) : (deriveRing t).rf.ring = derivedRing t ∧ (deriveRing t).rf.presence = t.rf.presence := by
  unfold deriveRing
  split
  · rename_i h; exact ⟨h.symm, rfl⟩
  · have k := (raise_keeps (.refl (t.setRf { t.rf with ring := derivedRing t })) .ringState).same
    exact ⟨k.ring, k.presence⟩

theorem endClosure_quiet {t : State} (h : NoReset t) : NoReset (endClosure t) := by
  unfold endClosure
  split <;> exact h.congr rfl rfl

theorem afterLeavingUp_quiet {t : State} (h : NoReset t) : NoReset (afterLeavingUp t) := by
  have k := raise_quiet .linkDown ((endClosure_quiet h).congr (t := (endClosure t).setRf
    { (endClosure t).rf with ring := derivedRing (endClosure t) }) rfl rfl)
  unfold afterLeavingUp
  dsimp only
  split
  · exact raise_quiet _ k
  · exact k

theorem endClosure_posts (t : State) : Posts t (endClosure t) := by
  unfold endClosure
  split <;> exact setRf_posts _ _

theorem afterLeavingUp_posts (t : State) : Posts t (afterLeavingUp t) := by
  have k := ((endClosure_posts t).trans (setRf_posts _ { (endClosure t).rf with ring := derivedRing (endClosure t) })).trans
    (raise_posts .linkDown _)
  unfold afterLeavingUp
  dsimp only
  split
  · exact k.trans (raise_posts _ _)
  · exact k

/-- A raised event stands in the pending set. -/
theorem pending_self (e : EventSet) (k : EventKind) : (e ||| EventKind.bit k) &&& EventKind.bit k ≠ 0 := by
  intro x
  have : EventKind.bit k = ((e ||| EventKind.bit k) &&& EventKind.bit k) := by
    ext i; simp
    intro h; exact .inr h
  rw [x] at this
  cases k <;> exact absurd this (by decide)

theorem raise_pending (k : EventKind) (t : State) : (raise k t).mu.events &&& EventKind.bit k ≠ 0 := by
  rw [raise_events]; exact pending_self _ _

theorem endClosure_events (t : State) : (endClosure t).mu.events = t.mu.events := by
  unfold endClosure; split <;> rfl

/-- A departure from UP raises LINK_DOWN (R16). -/
theorem afterLeavingUp_event (t : State) : (afterLeavingUp t).mu.events &&& EventKind.bit .linkDown ≠ 0 := by
  unfold afterLeavingUp
  dsimp only
  split
  · rw [raise_events, raise_events]; exact pending_or _ _ _ (pending_self _ _)
  · rw [raise_events]; exact pending_self _ _

/-- What the ring forwarder's queues, arbiter and beacon timer are after a departure from UP is what they were before the events. -/
theorem afterLeavingUp_idle {t : State} (up : t.elp.state ≠ .up) (hs : t.rf.sending = none) (hq : t.rf.passQ = [])
    (hh : t.rf.share = 0) (hb : t.rf.beaconTimer = none) :
    (afterLeavingUp t).rf.sending = none ∧ (afterLeavingUp t).rf.passQ = [] ∧ (afterLeavingUp t).rf.share = 0 ∧
      (afterLeavingUp t).rf.beaconTimer = none := by
  obtain ⟨pw, pe, pc, pq, pi, ps, pn, pb, piu, pd, pser, psr⟩ := endClosure_ports t
  have key (u : State) (k : EventKind) (h : u.elp.state ≠ .up ∧ u.rf.sending = none ∧ u.rf.passQ = [] ∧ u.rf.share = 0 ∧
      u.rf.beaconTimer = none) : (raise k u).elp.state ≠ .up ∧ (raise k u).rf.sending = none ∧ (raise k u).rf.passQ = [] ∧
      (raise k u).rf.share = 0 ∧ (raise k u).rf.beaconTimer = none := by
    have r := raise_keeps (.refl u) k
    have e : (raise k u).elp.state ≠ .up := by rw [r.same.elp]; exact h.1
    have n := r.noEgress (fun _ => ⟨h.2.2.1, h.2.2.2.1⟩) e
    refine ⟨e, ?_, n.1, n.2, by rw [r.same.beaconTimer]; exact h.2.2.2.2⟩
    cases x : (raise k u).rf.sending with
    | none => rfl
    | some f => exact absurd (r.sending (by simp [h.2.1]) (by simp [x])) e
  have b := key ((endClosure t).setRf { (endClosure t).rf with ring := derivedRing (endClosure t) }) .linkDown
    ⟨by simpa [pe] using up, by simpa [pn] using hs, by simpa [pq] using hq, by simpa [ps] using hh, by simpa [pb] using hb⟩
  unfold afterLeavingUp
  dsimp only
  split
  · exact (key _ _ b).2
  · exact b.2

/-- The ELP has left UP: the departure is counted, the egress is empty, LINK_DOWN is raised, and every other block but the ring
forwarder and the management unit is left alone (R16, R28, R32). -/
theorem elpLeft_spec {t : State} (h : NoReset t) (up : t.elp.state ≠ .up) :
    NoReset (elpLeft t) ∧ (elpLeft t).elp = { t.elp with linkDown := bump t.elp.linkDown } ∧ (elpLeft t).wlp = t.wlp ∧
      (elpLeft t).rf.sending = none ∧ (elpLeft t).rf.passQ = [] ∧ (elpLeft t).rf.share = 0 ∧ (elpLeft t).rf.beaconTimer = none ∧
      (elpLeft t).mu.events &&& EventKind.bit .linkDown ≠ 0 ∧ (elpLeft t).iu = t.iu ∧ (elpLeft t).cu = t.cu ∧
      (elpLeft t).desk = t.desk ∧ (elpLeft t).lineOut = t.lineOut ∧ (elpLeft t).cl = t.cl := by
  have e : elpLeft t = afterLeavingUp (egressLost (t.setElp { t.elp with linkDown := bump t.elp.linkDown })) := by
    have w : ((egressLost (t.setElp { t.elp with linkDown := bump t.elp.linkDown })).mu.work.map (·.resetQueued)).getD false =
        false := by
      show (t.mu.work.map (·.resetQueued)).getD false = false
      cases x : t.mu.work with
      | none => rfl
      | some w => exact h.mu.work w x
    unfold elpLeft
    simp [w]
  rw [e]
  have q : NoReset (egressLost (t.setElp { t.elp with linkDown := bump t.elp.linkDown })) := h.congr rfl rfl
  have p := afterLeavingUp_posts (egressLost (t.setElp { t.elp with linkDown := bump t.elp.linkDown }))
  have i := afterLeavingUp_idle (t := egressLost (t.setElp { t.elp with linkDown := bump t.elp.linkDown })) up rfl rfl rfl rfl
  exact ⟨afterLeavingUp_quiet q, p.elp, p.wlp, i.1, i.2.1, i.2.2.1, i.2.2.2, afterLeavingUp_event _, p.iu, p.cu, p.desk,
    p.lineOut, p.cl⟩

/-- The WLP has left UP: the departure is counted, LINK_DOWN is raised, and every other block but the ring forwarder and the
management unit is left alone (R14, R16). -/
theorem wlpLeft_spec (rxMid : Bool) {t : State} (h : NoReset t) :
    NoReset (wlpLeft rxMid t) ∧ (wlpLeft rxMid t).wlp = { t.wlp with
        linkDown := bump t.wlp.linkDown, truncated := if rxMid then bump t.wlp.truncated else t.wlp.truncated } ∧
      (wlpLeft rxMid t).elp = t.elp ∧ (wlpLeft rxMid t).mu.events &&& EventKind.bit .linkDown ≠ 0 ∧
      (wlpLeft rxMid t).iu = t.iu ∧ (wlpLeft rxMid t).cu = t.cu ∧ (wlpLeft rxMid t).desk = t.desk ∧
      (wlpLeft rxMid t).lineOut = t.lineOut := by
  have q : NoReset (t.setWlp { t.wlp with
      linkDown := bump t.wlp.linkDown, truncated := if rxMid then bump t.wlp.truncated else t.wlp.truncated }) := h.congr rfl rfl
  have p := afterLeavingUp_posts (t.setWlp { t.wlp with
      linkDown := bump t.wlp.linkDown, truncated := if rxMid then bump t.wlp.truncated else t.wlp.truncated })
  exact ⟨afterLeavingUp_quiet q, p.wlp, p.elp, afterLeavingUp_event _, p.iu, p.cu, p.desk, p.lineOut⟩

/-! ## Beacons -/

theorem generateBeacon_quiet {t : State} (h : NoReset t) : NoReset (generateBeacon t) := by
  have k := offerInsertion_quiet ⟨beaconFrame t, false⟩ rfl h
  unfold generateBeacon
  split <;> rename_i u hu <;> rw [hu] at k <;> exact k.congr rfl rfl

theorem generateBeacon_posts (t : State) : Posts t (generateBeacon t) := by
  have k := offerInsertion_posts ⟨beaconFrame t, false⟩ t
  unfold generateBeacon
  split <;> rename_i u hu <;> rw [hu] at k <;> exact k.trans (setRf_posts _ _)

theorem startBeacons_quiet {t : State} (h : NoReset t) : NoReset (startBeacons t) := by
  unfold startBeacons beaconTick
  split
  · exact (generateBeacon_quiet h).congr rfl rfl
  · exact h

theorem startBeacons_posts (t : State) : Posts t (startBeacons t) := by
  unfold startBeacons beaconTick
  split
  · exact (generateBeacon_posts t).trans (setRf_posts _ _)
  · exact .refl t

/-! ## A frame at the WLP -/

/-- A frame judged good at a WLP that is UP is decided on once its goodness has been counted (R15, R21). -/
theorem frameReceived_good {s : State} {f : Frame} {bytes : List Byte} (h : Heard s f)
    (j : judgeFrame s.cl.seed bytes = (.good, some f)) :
    exec (.frameReceived bytes) s = completed (decideFrame f (goodSeen s)) := by
  show completed (frameSeen bytes s) = _
  unfold frameSeen
  rw [if_neg (by simp [h.up]), if_neg h.burst, j]
  rfl

/-- A frame that reaches check 4 of R21 is routed with its hop count decremented (R24). -/
theorem decideFrame_arrives {s : State} {f : Frame} (h : Arrives s f) :
    decideFrame f (goodSeen s) = routeFrame (hopped f) (goodSeen s) := by
  unfold decideFrame
  rw [if_neg (by exact h.foreign), if_neg h.hops]
  rfl

end Sys2Proof.Machine
end

