-- ==== Sys2Proof/Laws/ClaimForms.lean ====
section
/-! SUPPORT. What each operation of the claim unit comes to: the claim unit after it, the events it raises, and the blocks it leaves
alone. -/

namespace Sys2Proof.Machine

open Sys2Proof

/-! ## Absence and presence -/

/-- The slot, the outbox and the count after an absence (R150). -/
theorem absentSlot_cu (i : Fin 16) (k : Slot) (t : State) : (absentSlot i k t).cu = { t.cu with
    slots := t.cu.slots.set i (some { k with request := none, held := .view, holder := none }),
    outbox := if k.request.isSome then t.cu.outbox.filter (fun m => ¬ (m.kind = .request ∧ m.slot = i)) else t.cu.outbox,
    c := { t.cu.c with absences := bump t.cu.c.absences } } := by
  unfold absentSlot countCu
  dsimp only
  rw [State.setCu_cu, (raise_posts _ _).cu]
  (repeat' split) <;> (try rw [(raise_posts _ _).cu]) <;> rfl

theorem absentSlot_pu (i : Fin 16) (k : Slot) (t : State) : (absentSlot i k t).pu = t.pu := by
  unfold absentSlot countCu
  dsimp only
  rw [State.setCu_pu, (raise_posts _ _).pu]
  (repeat' split) <;> (try rw [(raise_posts _ _).pu]) <;> rfl

/-- An absence raises SOURCE_ABSENT, and CLAIM_CHANGE where a level was held (R150). -/
theorem absentSlot_events (i : Fin 16) (k : Slot) (t : State) :
    (absentSlot i k t).mu.events &&& EventKind.bit .sourceAbsent ≠ 0 ∧
      (k.held ≠ .view → (absentSlot i k t).mu.events &&& EventKind.bit .claimChange ≠ 0) := by
  unfold absentSlot countCu
  dsimp only
  refine ⟨raise_pending _ _, fun h => ?_⟩
  rw [if_pos h]
  exact (raise_keeps (.refl _) _).events _ (raise_pending _ _)

theorem nodeIsAbsent_some {a : Byte} {n : Fin 62} (hn : nodeIndex a = some n) {t : State} {i : Fin 16} {k : Slot}
    (hi : slotOfAddr t a = some i) (hk : t.cu.slots[i] = some k) :
    nodeIsAbsent a t = claimReport none (absentSlot i k (t.setCu { t.cu with view := t.cu.view.set n false })) := by
  have hi' : slotOfAddr (t.setCu { t.cu with view := t.cu.view.set n false }) a = some i := hi
  have hk' : (t.setCu { t.cu with view := t.cu.view.set n false }).cu.slots[i] = some k := hk
  unfold nodeIsAbsent
  rw [hn]
  dsimp only
  rw [hi']
  dsimp only
  rw [hk']

theorem nodeIsAbsent_none {a : Byte} {n : Fin 62} (hn : nodeIndex a = some n) {t : State} (hi : slotOfAddr t a = none) :
    nodeIsAbsent a t = t.setCu { t.cu with view := t.cu.view.set n false } := by
  have hi' : slotOfAddr (t.setCu { t.cu with view := t.cu.view.set n false }) a = none := hi
  unfold nodeIsAbsent
  rw [hn]
  dsimp only
  rw [hi']

/-- The presence view after an absence; the panel unit is left alone (R150). -/
theorem nodeIsAbsent_view {a : Byte} {n : Fin 62} (hn : nodeIndex a = some n) (t : State) :
    (nodeIsAbsent a t).cu.view = t.cu.view.set n false ∧ (nodeIsAbsent a t).pu = t.pu := by
  unfold nodeIsAbsent
  rw [hn]
  dsimp only
  split
  · exact ⟨rfl, rfl⟩
  · split
    · exact ⟨rfl, rfl⟩
    · have d (u : State) := claimReport_delivers none (.refl u)
      exact ⟨by rw [(d _).cu, absentSlot_cu]; rfl, by rw [(d _).pu, absentSlot_pu]; rfl⟩

end Sys2Proof.Machine
end

