-- ==== Sys2Proof/Laws/InputForms.lean ====
section
/-! SUPPORT. What the builder, an append and an overflow do to the input unit, and what they leave of it. -/

namespace Sys2Proof.Machine

open Sys2Proof

/-- What a build leaves alone besides `Hands`: the focus unit, the key owner map and the button owners. -/
structure Builds (s t : State) : Prop where
  hands : Hands s.iu t.iu
  keys : t.iu.keys = s.iu.keys
  owners : t.iu.owners = s.iu.owners
  fu : t.fu = s.fu
  events : t.mu.events = s.mu.events

theorem Builds.refl (s : State) : Builds s s := ⟨.refl _, rfl, rfl, rfl, rfl⟩

theorem Builds.trans {s t u : State} (h : Builds s t) (k : Builds t u) : Builds s u :=
  ⟨h.hands.trans k.hands, k.keys.trans h.keys, k.owners.trans h.owners, k.fu.trans h.fu, k.events.trans h.events⟩

theorem pumpBuilder_builds (n : Nat) (t : State) : Builds t (pumpBuilder n t) := by
  induction n generalizing t with
  | zero => exact .refl t
  | succ n ih =>
    unfold pumpBuilder
    split
    · exact .refl t
    · split
      · exact .refl t
      · rename_i i hi
        have p := offerInsertion_posts ⟨inputFrame i t, false⟩ (builtFrom i t)
        have e := offerInsertion_events ⟨inputFrame i t, false⟩ (builtFrom i t)
        have b : Builds t (offerInsertion ⟨inputFrame i t, false⟩ (builtFrom i t)).2 :=
          ⟨by rw [p.iu]; exact ⟨rfl, rfl, rfl, rfl, rfl, fun _ => id, fun _ _ => id⟩, by rw [p.iu]; rfl,
            by rw [p.iu]; rfl, p.fu, e⟩
        split <;> rename_i u hu <;> rw [hu] at b
        · exact b.trans (ih u)
        · exact b.trans ⟨⟨rfl, rfl, rfl, rfl, rfl, fun _ => id, fun _ _ => id⟩, rfl, rfl, rfl, rfl⟩

/-- While a frame is kept, nothing is built (R133). -/
theorem pumpBuilder_kept (n : Nat) {t : State} (h : t.iu.held.isSome = true) : pumpBuilder n t = t := by
  cases n with
  | zero => rfl
  | succ n => unfold pumpBuilder; rw [if_pos h]

theorem enqueue_builds (i : Fin 16) (r : InputRecord) (t : State) : Builds t (enqueue i r t) :=
  by
  have b : Builds t (t.setIu { t.iu with queues := t.iu.queues.set i (queued t.iu.queues[i] r) }) :=
    ⟨⟨rfl, rfl, rfl, rfl, rfl, fun _ => id, fun _ _ => id⟩, rfl, rfl, rfl, rfl⟩
  exact b.trans (pumpBuilder_builds _ _)

/-- `queued` follows the coalescing of an append (R128). -/
theorem queued_coalesce (q : List InputRecord) (r : InputRecord) : queued q r = (coalesce q r).getD (q ++ [r]) := by
  unfold queued coalesce
  rcases q.getLast? with _ | ⟨⟩ | ⟨⟩ | ⟨⟩ | ⟨⟩ <;> cases r <;> try rfl
  dsimp only
  split <;> rfl

/-- An append to a queue with room, or with a tail that takes the record, is `enqueue` (R127, R128). -/
theorem appendRecord_enqueue (i : Fin 16) (r : InputRecord) {t : State} (h : (queued t.iu.queues[i] r).length ≤ 24) :
    appendRecord i r t = enqueue i r t := by
  unfold appendRecord enqueue
  dsimp only
  rw [queued_coalesce] at h ⊢
  cases hc : coalesce t.iu.queues[i] r with
  | some q' => rfl
  | none =>
    rw [hc] at h
    simp only [Option.getD_none, List.length_append, List.length_singleton] at h
    simp only [Option.getD_none]
    rw [if_pos (by omega)]

/-- An append to a queue that cannot take the record is the queue's overflow (R130). -/
theorem appendRecord_overflow (i : Fin 16) (r : InputRecord) {t : State} (h : 24 < (queued t.iu.queues[i] r).length)
    (hq : t.iu.queues[i].length ≤ 24) : appendRecord i r t = pumpBuilder pumpBound (overflow i 25 t) := by
  unfold appendRecord
  dsimp only
  rw [queued_coalesce] at h
  cases hc : coalesce t.iu.queues[i] r with
  | some q' =>
    have l := coalesce_length hc
    rw [hc] at h
    simp only [Option.getD_some] at h
    omega
  | none =>
    rw [hc] at h
    simp only [Option.getD_none, List.length_append, List.length_singleton] at h
    have e : t.iu.queues[i].length = 24 := by omega
    simp only [e]
    rfl

/-- Whether any button is owned is read off the owners alone. -/
theorem anyOwned_congr {s t : State} (h : t.iu.owners = s.iu.owners) : anyOwned t = anyOwned s := by unfold anyOwned; rw [h]

/-- An append that does not overflow ends no drag capture (R101, R127). -/
theorem append_enqueue (i : Fin 16) (r : InputRecord) {t : State} (h : (queued t.iu.queues[i] r).length ≤ 24) :
    append i r t = enqueue i r t := by
  unfold append
  dsimp only
  rw [appendRecord_enqueue i r h, if_neg]
  rw [anyOwned_congr (enqueue_builds i r t).owners]
  simp

/-- An append while no button is owned ends no drag capture. -/
theorem append_unowned (i : Fin 16) (r : InputRecord) {t : State} (h : anyOwned t = false) : append i r t = appendRecord i r t := by
  unfold append
  dsimp only
  rw [if_neg]
  simp [h]

/-! ## Hot-key actions and power -/

theorem claimAppended_iu (m : ClaimMsg) (t : State) : (claimAppended m t).iu = t.iu ∧ (claimAppended m t).fu = t.fu ∧
    (claimAppended m t).pu = t.pu ∧ (claimAppended m t).cp = t.cp := by
  unfold claimAppended
  dsimp only
  split
  · exact ⟨rfl, rfl, rfl, rfl⟩
  · split
    · split
      · split <;> exact ⟨rfl, rfl, rfl, rfl⟩
      · exact ⟨rfl, rfl, rfl, rfl⟩
    · exact ⟨rfl, rfl, rfl, rfl⟩

/-- The outbox touches the claim unit and the ring forwarder alone (R142). -/
theorem pumpOutbox_iu (n : Nat) (t : State) : (pumpOutbox n t).iu = t.iu ∧ (pumpOutbox n t).fu = t.fu ∧
    (pumpOutbox n t).pu = t.pu ∧ (pumpOutbox n t).cp = t.cp := by
  induction n generalizing t with
  | zero => exact ⟨rfl, rfl, rfl, rfl⟩
  | succ n ih =>
    unfold pumpOutbox
    split
    · exact ⟨rfl, rfl, rfl, rfl⟩
    · split
      · exact ⟨rfl, rfl, rfl, rfl⟩
      · rename_i m ms hm
        have p := offerInsertion_posts ⟨claimFrame m t, false⟩ (t.setCu { t.cu with outbox := ms })
        dsimp only
        split <;> rename_i u hu <;> rw [hu] at p
        · have a := claimAppended_iu m u
          have b := ih (claimAppended m u)
          exact ⟨b.1.trans (a.1.trans p.iu), b.2.1.trans (a.2.1.trans p.fu), b.2.2.1.trans (a.2.2.1.trans p.pu),
            b.2.2.2.trans (a.2.2.2.trans p.cp)⟩
        · exact ⟨p.iu, p.fu, p.pu, p.cp⟩

/-- A local request touches neither input, focus, panel nor compositor (R143). -/
theorem localRequest_iu (i : Option (Fin 16)) (l : Option Level) (t : State) :
    (localRequest i l t).2.iu = t.iu ∧ (localRequest i l t).2.fu = t.fu ∧ (localRequest i l t).2.pu = t.pu ∧
      (localRequest i l t).2.cp = t.cp := by
  unfold localRequest
  split
  · exact ⟨rfl, rfl, rfl, rfl⟩
  · split
    · exact ⟨rfl, rfl, rfl, rfl⟩
    · exact ⟨rfl, rfl, rfl, rfl⟩
    · split
      · exact ⟨rfl, rfl, rfl, rfl⟩
      · split
        · exact ⟨rfl, rfl, rfl, rfl⟩
        · split
          · exact ⟨rfl, rfl, rfl, rfl⟩
          · split
            · exact ⟨rfl, rfl, rfl, rfl⟩
            · have k := pumpOutbox_iu pumpBound
              exact ⟨(k _).1, (k _).2.1, (k _).2.2.1, (k _).2.2.2⟩

theorem queueRelease_iu (i : Fin 16) (l : Level) (a : Byte) (t : State) : (queueRelease i l a t).iu = t.iu ∧
    (queueRelease i l a t).fu = t.fu ∧ (queueRelease i l a t).pu = t.pu ∧ (queueRelease i l a t).cp = t.cp := by
  have k := pumpOutbox_iu pumpBound
  unfold queueRelease
  dsimp only
  split <;> exact ⟨(k _).1, (k _).2.1, (k _).2.2.1, (k _).2.2.2⟩

/-- A local release touches the panel and the compositor not at all, and the input unit as a delivery does (R144). -/
theorem releaseSlot_hands (i : Fin 16) (k : Slot) (l : Level) (t : State) :
    Hands t.iu (releaseSlot i k l t).iu ∧ (releaseSlot i k l t).pu = t.pu ∧ (releaseSlot i k l t).cp = t.cp := by
  have claim (v : Option Slot) : Delivers (setSlot i v t) (claimReport none (raise .claimChange (setSlot i v t))) :=
    (raise_posts _ _).delivers.trans (claimReport_delivers _ (.refl _))
  unfold releaseSlot
  dsimp only
  have b : ∀ (p : Prop) [Decidable p] (v : Option Slot),
      Hands t.iu (if p then claimReport none (raise .claimChange (setSlot i v t)) else t).iu ∧
        (if p then claimReport none (raise .claimChange (setSlot i v t)) else t).pu = t.pu ∧
        (if p then claimReport none (raise .claimChange (setSlot i v t)) else t).cp = t.cp := by
    intro p _ v
    split
    · exact ⟨(claim _).hands, (claim _).pu, (claim _).cp⟩
    · exact ⟨.refl _, rfl, rfl⟩
  have b' := b (Level.rank (Level.lower l k.held) < Level.rank k.held)
    (some { k with held := Level.lower l k.held, holder := holderAfter t (Level.lower l k.held) k.holder })
  generalize (if Level.rank (Level.lower l k.held) < Level.rank k.held then claimReport none (raise .claimChange (setSlot i
    (some { k with held := Level.lower l k.held, holder := holderAfter t (Level.lower l k.held) k.holder }) t)) else t) = u
    at b' ⊢
  have c (w : State) (hw : w.iu = u.iu ∧ w.pu = u.pu ∧ w.cp = u.cp) : Hands t.iu w.iu ∧ w.pu = t.pu ∧ w.cp = t.cp := by
    rw [hw.1, hw.2.1, hw.2.2]; exact b'
  have d (w : State) (hw : w.iu = u.iu ∧ w.pu = u.pu ∧ w.cp = u.cp) (p : Prop) [Decidable p] (m : Level) :
      Hands t.iu (if p then queueRelease i m k.content.addr w else removeRequest i w).iu ∧
        (if p then queueRelease i m k.content.addr w else removeRequest i w).pu = t.pu ∧
        (if p then queueRelease i m k.content.addr w else removeRequest i w).cp = t.cp := by
    split
    · have q := queueRelease_iu i m k.content.addr w
      exact c _ ⟨q.1.trans hw.1, q.2.2.1.trans hw.2.1, q.2.2.2.trans hw.2.2⟩
    · exact c _ hw
  refine d _ ?_ _ _
  split
  · split <;> exact ⟨rfl, rfl, rfl⟩
  · exact ⟨rfl, rfl, rfl⟩

/-- The releases of an entry to STANDBY (R152). -/
theorem standbyClaims_hands (t : State) :
    Hands t.iu (standbyClaims t).iu ∧ (standbyClaims t).pu = t.pu ∧ (standbyClaims t).cp = t.cp := by
  unfold standbyClaims
  generalize List.finRange 16 = l
  induction l generalizing t with
  | nil => exact ⟨.refl _, rfl, rfl⟩
  | cons i l ih =>
    have b : Hands t.iu (standbyRelease i t).iu ∧ (standbyRelease i t).pu = t.pu ∧ (standbyRelease i t).cp = t.cp := by
      unfold standbyRelease
      split
      · exact releaseSlot_hands _ _ _ _
      · exact ⟨.refl _, rfl, rfl⟩
    have k := ih (standbyRelease i t)
    exact ⟨b.1.trans k.1, k.2.1.trans b.2.1, k.2.2.trans b.2.2⟩

/-- What an entry to STANDBY makes of the panel unit, and what it leaves of the input unit (R157). -/
theorem enterStandby_hands {t : State} (h : t.pu.power = .active) :
    Hands t.iu (enterStandby t).iu ∧ (enterStandby t).cp = t.cp ∧
      (enterStandby t).pu = { t.pu with power := .standby, idle := none, c := { t.pu.c with standbys := bump t.pu.c.standbys } } := by
  unfold enterStandby
  rw [if_neg (by rw [h]; decide)]
  dsimp only
  generalize hu : countPu (fun c => { c with standbys := bump c.standbys })
    (t.setPu { t.pu with power := .standby, idle := none }) = u
  have hi : u.iu = t.iu ∧ u.cp = t.cp ∧
      u.pu = { t.pu with power := .standby, idle := none, c := { t.pu.c with standbys := bump t.pu.c.standbys } } := by
    subst hu; exact ⟨rfl, rfl, rfl⟩
  have d : Delivers u (standbyFocus u) := changeFocus_delivers _ (setFu_delivers (.refl u) _)
  have k := standbyClaims_hands (standbyFocus u)
  refine ⟨?_, ?_, ?_⟩
  · rw [← hi.1]; exact d.hands.trans k.1
  · rw [k.2.2, d.cp, hi.2.1]
  · rw [k.2.1, d.pu, hi.2.2]

/-- A claim action touches the panel not at all, and the input unit as a delivery does but for its own count (R116). -/
theorem claimAction_hands {act : Fin 16 → State → State} (ha : ∀ i u, Hands u.iu (act i u).iu) (t : State) :
    Hands t.iu (claimAction act t).iu := by
  unfold claimAction
  split
  · exact ha _ _
  · exact ⟨rfl, rfl, rfl, rfl, rfl, fun _ => id, fun _ _ => id⟩

/-- What every hot-key action leaves of the input unit (R116). -/
theorem runAction_hands (k : HotKey) (t : State) : Hands t.iu (runAction k t).iu := by
  unfold runAction
  split
  · unfold selectPreset; split <;> exact .refl _
  · exact claimAction_hands (fun i u => by rw [(localRequest_iu _ _ u).1]; exact .refl _) t
  · exact claimAction_hands (fun i u => by rw [(localRequest_iu _ _ u).1]; exact .refl _) t
  · refine claimAction_hands (fun i u => ?_) t
    unfold localRelease
    dsimp only
    split <;> rename_i hk hl
    · exact .refl _
    · cases hl
    · cases hl
    · exact (releaseSlot_hands _ _ _ _).1
  · unfold focusLockAction
    split
    · exact (fuReevaluate_delivers (setFu_delivers (.refl t) _)).hands
    · split
      · exact (requestPosition_delivers (confine_delivers _ _ (setFu_delivers (.refl t) _))).hands
      · exact .refl _
  · unfold nextWindowAction
    split
    · exact .refl _
    · split
      · exact .refl _
      · exact (requestPosition_delivers (changeFocus_delivers _ (setFu_delivers (.refl t) _))).hands
  · by_cases h : t.pu.power = .active
    · exact (enterStandby_hands h).1
    · unfold enterStandby
      rw [if_pos (by cases hp : t.pu.power <;> simp_all)]
      exact .refl _

end Sys2Proof.Machine
end

