-- ==== Sys2Proof/Laws/Firm.lean ====
section
/-! SUPPORT. A part of a step that keeps what Safety.lean says of tables, pool, ownership and claims; and the operations of the input
unit and the focus unit that are such parts. -/

namespace Sys2Proof.Machine

open Sys2Proof

/-- What the claim records keep in ACTIVE they keep in STANDBY but for its own clause. -/
theorem ClaimsWhole.active {a : Byte} {p : Power} {u : Cu} (c : ClaimsWhole a p u) : ClaimsWhole a .active u :=
  ⟨c.above, c.holder, c.once, c.asked, nofun⟩

/-- A part of a step that keeps counts, lists, head records, the buffer pool, the owners of input and the claim records, these last
also but for what STANDBY asks of them. -/
structure Firm (s t : State) : Prop where
  counts : CountsInRange s → CountsInRange t
  lists : ListsWhole s.cp → ListsWhole t.cp
  heads : HeadsInRange s.cp → HeadsInRange t.cp
  pool : PoolWhole s.sr → PoolWhole t.sr
  owned : OwnedByFocus s.iu s.fu.focus → OwnedByFocus t.iu t.fu.focus
  core : ClaimsWhole (own s) .active s.cu → ClaimsWhole (own t) .active t.cu
  claims : ClaimsWhole (own s) s.pu.power s.cu → ClaimsWhole (own t) t.pu.power t.cu

theorem Firm.refl (s : State) : Firm s s := ⟨id, id, id, id, id, id, id⟩

theorem Firm.trans {s t u : State} (h : Firm s t) (k : Firm t u) : Firm s u :=
  ⟨k.counts ∘ h.counts, k.lists ∘ h.lists, k.heads ∘ h.heads, k.pool ∘ h.pool, k.owned ∘ h.owned, k.core ∘ h.core,
    k.claims ∘ h.claims⟩

/-- Nothing has changed that these speak of, but that the attempt counter may have cleared. -/
structure Calm (s t : State) : Prop where
  sr : t.sr = s.sr
  cp : t.cp = s.cp
  fu : t.fu = s.fu
  iu : t.iu = s.iu
  cu : t.cu = s.cu
  pu : t.pu = s.pu
  desk : t.desk = s.desk
  address : t.cl.ownAddress = s.cl.ownAddress
  attempts : t.elp.attempts = s.elp.attempts ∨ t.elp.attempts = 0

theorem Calm.refl (s : State) : Calm s s := ⟨rfl, rfl, rfl, rfl, rfl, rfl, rfl, rfl, .inl rfl⟩

theorem Calm.trans {s t u : State} (h : Calm s t) (k : Calm t u) : Calm s u :=
  ⟨k.sr.trans h.sr, k.cp.trans h.cp, k.fu.trans h.fu, k.iu.trans h.iu, k.cu.trans h.cu, k.pu.trans h.pu, k.desk.trans h.desk,
    k.address.trans h.address, by
      rcases k.attempts with e | e
      · rw [e]; exact h.attempts
      · exact .inr e⟩

theorem Posts.calm {s t : State} (h : Posts s t) : Calm s t :=
  ⟨h.sr, h.cp, h.fu, h.iu, h.cu, h.pu, h.desk, by rw [h.cl], .inl (by rw [h.elp])⟩

theorem Calm.firm {s t : State} (h : Calm s t) : Firm s t := by
  have o : own t = own s := by unfold own; rw [h.address]
  refine ⟨fun c => ⟨?_, ?_, ?_, ?_⟩, ?_, ?_, ?_, ?_, ?_, ?_⟩
  · rw [h.desk]; exact c.downshift
  · rcases h.attempts with e | e <;> rw [e]
    · exact c.attempts
    · exact Nat.zero_le _
  · rw [h.desk]; exact c.guardDistance
  · rw [h.fu]; exact c.accum
  · rw [h.cp]; exact id
  · rw [h.cp]; exact id
  · rw [h.sr]; exact id
  · rw [h.iu, h.fu]; exact id
  · rw [o, h.cu]; exact id
  · rw [o, h.pu, h.cu]; exact id

theorem Firm.calm {s t u : State} (h : Firm s t) (k : Calm t u) : Firm s u := h.trans k.firm

theorem raise_firm (k : EventKind) {s t : State} (h : Firm s t) : Firm s (raise k t) := h.calm (raise_posts k t).calm

/-! ## Updates of one field -/

/-- An update of the input unit that adds neither keys nor owners. -/
theorem setIu_firm {s t : State} (h : Firm s t) (v : Iu) (hk : v.keys.Sublist t.iu.keys)
    (ho : ∀ (j : Fin 5) (a : Fin 16), v.owners[j] = some a → t.iu.owners[j] = some a) : Firm s (t.setIu v) :=
  h.trans ⟨fun c => ⟨c.downshift, c.attempts, c.guardDistance, c.accum⟩, id, id, id,
    fun o => ⟨fun k m => o.keys k (hk.subset m), fun j a e => o.buttons j a (ho j a e), o.once.sublist (hk.map _)⟩, id, id⟩

/-- An update of the focus unit that keeps the focus slot, and keeps or clears the accumulator. -/
theorem setFu_firm {s t : State} (h : Firm s t) (v : Fu) (hf : v.focus.map (·.slot) = t.fu.focus.map (·.slot))
    (ha : v.accum = t.fu.accum ∨ v.accum = 0) : Firm s (t.setFu v) :=
  h.trans ⟨fun c => ⟨c.downshift, c.attempts, c.guardDistance, by rcases ha with e | e <;> simp [e, c.accum]⟩, id, id, id,
    fun o => ⟨fun k m => by simpa [hf] using o.keys k m, fun j a e => by simpa [hf] using o.buttons j a e, o.once⟩, id, id⟩

/-- A new focus while nothing is owned. -/
theorem setFu_unowned {s t : State} (h : Firm s t) (v : Fu) (ha : v.accum = t.fu.accum ∨ v.accum = 0)
    (ho : OwnedByFocus t.iu t.fu.focus → t.iu.keys = [] ∧ ∀ (j : Fin 5) (a : Fin 16), t.iu.owners[j] ≠ some a) :
    Firm s (t.setFu v) :=
  h.trans ⟨fun c => ⟨c.downshift, c.attempts, c.guardDistance, by rcases ha with e | e <;> simp [e, c.accum]⟩, id, id, id,
    fun o => ⟨fun k m => by simp [(ho o).1] at m, fun j a e => absurd e ((ho o).2 j a), o.once⟩, id, id⟩

/-- An update of the panel unit that leaves the power state alone. -/
theorem setPu_firm {s t : State} (h : Firm s t) (v : Pu) (hp : v.power = t.pu.power) : Firm s (t.setPu v) :=
  h.trans ⟨fun c => ⟨c.downshift, c.attempts, c.guardDistance, c.accum⟩, id, id, id, id, id, fun c => by
    show ClaimsWhole (own t) v.power t.cu
    rw [hp]; exact c⟩

/-- An update of the claim unit that keeps its own invariant. -/
theorem setCu_firm {s t : State} (h : Firm s t) (v : Cu)
    (hc : ∀ p, (p = .standby → t.pu.power = .standby) → ClaimsWhole (own t) p t.cu → ClaimsWhole (own t) p v) : Firm s (t.setCu v) :=
  h.trans ⟨fun c => ⟨c.downshift, c.attempts, c.guardDistance, c.accum⟩, id, id, id, id, hc _ nofun, hc _ id⟩

/-- An update of the compositor that keeps its lists and its head records in order. -/
theorem setCp_firm {s t : State} (h : Firm s t) (v : Cp) (hl : ListsWhole t.cp → ListsWhole v)
    (hh : HeadsInRange t.cp → HeadsInRange v) : Firm s (t.setCp v) :=
  h.trans ⟨fun c => ⟨c.downshift, c.attempts, c.guardDistance, c.accum⟩, hl, hh, id, id, id, id⟩

/-- An update of the stream receiver that keeps its pool whole. -/
theorem setSr_firm {s t : State} (h : Firm s t) (v : Sr) (hp : PoolWhole t.sr → PoolWhole v) : Firm s (t.setSr v) :=
  h.trans ⟨fun c => ⟨c.downshift, c.attempts, c.guardDistance, c.accum⟩, id, id, hp, id, id, id⟩

/-- An update of the settings that keeps the two that bound counts. -/
theorem setDesk_firm {s t : State} (h : Firm s t) (v : Desk) (hd : t.desk.downshift ≤ 15 → v.downshift ≤ 15)
    (hg : t.desk.guard ≤ 255 → v.guard ≤ 255) : Firm s (t.setDesk v) :=
  h.trans ⟨fun c => ⟨hd c.downshift, c.attempts, hg c.guardDistance, c.accum⟩, id, id, id, id, id, id⟩

/-! ## Appends and release synthesis -/

theorem Builds.firm {s t u : State} (h : Firm s t) (b : Builds t u) (d : Keeps t u) (cp : u.cp = t.cp) (cu : u.cu = t.cu)
    (pu : u.pu = t.pu) : Firm s u := by
  have e := d.same
  have o : own u = own t := by unfold own; rw [e.cl]
  refine h.trans ⟨fun c => ⟨?_, ?_, ?_, ?_⟩, ?_, ?_, ?_, ?_, ?_, ?_⟩
  · rw [e.desk]; exact c.downshift
  · rw [e.elp]; exact c.attempts
  · rw [e.desk]; exact c.guardDistance
  · rw [b.fu]; exact c.accum
  · rw [cp]; exact id
  · rw [cp]; exact id
  · rw [e.sr]; exact id
  · intro x
    rw [b.fu]
    exact ⟨by rw [b.keys]; exact x.keys, by rw [b.owners]; exact x.buttons, by rw [b.keys]; exact x.once⟩
  · rw [o, cu]; exact id
  · rw [o, pu, cu]; exact id

theorem pumpBuilder_firm (n : Nat) {s t : State} (h : Firm s t) : Firm s (pumpBuilder n t) :=
  have d := pumpBuilder_delivers n (.refl t)
  (pumpBuilder_builds n t).firm h (pumpBuilder_keeps n (.refl t)) d.cp d.cu d.pu

theorem appendRecord_firm (i : Fin 16) (r : InputRecord) {s t : State} (h : Firm s t) : Firm s (appendRecord i r t) := by
  unfold appendRecord overflow
  dsimp only
  refine pumpBuilder_firm _ ?_
  split
  · exact setIu_firm h _ (.refl _) fun _ _ => id
  · split
    · exact setIu_firm h _ (.refl _) fun _ _ => id
    · exact raise_firm _ (setIu_firm h _ List.filter_sublist fun _ _ e => (dropOwners_of e).1)

/-- What an append does to the owners and to the focus unit: entries of the map go in order, and the focus unit is left alone. -/
theorem appendRecord_owners (i : Fin 16) (r : InputRecord) (t : State) :
    (appendRecord i r t).fu = t.fu ∧ (appendRecord i r t).iu.keys.Sublist t.iu.keys ∧
      ∀ (j : Fin 5) (a : Fin 16), (appendRecord i r t).iu.owners[j] = some a → t.iu.owners[j] = some a := by
  have key (u : State) (hf : u.fu = t.fu) (hk : u.iu.keys.Sublist t.iu.keys)
      (ho : ∀ (j : Fin 5) (a : Fin 16), u.iu.owners[j] = some a → t.iu.owners[j] = some a) :
      (pumpBuilder pumpBound u).fu = t.fu ∧ (pumpBuilder pumpBound u).iu.keys.Sublist t.iu.keys ∧
        ∀ (j : Fin 5) (a : Fin 16), (pumpBuilder pumpBound u).iu.owners[j] = some a → t.iu.owners[j] = some a := by
    have b := pumpBuilder_builds pumpBound u
    exact ⟨b.fu.trans hf, by rw [b.keys]; exact hk, by rw [b.owners]; exact ho⟩
  unfold appendRecord overflow
  dsimp only
  split
  · exact key _ rfl (.refl _) fun _ _ => id
  · split
    · exact key _ rfl (.refl _) fun _ _ => id
    · have p := raise_posts .queueOverflow (t.setIu { t.iu with
        queues := t.iu.queues.set i [.resync], keys := t.iu.keys.filter fun k => k.2 ≠ i, owners := dropOwners i t.iu.owners,
        c := { t.iu.c with overflows := bump t.iu.c.overflows, overflowDiscards := bumpBy (t.iu.queues[i].length + 1) t.iu.c.overflowDiscards } })
      exact key _ p.fu (by rw [p.iu]; exact List.filter_sublist) fun j a e => by rw [p.iu] at e; exact (dropOwners_of e).1

theorem synthKeys_firm (n : Nat) (a : Fin 16) {s t : State} (h : Firm s t) : Firm s (synthKeys n a t) := by
  induction n generalizing t with
  | zero => exact h
  | succ n ih =>
    unfold synthKeys
    split
    · exact h
    · exact ih (appendRecord_firm _ _ (setIu_firm h _ List.erase_sublist fun _ _ => id))

/-- Release synthesis leaves the slot no key, and the focus unit as it was (R125). -/
theorem synthKeys_clears (n : Nat) (a : Fin 16) (t : State) (hn : t.iu.keys.length ≤ n) :
    (synthKeys n a t).fu = t.fu ∧ (synthKeys n a t).iu.keys.Sublist t.iu.keys ∧ ∀ k ∈ (synthKeys n a t).iu.keys, k.2 ≠ a := by
  induction n generalizing t with
  | zero =>
    have e : t.iu.keys = [] := List.length_eq_zero_iff.1 (by omega)
    exact ⟨rfl, .refl _, fun k m => by simp [synthKeys, e] at m⟩
  | succ n ih =>
    unfold synthKeys
    split
    · rename_i hf
      exact ⟨rfl, .refl _, fun k m => by simpa using List.find?_eq_none.1 hf k m⟩
    · rename_i k hf
      have m := List.mem_of_find?_eq_some hf
      obtain ⟨f, sub, _⟩ := appendRecord_owners a (.key k.1 true) (t.setIu { t.iu with keys := t.iu.keys.erase k })
      have l : (t.iu.keys.erase k).length < t.iu.keys.length := by
        rw [List.length_erase_of_mem m]
        have := List.length_pos_of_mem m
        omega
      obtain ⟨f', sub', c'⟩ := ih (appendRecord a (.key k.1 true) (t.setIu { t.iu with keys := t.iu.keys.erase k }))
        (Nat.le_trans sub.length_le (by show (t.iu.keys.erase k).length ≤ n; omega))
      exact ⟨f'.trans f, (sub'.trans sub).trans List.erase_sublist, c'⟩

theorem synthesis_firm (a : Fin 16) {s t : State} (h : Firm s t) : Firm s (synthesis a t) := by
  have k := synthKeys_firm t.iu.keys.length a h
  unfold synthesis
  dsimp only
  split
  · exact k
  · split
    · exact setIu_firm (appendRecord_firm _ _ k) _ (.refl _) fun _ _ e => (dropOwners_of e).1
    · exact setIu_firm k _ (.refl _) fun _ _ e => (dropOwners_of e).1

/-- A slot owns no button where its set of owned buttons is empty. -/
theorem ownedBy_zero {a : Fin 16} {t : State} (h : ownedBy a t = 0) (j : Fin 5) : t.iu.owners[j] ≠ some a := by
  intro e
  have key : ∀ (l : List (Fin 5)) (b : BitVec 5), (b.getLsbD j.val = true ∨ j ∈ l) →
      (l.foldl (fun b k => if t.iu.owners[k] = some a then b ||| (1#5 <<< k.val) else b) b).getLsbD j.val = true := by
    intro l
    induction l with
    | nil => intro b m; simpa using m
    | cons k l ih =>
      intro b m
      refine ih _ ?_
      rcases m with m | m
      · left
        dsimp only
        split <;> simp [m]
      · rcases List.mem_cons.1 m with rfl | m
        · left
          dsimp only
          rw [if_pos e]
          have := j.isLt
          simp
        · exact .inr m
  have := key (List.finRange 5) 0 (.inr (List.mem_finRange j))
  unfold ownedBy at h
  rw [h] at this
  simp at this

theorem dropOwners_ne (a : Fin 16) (o : Vector (Option (Fin 16)) 5) (j : Fin 5) : (dropOwners a o)[j] ≠ some a :=
  fun e => (dropOwners_of e).2 rfl

/-- After release synthesis the slot owns neither key nor button, and the focus unit is as it was (R94, R125). -/
theorem synthesis_clears (a : Fin 16) (t : State) : (synthesis a t).fu = t.fu ∧ (synthesis a t).iu.keys.Sublist t.iu.keys ∧
    (∀ k ∈ (synthesis a t).iu.keys, k.2 ≠ a) ∧ (∀ j : Fin 5, (synthesis a t).iu.owners[j] ≠ some a) ∧
    ∀ (j : Fin 5) (b : Fin 16), (synthesis a t).iu.owners[j] = some b → t.iu.owners[j] = some b := by
  have hands := (synthesis_delivers a (.refl t)).hands
  obtain ⟨f, sub, c⟩ := synthKeys_clears t.iu.keys.length a t (Nat.le_refl _)
  refine ⟨?_, ?_, ?_, ?_, hands.owners⟩
  all_goals unfold synthesis; dsimp only; generalize synthKeys t.iu.keys.length a t = u at f sub c ⊢; clear hands
  · split
    · exact f
    · split
      · exact (appendRecord_owners _ _ u).1.trans f
      · exact f
  · split
    · exact sub
    · split
      · exact (appendRecord_owners _ _ u).2.1.trans sub
      · exact sub
  · split
    · exact c
    · split
      · exact fun k m => c k ((appendRecord_owners _ _ u).2.1.subset m)
      · exact c
  · intro j
    split
    · rename_i z; exact ownedBy_zero z j
    · exact dropOwners_ne a _ j

/-! ## The focus unit -/

theorem changeFocus_firm (target : Option Focus) {s t : State} (h : Firm s t) : Firm s (changeFocus target t) := by
  have away (f : Focus) (hf : t.fu.focus = some f) (v : Fu)
      (ha : v.accum = (synthesis f.slot t).fu.accum ∨ v.accum = 0) : Firm s ((synthesis f.slot t).setFu v) := by
    obtain ⟨e, _, c, d, _⟩ := synthesis_clears f.slot t
    refine setFu_unowned (synthesis_firm _ h) v ha fun o => ⟨List.eq_nil_iff_forall_not_mem.2 fun k m => ?_, fun j a x => ?_⟩
    · have := o.keys k m
      rw [e, hf] at this
      exact c k m (by simpa using this.symm)
    · have := o.buttons j a x
      rw [e, hf] at this
      exact d j (by rw [x]; exact this.symm)
  unfold changeFocus
  split
  · exact h
  · rename_i t' hf
    refine setFu_unowned h _ (.inr rfl) fun o => ⟨List.eq_nil_iff_forall_not_mem.2 fun k m => ?_, fun j a x => ?_⟩
    · have := o.keys k m; rw [hf] at this; cases this
    · have := o.buttons j a x; rw [hf] at this; cases this
  · rename_i f t' hf
    split
    · rename_i e; exact setFu_firm h _ (by simp [hf, e]) (.inl rfl)
    · exact away f hf _ (.inr rfl)
  · rename_i f hf
    exact away f hf _ (.inr rfl)

/-- What the focus unit's functions ask of the append they are given. -/
def AppendFirm (app : Fin 16 → InputRecord → State → State) : Prop := ∀ i r {s t : State}, Firm s t → Firm s (app i r t)

theorem positionRequest_firm {app : Fin 16 → InputRecord → State → State} (ha : AppendFirm app) {s t : State} (h : Firm s t) :
    Firm s (positionRequest app t) := by
  unfold positionRequest
  split
  · exact h
  · exact ha _ _ (setFu_firm h _ rfl (.inl rfl))

theorem confine_firm (x y : Int) {s t : State} (h : Firm s t) : Firm s (confine x y t) := by
  unfold confine
  split
  · exact h
  · split
    · exact h
    · exact setFu_firm h _ rfl (.inl rfl)

theorem reevaluate_firm {app : Fin 16 → InputRecord → State → State} (ha : AppendFirm app) {s t : State} (h : Firm s t) :
    Firm s (reevaluate app t) := by
  unfold reevaluate
  split
  · split
    · exact positionRequest_firm ha (confine_firm _ _ h)
    · split
      · exact positionRequest_firm ha h
      · exact positionRequest_firm ha (changeFocus_firm _ h)
  · exact positionRequest_firm ha (changeFocus_firm _ (setFu_firm h _ rfl (.inr rfl)))

theorem dragEnd_firm {s t : State} (h : Firm s t) : Firm s (dragEnd t) :=
  reevaluate_firm (fun i r _ _ h => appendRecord_firm i r h) h

theorem append_firm : AppendFirm append := by
  intro i r s t h
  have k := appendRecord_firm i r h
  unfold append
  dsimp only
  split
  · exact dragEnd_firm k
  · exact k

theorem requestPosition_firm {s t : State} (h : Firm s t) : Firm s (requestPosition t) := positionRequest_firm append_firm h

theorem fuReevaluate_firm {s t : State} (h : Firm s t) : Firm s (fuReevaluate t) := reevaluate_firm append_firm h

/-- A crossing is held back only while the sum is below the guard distance, so the accumulator stays below it (R98). -/
theorem guardedMove_firm (p : Int × Int) {s t : State} (h : Firm s t) : Firm s (guardedMove t p) := by
  have held (v : Fu) (hf : v.focus = t.fu.focus) (ha : v.accum < t.desk.guard) : Firm s (t.setFu v) :=
    h.trans ⟨fun c => ⟨c.downshift, c.attempts, c.guardDistance, by
        have := c.guardDistance
        show v.accum ≤ 254
        omega⟩, id, id, id, fun o => by show OwnedByFocus t.iu v.focus; rw [hf]; exact o, id, id⟩
  unfold guardedMove
  dsimp only
  split
  · exact setFu_firm h _ rfl (.inr rfl)
  · split
    · exact setFu_firm h _ rfl (.inr rfl)
    · rename_i hn
      split
      · split
        · exact held _ rfl (by simpa using hn)
        · exact held _ rfl (by simpa using hn)
      · exact held _ rfl (by simpa using hn)

theorem fuMotion_firm (dx dy : Int) {s t : State} (h : Firm s t) : Firm s (fuMotion dx dy t) := by
  unfold fuMotion
  split
  · exact requestPosition_firm (setFu_firm (confine_firm _ _ h) _ rfl (.inr rfl))
  · unfold freeMotion followPointer
    dsimp only
    refine requestPosition_firm ?_
    split
    · exact guardedMove_firm _ h
    · exact changeFocus_firm _ (guardedMove_firm _ h)

theorem clampPointer_firm {s t : State} (h : Firm s t) : Firm s (clampPointer t) := by
  unfold clampPointer
  split
  · exact h
  · split
    · exact h
    · exact setFu_firm h _ rfl (.inl rfl)

theorem headReport_firm {s t : State} (h : Firm s t) : Firm s (headReport t) := by
  unfold headReport
  split
  · exact fuReevaluate_firm (clampPointer_firm h)
  · exact h

theorem claimReport_firm (x : Option (Fin 16)) {s t : State} (h : Firm s t) : Firm s (claimReport x t) := by
  have k := fuReevaluate_firm h
  unfold claimReport
  dsimp only
  split
  · split
    · exact requestPosition_firm (confine_firm _ _ (setFu_firm k _ rfl (.inr rfl)))
    · exact k
  · exact k

theorem removalReport_firm (b : Bool) {s t : State} (h : Firm s t) : Firm s (removalReport b t) := by
  unfold removalReport
  split
  · exact fuReevaluate_firm h
  · exact h

theorem standbyFocus_firm {s t : State} (h : Firm s t) : Firm s (standbyFocus t) :=
  changeFocus_firm _ (setFu_firm h _ rfl (.inr rfl))

theorem placePointer_firm {s t : State} (h : Firm s t) : Firm s (placePointer t) := by
  unfold placePointer
  split
  · exact h
  · exact setFu_firm h _ rfl (.inl rfl)

theorem focusLockAction_firm {s t : State} (h : Firm s t) : Firm s (focusLockAction t) := by
  unfold focusLockAction
  split
  · exact fuReevaluate_firm (setFu_firm h _ rfl (.inl rfl))
  · split
    · exact requestPosition_firm (confine_firm _ _ (setFu_firm h _ rfl (.inr rfl)))
    · exact h

theorem nextWindowAction_firm {s t : State} (h : Firm s t) : Firm s (nextWindowAction t) := by
  unfold nextWindowAction
  split
  · exact h
  · split
    · exact h
    · exact requestPosition_firm (changeFocus_firm _ (setFu_firm h _ rfl (.inr rfl)))

end Sys2Proof.Machine
end

