-- ==== Sys2Proof/Laws/FirmDesk.lean ====
section
/-! SUPPORT. The operations of the claim unit, the panel unit and the input unit keep what Safety.lean says of tables, pool, ownership
and claims. -/

namespace Sys2Proof.Machine

open Sys2Proof

/-! ## The claim unit's own invariant -/

theorem set_slot {v : Vector (Option Slot) 16} {i j : Fin 16} {x : Option Slot} {k : Slot} (h : (v.set i x)[j] = some k) :
    (i = j ∧ x = some k) ∨ (i ≠ j ∧ v[j] = some k) := by
  simp only [Fin.getElem_fin, Vector.getElem_set] at h
  split at h
  · rename_i e; exact .inl ⟨Fin.ext e, h⟩
  · rename_i e; exact .inr ⟨fun x => e (by rw [x]), h⟩

/-- A slot without an outstanding request, or with a running deadline, has no REQUEST in the outbox. -/
theorem ClaimsWhole.not_asked {a : Byte} {p : Power} {u : Cu} (c : ClaimsWhole a p u) {i : Fin 16} {k : Slot}
    (hs : u.slots[i] = some k) (hr : ∀ l, k.request ≠ some ⟨l, none⟩) : ∀ m ∈ u.outbox, m.kind = .request → m.slot ≠ i := by
  intro m hm hk e
  obtain ⟨k', l, h1, h2⟩ := c.asked m hm hk
  subst e
  rw [hs] at h1
  cases h1
  exact hr l h2

theorem ClaimsWhole.not_asked_empty {a : Byte} {p : Power} {u : Cu} (c : ClaimsWhole a p u) {i : Fin 16}
    (hs : u.slots[i] = none) : ∀ m ∈ u.outbox, m.kind = .request → m.slot ≠ i := by
  intro m hm hk e
  obtain ⟨k', l, h1, h2⟩ := c.asked m hm hk
  subst e
  rw [hs] at h1
  cases h1

/-- One slot's record replaced. -/
theorem ClaimsWhole.set {a : Byte} {p : Power} {u : Cu} (c : ClaimsWhole a p u) (i : Fin 16) (x : Option Slot)
    (above : ∀ k r, x = some k → k.request = some r → Level.rank k.held < Level.rank r.level)
    (holder : ∀ k, x = some k → k.holder = some a → k.held = .exclusive)
    (asked : ∀ m ∈ u.outbox, m.kind = .request → m.slot = i → ∃ k l, x = some k ∧ k.request = some ⟨l, none⟩)
    (standby : p = .standby → ∀ k, x = some k → k.held = .view ∧ k.request = none) :
    ClaimsWhole a p { u with slots := u.slots.set i x } := by
  refine ⟨fun j k r hs hr => ?_, fun j k hs hh => ?_, c.once, fun m hm hk => ?_, fun hp j k hs => ?_⟩
  · rcases set_slot hs with ⟨_, e⟩ | ⟨_, e⟩
    · exact above k r e hr
    · exact c.above j k r e hr
  · rcases set_slot hs with ⟨_, e⟩ | ⟨_, e⟩
    · exact holder k e hh
    · exact c.holder j k e hh
  · by_cases e : m.slot = i
    · obtain ⟨k, l, h1, h2⟩ := asked m hm hk e
      exact ⟨k, l, by simp [e, h1], h2⟩
    · obtain ⟨k, l, h1, h2⟩ := c.asked m hm hk
      have ne : (i : Nat) ≠ m.slot := fun x => e (Fin.ext x.symm)
      exact ⟨k, l, by simpa [Vector.getElem_set_ne, ne] using h1, h2⟩
  · rcases set_slot hs with ⟨_, e⟩ | ⟨_, e⟩
    · exact standby hp k e
    · exact c.standby hp j k e

/-- Messages gone from the outbox, the rest in order. -/
theorem ClaimsWhole.sub {a : Byte} {p : Power} {u : Cu} (c : ClaimsWhole a p u) (q : List ClaimMsg) (h : q.Sublist u.outbox) :
    ClaimsWhole a p { u with outbox := q } :=
  ⟨c.above, c.holder, c.once.sublist (h.map _), fun m hm => c.asked m (h.subset hm), c.standby⟩

/-- Whatever is no slot and no message. -/
theorem ClaimsWhole.same {a : Byte} {p : Power} {u v : Cu} (c : ClaimsWhole a p u) (hs : v.slots = u.slots)
    (ho : v.outbox = u.outbox) : ClaimsWhole a p v :=
  ⟨by rw [hs]; exact c.above, by rw [hs]; exact c.holder, by rw [ho]; exact c.once, by rw [hs, ho]; exact c.asked,
    by rw [hs]; exact c.standby⟩

theorem inOutbox_false {k : MsgKind} {i : Fin 16} {t : State} (h : inOutbox k i t = false) :
    ∀ m ∈ t.cu.outbox, m.kind = k → m.slot ≠ i := by
  intro m hm hk hs
  unfold inOutbox at h
  simp at h
  exact h m hm hk hs

/-- A message queued at the tail, none of its kind for its slot being there. -/
theorem ClaimsWhole.append {a : Byte} {p : Power} {u : Cu} (c : ClaimsWhole a p u) (m : ClaimMsg)
    (fresh : ∀ x ∈ u.outbox, x.kind = m.kind → x.slot ≠ m.slot)
    (asked : m.kind = .request → ∃ k l, u.slots[m.slot] = some k ∧ k.request = some ⟨l, none⟩) :
    ClaimsWhole a p { u with outbox := u.outbox ++ [m] } := by
  refine ⟨c.above, c.holder, ?_, fun x hx hk => ?_, c.standby⟩
  · simp only [List.map_append, List.map_cons, List.map_nil]
    rw [List.nodup_append]
    refine ⟨c.once, by simp, ?_⟩
    intro x hx y hy e
    simp only [List.mem_singleton] at hy
    obtain ⟨z, hz, rfl⟩ := List.mem_map.1 hx
    rw [hy] at e
    exact fresh z hz (by simpa using congrArg Prod.fst e) (by simpa using congrArg Prod.snd e)
  · rcases List.mem_append.1 hx with hx | hx
    · exact c.asked x hx hk
    · rw [List.mem_singleton.1 hx] at hk ⊢
      exact asked hk

/-- The outbox never holds more than 32 messages (R141). -/
theorem ClaimsWhole.room {a : Byte} {p : Power} {u : Cu} (c : ClaimsWhole a p u) : u.outbox.length ≤ 32 := by
  let f (x : MsgKind × Fin 16) : Fin 32 :=
    match x.1 with
    | .request => ⟨x.2.val, by omega⟩
    | .release => ⟨x.2.val + 16, by omega⟩
  have inj : Function.Injective f := by
    rintro ⟨k, i⟩ ⟨k', i'⟩ e
    have e := congrArg Fin.val e
    cases k <;> cases k' <;> simp [f] at e <;> first | (have := i.isLt; have := i'.isLt; omega) | simp [Fin.ext_iff]; omega
  have n := (List.nodup_map_iff inj).2 c.once
  have l := n.length_le_card
  simpa using l

/-! ## The outbox -/

theorem setSlot_firm (i : Fin 16) (x : Option Slot) {s t : State} (h : Firm s t)
    (hc : ∀ p, (p = .standby → t.pu.power = .standby) → ClaimsWhole (own t) p t.cu →
      ClaimsWhole (own t) p { t.cu with slots := t.cu.slots.set i x }) : Firm s (setSlot i x t) := setCu_firm h _ hc

theorem countCu_firm (f : CuCounters → CuCounters) {s t : State} (h : Firm s t) : Firm s (countCu f t) :=
  setCu_firm h _ fun _ _ c => c.same rfl rfl

theorem claimAppended_firm (m : ClaimMsg) {s t : State} (h : Firm s t) : Firm s (claimAppended m t) := by
  have k : Firm s (t.setCu { t.cu with offered := none }) := setCu_firm h _ fun _ _ c => c.same rfl rfl
  unfold claimAppended
  dsimp only
  split
  · exact countCu_firm _ k
  · split
    · split
      · split
        · exact countCu_firm _ k
        · rename_i k' hs _ l hr hq
          refine setSlot_firm _ _ (countCu_firm _ k) fun p hp c => c.set _ _ ?_ ?_ ?_ ?_
          · intro x r e hx; cases e; cases hx; have ab := c.above _ k' ⟨l, none⟩ hs hr; exact ab
          · intro x e hh; cases e; exact c.holder _ k' hs hh
          · intro x hx hk hi; exact absurd hi (inOutbox_false (by simpa using hq) x hx hk)
          · intro hp x e; have := (c.standby hp _ _ hs).2; rw [hr] at this; cases this
      · exact countCu_firm _ k
    · exact countCu_firm _ k

theorem pumpOutbox_firm (n : Nat) {s t : State} (h : Firm s t) : Firm s (pumpOutbox n t) := by
  induction n generalizing t with
  | zero => exact h
  | succ n ih =>
    unfold pumpOutbox
    split
    · exact h
    · split
      · exact h
      · rename_i m ms hm
        have k : Firm s (offerInsertion ⟨claimFrame m t, false⟩ (t.setCu { t.cu with outbox := ms })).2 :=
          (setCu_firm h _ fun _ _ c => c.sub ms (by rw [hm]; exact List.sublist_cons_self _ _)).calm
            (offerInsertion_posts _ _).calm
        dsimp only
        split <;> rename_i u hu <;> rw [hu] at k
        · exact ih (claimAppended_firm m k)
        · exact setCu_firm k _ fun _ _ c => c.same rfl rfl

/-- What sending messages leaves of the claim records: no message is added, and of a slot only the deadline of its request is set. -/
structure Sends (u v : Cu) : Prop where
  outbox : v.outbox.Sublist u.outbox
  empty : ∀ i : Fin 16, u.slots[i] = none → v.slots[i] = none
  idle : ∀ (i : Fin 16) (k : Slot), u.slots[i] = some k → k.request = none → v.slots[i] = some k

theorem Sends.refl (u : Cu) : Sends u u := ⟨.refl _, fun _ => id, fun _ _ h _ => h⟩

theorem Sends.trans {u v w : Cu} (h : Sends u v) (k : Sends v w) : Sends u w :=
  ⟨k.outbox.trans h.outbox, fun i e => k.empty i (h.empty i e), fun i x e r => k.idle i x (h.idle i x e r) r⟩

theorem claimAppended_sends (m : ClaimMsg) (t : State) : Sends t.cu (claimAppended m t).cu := by
  unfold claimAppended
  dsimp only
  split
  · exact ⟨.refl _, fun _ => id, fun _ _ h _ => h⟩
  · split
    · split
      · split
        · exact ⟨.refl _, fun _ => id, fun _ _ h _ => h⟩
        · rename_i k' hs _ l hr hq
          have hs : t.cu.slots[m.slot] = some k' := hs
          refine ⟨.refl _, fun i e => ?_, fun i x e r => ?_⟩
          · have ne : (m.slot : Nat) ≠ i := fun x => by rw [← Fin.ext x, hs] at e; cases e
            simpa [setSlot, countCu, Vector.getElem_set_ne, ne] using e
          · have ne : (m.slot : Nat) ≠ i := fun y => by
              rw [← Fin.ext y, hs] at e; cases e; rw [r] at hr; cases hr
            simpa [setSlot, countCu, Vector.getElem_set_ne, ne] using e
      · exact ⟨.refl _, fun _ => id, fun _ _ h _ => h⟩
    · exact ⟨.refl _, fun _ => id, fun _ _ h _ => h⟩

theorem pumpOutbox_sends (n : Nat) (t : State) : Sends t.cu (pumpOutbox n t).cu := by
  induction n generalizing t with
  | zero => exact .refl _
  | succ n ih =>
    unfold pumpOutbox
    split
    · exact .refl _
    · split
      · exact .refl _
      · rename_i m ms hm
        have p := (offerInsertion_posts ⟨claimFrame m t, false⟩ (t.setCu { t.cu with outbox := ms })).cu
        have b : Sends t.cu (offerInsertion ⟨claimFrame m t, false⟩ (t.setCu { t.cu with outbox := ms })).2.cu := by
          rw [p]; exact ⟨by rw [hm]; exact List.sublist_cons_self _ _, fun _ => id, fun _ _ h _ => h⟩
        dsimp only
        split <;> rename_i u hu <;> rw [hu] at b
        · exact (b.trans (claimAppended_sends m u)).trans (ih _)
        · exact b.trans ⟨.refl _, fun _ => id, fun _ _ h _ => h⟩

theorem removeRequest_firm (i : Fin 16) {s t : State} (h : Firm s t) : Firm s (removeRequest i t) :=
  setCu_firm h _ fun _ _ c => c.sub _ List.filter_sublist

/-- After that, the slot has no REQUEST in the outbox. -/
theorem removeRequest_gone (i : Fin 16) (t : State) : ∀ m ∈ (removeRequest i t).cu.outbox, m.kind = .request → m.slot ≠ i := by
  intro m hm hk
  have := (List.mem_filter.1 hm).2
  simp [hk] at this
  exact this

/-- A RELEASE queued, once the slot's REQUEST is gone. -/
theorem queueRelease_firm (i : Fin 16) (l : Level) (b : Byte) {s t : State} (h : Firm s (removeRequest i t)) :
    Firm s (queueRelease i l b t) := by
  unfold queueRelease
  dsimp only
  split
  · refine pumpOutbox_firm _ (countCu_firm _ (setCu_firm h _ fun p _ c => ?_))
    have keep (m : ClaimMsg) : ((if m.kind = .release ∧ m.slot = i then { m with level := l, dest := b } else m).kind,
        (if m.kind = .release ∧ m.slot = i then { m with level := l, dest := b } else m).slot) = (m.kind, m.slot) := by
      split <;> rfl
    refine ⟨c.above, c.holder, ?_, fun m hm hk => ?_, c.standby⟩
    · show (List.map (fun m : ClaimMsg => (m.kind, m.slot)) (List.map _ _)).Nodup
      rw [List.map_map]
      have e : ((fun m : ClaimMsg => (m.kind, m.slot)) ∘ fun m : ClaimMsg =>
          if m.kind = .release ∧ m.slot = i then { m with level := l, dest := b } else m) = fun m => (m.kind, m.slot) :=
        funext keep
      rw [e]; exact c.once
    · obtain ⟨x, hx, rfl⟩ := List.mem_map.1 hm
      have e := keep x
      split at hk
      · rename_i r; rw [r.1] at hk; cases hk
      · rename_i r; rw [if_neg r]; exact c.asked x hx hk
  · rename_i hf
    refine pumpOutbox_firm _ (setCu_firm h _ fun p _ c => c.append _ ?_ nofun)
    exact fun x hx hk => inOutbox_false (k := .release) (i := i) (by simpa using hf) x hx hk

/-- Queueing a RELEASE leaves the slots as sending does, and no REQUEST of its slot. -/
theorem queueRelease_sends (i : Fin 16) (l : Level) (b : Byte) (t : State) :
    (∀ m ∈ (queueRelease i l b t).cu.outbox, m.kind = .request → m.slot ≠ i) ∧
      (∀ j : Fin 16, t.cu.slots[j] = none → (queueRelease i l b t).cu.slots[j] = none) ∧
      ∀ (j : Fin 16) (k : Slot), t.cu.slots[j] = some k → k.request = none → (queueRelease i l b t).cu.slots[j] = some k := by
  have gone := removeRequest_gone i t
  unfold queueRelease
  dsimp only
  split
  · have p := pumpOutbox_sends pumpBound (countCu (fun c => { c with replaced := bump c.replaced })
      ((removeRequest i t).setCu { (removeRequest i t).cu with outbox := (removeRequest i t).cu.outbox.map fun m =>
        if m.kind = .release ∧ m.slot = i then { m with level := l, dest := b } else m }))
    refine ⟨fun m hm hk => ?_, p.empty, p.idle⟩
    obtain ⟨x, hx, rfl⟩ := List.mem_map.1 (p.outbox.subset hm)
    split at hk
    · rename_i r; rw [r.1] at hk; cases hk
    · rename_i r; rw [if_neg r]; exact gone x hx hk
  · have p := pumpOutbox_sends pumpBound ((removeRequest i t).setCu { (removeRequest i t).cu with
      outbox := (removeRequest i t).cu.outbox ++ [⟨.release, i, l, b⟩] })
    refine ⟨fun m hm hk => ?_, p.empty, p.idle⟩
    rcases List.mem_append.1 (p.outbox.subset hm) with x | x
    · exact gone m x hk
    · rw [List.mem_singleton.1 x] at hk; cases hk

/-! ## Requests and releases -/

theorem refuseRequest_firm (r : Reason) {s t : State} (h : Firm s t) : Firm s (refuseRequest r t).2 :=
  countCu_firm (fun c => { c with refused := bump c.refused }) h

theorem localRequest_firm (slot : Option (Fin 16)) (level : Option Level) {s t : State} (h : Firm s t) :
    Firm s (localRequest slot level t).2 := by
  unfold localRequest
  split
  · exact refuseRequest_firm _ h
  · rename_i i
    split
    · exact refuseRequest_firm _ h
    · exact refuseRequest_firm _ h
    · rename_i k l hs
      split
      · exact refuseRequest_firm _ h
      · rename_i hp
        split
        · exact refuseRequest_firm _ h
        · split
          · exact refuseRequest_firm _ h
          · rename_i hl
            split
            · exact refuseRequest_firm _ h
            · rename_i hr
              have hr : k.request = none := by simpa using hr
              refine pumpOutbox_firm _ (setCu_firm h { t.cu with
                slots := t.cu.slots.set i (some { k with request := some ⟨l, none⟩ }),
                outbox := t.cu.outbox ++ [⟨.request, i, l, k.content.addr⟩] } fun p hpp c => ?_)
              have fresh := c.not_asked hs (by simp [hr])
              refine (c.set i (some { k with request := some ⟨l, none⟩ }) ?_ ?_ ?_ ?_).append _ fresh fun _ =>
                ⟨{ k with request := some ⟨l, none⟩ }, l, by simp, rfl⟩
              · intro x r e hx; cases e; cases hx; exact Nat.lt_of_not_le hl
              · intro x e hh; cases e; exact c.holder _ k hs hh
              · intro m hm hk hi; exact absurd hi (fresh m hm hk)
              · intro e; exact absurd (hpp e) hp

theorem rank_lower (l m : Level) : Level.rank (Level.lower l m) ≤ Level.rank m := by
  cases l <;> cases m <;> decide

theorem lower_view (l : Level) : Level.lower l .view = .view := by cases l <;> decide

theorem lower_exclusive {l m : Level} (h : Level.lower l m = .exclusive) : m = .exclusive := by
  cases l <;> cases m <;> first | rfl | (exact absurd h (by decide))

theorem view_lower (l : Level) : Level.lower .view l = .view := by cases l <;> decide

/-- The level lowered first, the focus unit told, the request then cleared: with the slot's REQUEST gone, the records are whole. -/
theorem released_firm (i : Fin 16) (k : Slot) (l : Level) {s t : State} (h : Firm s t) (hs : t.cu.slots[i] = some k)
    (u v : State)
    (hu : u = if Level.rank (Level.lower l k.held) < Level.rank k.held then
      claimReport none (raise .claimChange (setSlot i (some { k with
        held := Level.lower l k.held, holder := holderAfter t (Level.lower l k.held) k.holder }) t)) else t)
    (hv : v = match u.cu.slots[i] with
      | some k' => if Level.rank (Level.lower l k.held) < Level.rank k.held ∨ k.request.isSome then
          setSlot i (some { k' with request := none, outcome := .released }) u else u
      | none => u) :
    Firm s (removeRequest i v) ∧ v.cu.slots[i] = some { k with
      held := Level.lower l k.held, request := none,
      holder := if Level.rank (Level.lower l k.held) < Level.rank k.held then holderAfter t (Level.lower l k.held) k.holder
        else k.holder,
      outcome := if Level.rank (Level.lower l k.held) < Level.rank k.held ∨ k.request.isSome then .released else k.outcome } ∧
      ∀ j : Fin 16, j ≠ i → v.cu.slots[j] = t.cu.slots[j] := by
  have key : Firm s u ∧ (∃ k', u.cu.slots[i] = some k' ∧ k' = { k with
      held := Level.lower l k.held,
      holder := if Level.rank (Level.lower l k.held) < Level.rank k.held then holderAfter t (Level.lower l k.held) k.holder
        else k.holder }) ∧ ∀ j : Fin 16, j ≠ i → u.cu.slots[j] = t.cu.slots[j] := by
    by_cases hl : Level.rank (Level.lower l k.held) < Level.rank k.held
    · rw [if_pos hl] at hu
      subst hu
      have d := (claimReport_delivers none (raise_posts .claimChange (setSlot i (some { k with
        held := Level.lower l k.held, holder := holderAfter t (Level.lower l k.held) k.holder }) t)).delivers).cu
      refine ⟨claimReport_firm _ (raise_firm _ (setSlot_firm _ _ h fun p _ c => c.set _ _ ?_ ?_ ?_ ?_)), ⟨_, ?_, rfl⟩, ?_⟩
      · intro x r e hx; cases e; exact Nat.lt_of_le_of_lt (rank_lower _ _) (c.above _ k _ hs hx)
      · intro x e hh
        cases e
        unfold holderAfter at hh
        dsimp only at hh
        split at hh
        · cases hh
        · rename_i n
          by_cases z : Level.lower l k.held = .exclusive
          · exact z
          · exact absurd ⟨z, hh⟩ n
      · intro m hm hk hi
        obtain ⟨k', l', h1, h2⟩ := c.asked m hm hk
        subst hi; rw [hs] at h1; cases h1
        exact ⟨_, l', rfl, h2⟩
      · intro e x hx
        cases hx
        obtain ⟨c1, c2⟩ := c.standby e _ _ hs
        exact ⟨by show Level.lower l k.held = .view; rw [c1]; exact lower_view l, c2⟩
      · rw [d, if_pos hl]; simp [setSlot]
      · intro j hj
        have ne : (i : Nat) ≠ j := fun x => hj (Fin.ext x.symm)
        rw [d]; simp [setSlot, Vector.getElem_set_ne, ne]
    · rw [if_neg hl] at hu
      subst hu
      have e : Level.lower l k.held = k.held := by
        unfold Level.lower at hl ⊢
        split
        · rename_i hle
          rw [if_pos hle] at hl
          revert hl hle
          generalize k.held = m
          cases l <;> cases m <;> first | (intro _ _; rfl) | (intro a b; exact absurd a (by decide)) |
            (intro a b; exact absurd b (by decide))
        · rfl
      exact ⟨h, ⟨k, hs, by rw [if_neg hl, e]⟩, fun _ _ => rfl⟩
  obtain ⟨fu, ⟨k', hk', ek⟩, other⟩ := key
  rw [hk'] at hv
  dsimp only at hv
  by_cases hc : Level.rank (Level.lower l k.held) < Level.rank k.held ∨ k.request.isSome
  · rw [if_pos hc] at hv
    subst hv
    refine ⟨setCu_firm fu { u.cu with
      slots := u.cu.slots.set i (some { k' with request := none, outcome := .released }),
      outbox := u.cu.outbox.filter fun m => ¬ (m.kind = .request ∧ m.slot = i) } fun p _ c => ?_, ?_, ?_⟩
    · refine (c.sub _ List.filter_sublist).set i _ ?_ ?_ ?_ ?_
      · intro x r e hx; cases e; cases hx
      · intro x e hh; cases e; exact c.holder _ k' hk' hh
      · intro m hm hk hi; exact absurd hi (removeRequest_gone i u m hm hk)
      · intro e x hx; cases hx; exact ⟨(c.standby e _ _ hk').1, rfl⟩
    · rw [if_pos hc]; subst ek; simp [setSlot]
    · intro j hj
      have ne : (i : Nat) ≠ j := fun x => hj (Fin.ext x.symm)
      simpa [setSlot, Vector.getElem_set_ne, ne] using other j hj
  · rw [if_neg hc] at hv
    subst hv
    have hr : k.request = none := by
      cases x : k.request with
      | none => rfl
      | some r => exact absurd (.inr (by simp [x])) hc
    refine ⟨removeRequest_firm i fu, ?_, other⟩
    rw [hk', ek, if_neg hc, ← hr]

theorem releaseSlot_firm (i : Fin 16) (k : Slot) (l : Level) {s t : State} (h : Firm s t) (hs : t.cu.slots[i] = some k) :
    Firm s (releaseSlot i k l t) := by
  have r := (released_firm i k l h hs _ _ rfl rfl).1
  unfold releaseSlot
  dsimp only
  split
  · exact queueRelease_firm _ _ _ r
  · exact r

/-- What a release leaves in the slots: its own at the level, without a request; another one as sending leaves it. -/
theorem releaseSlot_slots (i : Fin 16) (k : Slot) (l : Level) (t : State) (hs : t.cu.slots[i] = some k) :
    (releaseSlot i k l t).cu.slots[i] = some { k with
      held := Level.lower l k.held, request := none,
      holder := if Level.rank (Level.lower l k.held) < Level.rank k.held then holderAfter t (Level.lower l k.held) k.holder
        else k.holder,
      outcome := if Level.rank (Level.lower l k.held) < Level.rank k.held ∨ k.request.isSome then .released else k.outcome } ∧
    (∀ j : Fin 16, j ≠ i → t.cu.slots[j] = none → (releaseSlot i k l t).cu.slots[j] = none) ∧
    ∀ (j : Fin 16) (x : Slot), j ≠ i → t.cu.slots[j] = some x → x.request = none → (releaseSlot i k l t).cu.slots[j] = some x := by
  obtain ⟨_, hi, other⟩ := released_firm i k l (.refl t) hs _ _ rfl rfl
  unfold releaseSlot
  dsimp only
  split
  · have q := queueRelease_sends i (Level.lower l k.held) k.content.addr
    exact ⟨(q _).2.2 i _ hi rfl, fun j hj e => (q _).2.1 j ((other j hj).trans e),
      fun j x hj e r => (q _).2.2 j x ((other j hj).trans e) r⟩
  · exact ⟨hi, fun j hj e => (other j hj).trans e, fun j x hj e _ => (other j hj).trans e⟩

theorem localRelease_firm (slot : Option (Fin 16)) (level : Option Level) {s t : State} (h : Firm s t) :
    Firm s (localRelease slot level t).2 := by
  unfold localRelease
  split
  · exact h
  · split
    · exact h
    · exact h
    · exact h
    · rename_i hs; exact releaseSlot_firm _ _ _ h hs

/-! ## Presence -/

theorem autoShare_firm (i : Fin 16) {s t : State} (h : Firm s t) : Firm s (autoShare i t) := by
  unfold autoShare
  split
  · exact h
  · split
    · exact localRequest_firm _ _ h
    · exact h

theorem view_firm (v : Vector Bool 62) {s t : State} (h : Firm s t) : Firm s (t.setCu { t.cu with view := v }) :=
  setCu_firm h _ fun _ _ c => c.same rfl rfl

theorem nodeIsPresent_firm (a : Byte) {s t : State} (h : Firm s t) : Firm s (nodeIsPresent a t) := by
  unfold nodeIsPresent
  split
  · exact h
  · dsimp only
    split
    · exact view_firm _ h
    · exact autoShare_firm _ (claimReport_firm _ (view_firm _ h))

theorem absentSlot_firm (i : Fin 16) (k : Slot) {s t : State} (h : Firm s t) (hs : t.cu.slots[i] = some k) :
    Firm s (absentSlot i k t) := by
  have b : Firm s (setSlot i (some { k with request := none, held := .view, holder := none })
      (if k.request.isSome = true then removeRequest i t else t)) := by
    split
    · refine setSlot_firm _ _ (removeRequest_firm _ h) fun p _ c => c.set _ _ ?_ ?_ ?_ ?_
      · intro x r e hx; cases e; cases hx
      · intro x e hh; cases e; cases hh
      · intro m hm hk hi; exact absurd hi (removeRequest_gone i t m hm hk)
      · intro _ x e; cases e; exact ⟨rfl, rfl⟩
    · rename_i hr
      have hr : k.request = none := by simpa using hr
      refine setSlot_firm _ _ h fun p _ c => c.set _ _ ?_ ?_ ?_ ?_
      · intro x r e hx; cases e; cases hx
      · intro x e hh; cases e; cases hh
      · intro m hm hk hi; exact absurd hi (c.not_asked hs (by simp [hr]) m hm hk)
      · intro _ x e; cases e; exact ⟨rfl, rfl⟩
  unfold absentSlot
  dsimp only
  refine countCu_firm _ (raise_firm _ ?_)
  split
  · exact raise_firm _ b
  · exact b

theorem nodeIsAbsent_firm (a : Byte) {s t : State} (h : Firm s t) : Firm s (nodeIsAbsent a t) := by
  unfold nodeIsAbsent
  split
  · exact h
  · dsimp only
    split
    · exact view_firm _ h
    · split
      · exact view_firm _ h
      · rename_i hs; exact claimReport_firm _ (absentSlot_firm _ _ (view_firm _ h) hs)

/-! ## The source's answers -/

theorem answers_some {k : Slot} {l : Level} (h : answers k l = true) : ∃ d, k.request = some ⟨l, some d⟩ := by
  unfold answers at h
  split at h
  · rename_i r d e; exact ⟨d, by rw [e]; simp at h; rw [h]⟩
  · cases h

theorem grant_firm (i : Fin 16) (k : Slot) (l : Level) {s t : State} (h : Firm s t) (hs : t.cu.slots[i] = some k) :
    Firm s (grant i k l t) := by
  unfold grant
  dsimp only
  split
  · rename_i ha
    obtain ⟨d, hr⟩ := answers_some ha
    refine claimReport_firm _ (countCu_firm _ (raise_firm _ (setSlot_firm _ _ h fun p _ c => c.set _ _ ?_ ?_ ?_ ?_)))
    · intro x r e hx; cases e; cases hx
    · intro x e hh
      cases e
      by_cases z : l = .exclusive
      · exact z
      · have hh : k.holder = some (own t) := by simpa [z] using hh
        have ab := c.above _ _ _ hs hr
        rw [c.holder _ k hs hh] at ab
        cases l <;> simp [Level.rank] at ab
    · intro m hm hk hi; exact absurd hi (c.not_asked hs (by simp [hr]) m hm hk)
    · intro e x hx; have := (c.standby e _ _ hs).2; rw [hr] at this; cases this
  · split
    · refine queueRelease_firm _ _ _ ?_
      split
      · refine setCu_firm h { t.cu with
          slots := t.cu.slots.set i (some { k with request := none, outcome := .released }),
          outbox := t.cu.outbox.filter fun m => ¬ (m.kind = .request ∧ m.slot = i),
          c := { t.cu.c with unsolicited := bump t.cu.c.unsolicited } } fun p _ c => ?_
        refine ((c.sub _ List.filter_sublist).set i (some { k with request := none, outcome := .released }) ?_ ?_ ?_ ?_).same rfl rfl
        · intro x r e hx; cases e; cases hx
        · intro x e hh; cases e; exact c.holder _ k hs hh
        · intro m hm hk hi; exact absurd hi (removeRequest_gone i t m hm hk)
        · intro e x hx; cases hx; exact ⟨(c.standby e _ _ hs).1, rfl⟩
      · exact removeRequest_firm _ (countCu_firm _ h)
    · exact countCu_firm _ h

theorem holderTaken_own {t : State} {l : Level} {f o : Option Byte} (h : holderTaken t l f o = some (own t)) :
    l = .exclusive ∧ o = some (own t) := by
  unfold holderTaken at h
  split at h
  · rename_i e; exact ⟨e, h⟩
  · split at h
    · cases h
    · rename_i n; exact absurd h n

theorem deny_firm (i : Fin 16) (k : Slot) (l : Level) (f : Option Byte) {s t : State} (h : Firm s t)
    (hs : t.cu.slots[i] = some k) : Firm s (deny i k l f t) := by
  unfold deny
  dsimp only
  split
  · rename_i ha
    obtain ⟨d, hr⟩ := answers_some ha
    refine countCu_firm _ (setSlot_firm _ _ h fun p _ c => c.set _ _ ?_ ?_ ?_ ?_)
    · intro x r e hx; cases e; cases hx
    · intro x e hh; cases e; exact (holderTaken_own hh).1
    · intro m hm hk hi; exact absurd hi (c.not_asked hs (by simp [hr]) m hm hk)
    · intro e x hx; cases hx; exact ⟨(c.standby e _ _ hs).1, rfl⟩
  · exact countCu_firm _ h

theorem revoke_firm (i : Fin 16) (k : Slot) (l : Level) (f : Option Byte) {s t : State} (h : Firm s t)
    (hs : t.cu.slots[i] = some k) : Firm s (revoke i k l f t) := by
  have b : Firm s (setSlot i (some { k with
      held := Level.lower l k.held, holder := holderTaken t (Level.lower l k.held) f k.holder,
      outcome := if Level.rank l < Level.rank k.held then .revoked else k.outcome }) t) := by
    refine setSlot_firm _ _ h fun p _ c => c.set _ _ ?_ ?_ ?_ ?_
    · intro x r e hx; cases e; exact Nat.lt_of_le_of_lt (rank_lower _ _) (c.above _ k _ hs hx)
    · intro x e hh; cases e; exact (holderTaken_own hh).1
    · intro m hm hk hi
      obtain ⟨k', l', h1, h2⟩ := c.asked m hm hk
      subst hi; rw [hs] at h1; cases h1
      exact ⟨_, l', rfl, h2⟩
    · intro e x hx
      cases hx
      obtain ⟨c1, c2⟩ := c.standby e _ _ hs
      exact ⟨by show Level.lower l k.held = .view; rw [c1]; exact lower_view l, c2⟩
  unfold revoke
  dsimp only
  split
  · rename_i hl
    rw [if_pos hl] at b
    exact claimReport_firm _ (raise_firm _ (countCu_firm _ b))
  · rename_i hl
    rw [if_neg hl] at b
    exact countCu_firm _ b

theorem claimTaken_firm (f : Frame) {s t : State} (h : Firm s t) : Firm s (claimTaken f t) := by
  unfold claimTaken rejectClaim
  split
  · split
    · rename_i hs _
      split
      · exact grant_firm _ _ _ h hs
      · split
        · exact deny_firm _ _ _ _ h hs
        · split
          · exact revoke_firm _ _ _ _ h hs
          · exact countCu_firm _ h
    · exact countCu_firm _ h
  · exact countCu_firm _ h

theorem requestExpired_firm (i : Fin 16) {s t : State} (h : Firm s t) : Firm s (requestExpired i t) := by
  unfold requestExpired
  split
  · rename_i k hs
    split
    · rename_i l d hr
      refine countCu_firm _ (raise_firm _ (setSlot_firm _ _ h fun p _ c => c.set _ _ ?_ ?_ ?_ ?_))
      · intro x r e hx; cases e; cases hx
      · intro x e hh; cases e; exact c.holder _ k hs hh
      · intro m hm hk hi; exact absurd hi (c.not_asked hs (by simp [hr]) m hm hk)
      · intro e x hx; cases hx; exact ⟨(c.standby e _ _ hs).1, rfl⟩
    · exact h
  · exact h

/-- A fold of firm operations. -/
theorem foldl_firm {α : Type} (f : State → α → State) (hf : ∀ a {s t : State}, Firm s t → Firm s (f t a)) (l : List α)
    {s t : State} (h : Firm s t) : Firm s (l.foldl f t) := by
  induction l generalizing t with
  | nil => exact h
  | cons a l ih => exact ih (hf a h)

theorem standbyClaims_firm {s t : State} (h : Firm s t) : Firm s (standbyClaims t) := by
  refine foldl_firm _ (fun i s t h => ?_) _ h
  unfold standbyRelease
  split
  · rename_i hs; exact releaseSlot_firm _ _ _ h hs
  · exact h

theorem wakeClaims_firm {s t : State} (h : Firm s t) : Firm s (wakeClaims t) :=
  foldl_firm _ (fun i _ _ h => autoShare_firm i h) _ h

/-- The releases at the entry to STANDBY bring every loaded slot to VIEW without a request (R152). -/
theorem standbyClaims_view (t : State) (i : Fin 16) (k : Slot) (h : (standbyClaims t).cu.slots[i] = some k) :
    k.held = .view ∧ k.request = none := by
  have one (j i : Fin 16) (u : State) (hi : j = i ∨ ∀ k, u.cu.slots[i] = some k → k.held = .view ∧ k.request = none) :
      ∀ k, (standbyRelease j u).cu.slots[i] = some k → k.held = .view ∧ k.request = none := by
    intro k hk
    unfold standbyRelease at hk
    split at hk
    · rename_i x hs
      obtain ⟨h1, h2, h3⟩ := releaseSlot_slots j x .view u hs
      by_cases e : i = j
      · subst e
        rw [h1] at hk; cases hk
        exact ⟨view_lower x.held, rfl⟩
      · have hi := hi.resolve_left fun x => e x.symm
        cases hx : u.cu.slots[i] with
        | none => rw [h2 i e hx] at hk; cases hk
        | some y =>
          have := hi y hx
          rw [h3 i y e hx this.2] at hk; cases hk
          exact this
    · rename_i hs
      rcases hi with rfl | hi
      · rw [hs] at hk; cases hk
      · exact hi k hk
  have fold : ∀ (l : List (Fin 16)) (u : State), (i ∈ l ∨ ∀ k, u.cu.slots[i] = some k → k.held = .view ∧ k.request = none) →
      ∀ k, (l.foldl (fun s i => standbyRelease i s) u).cu.slots[i] = some k → k.held = .view ∧ k.request = none := by
    intro l
    induction l with
    | nil => intro u m; simpa using m
    | cons j l ih =>
      intro u m
      refine ih (standbyRelease j u) ?_
      by_cases hm : i ∈ l
      · exact .inl hm
      · right
        refine one j i u ?_
        rcases m with m | m
        · rcases List.mem_cons.1 m with e | e
          · exact .inl e.symm
          · exact absurd e hm
        · exact .inr m
  unfold standbyClaims at h
  exact fold _ t (.inl (List.mem_finRange i)) k h

/-! ## The directory -/

theorem emptyQueue_firm (i : Fin 16) {s t : State} (h : Firm s t) : Firm s (emptyQueue i t) := by
  unfold emptyQueue
  exact setIu_firm h _ (.refl _) fun _ _ => id

theorem freshSequence_firm (i : Fin 16) {s t : State} (h : Firm s t) : Firm s (freshSequence i t) := by
  unfold freshSequence
  exact setIu_firm h _ (.refl _) fun _ _ => id

theorem addressChangeReport_firm (i : Fin 16) {s t : State} (h : Firm s t) : Firm s (addressChangeReport i t) := by
  have drop {u : State} (hu : Firm s u) : Firm s (u.setIu { u.iu with
      keys := u.iu.keys.filter fun k => k.2 ≠ i, owners := dropOwners i u.iu.owners }) :=
    setIu_firm hu _ List.filter_sublist fun _ _ e => (dropOwners_of e).1
  have k := drop (freshSequence_firm i (emptyQueue_firm i h))
  unfold addressChangeReport
  dsimp only
  split
  · exact dragEnd_firm k
  · exact k

/-- A slot's record goes: its messages, then a record without a request in its place. -/
theorem replaceSlot_firm (i : Fin 16) (b : Byte) (x : Option Slot) (heard : Bool)
    (hx : ∀ k, x = some k → k.held = .view ∧ k.request = none ∧ k.holder = none) {s t : State} (h : Firm s t) :
    Firm s (setSlot i x (if heard = true then queueRelease i .view b (removeRequest i t) else removeRequest i t)) := by
  have r := removeRequest_firm i h
  have fin (u : State) (hu : Firm s u) (gone : ∀ m ∈ u.cu.outbox, m.kind = .request → m.slot ≠ i) : Firm s (setSlot i x u) := by
    refine setSlot_firm _ _ hu fun p _ c => c.set _ _ ?_ ?_ ?_ ?_
    · intro k r e hr; rw [(hx k e).2.1] at hr; cases hr
    · intro k e hh; rw [(hx k e).2.2] at hh; cases hh
    · intro m hm hk hi; exact absurd hi (gone m hm hk)
    · intro _ k e; exact ⟨(hx k e).1, (hx k e).2.1⟩
  split
  · exact fin _ (queueRelease_firm _ _ _ (removeRequest_firm _ r)) (queueRelease_sends _ _ _ _).1
  · exact fin _ r (removeRequest_gone i t)

theorem moveSlot_firm (i : Fin 16) (k : Slot) (c : SlotContent) {s t : State} (h : Firm s t) :
    Firm s (moveSlot i k c t) := by
  have b := replaceSlot_firm i k.content.addr (some (freshSlot c)) (mustRelease k (inOutbox .request i t))
    (fun x e => by cases e; exact ⟨rfl, rfl, rfl⟩) h
  unfold moveSlot
  dsimp only
  refine autoShare_firm _ (claimReport_firm _ (addressChangeReport_firm _ ?_))
  split
  · exact raise_firm _ b
  · exact b

theorem clearSlot_firm (i : Fin 16) (k : Slot) {s t : State} (h : Firm s t) : Firm s (clearSlot i k t) := by
  have b := replaceSlot_firm i k.content.addr none (mustRelease k (inOutbox .request i t)) nofun h
  unfold clearSlot
  dsimp only
  refine emptyQueue_firm _ ?_
  split
  · exact raise_firm _ b
  · exact b

theorem writeSlot_firm (i : Fin 16) (c : Option SlotContent) {s t : State} (h : Firm s t) : Firm s (writeSlot i c t).2 := by
  unfold writeSlot
  split
  · exact h
  · split
    · exact h
    · exact clearSlot_firm _ _ h
  · rename_i c
    split
    · exact h
    · split
      · exact h
      · split
        · rename_i hs
          refine autoShare_firm _ (freshSequence_firm _ (setSlot_firm _ _ h fun p _ c' => c'.set _ _ ?_ ?_ ?_ ?_))
          · intro x r e hx; cases e; cases hx
          · intro x e hh; cases e; cases hh
          · intro m hm hk hi; exact absurd hi (c'.not_asked_empty hs m hm hk)
          · intro _ x e; cases e; exact ⟨rfl, rfl⟩
        · rename_i k hs
          split
          · refine setSlot_firm _ _ h fun p _ c' => c'.set _ _ ?_ ?_ ?_ ?_
            · intro x r e hx; cases e; exact c'.above _ k _ hs hx
            · intro x e hh; cases e; exact c'.holder _ k hs hh
            · intro m hm hk hi
              obtain ⟨k', l', h1, h2⟩ := c'.asked m hm hk
              subst hi; rw [hs] at h1; cases h1
              exact ⟨_, l', rfl, h2⟩
            · intro e x hx; cases hx; exact c'.standby e _ k hs
          · exact moveSlot_firm _ _ _ h

/-! ## The panel unit -/

theorem countPu_firm (f : PuCounters → PuCounters) {s t : State} (h : Firm s t) : Firm s (countPu f t) := setPu_firm h _ rfl

theorem restartIdle_firm {s t : State} (h : Firm s t) : Firm s (restartIdle t) := by
  unfold restartIdle
  split <;> exact setPu_firm h _ rfl

theorem enterStandby_firm {s t : State} (h : Firm s t) : Firm s (enterStandby t) := by
  unfold enterStandby
  split
  · exact h
  · dsimp only
    have z : Firm (t.setPu { t.pu with power := .standby, idle := none })
        (countPu (fun c => { c with standbys := bump c.standbys }) (t.setPu { t.pu with power := .standby, idle := none })) :=
      countPu_firm _ (.refl _)
    have k := standbyClaims_firm (standbyFocus_firm z)
    have v := standbyClaims_view (standbyFocus (countPu (fun c => { c with standbys := bump c.standbys })
      (t.setPu { t.pu with power := .standby, idle := none })))
    generalize standbyClaims (standbyFocus (countPu (fun c => { c with standbys := bump c.standbys })
      (t.setPu { t.pu with power := .standby, idle := none }))) = w at k v ⊢
    refine h.trans ⟨fun c => k.counts ⟨c.downshift, c.attempts, c.guardDistance, c.accum⟩, k.lists, k.heads, k.pool, k.owned,
      k.core, fun c => ?_⟩
    have e := k.core c.active
    exact ⟨e.above, e.holder, e.once, e.asked, fun _ => v⟩

theorem wake_firm (c : WakeCause) {s t : State} (h : Firm s t) : Firm s (wake c t) := by
  unfold wake
  split
  · exact h
  · have k : Firm s (t.setPu { t.pu with power := .active, wake := some c }) :=
      h.trans ⟨fun c => ⟨c.downshift, c.attempts, c.guardDistance, c.accum⟩, id, id, id, id, id, fun c => c.active⟩
    exact wakeClaims_firm (restartIdle_firm (countPu_firm _ (raise_firm _ k)))

theorem deskReport_firm (k : Option WakeKind) {s t : State} (h : Firm s t) : Firm s (deskReport k t) := by
  unfold deskReport
  split
  · exact restartIdle_firm h
  · exact wake_firm _ h
  · exact h

theorem idleExpired_firm {s t : State} (h : Firm s t) : Firm s (idleExpired t) := by
  unfold idleExpired
  split
  · exact enterStandby_firm h
  · exact h

theorem setPower_firm (p : Option Power) {s t : State} (h : Firm s t) : Firm s (setPower p t).2 := by
  unfold setPower
  split
  · exact h
  · exact enterStandby_firm h
  · dsimp only
    split
    · exact wake_firm _ h
    · exact restartIdle_firm h

theorem writeStandby_firm (n : Nat) {s t : State} (h : Firm s t) : Firm s (writeStandby n t) := by
  have k := setDesk_firm h { t.desk with standby := n } id id
  unfold writeStandby
  dsimp only
  split
  · exact h
  · split
    · exact setPu_firm k _ rfl
    · split
      · exact k
      · split
        · exact setPu_firm k _ rfl
        · split
          · exact enterStandby_firm k
          · exact k

theorem pressed_firm {s t : State} (h : Firm s t) : Firm s (pressed t) := by
  have k := countPu_firm (fun c => { c with presses := bump c.presses }) h
  unfold pressed
  dsimp only
  split
  · exact wake_firm _ k
  · split
    · exact localRequest_firm _ _ (restartIdle_firm k)
    · exact countPu_firm _ (restartIdle_firm k)

theorem filterChanges_firm (l : ButtonLevel) {s t : State} (h : Firm s t) : Firm s (filterChanges l t) := by
  unfold filterChanges
  dsimp only
  split
  · exact pressed_firm (setPu_firm h _ rfl)
  · exact setPu_firm h _ rfl

theorem sample_firm (l : ButtonLevel) {s t : State} (h : Firm s t) : Firm s (sample l t) := by
  unfold sample
  split
  · exact h
  · split
    · exact setPu_firm h _ rfl
    · split
      · exact setPu_firm h _ rfl
      · split
        · exact setPu_firm h _ rfl
        · exact filterChanges_firm _ h

theorem blinkAdvance_firm {s t : State} (h : Firm s t) : Firm s (blinkAdvance t) := by
  unfold blinkAdvance
  split
  · exact h
  · exact setPu_firm h _ rfl

theorem writeLamp_firm (l : Fin 5) (bs : List Byte) {s t : State} (h : Firm s t) : Firm s (writeLamp l bs t).2 := by
  unfold writeLamp
  split
  · split
    · exact setPu_firm h _ rfl
    · exact h
  · exact h

/-! ## The input unit -/

theorem countIu_firm (f : IuCounters → IuCounters) {s t : State} (h : Firm s t) : Firm s (countIu f t) :=
  setIu_firm h _ (.refl _) fun _ _ => id

theorem listWhole_presets {c : Cp} (w : ListsWhole c) (n : Fin 8) (k : Fin 4) : listWhole c.presets[presetIndex n k] :=
  w.presets _

theorem selectPreset_firm (n : Nat) {s t : State} (h : Firm s t) : Firm s (selectPreset n t).2 := by
  unfold selectPreset
  split
  · refine setCp_firm h _ (fun w => ⟨w.active, fun k => ?_, w.presets⟩) id
    simp only [Fin.getElem_fin, Vector.getElem_ofFn]
    exact w.presets _
  · exact h

theorem claimAction_firm {act : Fin 16 → State → State} (ha : ∀ i {s t : State}, Firm s t → Firm s (act i t)) {s t : State}
    (h : Firm s t) : Firm s (claimAction act t) := by
  unfold claimAction
  split
  · exact ha _ h
  · exact countIu_firm _ h

theorem runAction_firm (k : HotKey) {s t : State} (h : Firm s t) : Firm s (runAction k t) := by
  unfold runAction
  split
  · exact selectPreset_firm _ h
  · exact claimAction_firm (fun i _ _ h => localRequest_firm _ _ h) h
  · exact claimAction_firm (fun i _ _ h => localRequest_firm _ _ h) h
  · exact claimAction_firm (fun i _ _ h => localRelease_firm _ _ h) h
  · exact focusLockAction_firm h
  · exact nextWindowAction_firm h
  · exact enterStandby_firm h

theorem consume_firm (u : Byte) {s t : State} (h : Firm s t) : Firm s (consume u t) := by
  unfold consume
  split
  · exact setIu_firm h _ (.refl _) fun _ _ => id
  · exact countIu_firm _ h

theorem keyDownCases_firm (u : Byte) {s t : State} (h : Firm s t) : Firm s (keyDownCases u t) := by
  unfold keyDownCases duplicatePress
  split
  · exact countIu_firm _ h
  · rename_i hn
    split
    · exact countIu_firm _ (runAction_firm _ (consume_firm _ h))
    · exact countIu_firm _ h
    · rename_i f _ hf
      split
      · exact countIu_firm _ h
      · refine append_firm _ _ (h.trans ⟨fun c => ⟨c.downshift, c.attempts, c.guardDistance, c.accum⟩, id, id, id, fun o => ?_, id, id⟩)
        refine ⟨fun k hk => ?_, o.buttons, ?_⟩
        · rcases List.mem_append.1 hk with x | x
          · exact o.keys k x
          · rw [List.mem_singleton.1 x]; exact congrArg (Option.map fun x : Focus => x.slot) hf
        · show (List.map Prod.fst (t.iu.keys ++ [(u, f.slot)])).Nodup
          rw [List.map_append, List.nodup_append]
          refine ⟨o.once, by simp, fun a ha b hb e => ?_⟩
          rw [List.mem_singleton.1 hb] at e
          have e : a = u := e
          exact hn (.inr (e ▸ ha))

theorem keyDown_firm (u : Byte) {s t : State} (h : Firm s t) : Firm s (keyDown u t) := by
  unfold keyDown duplicatePress
  split
  · split
    · exact countIu_firm _ h
    · exact keyDownCases_firm _ (setIu_firm h _ (.refl _) fun _ _ => id)
  · exact keyDownCases_firm _ h

theorem keyUpCases_firm (u : Byte) {s t : State} (h : Firm s t) : Firm s (keyUpCases u t) := by
  unfold keyUpCases
  split
  · exact setIu_firm h _ (.refl _) fun _ _ => id
  · split
    · exact append_firm _ _ (setIu_firm h _ List.erase_sublist fun _ _ => id)
    · exact countIu_firm _ h

theorem keyUp_firm (u : Byte) {s t : State} (h : Firm s t) : Firm s (keyUp u t) := by
  unfold keyUp
  split
  · exact keyUpCases_firm _ (setIu_firm h _ (.refl _) fun _ _ => id)
  · exact keyUpCases_firm _ h

theorem appendReported_firm (i : Fin 16) {s t : State} (h : Firm s t) : Firm s (appendReported i t) := by
  unfold appendReported
  split
  · exact append_firm _ _ h
  · exact h

theorem buttonPress_firm (k : Fin 5) {s t : State} (h : Firm s t) : Firm s (buttonPress k t) := by
  unfold buttonPress duplicatePress
  dsimp only
  split
  · exact countIu_firm _ h
  · have b : Firm s (t.setIu { t.iu with buttons := t.iu.buttons ||| 1#5 <<< k.val }) := setIu_firm h _ (.refl _) fun _ _ => id
    split
    · rename_i f hf
      refine appendReported_firm _ (b.trans ⟨fun c => ⟨c.downshift, c.attempts, c.guardDistance, c.accum⟩, id, id, id, fun o => ?_,
        id, id⟩)
      refine ⟨o.keys, fun j a e => ?_, o.once⟩
      simp only [State.setIu_iu, Fin.getElem_fin, Vector.getElem_set] at e
      split at e
      · cases e
        exact congrArg (Option.map fun x : Focus => x.slot) hf
      · exact o.buttons j a e
    · exact countIu_firm _ b

theorem buttonRelease_firm (k : Fin 5) {s t : State} (h : Firm s t) : Firm s (buttonRelease k t) := by
  have b : Firm s (t.setIu { t.iu with buttons := t.iu.buttons &&& ~~~(1#5 <<< k.val) }) := setIu_firm h _ (.refl _) fun _ _ => id
  unfold buttonRelease
  dsimp only
  split
  · exact b
  · have c : Firm s ((t.setIu { t.iu with buttons := t.iu.buttons &&& ~~~(1#5 <<< k.val) }).setIu
        { (t.setIu { t.iu with buttons := t.iu.buttons &&& ~~~(1#5 <<< k.val) }).iu with owners :=
          (t.setIu { t.iu with buttons := t.iu.buttons &&& ~~~(1#5 <<< k.val) }).iu.owners.set k none }) := by
      refine setIu_firm b _ (.refl _) fun j a e => ?_
      simp only [State.setIu_iu, Fin.getElem_fin, Vector.getElem_set] at e
      split at e
      · cases e
      · exact e
    split
    · exact appendReported_firm _ c
    · exact dragEnd_firm (appendReported_firm _ c)

theorem wheelTurn_firm (v x : Byte) {s t : State} (h : Firm s t) : Firm s (wheelTurn v x t) := by
  unfold wheelTurn
  split
  · exact append_firm _ _ h
  · exact countIu_firm _ h

theorem takeRecord_firm (valid : Bool) (kind : Option WakeKind) {handle : State → State}
    (hh : ∀ {s t : State}, Firm s t → Firm s (handle t)) {s t : State} (h : Firm s t) :
    Firm s (takeRecord valid kind handle t) := by
  unfold takeRecord rejectRecord
  split
  · exact hh (deskReport_firm _ h)
  · exact countIu_firm _ h

theorem writeHotKey_firm (i : Fin 16) (bs : List Byte) {s t : State} (h : Firm s t) : Firm s (writeHotKey i bs t).2 := by
  have w (v : Vector (Option HotKey) 16) : Firm s (t.setIu { t.iu with hotkeys := v }) :=
    setIu_firm h _ (.refl _) fun _ _ => id
  unfold writeHotKey
  split
  · exact w _
  · split
    · exact h
    · split
      · exact h
      · split
        · exact h
        · split
          · exact h
          · exact w _
  · exact h

end Sys2Proof.Machine
end

