-- ==== Sys2Proof/Laws/FirmPool.lean ====
section
/-! SUPPORT. The stream receiver keeps the buffer pool whole: every buffer stays in the free set or with one entry, once (R43 to R49,
R53 to R57). -/

namespace Sys2Proof.Machine

open Sys2Proof

/-! ## Rising lists -/

theorem insertRising_mem (a b : Nat) (l : List Nat) : b ∈ insertRising a l ↔ b = a ∨ b ∈ l := by
  induction l with
  | nil => simp [insertRising]
  | cons c l ih =>
    unfold insertRising
    split
    · simp
    · split
      · rename_i e; subst e; simp
      · simp only [List.mem_cons, ih]; exact or_left_comm

/-- A number that is not there yet is put in once. -/
theorem insertRising_perm {a : Nat} {l : List Nat} (h : a ∉ l) : (insertRising a l).Perm (a :: l) := by
  induction l with
  | nil => exact .refl _
  | cons b l ih =>
    unfold insertRising
    split
    · exact .refl _
    · split
      · rename_i e; exact absurd (e ▸ List.mem_cons_self) h
      · exact ((ih fun m => h (.tail _ m)).cons b).trans (.swap a b l)

theorem insertRising_rising {a : Nat} {l : List Nat} (h : l.Pairwise (· < ·)) : (insertRising a l).Pairwise (· < ·) := by
  induction l with
  | nil => simp [insertRising]
  | cons b l ih =>
    obtain ⟨h1, h2⟩ := List.pairwise_cons.1 h
    unfold insertRising
    split
    · rename_i lt
      exact List.pairwise_cons.2 ⟨fun c m => by rcases List.mem_cons.1 m with e | m
                                                · omega
                                                · have := h1 c m; omega, h⟩
    · split
      · exact h
      · exact List.pairwise_cons.2 ⟨fun c m => by
          rcases (insertRising_mem a c l).1 m with e | m
          · omega
          · exact h1 c m, ih h2⟩

/-- Buffers returned to the free set, none of them there, none twice. -/
theorem foldl_insertRising {f : List Nat} (b : List Nat) (hf : f.Pairwise (· < ·)) (h : (b ++ f).Nodup) :
    (b.foldl (fun f n => insertRising n f) f).Perm (b ++ f) ∧ (b.foldl (fun f n => insertRising n f) f).Pairwise (· < ·) := by
  induction b generalizing f with
  | nil => exact ⟨.refl _, hf⟩
  | cons n b ih =>
    obtain ⟨h1, h2⟩ := List.nodup_cons.1 h
    have p : (insertRising n f).Perm (n :: f) := insertRising_perm fun m => h1 (List.mem_append_right _ m)
    have q : (b ++ insertRising n f).Perm (n :: (b ++ f)) := (p.append_left b).trans List.perm_middle
    obtain ⟨k1, k2⟩ := ih (insertRising_rising hf) (q.nodup_iff.2 h)
    exact ⟨k1.trans q, k2⟩

/-! ## One entry replaced -/

/-- What one element adds to a flattened vector, and what the others add. -/
theorem flatMap_set {α : Type} {n : Nat} (f : α → List Nat) (v : Vector α n) (i : Fin n) :
    ∃ rest, (v.toList.flatMap f).Perm (f v[i] ++ rest) ∧ ∀ x, ((v.set i x).toList.flatMap f).Perm (f x ++ rest) := by
  have key : ∀ (l : List α) (i : Nat) (h : i < l.length), ∃ rest, (l.flatMap f).Perm (f l[i] ++ rest) ∧
      ∀ x, ((l.set i x).flatMap f).Perm (f x ++ rest) := by
    intro l
    induction l with
    | nil => intro i h; cases h
    | cons a l ih =>
      intro i h
      cases i with
      | zero => exact ⟨l.flatMap f, by simp, fun x => by simp⟩
      | succ i =>
        obtain ⟨rest, h1, h2⟩ := ih i (by simpa using h)
        have move (x : α) {w : List Nat} (p : w.Perm (f x ++ rest)) : (f a ++ w).Perm (f x ++ (f a ++ rest)) :=
          (p.append_left _).trans (by
            rw [← List.append_assoc, ← List.append_assoc]; exact List.perm_append_comm.append_right _)
        exact ⟨f a ++ rest, by simpa using move _ h1, fun x => by simpa using move x (h2 x)⟩
  obtain ⟨rest, h1, h2⟩ := key v.toList i (by simp)
  exact ⟨rest, by simpa using h1, fun x => by simpa [Vector.toList_set] using h2 x⟩

theorem set_entry {v : Vector (Option StreamEntry) 32} {i j : Fin 32} {x : Option StreamEntry} {e : StreamEntry}
    (h : (v.set i x)[j] = some e) : (i = j ∧ x = some e) ∨ (i ≠ j ∧ v[j] = some e) := by
  simp only [Fin.getElem_fin, Vector.getElem_set] at h
  split at h
  · rename_i e; exact .inl ⟨Fin.ext e, h⟩
  · rename_i e; exact .inr ⟨fun x => e (by rw [x]), h⟩

/-- An entry and the free set changed so that together they hold what they held. -/
theorem PoolWhole.move {r : Sr} (p : PoolWhole r) (i : Fin 32) (x : Option StreamEntry) (free : List Nat) (lines : List (Nat × List Colour))
    (hb : (free ++ entryBuffers x).Perm (r.free ++ entryBuffers r.entries[i])) (hr : free.Pairwise (· < ·))
    (he : ∀ e, x = some e → EntryWhole e) : PoolWhole ⟨r.entries.set i x, free, lines⟩ := by
  obtain ⟨rest, h1, h2⟩ := flatMap_set entryBuffers r.entries i
  refine ⟨?_, hr, fun j e h => ?_⟩
  · refine .trans ?_ p.whole
    refine ((h2 x).append_left free).trans (.trans ?_ (h1.append_left r.free).symm)
    rw [← List.append_assoc, ← List.append_assoc]
    exact hb.append_right _
  · rcases set_entry h with ⟨_, e'⟩ | ⟨_, e'⟩
    · exact he e e'
    · exact p.entries j e e'

/-- An entry changed that holds the buffers it held. -/
theorem PoolWhole.set {r : Sr} (p : PoolWhole r) (i : Fin 32) (x : Option StreamEntry)
    (hb : (entryBuffers x).Perm (entryBuffers r.entries[i])) (he : ∀ e, x = some e → EntryWhole e) :
    PoolWhole { r with entries := r.entries.set i x } :=
  p.move i x r.free r.lines (hb.append_left _) p.rising he

/-- No buffer is held twice. -/
theorem PoolWhole.nodup {r : Sr} (p : PoolWhole r) (i : Fin 32) : (r.free ++ entryBuffers r.entries[i]).Nodup := by
  obtain ⟨rest, h1, _⟩ := flatMap_set entryBuffers r.entries i
  have n := (p.whole.nodup_iff.2 List.nodup_range)
  have n := ((h1.append_left r.free).nodup_iff).1 n
  rw [← List.append_assoc] at n
  exact n.of_append_left

/-! ## Roles -/

theorem entryBuffers_some (e : StreamEntry) : entryBuffers (some e) = (e.buffers.map Buffers.all).getD [] := rfl

theorem readyRoles_all {b : Buffers} (h : b.all.Nodup) : (readyRoles b).all.Perm b.all := by
  obtain ⟨f, r, a, sp⟩ := b
  cases r <;> cases a <;> simp only [readyRoles, Buffers.all, Option.toList, List.append_nil, List.nil_append, List.cons_append] at h ⊢
  all_goals first
    | exact .refl _
    | (rename_i x y
       have n : x ∉ sp := fun m => by simp [m] at h
       exact ((((insertRising_perm n).cons y).trans (.swap x y sp)).cons f))
    | (rename_i x
       have n : x ∉ sp := fun m => by simp [m] at h
       exact (insertRising_perm n).cons f)

theorem swapRoles_all {b : Buffers} (h : b.all.Nodup) : (swapRoles b).all.Perm b.all := by
  obtain ⟨f, r, a, sp⟩ := b
  cases r with
  | none => exact .refl _
  | some x =>
    have n : f ∉ sp := fun m => by simp [Buffers.all, m] at h
    cases a with
    | none =>
      simp only [swapRoles, Buffers.all, Option.toList, List.append_nil, List.nil_append, List.cons_append]
      exact ((insertRising_perm n).cons x).trans (.swap f x sp)
    | some y =>
      simp only [swapRoles, Buffers.all, Option.toList, List.append_nil, List.nil_append, List.cons_append]
      exact ((((insertRising_perm n).cons y).trans (.swap f y sp)).cons x).trans (.swap f x (y :: sp))

theorem assemblingRoles_all {b : Buffers} (h : b.assembling = none) : (assemblingRoles b).all.Perm b.all := by
  obtain ⟨f, r, a, sp⟩ := b
  dsimp only at h
  subst h
  cases sp with
  | nil => exact .refl _
  | cons n l => simp [assemblingRoles, Buffers.all]

/-- The buffers of an entry at its place are not held twice. -/
theorem PoolWhole.all_nodup {r : Sr} (p : PoolWhole r) {i : Fin 32} {e : StreamEntry} {b : Buffers} (h : r.entries[i] = some e)
    (hb : e.buffers = some b) : b.all.Nodup := by
  have n := (p.nodup i).of_append_right
  rw [h, entryBuffers_some, hb] at n
  exact n

/-! ## Operations -/

/-- An entry stored at its place, holding the buffers it held. -/
theorem setEntry_firm (i : Fin 32) (x : Option StreamEntry) {s t : State} (h : Firm s t)
    (hb : PoolWhole t.sr → (entryBuffers x).Perm (entryBuffers t.sr.entries[i]))
    (he : PoolWhole t.sr → ∀ e, x = some e → EntryWhole e) : Firm s (setEntry i x t) :=
  setSr_firm h _ fun p => p.set i x (hb p) (he p)

/-- An entry of which only content, armed flag, timer or counters change. -/
theorem EntryWhole.plain {e f : StreamEntry} (w : EntryWhole e) (hs : f.state = .blocked ↔ e.state = .blocked)
    (hb : f.buffers = e.buffers) (ha : f.assembly.isSome = e.assembly.isSome) (hr : f.ready = e.ready) : EntryWhole f :=
  ⟨by rw [hs, hb]; exact w.blocked, by rw [hb]; exact w.three, by rw [hb, ha]; exact w.assembling, by rw [hb, hr]; exact w.ready⟩

theorem plainEntry_firm (i : Fin 32) (e f : StreamEntry) {s t : State} (h : Firm s t) (hi : t.sr.entries[i] = some e)
    (hs : f.state = .blocked ↔ e.state = .blocked) (hb : f.buffers = e.buffers) (ha : f.assembly.isSome = e.assembly.isSome)
    (hr : f.ready = e.ready) : Firm s (setEntry i (some f) t) :=
  setEntry_firm i _ h (fun _ => by rw [hi, entryBuffers_some, entryBuffers_some, hb])
    fun p x e' => by cases e'; exact (p.entries i e hi).plain hs hb ha hr

theorem firstBlocked_spec {t : State} {i : Fin 32} (h : firstBlocked t = some i) :
    ∃ e, t.sr.entries[i] = some e ∧ e.state = .blocked := by
  unfold firstBlocked findIndex at h
  have := List.find?_some h
  dsimp only at this
  split at this
  · rename_i e he; exact ⟨e, he, by simpa using this⟩
  · cases this

theorem allocate_firm (n : Nat) {s t : State} (h : Firm s t) : Firm s (allocate n t) := by
  induction n generalizing t with
  | zero => exact h
  | succ n ih =>
    unfold allocate
    split
    · rename_i a b c rest i hf hi
      split
      · rename_i e he
        refine ih (setSr_firm h { t.sr with
          entries := t.sr.entries.set i (some { e with
            state := .waiting, buffers := some ⟨a, none, none, [b, c]⟩, front := none, ready := none, assembly := none,
            timer := none }),
          free := rest } fun p => ?_)
        refine p.move i _ rest t.sr.lines ?_ ?_ ?_
        · obtain ⟨e', he', hb⟩ := firstBlocked_spec hi
          rw [he] at he'; cases he'
          rw [hf, he, entryBuffers_some e, (p.entries i e he).blocked.1 hb]
          have : (rest ++ [a, b, c]).Perm ([a, b, c] ++ rest) := List.perm_append_comm
          simpa [entryBuffers, Buffers.all] using this
        · have r := p.rising
          rw [hf] at r
          exact ((List.pairwise_cons.1 (List.pairwise_cons.1 (List.pairwise_cons.1 r).2).2).2)
        · intro x e'
          cases e'
          exact ⟨by simp, fun b' e' => by cases e'; rfl, rfl, rfl⟩
      · exact h
    · exact h

/-- Allocation leaves an empty entry empty. -/
theorem allocate_empty (n : Nat) (i : Fin 32) {t : State} (h : t.sr.entries[i] = none) : (allocate n t).sr.entries[i] = none := by
  induction n generalizing t with
  | zero => exact h
  | succ n ih =>
    have e : allocate (n + 1) t = t ∨ ∃ u, allocate (n + 1) t = allocate n u ∧ u.sr.entries[i] = none := by
      rw [show allocate (n + 1) t = _ from by unfold allocate; rfl]
      split
      · rename_i a b c rest j hf hi
        split
        · rename_i e he
          refine .inr ⟨_, rfl, ?_⟩
          have ne : (j : Nat) ≠ i := fun x => by rw [Fin.ext x, h] at he; cases he
          simpa [setEntry, Vector.getElem_set_ne, ne] using h
        · exact .inl rfl
      · exact .inl rfl
    rcases e with e | ⟨u, e, hu⟩ <;> rw [e]
    · exact h
    · exact ih hu

theorem loadStream_firm (i : Fin 32) (c : StreamContent) {s t : State} (h : Firm s t) (hi : t.sr.entries[i] = none) :
    Firm s (loadStream i c t) := by
  have k := allocate_firm allocBound (setEntry_firm i (some (freshEntry c)) h (fun _ => by rw [hi]; rfl) fun _ x e => by
    cases e; exact ⟨by simp [freshEntry], nofun, rfl, rfl⟩)
  unfold loadStream
  dsimp only
  split
  · exact raise_firm _ k
  · exact k

theorem removalReport_sr (b : Bool) (t : State) : (removalReport b t).sr = t.sr := (removalReport_keeps b (.refl t)).same.sr

theorem removeStream_firm (i : Fin 32) (e : StreamEntry) {s t : State} (h : Firm s t) (hi : t.sr.entries[i] = some e) :
    Firm s (removeStream i e t) := by
  have k : Firm s ((setEntry i none t).setSr { (setEntry i none t).sr with
      free := freeBuffers e.buffers (setEntry i none t).sr.free }) := by
    refine setSr_firm h { t.sr with entries := t.sr.entries.set i none, free := freeBuffers e.buffers t.sr.free } fun p => ?_
    have n := p.nodup i
    rw [hi, entryBuffers_some] at n
    refine p.move i none _ t.sr.lines ?_ ?_ nofun
    · rw [hi, entryBuffers_some]
      unfold freeBuffers
      cases hb : e.buffers with
      | none => exact .refl _
      | some b =>
        rw [hb] at n
        have f := (foldl_insertRising b.all p.rising (List.perm_append_comm.nodup_iff.1 n)).1
        simpa [entryBuffers] using f.trans List.perm_append_comm
    · unfold freeBuffers
      cases hb : e.buffers with
      | none => exact p.rising
      | some b =>
        rw [hb] at n
        exact (foldl_insertRising b.all p.rising (List.perm_append_comm.nodup_iff.1 n)).2
  unfold removeStream
  dsimp only
  split
  · exact allocate_firm _ (removalReport_firm _ k)
  · exact removalReport_firm _ k

/-- The entry removed is empty. -/
theorem removeStream_empty (i : Fin 32) (e : StreamEntry) (t : State) : (removeStream i e t).sr.entries[i] = none := by
  have k (b : Bool) : (removalReport b ((setEntry i none t).setSr { (setEntry i none t).sr with
      free := freeBuffers e.buffers (setEntry i none t).sr.free })).sr.entries[i] = none := by
    rw [removalReport_sr]; simp [setEntry]
  unfold removeStream
  dsimp only
  split
  · exact allocate_empty _ _ (k _)
  · exact k _

theorem staleExpired_firm (i : Fin 32) {s t : State} (h : Firm s t) : Firm s (staleExpired i t) := by
  unfold staleExpired
  split
  · rename_i e he
    split
    · rename_i hl
      exact raise_firm _ (plainEntry_firm i e _ h he (by simp [hl.1]) rfl rfl rfl)
    · exact h
  · exact h

theorem writeStream_firm (i : Fin 32) (bs : List Byte) {s t : State} (h : Firm s t) : Firm s (writeStream i bs t).2 := by
  unfold writeStream
  split
  · split
    · rename_i he; exact removeStream_firm _ _ h he
    · exact h
  · split
    · split
      · exact h
      · split
        · rename_i e he
          unfold rewriteStream
          split
          · exact h
          · split
            · exact staleExpired_firm _ (plainEntry_firm i e _ h he .rfl rfl rfl rfl)
            · exact loadStream_firm _ _ (removeStream_firm _ _ h he) (removeStream_empty _ _ _)
        · rename_i he; exact loadStream_firm _ _ h he
    · exact h

/-! ## Strips -/

/-- A strip stored into an entry whose buffers are a rearrangement of those at its place, with a buffer ASSEMBLING. -/
theorem storeStrip_firm (i : Fin 32) (e : StreamEntry) (a : Assembly) (n : Nat) (px : List Colour) {s t : State} (h : Firm s t)
    (b : PoolWhole t.sr → ∃ b, e.buffers = some b ∧ b.assembling.isSome ∧ b.all.length = 3 ∧ b.all.Nodup ∧
      b.ready.isSome = e.ready.isSome ∧ e.state ≠ .blocked ∧ b.all.Perm (entryBuffers t.sr.entries[i])) :
    Firm s (storeStrip i e a n px t) := by
  have fin (u : State) (hu : Firm s u) (hs : u.sr.entries = t.sr.entries) (hp : PoolWhole u.sr → PoolWhole t.sr) :
      Firm s (if stripCount { e with assembly := some { a with received := insertRising n a.received } } ≤
          ({ a with received := insertRising n a.received } : Assembly).received.length then
        complete i { a with received := insertRising n a.received } { e with assembly := some { a with received := insertRising n a.received } } u
        else setEntry i (some { e with assembly := some { a with received := insertRising n a.received } }) u) := by
    split
    · have k : Firm s (setEntry i (some (completedEntry { a with received := insertRising n a.received }
          { e with assembly := some { a with received := insertRising n a.received } })) u) := by
        refine setEntry_firm i _ hu (fun p => ?_) fun p x ex => ?_
        · obtain ⟨b, hb, _, _, nd, _, _, pm⟩ := b (hp p)
          rw [hs, entryBuffers_some]
          simp only [completedEntry, hb, Option.map_some, Option.getD_some]
          exact (readyRoles_all nd).trans pm
        · obtain ⟨b, hb, as, len, nd, _, nb, _⟩ := b (hp p)
          cases ex
          refine ⟨?_, fun c hc => ?_, ?_, ?_⟩
          · simp only [completedEntry, hb, Option.map_some]
            refine ⟨fun x => ?_, nofun⟩
            split at x
            · cases x
            · exact absurd x nb
          · simp only [completedEntry, hb, Option.map_some, Option.some.injEq] at hc
            rw [← hc, (readyRoles_all nd).length_eq]; exact len
          · simp [completedEntry, hb, readyRoles]
          · simpa [completedEntry, hb, readyRoles] using as
      unfold complete
      dsimp only
      split
      · exact raise_firm _ k
      · exact k
    · refine setEntry_firm i _ hu (fun p => ?_) fun p x ex => ?_
      · obtain ⟨b, hb, _, _, _, _, _, pm⟩ := b (hp p)
        rw [hs, entryBuffers_some]
        simp only [hb, Option.map_some, Option.getD_some]
        exact pm
      · obtain ⟨b, hb, as, len, nd, rd, nb, _⟩ := b (hp p)
        cases ex
        refine ⟨?_, fun c hc => ?_, ?_, ?_⟩
        · simp [hb, nb]
        · simp only [hb, Option.some.injEq] at hc; rw [← hc]; exact len
        · simpa [hb] using as
        · simpa [hb] using rd
  have lines (m : List (Nat × List Colour)) (p : PoolWhole t.sr) : PoolWhole { t.sr with lines := m } := ⟨p.whole, p.rising, p.entries⟩
  have back (m : List (Nat × List Colour)) (p : PoolWhole { t.sr with lines := m }) : PoolWhole t.sr := ⟨p.whole, p.rising, p.entries⟩
  unfold storeStrip
  dsimp only
  refine fin _ ?_ ?_ ?_
  · split
    · exact setSr_firm h _ (lines _)
    · exact h
  · split <;> rfl
  · split
    · exact back _
    · exact id

/-- The spare buffers of an entry that holds three and assembles none. -/
theorem EntryWhole.roles {e : StreamEntry} (w : EntryWhole e) (hb : e.state ≠ .blocked) : ∃ b, e.buffers = some b ∧ b.all.length = 3 ∧
    b.assembling.isSome = e.assembly.isSome ∧ b.ready.isSome = e.ready.isSome := by
  cases h : e.buffers with
  | none => exact absurd (w.blocked.2 h) hb
  | some b =>
    have h1 := w.assembling
    have h2 := w.ready
    rw [h] at h1 h2
    exact ⟨b, rfl, w.three b h, h1, h2⟩

theorem assemblingRoles_some {b : Buffers} (h : b.assembling = none) (l : b.all.length = 3) :
    (assemblingRoles b).assembling.isSome = true ∧ (assemblingRoles b).ready = b.ready := by
  obtain ⟨f, r, a, sp⟩ := b
  dsimp only at h
  subst h
  cases sp with
  | nil => cases r <;> simp [Buffers.all] at l
  | cons n l => exact ⟨rfl, rfl⟩

theorem stripAt_firm (i : Fin 32) (e : StreamEntry) (st : Strip) {s t : State} (h : Firm s t) (hi : t.sr.entries[i] = some e) :
    Firm s (stripAt i e st t) := by
  have going (f : StreamEntry) (hn : e.state ≠ .blocked) (ha : e.assembly.isSome = true) (e1 : f.buffers = e.buffers)
      (e2 : f.ready = e.ready) (e3 : f.state = e.state) (a : Assembly) (n : Nat) (px : List Colour) :
      Firm s (storeStrip i f a n px t) :=
    storeStrip_firm i f a n px h fun p => by
      obtain ⟨b, hb, len, as, rd⟩ := (p.entries i e hi).roles hn
      refine ⟨b, e1.trans hb, by rw [as]; exact ha, len, p.all_nodup hi hb, by rw [e2]; exact rd, by rw [e3]; exact hn, ?_⟩
      rw [hi, entryBuffers_some, hb]; exact .refl _
  unfold stripAt
  split
  · exact plainEntry_firm i e _ h hi .rfl rfl rfl rfl
  · rename_i hn
    split
    · have k : Firm s (setEntry i (some (countStream (fun c => { c with mismatches := bump c.mismatches }) { e with armed := false })) t) :=
        plainEntry_firm i e _ h hi .rfl rfl rfl rfl
      dsimp only
      split
      · exact raise_firm _ k
      · exact k
    · split
      · exact plainEntry_firm i e _ h hi .rfl rfl rfl rfl
      · split
        · exact plainEntry_firm i e _ h hi .rfl rfl rfl rfl
        · dsimp only
          split
          · rename_i a ha
            split
            · split
              · exact plainEntry_firm i e _ h hi .rfl rfl rfl rfl
              · exact going e hn (by simp [ha]) rfl rfl rfl _ _ _
            · exact going (countStream (fun c => { c with abandoned := bump c.abandoned }) e) hn (by simp [ha]) rfl rfl rfl _ _ _
          · rename_i ha
            refine storeStrip_firm i _ _ _ _ h fun p => ?_
            obtain ⟨b, hb, len, as, rd⟩ := (p.entries i e hi).roles hn
            have as : b.assembling = none := by simpa [ha] using as
            have pm := assemblingRoles_all as
            obtain ⟨s1, s2⟩ := assemblingRoles_some as len
            refine ⟨assemblingRoles b, by simp [hb], s1, by rw [pm.length_eq]; exact len, pm.nodup_iff.2 (p.all_nodup hi hb),
              by rw [s2]; exact rd, hn, ?_⟩
            rw [hi, entryBuffers_some, hb]
            exact pm

theorem offerStrip_firm (p : List Byte) {s t : State} (h : Firm s t) : Firm s (offerStrip p t) := by
  unfold offerStrip
  split
  · exact h
  · split
    · exact h
    · split
      · rename_i he; exact stripAt_firm _ _ _ h he
      · exact h

/-! ## The boundary -/

theorem swapEntry_firm (i : Fin 32) {s t : State} (h : Firm s t) : Firm s (swapEntry i t) := by
  unfold swapEntry
  split
  · rename_i e he
    split
    · rename_i hr
      have k (st : StreamState) (tm : Option Nat) (hst : st = .blocked ↔ e.state = .blocked) :
          Firm s (setEntry i (some { e with
            buffers := e.buffers.map swapRoles, front := e.ready, ready := none, state := st, timer := tm }) t) := by
        cases hb : e.buffers with
        | none => rw [hb] at hr; cases hr
        | some b =>
          have hr : b.ready.isSome = true := by rw [hb] at hr; exact hr
          obtain ⟨r, hr⟩ := Option.isSome_iff_exists.1 hr
          have sw : (swapRoles b).assembling = b.assembling ∧ (swapRoles b).ready = none := by
            unfold swapRoles; rw [hr]; exact ⟨rfl, rfl⟩
          refine setEntry_firm i _ h (fun p => ?_) fun p x ex => ?_
          · rw [he, entryBuffers_some, entryBuffers_some, hb]
            exact swapRoles_all (p.all_nodup he hb)
          · have w := p.entries i e he
            cases ex
            refine ⟨?_, fun c hc => ?_, ?_, ?_⟩
            · rw [hst, w.blocked, hb]; simp
            · cases hc
              rw [(swapRoles_all (p.all_nodup he hb)).length_eq]; exact w.three b hb
            · have := w.assembling; rw [hb] at this
              simpa [sw.1] using this
            · simp [sw.2]
      dsimp only
      split
      · rename_i hw; exact raise_firm _ (k .live (some 0) (by simp [hw]))
      · exact k e.state e.timer .rfl
    · exact h
  · exact h

theorem swapAll_firm {s t : State} (h : Firm s t) : Firm s (swapAll t) := foldl_firm _ (fun i _ _ h => swapEntry_firm i h) _ h

end Sys2Proof.Machine
end

