-- ==== Sys2Proof/Laws/StreamWrites.lean ====
section
/-! SUPPORT. A write of a stream entry, case by case (R46 to R49): the checks in order, and allocation as `Allocates` says it. -/

namespace Sys2Proof.Machine

open Sys2Proof

/-! ## The first index of a table -/

theorem find_ofFn_none {α : Type} {n : Nat} {p : α → Bool} {v : Vector α n} (h : findIndex p v = none) (i : Fin n) : p v[i] = false := by
  unfold findIndex at h
  simpa using List.find?_eq_none.1 h i (List.mem_finRange i)

theorem find_finRange_least {n : Nat} {q : Fin n → Bool} {i : Fin n} (h : (List.finRange n).find? q = some i) :
    q i = true ∧ ∀ j : Fin n, j < i → q j = false := by
  obtain ⟨hp, as, bs, e, hn⟩ := List.find?_eq_some_iff_append.1 h
  refine ⟨hp, fun j hj => ?_⟩
  have hr : (as ++ i :: bs).Pairwise (· < ·) := e ▸ List.pairwise_lt_finRange n
  have hm : j ∈ as ++ i :: bs := e ▸ List.mem_finRange j
  rcases List.mem_append.1 hm with hm | hm
  · simpa using hn j hm
  · rcases List.mem_cons.1 hm with rfl | hm
    · exact absurd hj (by omega)
    · have := (List.pairwise_cons.1 (List.pairwise_append.1 hr).2.1).1 j hm
      omega

theorem findIndex_least {α : Type} {n : Nat} {p : α → Bool} {v : Vector α n} {i : Fin n} (h : findIndex p v = some i) :
    p v[i] = true ∧ ∀ j : Fin n, j < i → p v[j] = false := find_finRange_least h

/-! ## Allocation (R46) -/

/-- Allocation touches the stream receiver alone, and as `Allocates` says, once the entries below `k` are known not to be BLOCKED and the
rounds left reach the others. -/
theorem allocate_spec (n k : Nat) (t : State) (hn : 32 ≤ n + k)
    (hk : ∀ j : Fin 32, j.val < k → ∀ e, t.sr.entries[j] = some e → e.state ≠ .blocked) :
    allocate n t = t.setSr (allocate n t).sr ∧ Allocates t.sr (allocate n t).sr := by
  induction n generalizing k t with
  | zero => exact ⟨rfl, .ends _ (.inr fun i e he => hk i (by omega) e he)⟩
  | succ n ih =>
    cases hb : firstBlocked t with
    | none =>
      have e : allocate (n + 1) t = t := by unfold allocate; rw [hb]; split <;> first | rfl | contradiction
      rw [e]
      refine ⟨rfl, .ends _ (.inr fun i x hx hs => ?_)⟩
      have := find_ofFn_none hb i
      rw [hx] at this
      simp [hs] at this
    | some i =>
      obtain ⟨e, he, hs⟩ := firstBlocked_spec hb
      have low : ∀ (j : Fin 32) (x : StreamEntry), j < i → t.sr.entries[j] = some x → x.state ≠ .blocked := by
        intro j x hj hx hx'
        have := (findIndex_least hb).2 j hj
        rw [hx] at this
        simp [hx'] at this
      have hik : k ≤ i.val := by
        by_contra hlt
        exact hk i (by omega) e he hs
      match hf : t.sr.free with
      | a :: b :: c :: rest =>
        have e1 : allocate (n + 1) t = allocate n (t.setSr { t.sr with
            entries := t.sr.entries.set i (some { e with
              state := .waiting, buffers := some ⟨a, none, none, [b, c]⟩, front := none, ready := none, assembly := none,
              timer := none }),
            free := rest }) := by
          rw [show allocate (n + 1) t = _ from by unfold allocate; rw [hf, hb]]
          simp only [he]
          rfl
        rw [e1]
        generalize hu : (t.setSr { t.sr with
            entries := t.sr.entries.set i (some { e with
              state := .waiting, buffers := some ⟨a, none, none, [b, c]⟩, front := none, ready := none, assembly := none,
              timer := none }),
            free := rest }) = u
        have k2 : ∀ j : Fin 32, j.val < i.val + 1 → ∀ x, u.sr.entries[j] = some x → x.state ≠ .blocked := by
          intro j hj x hx
          subst hu
          by_cases hji : j = i
          · subst hji
            simp at hx
            subst hx
            simp
          · have ne : (i : Nat) ≠ j := fun h => hji (Fin.ext h.symm)
            have hx : t.sr.entries[j] = some x := by simpa [Vector.getElem_set_ne, ne] using hx
            exact low j x (by omega) hx
        obtain ⟨h1, h2⟩ := ih (i.val + 1) u (by omega) k2
        refine ⟨?_, .serves _ _ i e a b c rest hf he hs low ?_⟩
        · rw [h1]; subst hu; rfl
        · subst hu; exact h2
      | [] => 
        have e : allocate (n + 1) t = t := by unfold allocate; rw [hf, hb]
        rw [e]; exact ⟨rfl, .ends _ (.inl (by simp [hf]))⟩
      | [_] =>
        have e : allocate (n + 1) t = t := by unfold allocate; rw [hf, hb]
        rw [e]; exact ⟨rfl, .ends _ (.inl (by simp [hf]))⟩
      | [_, _] =>
        have e : allocate (n + 1) t = t := by unfold allocate; rw [hf, hb]
        rw [e]; exact ⟨rfl, .ends _ (.inl (by simp [hf]))⟩

theorem allocate_allocates (t : State) : allocate allocBound t = t.setSr (allocate allocBound t).sr ∧ Allocates t.sr (allocate allocBound t).sr :=
  allocate_spec 32 0 t (by omega) fun j h => absurd h (by omega)

theorem loadStream_loaded (i : Fin 32) (c : StreamContent) (s : State) : StreamLoaded i c s (loadStream i c s) := by
  obtain ⟨h1, h2⟩ := allocate_allocates (setEntry i (some (freshEntry c)) s)
  have h1 : allocate allocBound (setEntry i (some (freshEntry c)) s) =
      s.setSr (allocate allocBound (setEntry i (some (freshEntry c)) s)).sr := h1
  refine ⟨_, h2, fun hb => ?_, fun hb => ?_⟩
  · unfold loadStream; dsimp only; rw [if_pos hb, ← h1]
  · unfold loadStream; dsimp only; rw [if_neg hb, ← h1]

theorem freeBuffers_mem (b : Option Buffers) (free : List Nat) (n : Nat) :
    n ∈ freeBuffers b free ↔ n ∈ free ∨ n ∈ (b.map Buffers.all).getD [] := by
  cases b with
  | none => simp [freeBuffers]
  | some b =>
    have : ∀ (l : List Nat) (f : List Nat), n ∈ l.foldl (fun f n => insertRising n f) f ↔ n ∈ f ∨ n ∈ l := by
      intro l
      induction l with
      | nil => simp
      | cons a l ih => intro f; rw [List.foldl_cons, ih, insertRising_mem]; simp [or_comm, or_assoc, or_left_comm]
    simpa [freeBuffers] using this b.all free

theorem removeStream_removed (i : Fin 32) (e : StreamEntry) (s : State) : StreamRemoved i e s (removeStream i e s) := by
  refine ⟨freeBuffers e.buffers s.sr.free, _, fun n => ?_, rfl, fun v hv => ⟨fun hb => ?_, fun hb => ?_⟩⟩
  · rw [freeBuffers_mem, entryBuffers_some]
  all_goals
    have hr : removalReport (decide (focusStream s = some e.content.id)) (s.setSr { s.sr with
        entries := s.sr.entries.set i none, free := freeBuffers e.buffers s.sr.free }) = v := by
      rw [hv]
      unfold removalReport focusStream
      by_cases h : (s.fu.focus.bind fun f => (windowOf s f).bind fun x => x.stream) = some e.content.id
      · rw [if_pos (by simpa using h), if_pos h]
      · rw [if_neg (by simpa using h), if_neg h]
  · refine ⟨by rw [hb]; rfl, ?_⟩
    rw [← hr]
    unfold removeStream
    dsimp only
    rw [hb, if_neg (by simp)]
    rfl
  · have e2 : removeStream i e s = allocate allocBound v := by
      rw [← hr]
      unfold removeStream
      dsimp only
      rw [if_pos (by simpa [Option.isSome_iff_ne_none] using hb)]
      rfl
    obtain ⟨h1, h2⟩ := allocate_allocates v
    have hsr : v.sr = { s.sr with entries := s.sr.entries.set i none, free := freeBuffers e.buffers s.sr.free } := by
      rw [← hr, removalReport_sr]; rfl
    exact ⟨_, hsr ▸ h2, e2 ▸ h1⟩

/-! ## The write -/

theorem idInUse_iff (i : Fin 32) (id : Nat) (s : State) :
    idInUse i id s = true ↔ ∃ (j : Fin 32) (e : StreamEntry), j ≠ i ∧ s.sr.entries[j] = some e ∧ e.content.id = id := by
  unfold idInUse
  simp only [List.any_eq_true, List.mem_finRange, true_and, Bool.and_eq_true, decide_eq_true_eq]
  constructor
  · rintro ⟨j, hj, h⟩
    split at h
    · rename_i e he; exact ⟨j, e, hj, he, by simpa using h⟩
    · cases h
  · rintro ⟨j, e, hj, he, h⟩
    exact ⟨j, hj, by rw [he]; simpa using h⟩

theorem streamWritesAct : StreamWritesAct := by
  intro i o bs s w hw
  have hw : w = writeStream i bs s := by
    rw [hw]; unfold writeEntry; simp only [i.isLt, dite_true]
  refine ⟨fun hb => ⟨fun h => ?_, fun e h => ⟨_, ?_, removeStream_removed i e s⟩⟩, fun h1 h2 h3 => ?_, ?_⟩
  · rw [hw]; unfold writeStream; rw [if_pos hb, h]
  · rw [hw]; unfold writeStream; rw [if_pos hb, h]
  · rw [hw]; unfold writeStream; rw [if_neg h1, if_neg (by simp [h2, h3])]
  · intro id slot width height stale hlen rfl rfl rfl rfl rfl
    have hne : bs ≠ [] := by rintro rfl; simp at hlen
    have herr : ∀ r, checkStream i (at16 bs 0) (at8 bs 2) (at16 bs 3) (at16 bs 5) (at16 bs 7) s = .error r → w = (some r, s) := by
      intro r hr; rw [hw]; unfold writeStream; rw [if_neg hne, if_pos hlen, hr]
    have hnew : ∀ c, checkStream i (at16 bs 0) (at8 bs 2) (at16 bs 3) (at16 bs 5) (at16 bs 7) s = .ok c → s.sr.entries[i] = none →
        w = (none, loadStream i c s) := by
      intro c hr he; rw [hw]; unfold writeStream; rw [if_neg hne, if_pos hlen, hr, he]
    have hold : ∀ c e, checkStream i (at16 bs 0) (at8 bs 2) (at16 bs 3) (at16 bs 5) (at16 bs 7) s = .ok c → s.sr.entries[i] = some e →
        w = (none, rewriteStream i e c s) := by
      intro c e hr he; rw [hw]; unfold writeStream; rw [if_neg hne, if_pos hlen, hr, he]
    clear hw
    generalize at16 bs 0 = id at *
    generalize at8 bs 2 = slot at *
    generalize at16 bs 3 = width at *
    generalize at16 bs 5 = height at *
    generalize at16 bs 7 = stale at *
    refine ⟨fun bad => ?_, fun k h1 h2 h3 h4 h5 h6 h7 h8 h9 h10 h11 => ⟨fun use => ?_, fun c nouse hc => ?_⟩⟩
    · have : checkStream i id slot width height stale s = .error .invalid := by
        unfold checkStream
        split
        · rfl
        · split
          · rename_i h16
            split
            · rfl
            · split
              · rfl
              · split
                · rfl
                · split
                  · rfl
                  · rename_i a1 a2 a3 a4 a5
                    exfalso
                    rcases bad with b | b | b | ⟨k, hk, hn⟩ | b | b | b | b | b | b | b
                    · omega
                    · omega
                    · omega
                    · subst hk; apply a2; have hn : s.cu.slots[k.val] = none := hn; rw [hn]; rfl
                    all_goals omega
          · rfl
      exact herr _ this
    · subst h3
      have : checkStream i id k.val width height stale s = .error .inUse := by
        unfold checkStream
        rw [if_neg (by omega), dif_pos k.isLt, if_neg (by simpa using h4), if_neg (by omega), if_neg (by omega), if_neg (by omega),
          if_pos ((idInUse_iff i id s).2 use)]
      exact herr _ this
    · subst h3
      have : checkStream i id k.val width height stale s = .ok c := by
        unfold checkStream
        rw [if_neg (by omega), dif_pos k.isLt, if_neg (by simpa using h4), if_neg (by omega), if_neg (by omega), if_neg (by omega),
          if_neg (fun u => by obtain ⟨j, e, a, b, d⟩ := (idInUse_iff i id s).1 u; exact nouse j e a b d), hc]
      refine ⟨fun h => ⟨_, hnew c this h, loadStream_loaded i c s⟩, fun e h => ?_⟩
      have hww : w = (none, rewriteStream i e c s) := hold c e this h
      refine ⟨fun hce => by rw [hww]; unfold rewriteStream; rw [if_pos hce], fun hne hst => ⟨fun n hl ht hr => ?_, fun hr => ?_⟩, fun hd => ?_⟩
      · rw [hww]; unfold rewriteStream; rw [if_neg hne, if_pos hst]
        unfold staleExpired
        simp only [setEntry, State.setSr, Fin.getElem_fin, Vector.getElem_set_self, hl, staleReached, reached, ht]
        simp [hr, withEntry]
      · rw [hww]; unfold rewriteStream; rw [if_neg hne, if_pos hst]
        unfold staleExpired
        have no : ¬ (e.state = .live ∧ staleReached { e with content := c } = true) := by
          rintro ⟨hl, hre⟩
          rcases hr with hr | hr | ⟨n, hn, hr⟩
          · exact hr hl
          · simp [staleReached, reached, hr] at hre
          · simp [staleReached, reached, hn] at hre; omega
        have self : (setEntry i (some { e with content := c }) s).sr.entries[i] = some { e with content := c } := by simp [setEntry]
        simp only [self, if_neg no]
        rfl
      · have hne : c ≠ e.content := fun h' => hd (by rw [h'])
        exact ⟨_, _, removeStream_removed i e s, loadStream_loaded i c _, by rw [hww]; unfold rewriteStream; rw [if_neg hne, if_neg hd]⟩

end Sys2Proof.Machine
end

