-- ==== Sys2Proof/Laws/ListWrites.lean ====
section
/-! SUPPORT. Writes of window lists and of head records, case by case (R66 to R74), and the window list that its bytes read back as. -/

namespace Sys2Proof.Machine

open Sys2Proof

/-! ## A window list's bytes -/

theorem byte_toNat {n : Nat} (h : n < 256) : (byte n).toNat = n := by simp [byte, Nat.mod_eq_of_lt h]

theorem be16_toNat {n : Nat} (h : n < 65536) : (BitVec.ofNat 8 (n / 256)).toNat * 256 + (BitVec.ofNat 8 n).toNat = n := by
  simp only [BitVec.toNat_ofNat]; omega

theorem colour_append (c : Colour) : c.extractLsb' 16 8 ++ c.extractLsb' 8 8 ++ c.extractLsb' 0 8 = c := by
  apply BitVec.eq_of_getLsbD_eq
  intro i hi
  simp only [BitVec.getLsbD_append, BitVec.getLsbD_extractLsb']
  split
  · simp [*]
  · split
    · rw [decide_eq_true (by omega), Bool.true_and]; congr 1; omega
    · rw [decide_eq_true (by omega), Bool.true_and]; congr 1; omega

theorem parseWindow_windowBytes {w : Window} (rest : List Byte) (hi : w.id ≤ 5) (hs : ∀ id, w.stream = some id → 1 ≤ id ∧ id ≤ 1023)
    (h1 : w.sx ≤ 3839) (h2 : w.sy ≤ 2159) (h3 : w.d = 1 ∨ w.d = 2 ∨ w.d = 4) (h4 : w.x ≤ 3839) (h5 : w.y ≤ 2159) (h6 : w.w ≤ 3840)
    (h7 : w.h ≤ 2160) : parseWindow (windowBytes w ++ rest) = w := by
  have hf : (flagByte w.stream.isSome ||| (flagByte w.input <<< 1) ||| (flagByte w.border <<< 2)).getLsbD 0 = w.stream.isSome ∧
      (flagByte w.stream.isSome ||| (flagByte w.input <<< 1) ||| (flagByte w.border <<< 2)).getLsbD 1 = w.input ∧
      (flagByte w.stream.isSome ||| (flagByte w.input <<< 1) ||| (flagByte w.border <<< 2)).getLsbD 2 = w.border := by
    cases w.stream.isSome <;> cases w.input <;> cases w.border <;> decide
  have hst : (if w.stream.isSome then some (BitVec.toNat (BitVec.ofNat 8 (w.stream.getD 0 / 256)) * 256 +
      BitVec.toNat (BitVec.ofNat 8 (w.stream.getD 0))) else none) = w.stream := by
    cases h : w.stream with
    | none => rfl
    | some id =>
      have := hs id h
      simp only [Option.isSome_some, if_true, Option.getD_some]
      rw [be16_toNat (by omega)]
  have hb := byte_toNat (n := w.id) (by omega)
  have hd := byte_toNat (n := w.d) (by omega)
  have e1 := be16_toNat (n := w.sx) (by omega)
  have e2 := be16_toNat (n := w.sy) (by omega)
  have e3 := be16_toNat (n := w.x) (by omega)
  have e4 := be16_toNat (n := w.y) (by omega)
  have e5 := be16_toNat (n := w.w) (by omega)
  have e6 := be16_toNat (n := w.h) (by omega)
  have ef := colour_append w.fill
  unfold parseWindow windowBytes be16 colourBytes
  simp only [List.cons_append, List.nil_append, at8, at16, byteAt, colourAt, List.getD_cons_zero, List.getD_cons_succ]
  rw [hf.1, hf.2.1, hf.2.2, hst, hb, hd, e1, e2, e3, e4, e5, e6, ef]

theorem windowBytes_length (w : Window) : (windowBytes w).length = 20 := by simp [windowBytes, be16, colourBytes]

/-- A window list in the ranges of R69 reads back as itself. -/
theorem parseList_listBytes {ws : List Window} (hl : ws.length ≤ 6) (h : ∀ w ∈ ws, windowInRange w = true) :
    parseList (listBytes ws) = some ws := by
  have len : ∀ l : List Window, (l.flatMap windowBytes).length = 20 * l.length := by
    intro l
    induction l with
    | nil => rfl
    | cons a l ih => rw [List.flatMap_cons, List.length_append, windowBytes_length, ih, List.length_cons]; omega
  have ps : ∀ l : List Window, (∀ w ∈ l, windowInRange w = true) → parseWindows l.length (l.flatMap windowBytes) = l := by
    intro l
    induction l with
    | nil => intro _; rfl
    | cons a l ih =>
      intro hr
      have ha := hr a (by simp)
      unfold windowInRange at ha
      rw [Bool.and_eq_true] at ha
      obtain ⟨ha, hb⟩ := ha
      have ha := of_decide_eq_true ha
      have hb : ∀ id, a.stream = some id → 1 ≤ id ∧ id ≤ 1023 := by
        intro id e; rw [e] at hb; exact of_decide_eq_true hb
      rw [List.length_cons, parseWindows, List.flatMap_cons]
      rw [List.take_append_of_le_length (by rw [windowBytes_length]), List.drop_append_of_le_length (by rw [windowBytes_length])]
      rw [show (windowBytes a).take 20 = windowBytes a ++ [] by rw [List.append_nil, List.take_of_length_le (by rw [windowBytes_length])]]
      rw [parseWindow_windowBytes [] (by omega) hb (by omega) (by omega) (by omega) (by omega) (by omega) (by omega) (by omega)]
      rw [List.drop_of_length_le (by rw [windowBytes_length]), List.nil_append, ih fun w hw => hr w (by simp [hw])]
  unfold listBytes parseList
  dsimp only
  rw [byte_toNat (by omega), if_pos (len ws), ps ws h]

/-! ## Writes of lists -/

theorem listValid_iff (h : Fin 4) (ws : List Window) (s : State) : listValid h ws s = true ↔ ListFits h ws s := by
  unfold listValid
  simp only [Bool.and_eq_true, decide_eq_true_eq, List.all_eq_true]
  have hr : ∀ w : Window, windowInRange w = true ↔ w.id ≤ 5 ∧ (∀ id, w.stream = some id → 1 ≤ id ∧ id ≤ 1023) ∧ w.sx ≤ 3839 ∧
      w.sy ≤ 2159 ∧ (w.d = 1 ∨ w.d = 2 ∨ w.d = 4) ∧ w.x ≤ 3839 ∧ w.y ≤ 2159 ∧ 8 ≤ w.w ∧ w.w ≤ 3840 ∧ 8 ≤ w.h ∧ w.h ≤ 2160 := by
    intro w
    unfold windowInRange
    cases hst : w.stream with
    | none => simp
    | some id => simp only [Bool.and_eq_true, decide_eq_true_eq, Option.some.injEq, forall_eq']; tauto
  have hsf : ∀ w : Window, sourceFits s w = true ↔ ∀ id e, w.stream = some id → streamOf s id = some e →
      w.sx + w.w * w.d ≤ e.content.width ∧ w.sy + w.h * w.d ≤ e.content.height := by
    intro w
    unfold sourceFits
    constructor
    · intro a id e h1 h2
      rw [h1, Option.bind_some, h2] at a
      exact of_decide_eq_true a
    · intro a
      split
      · rename_i e he
        obtain ⟨id, h1, h2⟩ := Option.bind_eq_some_iff.1 he
        exact decide_eq_true (a id e h1 h2)
      · rfl
  have hw : ∀ w : Window, winFits s.cp.heads[h].width s.cp.heads[h].height w = true ↔
      w.x + w.w ≤ s.cp.heads[h].width ∧ w.y + w.h ≤ s.cp.heads[h].height := fun w => by unfold winFits; simp
  constructor
  · rintro ⟨⟨a, b⟩, c⟩
    exact ⟨⟨a, b⟩, fun w m => (hr w).1 (c w m).1.1, fun w m => (hw w).1 (c w m).1.2, fun w m => (hsf w).1 (c w m).2⟩
  · rintro ⟨⟨a, b⟩, c, d, e⟩
    exact ⟨⟨a, b⟩, fun w m => ⟨⟨(hr w).2 (c w m), (hw w).2 (d w m)⟩, (hsf w).2 (e w m)⟩⟩

theorem listWritesAct : ListWritesAct := by
  intro h o bs s
  have e1 : writeEntry false o .staged h.val bs s = writeStaged h (parseList bs) s := by
    unfold writeEntry; simp only [h.isLt, dite_true]
  refine ⟨fun hp => ?_, fun hp => ⟨fun ws hw hf => ?_, fun hb => ?_⟩, fun p => ⟨fun ws hw hf => ?_, fun hb => ?_⟩, fun ws hf => ?_,
    fun n rest e hne => ?_, rfl⟩
  · rw [e1]; unfold writeStaged; rw [if_pos hp]
  · rw [e1, hw]; unfold writeStaged; rw [if_neg (by simp [hp])]; dsimp only; rw [if_pos ((listValid_iff h ws s).2 hf)]
  · rw [e1]; unfold writeStaged; rw [if_neg (by simp [hp])]
    rcases hb with hb | ⟨ws, hw, hf⟩
    · rw [hb]
    · rw [hw]; dsimp only; rw [if_neg (fun v => hf ((listValid_iff h ws s).1 v))]
  · unfold writeEntry; simp only [(presetIndex p h).isLt, dite_true]
    unfold writePreset; rw [hw]; dsimp only
    have : (⟨(presetIndex p h).val % 4, by omega⟩ : Fin 4) = h := Fin.ext (by simp [presetIndex])
    rw [this, if_pos ((listValid_iff h ws s).2 hf)]
  · unfold writeEntry; simp only [(presetIndex p h).isLt, dite_true]
    have : (⟨(presetIndex p h).val % 4, by omega⟩ : Fin 4) = h := Fin.ext (by simp [presetIndex])
    unfold writePreset
    rcases hb with hb | ⟨ws, hw, hf⟩
    · rw [hb]
    · rw [hw]; dsimp only; rw [this, if_neg (fun v => hf ((listValid_iff h ws s).1 v))]
  · refine parseList_listBytes hf.whole.1 fun w m => ?_
    have := (listValid_iff h ws s).2 hf
    unfold listValid at this
    simp only [Bool.and_eq_true, List.all_eq_true] at this
    exact (this.2 w m).1.1
  · subst e; unfold parseList; dsimp only; rw [if_neg hne]

/-! ## Writes of head records -/

theorem headWindows_mem (h : Fin 4) (s : State) (v : Window) : v ∈ headWindows h s ↔
    v ∈ s.cp.active[h] ∨ v ∈ s.cp.staged[h] ∨ ∃ p : Fin 8, v ∈ s.cp.presets[presetIndex p h] := by
  unfold headWindows
  simp

theorem headWritesAct : HeadWritesAct := by
  intro h o bs s w hw
  have hw : w = writeHeadEntry false h bs s := by
    rw [hw]; unfold writeEntry writeDesk
    match h with
    | 0 => rfl
    | 1 => rfl
    | 2 => rfl
    | 3 => rfl
  constructor
  · intro hb
    rw [hw]; unfold writeHeadEntry parseHead; rw [if_neg (by omega)]
  · intro r hl h8 hr
    have hw : w = writeHead false h r s := by
      rw [hw]; unfold writeHeadEntry parseHead; rw [if_pos (by omega), hr]
    have hov : overlaps false h r s = true ↔
        ∃ k : Fin 4, k ≠ h ∧ r.enabled = true ∧ s.cp.heads[k].enabled = true ∧ rectsMeet r s.cp.heads[k] = true := by
      unfold overlaps
      simp only [Bool.and_eq_true, List.any_eq_true, List.mem_finRange, true_and, Bool.false_eq_true, if_false, decide_eq_true_eq]
      constructor
      · rintro ⟨a, k, ⟨b, c⟩, d⟩; exact ⟨k, b, a, c, d⟩
      · rintro ⟨k, b, a, c, d⟩; exact ⟨a, k, ⟨b, c⟩, d⟩
    have hov2 : (∀ k : Fin 4, k ≠ h → r.enabled = true → s.cp.heads[k].enabled = true → rectsMeet r s.cp.heads[k] = false) →
        overlaps false h r s = false := by
      intro a
      by_contra c
      obtain ⟨k, b1, b2, b3, b4⟩ := hov.1 (by simpa using c)
      rw [a k b1 b2 b3] at b4; cases b4
    refine ⟨fun e => by rw [hw]; unfold writeHead; rw [if_pos ⟨by simp, e⟩], fun ne => ?_⟩
    have hw : w = match headRefusal false h r s with
        | some e => (some e, s)
        | none => (none, storeHead h r s) := by
      rw [hw]; unfold writeHead; exact if_neg (fun a => ne a.2)
    refine ⟨fun hr => ?_, fun hr => ⟨fun ho => ?_, fun ho => ⟨fun hv => ?_, fun hv => ?_⟩⟩⟩
    · have : headRefusal false h r s = some .invalid := by unfold headRefusal; rw [if_pos (by simp [hr])]
      rw [hw, this]
    · have : headRefusal false h r s = some .overlap := by
        unfold headRefusal; rw [if_neg (by simp [hr]), if_pos (hov.2 ho)]
      rw [hw, this]
    · have : headRefusal false h r s = some .inUse := by
        unfold headRefusal
        rw [if_neg (by simp [hr]), if_neg (by simp [hov2 ho]), if_pos]
        obtain ⟨v, a, b⟩ := hv
        exact List.any_eq_true.2 ⟨v, (headWindows_mem h s v).2 a, by simp [b]⟩
      rw [hw, this]
    · have : headRefusal false h r s = none := by
        unfold headRefusal
        rw [if_neg (by simp [hr]), if_neg (by simp [hov2 ho]), if_neg]
        intro a
        obtain ⟨v, a, b⟩ := List.any_eq_true.1 a
        rw [hv v ((headWindows_mem h s v).1 a)] at b; cases b
      rw [this] at hw
      refine ⟨storeHead h r s, hw, ?_, fun hl => ?_, fun hl hm => ?_⟩
      · unfold storeHead
        dsimp only
        split
        · unfold headReport
          split
          · refine (fuReevaluate_delivers (.refl _)).cp.trans ?_
            unfold clampPointer
            split
            · rfl
            · split <;> rfl
          · rfl
        · rfl
      · unfold storeHead
        dsimp only
        rcases hl with hl | hl
        · split
          · unfold headReport
            rw [if_neg (by simp [running, hl])]
          · rfl
        · rw [if_neg (by simpa using hl)]
      · unfold storeHead
        dsimp only
        rw [if_pos hm]
        unfold headReport
        exact if_pos (decide_eq_true hl)

end Sys2Proof.Machine
end

