-- ==== Sys2Proof/Laws/Memories.lean ====
section
/-! SUPPORT. The two sparse memories: every write keeps the canonical form, and what is read back after a write. -/

namespace Sys2Proof.Machine

open Sys2Proof

/-! ## The serial memory -/

theorem cellsFrom_mem {base : Nat} {bytes : List Byte} {c : Nat × Byte} (h : c ∈ cellsFrom base bytes) :
    base ≤ c.1 ∧ c.1 < base + bytes.length ∧ c.2 ≠ 0 := by
  induction bytes generalizing base with
  | nil => simp [cellsFrom] at h
  | cons b bs ih =>
    unfold cellsFrom at h
    split at h
    · have := ih h; exact ⟨by omega, by simp; omega, this.2.2⟩
    · rename_i hb
      rcases List.mem_cons.1 h with rfl | h
      · exact ⟨Nat.le_refl _, by simp, hb⟩
      · have := ih h; exact ⟨by omega, by simp; omega, this.2.2⟩

theorem cellsFrom_rising (base : Nat) (bytes : List Byte) : (cellsFrom base bytes).Pairwise (fun a b => a.1 < b.1) := by
  induction bytes generalizing base with
  | nil => exact .nil
  | cons b bs ih =>
    unfold cellsFrom
    split
    · exact ih _
    · exact .cons (fun c hc => by have := cellsFrom_mem hc; simp; omega) (ih _)

/-- A write keeps the canonical form. -/
theorem Memory.write_wf {m : List (Nat × Byte)} (h : Memory.wf m) (base : Nat) (bytes : List Byte) :
    Memory.wf (Memory.write m base bytes) := by
  constructor
  · unfold Memory.write
    rw [List.append_assoc, List.pairwise_append]
    refine ⟨h.1.filter _, ?_, ?_⟩
    · rw [List.pairwise_append]
      refine ⟨cellsFrom_rising _ _, h.1.filter _, ?_⟩
      intro a ha b hb
      have := cellsFrom_mem ha
      simp at hb; omega
    · intro a ha b hb
      simp at ha
      rcases List.mem_append.1 hb with hb | hb
      · have := cellsFrom_mem hb; omega
      · simp at hb; omega
  · intro c hc
    unfold Memory.write at hc
    simp only [List.mem_append] at hc
    rcases hc with (hc | hc) | hc
    · exact h.2 c (List.mem_of_mem_filter hc)
    · exact (cellsFrom_mem hc).2.2
    · exact h.2 c (List.mem_of_mem_filter hc)

/-- The addresses of the cells after a write. -/
theorem Memory.write_inside {m : List (Nat × Byte)} {n : Nat} (h : ∀ c ∈ m, c.1 < n) (base : Nat) (bytes : List Byte)
    (hb : base + bytes.length ≤ n) : ∀ c ∈ Memory.write m base bytes, c.1 < n := by
  intro c hc
  unfold Memory.write at hc
  simp only [List.mem_append] at hc
  rcases hc with (hc | hc) | hc
  · exact h c (List.mem_of_mem_filter hc)
  · have := cellsFrom_mem hc; omega
  · exact h c (List.mem_of_mem_filter hc)

theorem find_append_of_none {α : Type} {p : α → Bool} {l r : List α} (h : ∀ c ∈ l, p c = false) :
    (l ++ r).find? p = r.find? p := by
  rw [List.find?_append, List.find?_eq_none.2 (fun c hc => by simp [h c hc])]; rfl

theorem find_filter_of_imp {α : Type} {p q : α → Bool} (l : List α) (h : ∀ c ∈ l, p c = true → q c = true) :
    (l.filter q).find? p = l.find? p := by
  induction l with
  | nil => rfl
  | cons a l ih =>
    have ih' := ih fun c hc => h c (List.mem_cons_of_mem _ hc)
    by_cases hq : q a = true
    · rw [List.filter_cons_of_pos hq, List.find?_cons, List.find?_cons, ih']
    · rw [List.filter_cons_of_neg hq, ih', List.find?_cons]
      have : p a = false := by
        cases hp : p a with
        | false => rfl
        | true => exact absurd (h a (by simp) hp) hq
      rw [this]

/-- Outside the bytes written, a read gives what it gave. -/
theorem Memory.read_write_outside (m : List (Nat × Byte)) (base : Nat) (bytes : List Byte) (a : Nat)
    (h : a < base ∨ base + bytes.length ≤ a) : Memory.read (Memory.write m base bytes) a = Memory.read m a := by
  unfold Memory.read Memory.write
  have mid : ∀ c ∈ cellsFrom base bytes, (decide (c.1 = a)) = false := by
    intro c hc; have := cellsFrom_mem hc; simp; omega
  rcases h with h | h
  · rw [List.append_assoc, List.find?_append, find_filter_of_imp m (by intro c _ hc; simp at hc ⊢; omega)]
    rw [find_append_of_none mid]
    cases hm : m.find? (fun c => decide (c.1 = a)) with
    | some c => rfl
    | none =>
      have : (m.filter fun c => base + bytes.length ≤ c.1).find? (fun c => decide (c.1 = a)) = none := by
        rw [List.find?_eq_none] at hm ⊢
        exact fun c hc => hm c (List.mem_of_mem_filter hc)
      rw [this]; rfl
  · rw [List.append_assoc, find_append_of_none (by intro c hc; simp at hc ⊢; omega), find_append_of_none mid,
      find_filter_of_imp m (by intro c _ hc; simp at hc ⊢; omega)]

theorem cellsFrom_find (base : Nat) (bytes : List Byte) (i : Nat) (h : i < bytes.length) :
    (((cellsFrom base bytes).find? fun c => decide (c.1 = base + i)).map (·.2)).getD 0 = bytes[i] := by
  induction bytes generalizing base i with
  | nil => simp at h
  | cons b bs ih =>
    unfold cellsFrom
    cases i with
    | zero =>
      split
      · rename_i hb
        have : (cellsFrom (base + 1) bs).find? (fun c => decide (c.1 = base + 0)) = none := by
          rw [List.find?_eq_none]; intro c hc; have := cellsFrom_mem hc; simp; omega
        rw [this]; simp [hb]
      · simp
    | succ i =>
      have := ih (base + 1) i (by simpa using h)
      rw [show base + 1 + i = base + (i + 1) by omega] at this
      split
      · simpa using this
      · rw [List.find?_cons]
        simp only [show (base = base + (i + 1)) = False by simp, decide_false]
        simpa using this

/-- A byte written is the byte read back. -/
theorem Memory.read_write_inside (m : List (Nat × Byte)) (base : Nat) (bytes : List Byte) (i : Nat) (h : i < bytes.length) :
    Memory.read (Memory.write m base bytes) (base + i) = bytes[i] := by
  have key := cellsFrom_find base bytes i h
  unfold Memory.read Memory.write
  rw [List.append_assoc, find_append_of_none (by intro c hc; simp at hc ⊢; omega), List.find?_append]
  cases hf : (cellsFrom base bytes).find? (fun c => decide (c.1 = base + i)) with
  | some c => rw [hf] at key; simpa using key
  | none =>
    rw [hf] at key
    have : (m.filter fun c => base + bytes.length ≤ c.1).find? (fun c => decide (c.1 = base + i)) = none := by
      rw [List.find?_eq_none]; intro c hc; simp at hc ⊢; omega
    rw [this]; simpa using key

/-! ## The buffers' lines -/

theorem Lines.write_keys (key : Nat) (px : List Colour) {m : List (Nat × List Colour)} {c : Nat × List Colour}
    (h : c ∈ Lines.write key px m) : c.1 = key ∨ ∃ d ∈ m, d.1 = c.1 := by
  induction m with
  | nil =>
    unfold Lines.write at h
    split at h
    · cases h
    · simp at h; exact .inl (by rw [h])
  | cons d m ih =>
    obtain ⟨k, old⟩ := d
    unfold Lines.write at h
    split at h
    · split at h
      · exact .inr ⟨c, h, rfl⟩
      · rcases List.mem_cons.1 h with rfl | h
        · exact .inl rfl
        · exact .inr ⟨c, h, rfl⟩
    · split at h
      · rcases List.mem_cons.1 h with rfl | h
        · exact .inr ⟨(k, old), by simp, rfl⟩
        · exact .inr ⟨c, List.mem_cons_of_mem _ h, rfl⟩
      · rcases List.mem_cons.1 h with rfl | h
        · exact .inr ⟨(k, old), by simp, rfl⟩
        · rcases ih h with e | ⟨d, hd, e⟩
          · exact .inl e
          · exact .inr ⟨d, List.mem_cons_of_mem _ hd, e⟩

/-- A line's write keeps the canonical form. -/
theorem Lines.write_wf (key : Nat) (px : List Colour) {m : List (Nat × List Colour)} (h : Lines.wf m) :
    Lines.wf (Lines.write key px m) := by
  induction m with
  | nil =>
    unfold Lines.write
    split
    · exact ⟨.nil, by simp⟩
    · rename_i hp
      exact ⟨List.pairwise_singleton _ _, by simpa using hp⟩
  | cons d m ih =>
    obtain ⟨k, old⟩ := d
    have hp := List.pairwise_cons.1 h.1
    have tail : Lines.wf m := ⟨hp.2, fun c hc => h.2 c (List.mem_cons_of_mem _ hc)⟩
    have head : old ≠ [] := h.2 (k, old) (by simp)
    unfold Lines.write
    split
    · rename_i hk
      split
      · exact h
      · rename_i hpx
        refine ⟨.cons ?_ h.1, ?_⟩
        · intro c hc
          rcases List.mem_cons.1 hc with rfl | hc
          · exact hk
          · have := hp.1 c hc; simp at this ⊢; omega
        · intro c hc
          rcases List.mem_cons.1 hc with rfl | hc
          · exact hpx
          · exact h.2 c hc
    · split
      · refine ⟨.cons hp.1 hp.2, ?_⟩
        intro c hc
        rcases List.mem_cons.1 hc with rfl | hc
        · intro e
          simp only [List.append_eq_nil_iff] at e
          rw [e.1] at e; exact head (by simpa using e.2)
        · exact tail.2 c hc
      · rename_i h1 h2
        refine ⟨.cons ?_ (ih tail).1, ?_⟩
        · intro c hc
          rcases Lines.write_keys key px hc with e | ⟨d, hd, e⟩
          · simp at h1 h2 ⊢; omega
          · have := hp.1 d hd; simp at this ⊢; omega
        · intro c hc
          rcases List.mem_cons.1 hc with rfl | hc
          · exact head
          · exact (ih tail).2 c hc

/-- A pixel of a written line reads back as written. -/
theorem Lines.pixel_write (key : Nat) (px : List Colour) (m : List (Nat × List Colour)) (x : Nat) (hx : x < px.length) :
    Lines.pixel (Lines.write key px m) key x = some px[x] := by
  have ne : px ≠ [] := by intro h; simp [h] at hx
  induction m with
  | nil => simp [Lines.write, ne, Lines.pixel, hx]
  | cons c m ih =>
    obtain ⟨k, old⟩ := c
    unfold Lines.write
    split
    · simp [Lines.pixel, hx]
    · split
      · rename_i h1 h2
        subst h2
        simp [Lines.pixel, List.getElem?_append, hx]
      · rename_i h1 h2
        unfold Lines.pixel at ih ⊢
        rw [List.find?_cons_of_neg (by simp; omega)]
        exact ih

/-- A pixel of another line reads as before a write. -/
theorem Lines.pixel_write_other (key k : Nat) (px : List Colour) (m : List (Nat × List Colour)) (x : Nat) (hk : k ≠ key) :
    Lines.pixel (Lines.write key px m) k x = Lines.pixel m k x := by
  induction m with
  | nil =>
    unfold Lines.write
    split
    · rfl
    · simp [Lines.pixel]; intro h; omega
  | cons c m ih =>
    obtain ⟨j, old⟩ := c
    unfold Lines.write
    split
    · split
      · rfl
      · unfold Lines.pixel; rw [List.find?_cons_of_neg (by simp; omega)]
    · split
      · rename_i h1 h2
        subst h2
        unfold Lines.pixel
        rw [List.find?_cons_of_neg (by simp; omega), List.find?_cons_of_neg (by simp; omega)]
      · unfold Lines.pixel at ih ⊢
        by_cases hj : j = k
        · rw [List.find?_cons_of_pos (by simp [hj]), List.find?_cons_of_pos (by simp [hj])]
        · rw [List.find?_cons_of_neg (by simp [hj]), List.find?_cons_of_neg (by simp [hj])]; exact ih

end Sys2Proof.Machine
end

