-- ==== Sys2Proof/Laws/SoundTables.lean ====
section
/-! SUPPORT. The stream receiver, the compositor, the settings, management, reception, load and save keep what holds between
steps. -/

namespace Sys2Proof.Machine

open Sys2Proof

/-- A part on the operator's side, after a sound part. -/
theorem Sound.keeps {s t u : State} (h : Sound s t) (k : Keeps t u) : Sound s u := h.trans k.sound

theorem raise_sound (k : EventKind) {s t : State} (h : Sound s t) : Sound s (raise k t) := h.keeps (raise_keeps (.refl t) k)

/-! ## The stream receiver -/

theorem setEntry_sound (i : Fin 32) (e : Option StreamEntry) {s t : State} (h : Sound s t) : Sound s (setEntry i e t) :=
  setSr_sound h _ id

theorem allocate_sound (n : Nat) {s t : State} (h : Sound s t) : Sound s (allocate n t) := by
  induction n generalizing t with
  | zero => exact h
  | succ n ih =>
    unfold allocate
    split
    · split
      · exact ih (setSr_sound (setEntry_sound _ _ h) _ id)
      · exact h
    · exact h

theorem loadStream_sound (i : Fin 32) (c : StreamContent) {s t : State} (h : Sound s t) : Sound s (loadStream i c t) := by
  have k := allocate_sound allocBound (setEntry_sound i (some (freshEntry c)) h)
  unfold loadStream
  dsimp only
  split
  · exact raise_sound _ k
  · exact k

theorem removeStream_sound (i : Fin 32) (e : StreamEntry) {s t : State} (h : Sound s t) : Sound s (removeStream i e t) := by
  unfold removeStream
  dsimp only
  have k := setSr_sound (setEntry_sound i none h)
    { (setEntry i none t).sr with free := freeBuffers e.buffers (setEntry i none t).sr.free } id
  split
  · exact allocate_sound _ (k.keeps (removalReport_keeps _ (.refl _)))
  · exact k.keeps (removalReport_keeps _ (.refl _))

theorem staleExpired_sound (i : Fin 32) {s t : State} (h : Sound s t) : Sound s (staleExpired i t) := by
  unfold staleExpired
  split
  · split
    · exact raise_sound _ (setEntry_sound _ _ h)
    · exact h
  · exact h

theorem writeStream_sound (i : Fin 32) (bs : List Byte) {s t : State} (h : Sound s t) : Sound s (writeStream i bs t).2 := by
  unfold writeStream
  split
  · split
    · exact removeStream_sound _ _ h
    · exact h
  · split
    · split
      · exact h
      · split
        · unfold rewriteStream
          dsimp only
          split
          · exact h
          · split
            · exact staleExpired_sound _ (setEntry_sound _ _ h)
            · exact loadStream_sound _ _ (removeStream_sound _ _ h)
        · exact loadStream_sound _ _ h
    · exact h

theorem writeStrip_wf (b i w : Nat) (px : List Colour) {m : List (Nat × List Colour)} (h : Lines.wf m) :
    Lines.wf (writeStrip b i w px m) := by
  have fold : ∀ (l : List Nat) (m : List (Nat × List Colour)), Lines.wf m →
      Lines.wf (l.foldl (fun m k => Lines.write (b * 2160 + 4 * i + k) ((px.drop (k * w)).take w) m) m) := by
    intro l
    induction l with
    | nil => exact fun _ h => h
    | cons k l ih => exact fun m h => ih _ (Lines.write_wf _ _ h)
  exact fold _ _ h

theorem storeStrip_sound (i : Fin 32) (e : StreamEntry) (a : Assembly) (n : Nat) (px : List Colour) {s t : State}
    (h : Sound s t) : Sound s (storeStrip i e a n px t) := by
  have fin (e : StreamEntry) (a : Assembly) {u : State} (hu : Sound s u) :
      Sound s (if stripCount e ≤ a.received.length then complete i a e u else setEntry i (some e) u) := by
    split
    · unfold complete
      dsimp only
      split
      · exact raise_sound _ (setEntry_sound _ _ hu)
      · exact setEntry_sound _ _ hu
    · exact setEntry_sound _ _ hu
  unfold storeStrip
  exact fin _ _ (by
    split
    · exact setSr_sound h _ (writeStrip_wf _ _ _ _)
    · exact h)

theorem offerStrip_sound (p : List Byte) {s t : State} (h : Sound s t) : Sound s (offerStrip p t) := by
  unfold offerStrip
  split
  · exact h
  · split
    · exact h
    · split
      · unfold stripAt
        dsimp only
        split
        · exact setEntry_sound _ _ h
        · split
          · split
            · exact raise_sound _ (setEntry_sound _ _ h)
            · exact setEntry_sound _ _ h
          · split
            · exact setEntry_sound _ _ h
            · split
              · exact setEntry_sound _ _ h
              · split
                · split
                  · split
                    · exact setEntry_sound _ _ h
                    · exact storeStrip_sound _ _ _ _ _ h
                  · exact storeStrip_sound _ _ _ _ _ h
                · exact storeStrip_sound _ _ _ _ _ h
      · exact h

/-- A fold of sound operations. -/
theorem foldl_sound {α : Type} (f : State → α → State) (hf : ∀ a {s t : State}, Sound s t → Sound s (f t a)) (l : List α)
    {s t : State} (h : Sound s t) : Sound s (l.foldl f t) := by
  induction l generalizing t with
  | nil => exact h
  | cons a l ih => exact ih (hf a h)

theorem swapAll_sound {s t : State} (h : Sound s t) : Sound s (swapAll t) := by
  refine foldl_sound _ (fun i s t h => ?_) _ h
  unfold swapEntry
  split
  · split
    · dsimp only
      split
      · exact raise_sound _ (setEntry_sound _ _ h)
      · exact setEntry_sound _ _ h
    · exact h
  · exact h

/-! ## The compositor -/

theorem writeHead_sound (l : Bool) (i : Fin 4) (r : HeadRecord) {s t : State} (h : Sound s t) : Sound s (writeHead l i r t).2 := by
  unfold writeHead
  split
  · exact h
  · split
    · exact h
    · unfold storeHead
      dsimp only
      split
      · exact (setCp_sound h _).keeps (headReport_keeps (.refl _))
      · exact setCp_sound h _

theorem writeStaged_sound (i : Fin 4) (ws : Option (List Window)) {s t : State} (h : Sound s t) : Sound s (writeStaged i ws t).2 := by
  unfold writeStaged
  split
  · exact h
  · split
    · split
      · exact setCp_sound h _
      · exact h
    · exact h

theorem writePreset_sound (i : Fin 32) (ws : Option (List Window)) {s t : State} (h : Sound s t) :
    Sound s (writePreset i ws t).2 := by
  unfold writePreset
  split
  · split
    · exact setCp_sound h _
    · exact h
  · exact h

theorem commitLayout_sound (b : Byte) {s t : State} (h : Sound s t) : Sound s (commitLayout b t).2 := by
  unfold commitLayout
  split
  · exact h
  · exact setCp_sound h _

theorem boundary_sound {s t : State} (h : Sound s t) : Sound s (boundary t) := by
  have k := setCp_sound (swapAll_sound h) (latchAll (swapAll t)).cp
  unfold boundary
  dsimp only
  split
  · exact (setCp_sound k _).keeps (fuReevaluate_keeps (.refl _))
  · exact setCp_sound k _

/-! ## Settings -/

theorem noticeExpired_sound {s t : State} (h : Sound s t) : Sound s (noticeExpired t) :=
  (setMu_sound h _).keeps (tryNotice_keeps (.refl _))

/-- An entry other than the own one replaced: closure and ring state are as they were. -/
theorem setPresence_sound (n : Fin 62) (e : PresenceEntry) {s t : State} (h : Sound s t) (hn : nodeIndex (own t) ≠ some n) :
    Sound s (t.setRf { t.rf with presence := t.rf.presence.set n e }) := by
  have o : ownPresent (t.setRf { t.rf with presence := t.rf.presence.set n e }) = ownPresent t := by
    unfold ownPresent
    have e : own (t.setRf { t.rf with presence := t.rf.presence.set n e }) = own t := rfl
    rw [e]
    split
    · rename_i i hi
      have : (n : Nat) ≠ i := fun x => hn (by rw [hi, Fin.ext x])
      simp [Vector.getElem_set_ne, this]
    · rfl
  exact setRf_sound h _ (fun c => ⟨c.passQ, c.insQ, c.share⟩)
    (fun _ r => ⟨r.sending, r.beacons, r.noEgress, by rw [o]; exact r.closed⟩)
    fun _ _ x => x.trans (derivedRing_congr (s := t)
      (t := t.setRf { t.rf with presence := t.rf.presence.set n e }) rfl rfl o).symm

/-- The own address names its own entry alone. -/
theorem entryAddress_index {n : Fin 62} {a : Byte} (h : nodeIndex a = some n) : entryAddress n = a := by
  unfold nodeIndex at h
  split at h
  · rename_i ha
    cases h
    unfold entryAddress byte
    simp only
    rw [Nat.sub_add_cancel ha.1]
    simp
  · cases h

theorem absenceExpired_sound (n : Fin 62) {s t : State} (h : Sound s t) (hn : entryAddress n ≠ own t) :
    Sound s (absenceExpired n t) :=
  (setPresence_sound n _ h fun e => hn (entryAddress_index e)).keeps (nodeIsAbsent_keeps _ (.refl _))

theorem applyAbsence_sound {s t : State} (h : Sound s t) : Sound s (applyAbsence t) := by
  refine foldl_sound _ (fun n s t h => ?_) _ h
  split
  · rename_i hr
    refine absenceExpired_sound n h ?_
    unfold absenceReached at hr
    simp at hr; exact hr.1.2
  · exact h

theorem applyEnergyReset_sound {s t : State} (h : Sound s t) : Sound s (applyEnergyReset t) := by
  have a : Sound s (if t.desk.energyReset * 1000 ≤ t.wlp.silence.getD 0 then silenceExpired .west t else t) := by
    split
    · exact silenceExpired_sound _ h
    · exact h
  have b {u : State} (hu : Sound s u) :
      Sound s (if u.desk.energyReset * 1000 ≤ u.elp.silence.getD 0 then silenceExpired .east u else u) := by
    split
    · exact silenceExpired_sound _ hu
    · exact hu
  exact b a

theorem applyNoticeInterval_sound {s t : State} (h : Sound s t) : Sound s (applyNoticeInterval t) := by
  unfold applyNoticeInterval
  split
  · split
    · exact noticeExpired_sound h
    · exact h
  · exact h

theorem settle_sound (ok : Bool) (f : State → State) {s t : State} (h : Sound s t) (hf : ok = true → Sound s (f t)) :
    Sound s (settle ok f t).2 := by
  unfold settle
  split
  · rename_i hk; exact hf hk
  · exact h

theorem numberSetting_sound (w lo hi : Nat) (bs : List Byte) (f : Nat → State → State) {s t : State} (h : Sound s t)
    (hf : ∀ n, lo ≤ n → n ≤ hi → Sound s (f n t)) : Sound s (numberSetting w lo hi bs f t).2 := by
  unfold numberSetting
  split
  · exact settle_sound _ _ h fun k => by simp at k; exact hf _ k.1 k.2
  · exact h

/-- Two states with one own address have one set of targets. -/
theorem targetOk_congr {s t : State} (h : t.cl.ownAddress = s.cl.ownAddress) (b : Byte) (k : targetOk s b) : targetOk t b := by
  unfold targetOk own at *; rw [h]; exact k

theorem writeStandby_sound (n : Nat) (hn : n ≤ 240) {s t : State} (h : Sound s t) : Sound s (writeStandby n t) := by
  have k := setDesk_sound h { t.desk with standby := n } fun c =>
    ⟨c.guardDistance, hn, c.downshift, c.energyReset, c.beaconPeriod, c.absence, c.claimTimeout, c.noticeInterval,
      c.noticeTarget, c.authority⟩
  unfold writeStandby
  dsimp only
  split
  · exact h
  · split
    · exact k.keeps (setPu_keeps (.refl _) _)
    · split
      · exact k
      · split
        · exact k.keeps (setPu_keeps (.refl _) _)
        · split
          · exact k.keeps (enterStandby_keeps (.refl _))
          · exact k

theorem writeDesk_sound (l : Bool) (o : Byte) (i : Nat) (bs : List Byte) {s t : State} (h : Sound s t) :
    Sound s (writeDesk l o i bs t).2 := by
  have head (k : Fin 4) : Sound s (writeHeadEntry l k bs t).2 := by
    unfold writeHeadEntry
    split
    · exact writeHead_sound _ _ _ h
    · exact h
  have pal (k : Fin 6) : Sound s (writePalette k bs t).2 := by
    unfold writePalette
    split
    · exact setCp_sound h _
    · exact settle_sound _ _ h fun _ => setCp_sound h _
  have target (b : Byte) (hb : namesNode t b = true) : targetOk t b := by
    unfold namesNode at hb
    unfold targetOk
    simpa using hb
  unfold writeDesk
  split
  · unfold writeRate
    split
    · exact setDesk_sound h _ fun c => ⟨c.guardDistance, c.standby, c.downshift, c.energyReset, c.beaconPeriod, c.absence,
        c.claimTimeout, c.noticeInterval, c.noticeTarget, c.authority⟩
    · split
      · exact setDesk_sound h _ fun c => ⟨c.guardDistance, c.standby, c.downshift, c.energyReset, c.beaconPeriod, c.absence,
          c.claimTimeout, c.noticeInterval, c.noticeTarget, c.authority⟩
      · exact h
  · exact head 0
  · exact head 1
  · exact head 2
  · exact head 3
  · exact pal 0
  · exact pal 1
  · exact pal 2
  · exact pal 3
  · exact pal 4
  · exact pal 5
  · refine numberSetting_sound _ _ _ _ _ h fun n _ hn => ?_
    exact (setDesk_sound h { t.desk with guard := n } fun c => ⟨hn, c.standby, c.downshift, c.energyReset, c.beaconPeriod, c.absence, c.claimTimeout,
      c.noticeInterval, c.noticeTarget, c.authority⟩).keeps (setFu_keeps (.refl _) _)
  · exact numberSetting_sound _ _ _ _ _ h fun n _ hn => writeStandby_sound n hn h
  · exact numberSetting_sound _ _ _ _ _ h fun n h1 h2 => setDesk_sound h _ fun c => ⟨c.guardDistance, c.standby, ⟨h1, h2⟩,
      c.energyReset, c.beaconPeriod, c.absence, c.claimTimeout, c.noticeInterval, c.noticeTarget, c.authority⟩
  · refine numberSetting_sound _ _ _ _ _ h fun n h1 h2 => ?_
    unfold writeEnergyReset
    split
    · exact h
    · exact applyEnergyReset_sound (setDesk_sound h _ fun c => ⟨c.guardDistance, c.standby, c.downshift, ⟨h1, h2⟩,
        c.beaconPeriod, c.absence, c.claimTimeout, c.noticeInterval, c.noticeTarget, c.authority⟩)
  · exact numberSetting_sound _ _ _ _ _ h fun n h1 h2 => setDesk_sound h _ fun c => ⟨c.guardDistance, c.standby, c.downshift,
      c.energyReset, ⟨h1, h2⟩, c.absence, c.claimTimeout, c.noticeInterval, c.noticeTarget, c.authority⟩
  · refine numberSetting_sound _ _ _ _ _ h fun n h1 h2 => ?_
    unfold writeAbsence
    split
    · exact h
    · exact applyAbsence_sound (setDesk_sound h _ fun c => ⟨c.guardDistance, c.standby, c.downshift, c.energyReset,
        c.beaconPeriod, ⟨h1, h2⟩, c.claimTimeout, c.noticeInterval, c.noticeTarget, c.authority⟩)
  · exact numberSetting_sound _ _ _ _ _ h fun n _ _ => setDesk_sound h _ fun c => ⟨c.guardDistance, c.standby, c.downshift,
      c.energyReset, c.beaconPeriod, c.absence, c.claimTimeout, c.noticeInterval, c.noticeTarget, c.authority⟩
  · exact numberSetting_sound _ _ _ _ _ h fun n h1 h2 => setDesk_sound h _ fun c => ⟨c.guardDistance, c.standby, c.downshift,
      c.energyReset, c.beaconPeriod, c.absence, ⟨h1, h2⟩, c.noticeInterval, c.noticeTarget, c.authority⟩
  · refine numberSetting_sound _ _ _ _ _ h fun n h1 h2 => ?_
    unfold writeNoticeInterval
    split
    · exact h
    · exact applyNoticeInterval_sound (setDesk_sound h _ fun c => ⟨c.guardDistance, c.standby, c.downshift, c.energyReset,
        c.beaconPeriod, c.absence, c.claimTimeout, ⟨h1, h2⟩, c.noticeTarget, c.authority⟩)
  · split
    · rename_i b
      refine settle_sound _ _ h fun hb => ?_
      have k := setDesk_sound h { t.desk with noticeTarget := b } fun c => ⟨c.guardDistance, c.standby, c.downshift,
        c.energyReset, c.beaconPeriod, c.absence, c.claimTimeout, c.noticeInterval, targetOk_congr rfl _ (target b hb),
        c.authority⟩
      unfold writeNoticeTarget
      dsimp only
      split
      · exact setMu_sound k _
      · exact k
    · exact h
  · unfold writeAuthority
    split
    · exact h
    · split
      · rename_i b
        exact settle_sound _ _ h fun hb => setDesk_sound h _ fun c => ⟨c.guardDistance, c.standby, c.downshift, c.energyReset,
          c.beaconPeriod, c.absence, c.claimTimeout, c.noticeInterval, c.noticeTarget, targetOk_congr rfl _ (target b hb)⟩
      · exact h
  · exact settle_sound _ _ h fun _ => setDesk_sound h _ fun c => ⟨c.guardDistance, c.standby, c.downshift, c.energyReset,
      c.beaconPeriod, c.absence, c.claimTimeout, c.noticeInterval, c.noticeTarget, c.authority⟩
  · exact h

theorem writeEntry_sound (l : Bool) (o : Byte) (sp : Space) (i : Nat) (bs : List Byte) {s t : State} (h : Sound s t) :
    Sound s (writeEntry l o sp i bs t).2 := by
  unfold writeEntry
  split
  · exact writeDesk_sound _ _ _ _ h
  · split
    · unfold writeSlotEntry
      split
      · exact h.keeps (writeSlot_keeps _ _ (.refl _))
      · split
        · exact h.keeps (writeSlot_keeps _ _ (.refl _))
        · exact h
    · exact h
  · split
    · exact writeStream_sound _ _ h
    · exact h
  · split
    · exact writePreset_sound _ _ h
    · exact h
  · split
    · exact writeStaged_sound _ _ h
    · exact h
  · split
    · exact h.keeps (writeHotKey_keeps _ _ (.refl _))
    · exact h
  · split
    · exact h.keeps (writeLamp_keeps _ _ (.refl _))
    · exact h
  · unfold writeEvents
    split
    · refine settle_sound _ _ h fun _ => ?_
      unfold writeMask
      dsimp only
      split
      · exact (setMu_sound h _).keeps (makeDue_keeps (.refl _))
      · exact setMu_sound h _
    · exact h
  all_goals exact h

theorem writeEntries_sound (o : Byte) (sp : Space) (i : Nat) (bs : List (List Byte)) {s t : State} (h : Sound s t) :
    Sound s (writeEntries o sp i bs t).2.2 := by
  induction bs generalizing i t with
  | nil => exact h
  | cons b bs ih =>
    have k := writeEntry_sound false o sp i b h
    unfold writeEntries
    split <;> rename_i u hu <;> rw [hu] at k
    · exact k
    · exact ih _ k

end Sys2Proof.Machine
end

