-- ==== Sys2Proof/Laws/SoundTraffic.lean ====
section
/-! SUPPORT. Management requests, reception, and the commands of ring traffic keep what holds between steps. -/

namespace Sys2Proof.Machine

open Sys2Proof

/-! ## Management -/

theorem countMu_sound (f : MuCounters → MuCounters) {s t : State} (h : Sound s t) : Sound s (countMu f t) := setMu_sound h _

theorem countRf_sound (f : RfCounters → RfCounters) {s t : State} (h : Sound s t) : Sound s (countRf f t) :=
  setRf_plain h _ rfl rfl rfl rfl rfl rfl rfl

theorem responseAppended_sound (e : InsEntry) {s t : State} (h : Sound s t) : Sound s (responseAppended e t) := by
  unfold responseAppended
  dsimp only
  split
  · exact setMu_sound (setMu_sound h _) _
  · exact setMu_sound (setMu_sound h _) _

theorem offerResponse_sound (e : InsEntry) {s t : State} (h : Sound s t) : Sound s (offerResponse e t) := by
  unfold offerResponse
  split
  · exact setMu_sound h _
  · have k := offerInsertion_sound h e
    split <;> rename_i u hu <;> rw [hu] at k
    · exact (responseAppended_sound e k).keeps (tryNotice_keeps (.refl _))
    · exact setMu_sound k _

/-- A presence table changed entry by entry, `present` kept in each. -/
theorem ownPresent_map {s t : State} (f : PresenceEntry → PresenceEntry) (hf : ∀ e, (f e).present = e.present)
    (hc : t.cl.ownAddress = s.cl.ownAddress) (hp : t.rf.presence = mapTable f s.rf.presence) : ownPresent t = ownPresent s := by
  unfold ownPresent own; rw [hc, hp]
  split
  · simp [mapTable, hf]
  · rfl

/-- What CLEAR_COUNTERS leaves in the blocks with ports, queues and presence (R186). -/
theorem clearCounters_parts (t : State) :
    (clearCounters t).wlp = { t.wlp with linkDown := 0, crcErrors := 0, truncated := 0 } ∧
      (clearCounters t).elp = { t.elp with linkDown := 0 } ∧
      (clearCounters t).rf = { t.rf with
        c := rfCountersZero, presence := mapTable (fun e => { e with gaps := 0 }) t.rf.presence } ∧
      (clearCounters t).iu = { t.iu with c := iuCountersZero } ∧ (clearCounters t).cl = t.cl ∧
      (clearCounters t).desk = t.desk ∧ (clearCounters t).serial = t.serial ∧ (clearCounters t).sr.lines = t.sr.lines := by
  simp [clearCounters]

theorem clearCounters_sound {s t : State} (h : Sound s t) : Sound s (clearCounters t) := by
  obtain ⟨pw, pe, pr, pi, pc, pd, ps, pl⟩ := clearCounters_parts t
  generalize clearCounters t = u at *
  have o : ownPresent u = ownPresent t :=
    ownPresent_map (fun e => { e with gaps := 0 }) (fun _ => rfl) (by rw [pc]) (by rw [pr])
  have d : derivedRing u = derivedRing t := derivedRing_congr (by rw [pw]) (by rw [pe]) o
  have ht (b : Byte) : targetOk t b → targetOk u b := targetOk_congr (by rw [pc]) b
  refine h.trans ⟨fun c => ?_, fun ⟨l, r⟩ => ⟨?_, ?_⟩, fun _ x => ?_, fun c => ?_, fun m => ?_⟩
  · refine ⟨?_, ?_, ?_⟩
    · rw [pr]; exact ⟨c.rf.passQ, c.rf.insQ, c.rf.share⟩
    · rw [pi]; exact ⟨c.iu.queues, c.iu.keys, c.iu.consumed⟩
    · rw [pw]; exact c.badFrames
  · constructor
    · rw [pw]; exact l.westPartner
    · rw [pe]; exact l.eastPartner
    · rw [pw]; exact l.westSilence
    · rw [pe]; exact l.eastSilence
    · rw [pe]; exact l.trial
    · rw [pc, pw, pe]; exact l.cold
  · constructor
    · rw [pr, pe]; exact r.sending
    · rw [pr, pe, pc]; exact r.beacons
    · rw [pr, pe]; exact r.noEgress
    · rw [o, pw, pe]; exact r.closed
  · rw [d, pr]; exact x
  · constructor
    all_goals rw [pd]
    · exact c.guardDistance
    · exact c.standby
    · exact c.downshift
    · exact c.energyReset
    · exact c.beaconPeriod
    · exact c.absence
    · exact c.claimTimeout
    · exact c.noticeInterval
    · exact ht _ c.noticeTarget
    · exact ht _ c.authority
  · exact ⟨by rw [ps]; exact m.cells, by rw [ps]; exact m.inside, by rw [pl]; exact m.lines⟩

theorem setProtection_sound (o a l : Byte) {s t : State} (h : Sound s t) : Sound s (setProtection o a l t).2 := by
  unfold setProtection
  split
  · exact h
  · split
    · split
      · exact h
      · split
        · exact setMu_sound h _
        · exact setMu_sound h _
    · exact h

theorem beginSave_sound {s t : State} (h : Sound s t) : Sound s (beginSave t).2 := by
  unfold beginSave
  split
  · exact setCl_sound h _ rfl rfl rfl
  · exact h

theorem handle_sound (o : Byte) (p : List Byte) {s t : State} (h : Sound s t) : Sound s (handle o p t).2 := by
  have hprot : Sound s (protect t).2 := setMu_sound h _
  unfold handle
  split
  · unfold doRead
    split
    · exact h
    · split
      · exact h
      · split
        · exact hprot
        · exact h
  · unfold doWrite
    split
    · exact h
    · split
      · exact h
      · split
        · exact h
        · split
          · exact hprot
          · split
            · exact h
            · exact writeEntries_sound _ _ _ _ h
  · exact commitLayout_sound _ h
  · exact h.keeps (selectPreset_keeps _ (.refl _))
  · exact h.keeps (localRequest_keeps _ _ (.refl _))
  · exact h.keeps (localRelease_keeps _ _ (.refl _))
  · exact h.keeps (setPower_keeps _ (.refl _))
  · exact setMu_sound h _
  · exact clearCounters_sound h
  · exact setProtection_sound _ _ _ h
  · exact beginSave_sound h
  · unfold doReset
    split
    · exact h
    · exact h

theorem tagOf_sound (p : List Byte) {s t : State} (h : Sound s t) : Sound s (tagOf p t).2 := by
  unfold tagOf
  split
  · exact h
  · exact setFree_sound h _
  · exact setFree_sound h _

theorem serveRequest_sound (f : Frame) {s t : State} (h : Sound s t) : Sound s (serveRequest f t) := by
  unfold serveRequest
  dsimp only
  refine offerResponse_sound _ ?_
  split
  · exact handle_sound _ _ (countMu_sound _ (setMu_sound (tagOf_sound _ h) _))
  · exact setMu_sound (countMu_sound _ (setMu_sound (tagOf_sound _ h) _)) _

theorem requestTaken_sound (f : Frame) {s t : State} (h : Sound s t) : Sound s (requestTaken f t) := by
  unfold requestTaken
  split
  · exact countMu_sound _ h
  · split
    · exact countMu_sound _ h
    · exact serveRequest_sound _ h

/-! ## Reception -/

theorem beaconTaken_sound (f : Frame) {s t : State} (h : Sound s t) (hf : f.origin ≠ own t) : Sound s (beaconTaken f t) := by
  unfold beaconTaken
  split
  · rename_i n b hn hb
    have ne : nodeIndex (own t) ≠ some n := fun x =>
      hf ((entryAddress_index hn).symm.trans (entryAddress_index x))
    unfold updatePresence
    dsimp only
    have k := setPresence_sound n (recordBeacon b (t.rf.presence[n].present && !b.restart &&
      notFollowing t.rf.presence[n].sol b.sol) t.rf.presence[n]) h ne
    split
    · exact k.keeps (nodeIsPresent_keeps _ (.refl _))
    · split
      · exact k.keeps (nodeIsPresent_keeps _ (nodeIsAbsent_keeps _ (.refl _)))
      · exact k
  · exact countRf_sound _ h

theorem refreshClosure_sound (f : Frame) {s t : State} (h : Sound s t) : Sound s (refreshClosure f t) := by
  unfold refreshClosure
  split
  · rename_i hu
    split
    · exact deriveRing_sound (h.tidy.trans (Tidy.same (fun c => ⟨c.passQ, c.insQ, c.share⟩) rfl id rfl rfl rfl rfl)) fun hl =>
        have ⟨l, r⟩ := h.ports hl
        ⟨links_congr l rfl rfl rfl, ⟨r.sending, r.beacons, r.noEgress⟩, fun _ => hu⟩
    · exact h
  · exact h

theorem takeFrame_sound (f : Frame) {s t : State} (h : Sound s t) (hf : f.origin ≠ own t) : Sound s (takeFrame f t) := by
  unfold takeFrame
  split
  · exact countRf_sound _ h
  · split
    · exact h.keeps (claimTaken_keeps _ (.refl _))
    · split
      · exact requestTaken_sound _ h
      · split
        · exact beaconTaken_sound _ h hf
        · exact countRf_sound _ h

theorem arbitrate_own (t : State) : own (arbitrate t) = own t := by
  unfold arbitrate beginInsertion
  (repeat' split) <;> rfl

theorem forward_own (f : Frame) (t : State) : own (forward f t) = own t := by
  unfold forward
  split
  · rfl
  · split
    · exact arbitrate_own _
    · split
      · rfl
      · split <;> rfl

theorem decideFrame_sound (f : Frame) {s t : State} (h : Sound s t) : Sound s (decideFrame f t) := by
  unfold decideFrame
  split
  · unfold stripFrame
    dsimp only
    split
    · exact refreshClosure_sound _ (countRf_sound _ h)
    · exact countRf_sound _ h
  · rename_i hf
    split
    · exact countRf_sound _ h
    · unfold routeFrame
      split
      · unfold copyStrip
        split
        · exact offerStrip_sound _ (forward_sound _ h)
        · exact forward_sound _ h
      · split
        · exact takeFrame_sound _ (forward_sound _ h) (by rw [forward_own]; exact hf)
        · split
          · exact takeFrame_sound _ h hf
          · exact forward_sound _ h

theorem frameSeen_sound (b : List Byte) {s t : State} (h : Sound s t) : Sound s (frameSeen b t) := by
  have good : Sound s (countVerdict .good t) := setWlp_sound h _ rfl rfl id fun _ => Nat.zero_le _
  have bad (v : Verdict) (hc : t.wlp.badFrames ≠ 16) : Sound s (countVerdict v t) := by
    unfold countVerdict
    split
    · exact good
    · exact setWlp_sound h _ rfl rfl id fun hb => by show t.wlp.badFrames + 1 ≤ 16; omega
    · exact setWlp_sound h _ rfl rfl id fun hb => by show t.wlp.badFrames + 1 ≤ 16; omega
  unfold frameSeen
  split
  · exact h
  · split
    · exact errorBurst_sound _ h
    · rename_i hc
      split
      · exact decideFrame_sound _ good
      · exact bad _ hc

/-! ## Commands of ring traffic -/

theorem frameSent_sound {s t : State} (h : Sound s t) : Sound s (frameSent t) := by
  unfold frameSent
  split
  · exact arbitrate_sound (setRf_queues h _ (fun c => ⟨c.passQ, c.insQ, c.share⟩) rfl rfl (fun _ _ x => by cases x)
      (fun _ r => r.beacons) fun _ r => r.noEgress)
  · exact h

theorem appendManagement_sound (o : MuOffer) {s t : State} (h : Sound s t) : Sound s (appendManagement o t) := by
  have k := offerInsertion_sound (setMu_sound h { t.mu with offer := none }) o.entry
  unfold appendManagement
  dsimp only
  split
  · unfold offerWaiting
    have n := k.keeps (noticeAppended_keeps (.refl _))
    split
    · exact offerResponse_sound _ (setMu_sound n _)
    · exact n
  · exact (responseAppended_sound _ k).keeps (tryNotice_keeps (.refl _))

theorem placeFrees_sound (p : Producer) {s t : State} (h : Sound s t) : Sound s (placeFrees p t) := by
  have a : Sound s (appendKept p t) := by
    unfold appendKept
    split
    · split
      · exact h.keeps (pumpBuilder_keeps _ (offerInsertion_keeps (setIu_keeps (.refl _) { t.iu with held := none }
          fun c => ⟨c.queues, c.keys, c.consumed⟩) _ rfl))
      · exact h
    · split
      · exact h.keeps (pumpOutbox_keeps _ (claimAppended_keeps _ (offerInsertion_keeps (.refl _) _ rfl)))
      · exact h
    · split
      · exact appendManagement_sound _ h
      · exact h
  have c {u : State} (hu : Sound s u) : Sound s (countStillWaiting p u) := by
    unfold countStillWaiting
    split
    · exact hu
    · exact setRf_plain hu _ rfl rfl rfl rfl rfl rfl rfl
  unfold placeFrees
  split
  · exact c a
  · exact h

theorem beaconDue_sound {s t : State} (h : Sound s t) : Sound s (beaconDue t) := by
  unfold beaconDue
  split
  · rename_i hc
    exact beaconTick_sound h hc.2.1 (by simpa [running] using hc.2.2)
  · exact h

theorem absenceDue_sound (n : Fin 62) {s t : State} (h : Sound s t) : Sound s (absenceDue n t) := by
  unfold absenceDue
  split
  · rename_i hr
    unfold absenceReached at hr
    simp at hr
    exact absenceExpired_sound n h hr.1.2
  · exact h

theorem closureDue_sound {s t : State} (h : Sound s t) : Sound s (closureDue t) := by
  obtain ⟨pw, pe, pc, pq, pi, ps, pn, pb, piu, pd, pser, psr⟩ := endClosure_ports t
  unfold closureDue
  split
  · refine deriveRing_sound (h.tidy.trans (Tidy.same
      (fun c => ⟨by simpa [pq] using c.passQ, by simpa [pi] using c.insQ, by simpa [ps] using c.share⟩) piu (by simp [pw]) pd
      (by unfold own; rw [pc]) pser psr)) fun hl => ?_
    obtain ⟨l, r⟩ := h.ports hl
    exact ⟨links_congr l pw pe pc, ⟨by rw [pn, pe]; exact r.sending, by rw [pb, pe, pc]; exact r.beacons,
      by rw [pq, ps, pe]; exact r.noEgress⟩, fun x => by rw [endClosure_ownPresent] at x; cases x⟩
  · exact h

theorem intervalDue_sound {s t : State} (h : Sound s t) : Sound s (intervalDue t) := by
  unfold intervalDue
  split
  · exact noticeExpired_sound h
  · exact h

theorem windowExpires_sound {s t : State} (h : Sound s t) : Sound s (windowExpires t) := by
  have same (r : Rate) : (trialFailed r t).elp.state = t.elp.state ∧ (trialFailed r t).elp.partner = t.elp.partner := by
    unfold trialFailed
    split
    · exact ⟨rfl, rfl⟩
    · split
      · split
        · rw [(raise_keeps (.refl _) _).same.elp]; exact ⟨rfl, rfl⟩
        · exact ⟨rfl, rfl⟩
      · exact ⟨rfl, rfl⟩
  unfold windowExpires
  split
  · rename_i w hw
    split
    · rename_i ht
      have st := (same w.rate).1.trans ht
      exact beginTrialAt_move _ (trialFailed_sound w.rate h) (by rw [st]; decide) (by rw [st]; decide) (by rw [st]; decide)
        fun l => l.eastPartner.2 (.inl st)
    · exact h
  · exact h

theorem receiverLocks_sound {s t : State} (h : Sound s t) : Sound s (receiverLocks t) := by
  unfold receiverLocks
  split
  · exact setWlp_sound h _ rfl rfl id id
  · exact h

end Sys2Proof.Machine
end

