-- ==== Sys2Proof/Laws/SoundLoad.lean ====
section
/-! SUPPORT. Load, save, resets and the passing of time keep what holds between steps. -/

namespace Sys2Proof.Machine

open Sys2Proof

/-! ## Load -/

theorem storeHead_sound (i : Fin 4) (r : HeadRecord) {s t : State} (h : Sound s t) : Sound s (storeHead i r t) := by
  unfold storeHead
  dsimp only
  split
  · exact (setCp_sound h _).keeps (headReport_keeps (.refl _))
  · exact setCp_sound h _

theorem fallbackHead_sound (i : Fin 4) {s t : State} (h : Sound s t) : Sound s (fallbackHead i t) := storeHead_sound _ _ h

theorem fallbackEntry_sound (sp : Space) (i : Nat) {s t : State} (h : Sound s t) : Sound s (fallbackEntry sp i t) := by
  unfold fallbackEntry
  split
  · split
    · exact fallbackHead_sound _ h
    · exact writeEntry_sound _ _ _ _ _ h
  · exact writeEntry_sound _ _ _ _ _ h
  all_goals exact h

theorem loadEntry_sound (sp : Space) (i : Nat) (c : Option (List Byte)) {s t : State} (h : Sound s t) :
    Sound s (loadEntry sp i c t) := by
  unfold loadEntry
  split
  · exact fallbackEntry_sound _ _ (raise_sound _ h)
  · rename_i bs
    have k := writeEntry_sound true 0 sp i bs h
    split <;> rename_i u hu <;> rw [hu] at k
    · exact k
    · exact fallbackEntry_sound _ _ (raise_sound _ k)

theorem loadEntries_sound (o : List (Space × Nat)) (l : List (Option (List Byte))) {s t : State} (h : Sound s t) :
    Sound s (loadEntries o l t) := by
  induction o generalizing l t with
  | nil => unfold loadEntries; exact h
  | cons e o ih =>
    cases l with
    | nil => unfold loadEntries; exact h
    | cons c l => exact ih l (loadEntry_sound e.1 e.2 c h)

theorem loadLevel_sound (a : Area) (l : Option ProtLevel) {s t : State} (h : Sound s t) : Sound s (loadLevel a l t) := by
  have k : Sound s (if l.isNone then raise .loadFault t else t) := by
    split
    · exact raise_sound _ h
    · exact h
  unfold loadLevel
  dsimp only
  split
  · exact setMu_sound k _
  · exact setMu_sound k _

theorem loadAreas_sound (a : SerialAnswers) {s t : State} (h : Sound s t) : Sound s (loadAreas a t) := by
  have flags (d l : Validity) (p : Prop) [Decidable p] :
      Sound s (if p then raise .loadFault (t.setCl { t.cl with deskFlag := d, layoutFlag := l })
        else t.setCl { t.cl with deskFlag := d, layoutFlag := l }) := by
    split
    · exact raise_sound _ (setCl_sound h _ rfl rfl rfl)
    · exact setCl_sound h _ rfl rfl rfl
  exact setCp_sound (loadLevel_sound _ _ (loadEntries_sound _ _ (loadLevel_sound _ _ (loadEntries_sound _ _
    (flags _ _ _))))) _

/-! ## RUNNING -/

/-- Disabled ports take no part in a change of the own word (R18). -/
theorem ownWordChange_disabled (rxMid : Bool) (tag : Byte) {t : State} (hw : t.wlp.state = .disabled)
    (he : t.elp.state = .disabled) : ownWordChange rxMid tag t = t := by
  unfold ownWordChange
  split
  · rfl
  · have w : wlpOwnWord rxMid t = t := by unfold wlpOwnWord; simp [hw]
    rw [w]; unfold elpOwnWord; simp [he]

theorem ownWordChange_sound (rxMid : Bool) (tag : Byte) {s t : State} (h : Sound s t) : Sound s (ownWordChange rxMid tag t) := by
  unfold ownWordChange
  split
  · exact h
  · exact elpOwnWord_sound (wlpOwnWord_sound _ h)

/-- A West port leaves DISABLED (R5, R6). -/
theorem enterWest_sound {s t : State} (h : Sound s t) (v : Wlp) (hw : t.wlp.state = .disabled) (hc : t.cl.cold = false)
    (hv : v.state = .silent ∨ v.state = .advertise) (hp : v.partner = t.wlp.partner)
    (hs : v.silence.isSome → v.state = .silent) (hb : v.badFrames = t.wlp.badFrames) : Sound s (t.setWlp v) := by
  refine h.trans ⟨fun c => ⟨c.rf, c.iu, by simpa [hb] using c.badFrames⟩, fun ⟨l, r⟩ => ⟨⟨?_, l.eastPartner, hs, l.eastSilence,
    l.trial, fun x => by simp [hc] at x⟩, r.sending, r.beacons, r.noEgress, fun x => ?_⟩, fun p x => ?_,
    (west_tidy t v (by simp [hb])).settings, fun m => ⟨m.cells, m.inside, m.lines⟩⟩
  · have := l.westPartner
    simp only [State.setWlp, partnerWhen, hp, hw] at this ⊢
    rcases hv with e | e <;> rw [e] <;> simpa using this
  · have := (r.closed x).1; rw [hw] at this; cases this
  · have no : ownPresent t = false := by
      cases ho : ownPresent t with
      | false => rfl
      | true => have := (p.2.closed ho).1; rw [hw] at this; cases this
    have no' : ownPresent (t.setWlp v) = false := no
    unfold derivedRing at x ⊢
    rcases hv with e | e <;> simpa [e, hw, no, no'] using x

/-- An East port leaves DISABLED. -/
theorem enterEast_sound {s t : State} (h : Sound s t) (v : Elp) (he : t.elp.state = .disabled) (hc : t.cl.cold = false)
    (hv : v.state = .silent ∨ v.state = .advertise) (hp : v.partner = t.elp.partner)
    (hs : v.silence.isSome → v.state = .silent) (ht : v.trial = t.elp.trial) : Sound s (t.setElp v) := by
  have ne : v.state ≠ .up := by rcases hv with e | e <;> rw [e] <;> decide
  have nt : t.elp.state ≠ .up := by rw [he]; decide
  refine h.trans ⟨fun c => ⟨c.rf, c.iu, c.badFrames⟩, fun ⟨l, r⟩ => ⟨⟨l.westPartner, ?_, l.westSilence, hs, ?_,
    fun x => by simp [hc] at x⟩, fun x => absurd (r.sending x) nt, fun x => absurd (r.beacons x).1 nt, fun _ => r.noEgress nt,
    fun x => absurd (r.closed x).2 nt⟩, fun p x => ?_, fun c => ⟨c.guardDistance, c.standby, c.downshift, c.energyReset,
      c.beaconPeriod, c.absence, c.claimTimeout, c.noticeInterval, c.noticeTarget, c.authority⟩,
    fun m => ⟨m.cells, m.inside, m.lines⟩⟩
  · have := l.eastPartner
    simp only [State.setElp, partnerWhen, hp, he] at this ⊢
    rcases hv with e | e <;> rw [e] <;> simpa using this
  · have := l.trial
    simp only [State.setElp, ht, he] at this ⊢
    rcases hv with e | e <;> rw [e] <;> simpa using this
  · have no : ownPresent t = false := by
      cases ho : ownPresent t with
      | false => rfl
      | true => exact absurd (p.2.closed ho).2 nt
    have no' : ownPresent (t.setElp v) = false := no
    unfold derivedRing at x ⊢
    simpa [ne, nt, no, no'] using x

theorem portsIntoService_sound (cold : Bool) {s t : State} (h : Sound s t) (hc : t.cl.cold = false)
    (hd : cold = true → t.wlp.state = .disabled ∧ t.elp.state = .disabled) : Sound s (portsIntoService cold t) := by
  unfold portsIntoService
  split
  · rename_i k
    obtain ⟨hw, he⟩ := hd k.1
    have w : Sound s (enterService .west t) := by
      unfold enterService
      dsimp only
      split
      · exact enterWest_sound h _ hw hc (.inr rfl) rfl (fun x => by cases x) rfl
      · exact enterWest_sound h _ hw hc (.inl rfl) rfl (fun _ => rfl) rfl
    have e : (enterService .west t).elp = t.elp ∧ (enterService .west t).cl = t.cl := by
      unfold enterService
      dsimp only
      split <;> exact ⟨rfl, rfl⟩
    generalize enterService .west t = u at w e
    have he' : u.elp.state = .disabled := by rw [e.1]; exact he
    have hc' : u.cl.cold = false := by rw [e.2]; exact hc
    unfold enterService
    dsimp only
    split
    · exact enterEast_sound w _ he' hc' (.inr rfl) rfl (fun x => by cases x) rfl
    · exact enterEast_sound w _ he' hc' (.inl rfl) rfl (fun _ => rfl) rfl
  · exact h

/-- The loader state becomes RUNNING with a seed (R3, R192). -/
theorem setRunning_sound {s t : State} (h : Sound s t) (seed : Seed) :
    Sound s (t.setCl { t.cl with loader := .running, cold := false, seed := seed }) := by
  have hp : ownPresent (t.setCl { t.cl with loader := .running, cold := false, seed := seed }) = ownPresent t :=
    ownPresent_congr rfl rfl
  have ht (b : Byte) : targetOk t b → targetOk (t.setCl { t.cl with loader := .running, cold := false, seed := seed }) b :=
    targetOk_congr rfl b
  exact h.trans ⟨fun c => ⟨c.rf, c.iu, c.badFrames⟩, fun ⟨l, r⟩ => ⟨⟨l.westPartner, l.eastPartner, l.westSilence, l.eastSilence,
      l.trial, fun x => by cases x⟩, r.sending, fun x => ⟨(r.beacons x).1, rfl⟩, r.noEgress, fun x => r.closed (hp ▸ x)⟩,
    fun _ x => x.trans (derivedRing_congr (s := t) (t := t.setCl _) rfl rfl hp).symm,
    fun c => ⟨c.guardDistance, c.standby, c.downshift, c.energyReset, c.beaconPeriod, c.absence, c.claimTimeout,
      c.noticeInterval, ht _ c.noticeTarget, ht _ c.authority⟩, fun m => ⟨m.cells, m.inside, m.lines⟩⟩

theorem Tidy.sound_of_not {s t : State} (h : Tidy s t) (k : ¬ LinksConsistent s) : Sound s t :=
  ⟨h.caps, fun l => absurd l.1 k, fun l _ => absurd l.1 k, h.settings, h.memory⟩

theorem startBlocks_sound (waits : Bool) {s t : State} (h : Sound s t) : Sound s (startBlocks waits t) := by
  have k := boundary_sound (setCp_sound (startBeacons_sound h) { (startBeacons t).cp with
    raster := ⟨true, (startBeacons t).desk.rate, 0⟩ })
  unfold startBlocks
  dsimp only
  split
  · exact k.keeps (makeDue_keeps (setPu_keeps (restartIdle_keeps (placePointer_keeps (.refl _))) _))
  · exact k.keeps (setPu_keeps (restartIdle_keeps (placePointer_keeps (.refl _))) _)

theorem portsIntoService_tidy (cold : Bool) (t : State) : Tidy t (portsIntoService cold t) := by
  unfold portsIntoService enterService
  dsimp only
  (repeat' split) <;> exact Tidy.same id rfl id rfl rfl rfl rfl

theorem enterRunning_sound (rxMid : Bool) (t : State) : Sound t (enterRunning rxMid t) := by
  have run := setRunning_sound (.refl t) t.desk.seed
  have rf := setRf_plain run { t.rf with sol := 1, restart := true } rfl rfl rfl rfl rfl rfl rfl
  have key : Sound t (portsIntoService t.cl.cold (ownWordChange rxMid (seedTag t.cl.seed)
      ((t.setCl { t.cl with loader := .running, cold := false, seed := t.desk.seed }).setRf
        { t.rf with sol := 1, restart := true }))) := by
    by_cases l : LinksConsistent t
    · by_cases c : t.cl.cold = true
      · obtain ⟨_, hw, he⟩ := l.cold c
        rw [ownWordChange_disabled rxMid _ (by exact hw) (by exact he)]
        exact portsIntoService_sound _ rf rfl fun _ => ⟨hw, he⟩
      · have c : t.cl.cold = false := by simpa using c
        have no (u : State) : portsIntoService t.cl.cold u = u := by unfold portsIntoService; simp [c]
        rw [no]
        exact ownWordChange_sound _ _ rf
    · exact (((ownWordChange_sound _ _ rf).tidy).trans (portsIntoService_tidy _ _)).sound_of_not l
  exact startBlocks_sound _ key

theorem completeLoad_sound (a : SerialAnswers) (rxMid : Bool) {s t : State} (h : Sound s t) :
    Sound s (completeLoad a rxMid t) :=
  setFree_sound ((loadAreas_sound a h).trans (enterRunning_sound rxMid _)) _

/-! ## Save -/

theorem areaBytes_length (len : Nat) (c : List Byte) : (areaBytes len c).length = len + 4 := by
  unfold areaBytes be32
  simp
  omega

theorem writeCells_sound (base : Nat) (bytes : List Byte) (hb : base + bytes.length ≤ 8192) {s t : State} (h : Sound s t) :
    Sound s (writeCells base bytes t) :=
  setSerial_sound h _ fun m => ⟨Memory.write_wf m.cells base bytes, Memory.write_inside m.inside base bytes hb⟩

theorem setSerial_flags {s t : State} (h : Sound s t) (v : Serial) (hc : v.cells = t.serial.cells) : Sound s (t.setSerial v) :=
  setSerial_sound h v fun m => by rw [hc]; exact ⟨m.cells, m.inside⟩

theorem headerBytes_fit : 0 + headerBytes.length ≤ 8192 := by decide

theorem layout_fits (c : List Byte) : layoutBase + (areaBytes layoutLen c).length ≤ 8192 := by
  rw [areaBytes_length]; decide

theorem desk_fits (c : List Byte) : deskBase + (areaBytes deskLen c).length ≤ 8192 := by
  rw [areaBytes_length]; decide

theorem layoutWritten_sound {s t : State} (h : Sound s t) : Sound s (layoutWritten t) := by
  unfold layoutWritten
  dsimp only
  split
  · exact setCl_sound (setSerial_flags (writeCells_sound _ _ (layout_fits _)
      (writeCells_sound _ _ headerBytes_fit h)) _ (by rfl)) _ (by rfl) (by rfl) (by rfl)
  · exact h

theorem deskWritten_sound {s t : State} (h : Sound s t) : Sound s (deskWritten t) := by
  unfold deskWritten
  dsimp only
  split
  · exact raise_sound _ (setCl_sound (setSerial_flags (writeCells_sound _ _ (desk_fits _) h) _ (by rfl)) _
      (by rfl) (by rfl) (by rfl))
  · exact h

theorem saveFaults_sound (d : Bool) {s t : State} (h : Sound s t) : Sound s (saveFaults d t) := by
  have f : Sound s (faultedImage d t) := by
    unfold faultedImage
    dsimp only
    split
    · exact h
    · split
      · exact setCl_sound (setSerial_flags h _ (by rfl)) _ (by rfl) (by rfl) (by rfl)
      · exact setCl_sound (setSerial_flags (writeCells_sound _ _ headerBytes_fit h) _ (by rfl)) _ (by rfl) (by rfl) (by rfl)
    · exact setCl_sound (setSerial_flags h _ (by rfl)) _ (by rfl) (by rfl) (by rfl)
  unfold saveFaults
  split
  · exact h
  · exact raise_sound _ (setCl_sound f _ rfl rfl rfl)

/-! ## Resets -/

theorem abandonSave_sound {s t : State} (h : Sound s t) : Sound s (abandonSave t) := by
  unfold abandonSave
  split
  · exact h
  · have k := setFree_sound (setSerial_flags h { t.serial with layoutBad := true } rfl) (t.free + 1)
    dsimp only
    split
    · exact setSerial_flags (writeCells_sound _ _ headerBytes_fit k) _ rfl
    · exact k
  · exact setSerial_flags h _ rfl

/-- The settings and queues that every block starts with. -/
theorem start_values : RfCaps rfStart ∧ IuCaps iuStart ∧ ∀ i : Fin 16, iuStart.queues[i] = [] := by
  refine ⟨⟨by decide, by decide, by decide⟩, ⟨fun i => ?_, by decide, by decide⟩, fun i => ?_⟩
  · simp [iuStart]
  · simp [iuStart]

theorem presenceStart_own {t : State} (h : t.rf.presence = Vector.replicate 62 presenceStart) : ownPresent t = false := by
  unfold ownPresent; rw [h]
  split
  · simp [presenceStart]
  · rfl

theorem powerOn_sound (l : Bool) (b : BitVec 6) {s t : State} (h : Sound s t) : Sound s (powerOn l b t) := by
  have a := abandonSave_sound h
  unfold powerOn
  dsimp only
  generalize abandonSave t = u at a
  refine a.trans ⟨fun _ => ⟨start_values.1, start_values.2.1, Nat.zero_le _⟩, fun _ => ⟨?_, ?_⟩, fun _ _ => ?_, fun _ => ?_,
    fun m => ⟨m.cells, m.inside, by constructor <;> simp [srStart]⟩⟩
  · constructor <;> simp [partnerWhen, wlpStart, elpStart]
    simp [clStart]
  · refine ⟨by simp [rfStart], by simp [rfStart], fun _ => by simp [rfStart], fun x => ?_⟩
    rw [presenceStart_own rfl] at x; cases x
  · unfold derivedRing; simp [wlpStart, elpStart, rfStart]
  · constructor <;> simp [deskDefault, targetOk]

theorem softReset_sound {s t : State} (h : Sound s t) : Sound s (softReset t) := by
  have a := abandonSave_sound h
  unfold softReset
  dsimp only
  generalize abandonSave t = u at a
  have o : ∀ v : State, v.rf.presence = Vector.replicate 62 presenceStart → ownPresent v = false := fun v => presenceStart_own
  refine a.trans ⟨fun c => ⟨⟨c.rf.passQ, by simp [rfSoft, rfStart], c.rf.share⟩, start_values.2.1, c.badFrames⟩,
    fun ⟨l, r⟩ => ⟨⟨l.westPartner, l.eastPartner, l.westSilence, l.eastSilence, l.trial, fun x => by cases x⟩, ?_⟩, fun _ _ => ?_,
    fun c => ⟨c.guardDistance, c.standby, c.downshift, c.energyReset, c.beaconPeriod, c.absence, c.claimTimeout,
      c.noticeInterval, c.noticeTarget, c.authority⟩, fun m => ⟨m.cells, m.inside, m.lines⟩⟩
  · refine ⟨r.sending, by simp [rfSoft, rfStart], r.noEgress, fun x => ?_⟩
    rw [presenceStart_own rfl] at x; cases x
  · simp only [State.setRf]
    exact (derivedRing_congr rfl rfl ((presenceStart_own rfl).trans (presenceStart_own rfl).symm)).symm

theorem finish_sound {s t : State} (h : Sound s t) : Sound s (finish t) := by
  unfold finish
  split
  · exact softReset_sound h
  · exact h

theorem finish_settled (t : State) : (finish t).mu.resetDue = false := by
  unfold finish
  split
  · rfl
  · rename_i h; simpa using h

/-! ## Time -/

theorem agePresence_present (e : PresenceEntry) : (agePresence e).present = e.present := by unfold agePresence; rfl

/-- What 1 ms leaves alone (notes/assumptions/1.md). -/
theorem advance_parts (t : State) :
    (advance t).iu = t.iu ∧ (advance t).cl = t.cl ∧ (advance t).desk = t.desk ∧ (advance t).serial = t.serial ∧
      (advance t).sr.lines = t.sr.lines ∧ (advance t).wlp = { t.wlp with silence := t.wlp.silence.map (· + 1) } := by
  simp [advance]

theorem advance_sound {s t : State} (h : Sound s t) : Sound s (advance t) := by
  obtain ⟨pi, pc, pd, ps, pl, pw⟩ := advance_parts t
  have pe : (advance t).elp.state = t.elp.state ∧ (advance t).elp.partner = t.elp.partner := by simp [advance]
  have pes : (advance t).elp.silence.isSome = t.elp.silence.isSome := by simp [advance]
  have pet : (advance t).elp.trial.isSome = t.elp.trial.isSome := by simp [advance]
  have pr : (advance t).rf.passQ = t.rf.passQ ∧ (advance t).rf.insQ = t.rf.insQ ∧ (advance t).rf.share = t.rf.share ∧
      (advance t).rf.sending = t.rf.sending ∧ (advance t).rf.ring = t.rf.ring := by simp [advance]
  have pb : (advance t).rf.beaconTimer.isSome = t.rf.beaconTimer.isSome := by simp [advance]
  have pp : (advance t).rf.presence = mapTable agePresence t.rf.presence := by simp [advance]
  generalize advance t = u at *
  obtain ⟨rq, ri, rs, rn, rr⟩ := pr
  have o : ownPresent u = ownPresent t := ownPresent_map agePresence agePresence_present (by rw [pc]) pp
  have d : derivedRing u = derivedRing t := derivedRing_congr (by rw [pw]) pe.1 o
  have ht (b : Byte) : targetOk t b → targetOk u b := targetOk_congr (by rw [pc]) b
  refine h.trans ⟨fun c => ⟨⟨rq ▸ c.rf.passQ, ri ▸ c.rf.insQ, rs ▸ c.rf.share⟩, pi ▸ c.iu, by rw [pw]; exact c.badFrames⟩,
    fun ⟨l, r⟩ => ⟨⟨?_, ?_, ?_, ?_, ?_, ?_⟩, ⟨?_, ?_, ?_, ?_⟩⟩, fun _ x => ?_, fun c => ?_, fun m => ?_⟩
  · rw [pw]; exact l.westPartner
  · rw [pe.1, pe.2]; exact l.eastPartner
  · rw [pw]; simpa using l.westSilence
  · rw [pes, pe.1]; exact l.eastSilence
  · rw [pet, pe.1]; exact l.trial
  · rw [pc, pw, pe.1]; exact l.cold
  · rw [rn, pe.1]; exact r.sending
  · rw [pb, pe.1, pc]; exact r.beacons
  · rw [rq, rs, pe.1]; exact r.noEgress
  · rw [o, pw, pe.1]; exact r.closed
  · rw [d, rr]; exact x
  · constructor
    all_goals rw [pd]
    · exact c.guardDistance
    · exact c.standby
    · exact c.downshift
    · exact c.energyReset
    · exact c.beaconPeriod
    · exact c.absence
    · exact c.claimTimeout
    · exact c.noticeInterval
    · exact ht _ c.noticeTarget
    · exact ht _ c.authority
  · exact ⟨by rw [ps]; exact m.cells, by rw [ps]; exact m.inside, by rw [pl]; exact m.lines⟩

theorem idle_sound {s t : State} (h : Sound s t) : Sound s (idle t) := by
  unfold idle
  split
  · exact setPending_sound h _
  · exact setPending_sound (advance_sound h) _

end Sys2Proof.Machine
end

