-- ==== Sys2Proof/Laws/Serves.lean ====
section
/-! SUPPORT. What taking a frame and handling a management request keep of the ring's transmit side: at a busy line the queues only
grow at the insertion queue's tail, and a request that is no RESET brings no soft reset about. -/

namespace Sys2Proof.Machine

open Sys2Proof

/-! The theorems here wait for one another, and elaborated at once each takes a thread and its stack. -/
set_option Elab.async false

/-- The transmit side of the ring through a part of a step: a busy line stays busy, nothing of the pass-through path moves, and the
insertion queue only grows at its tail; and no RESET comes about. -/
structure Serves (s t : State) : Prop where
  busy : lineBusy s → lineBusy t ∧ t.rf.passQ = s.rf.passQ ∧ t.rf.sending = s.rf.sending ∧ t.rf.share = s.rf.share ∧
    s.rf.insQ <+: t.rf.insQ
  quiet : NoReset s → NoReset t

theorem Serves.refl (s : State) : Serves s s := ⟨fun h => ⟨h, rfl, rfl, rfl, List.prefix_refl _⟩, id⟩

theorem Serves.trans {s t u : State} (h : Serves s t) (k : Serves t u) : Serves s u := by
  refine ⟨fun b => ?_, k.quiet ∘ h.quiet⟩
  obtain ⟨b1, p1, s1, c1, i1⟩ := h.busy b
  obtain ⟨b2, p2, s2, c2, i2⟩ := k.busy b1
  exact ⟨b2, p2.trans p1, s2.trans s1, c2.trans c1, i1.trans i2⟩

theorem Keeps.serves {s t : State} (h : Keeps s t) : Serves s t := ⟨h.line.busy, h.quiet⟩

theorem Serves.keeps {s t u : State} (h : Serves s t) (k : Keeps t u) : Serves s u := h.trans k.serves

/-- A part that leaves the ring's queues and the ELP's state alone, and brings the management unit no RESET. -/
theorem Serves.same {s t u : State} (h : Serves s t) (he : u.elp.state = t.elp.state) (hp : u.rf.passQ = t.rf.passQ)
    (hi : u.rf.insQ = t.rf.insQ) (hs : u.rf.sending = t.rf.sending) (hc : u.rf.share = t.rf.share)
    (hm : MuQuiet t.mu → MuQuiet u.mu) : Serves s u :=
  h.trans ⟨fun b => ⟨by unfold lineBusy at *; rwa [he, hs], hp, hs, hc, by rw [hi]⟩,
    fun n => ⟨hm n.mu, by rw [hi]; exact n.insQ⟩⟩

/-- A part that leaves the ring forwarder, the ELP's state and the management unit alone. -/
theorem Serves.away {s t u : State} (h : Serves s t) (he : u.elp.state = t.elp.state) (hr : u.rf = t.rf) (hm : u.mu = t.mu) :
    Serves s u :=
  h.same he (by rw [hr]) (by rw [hr]) (by rw [hr]) (by rw [hr]) (by rw [hm]; exact id)

/-! ## Writes of table entries -/

/-- What a write of a table entry keeps: the transmit side as `Serves` says, every pending event, the loader, the serial memory, the
symbols sent, the free-value counter and the commands that wait. -/
structure Writes (s t : State) : Prop extends Serves s t where
  events : ∀ m : EventSet, s.mu.events &&& m ≠ 0 → t.mu.events &&& m ≠ 0
  outside : t.cl = s.cl ∧ t.serial = s.serial ∧ t.lineOut = s.lineOut ∧ t.free = s.free ∧ t.pending = s.pending

theorem Writes.refl (s : State) : Writes s s := ⟨.refl s, fun _ => id, rfl, rfl, rfl, rfl, rfl⟩

theorem Writes.trans {s t u : State} (h : Writes s t) (k : Writes t u) : Writes s u :=
  ⟨h.toServes.trans k.toServes, fun m x => k.events m (h.events m x), k.outside.1.trans h.outside.1,
    k.outside.2.1.trans h.outside.2.1, k.outside.2.2.1.trans h.outside.2.2.1, k.outside.2.2.2.1.trans h.outside.2.2.2.1,
    k.outside.2.2.2.2.trans h.outside.2.2.2.2⟩

theorem Writes.keeps {s t u : State} (h : Writes s t) (k : Keeps t u) : Writes s u :=
  h.trans ⟨k.serves, k.events, k.same.cl, k.same.serial, k.same.lineOut, k.same.free, k.same.pending⟩

/-- A part that leaves the ring's queues, the ELP's state and the pending events alone. -/
theorem Writes.same {s t u : State} (h : Writes s t) (he : u.elp.state = t.elp.state) (hp : u.rf.passQ = t.rf.passQ)
    (hi : u.rf.insQ = t.rf.insQ) (hs : u.rf.sending = t.rf.sending) (hc : u.rf.share = t.rf.share)
    (hm : MuQuiet t.mu → MuQuiet u.mu) (ev : u.mu.events = t.mu.events)
    (out : u.cl = t.cl ∧ u.serial = t.serial ∧ u.lineOut = t.lineOut ∧ u.free = t.free ∧ u.pending = t.pending := by
      exact ⟨rfl, rfl, rfl, rfl, rfl⟩) : Writes s u :=
  h.trans ⟨(Serves.refl t).same he hp hi hs hc hm, fun m x => by rw [ev]; exact x, out⟩

/-- A part that leaves the ring forwarder, the ELP's state and the management unit alone. -/
theorem Writes.away {s t u : State} (h : Writes s t) (he : u.elp.state = t.elp.state) (hr : u.rf = t.rf) (hm : u.mu = t.mu)
    (out : u.cl = t.cl ∧ u.serial = t.serial ∧ u.lineOut = t.lineOut ∧ u.free = t.free ∧ u.pending = t.pending := by
      exact ⟨rfl, rfl, rfl, rfl, rfl⟩) : Writes s u :=
  h.same he (by rw [hr]) (by rw [hr]) (by rw [hr]) (by rw [hr]) (by rw [hm]; exact id) (by rw [hm]) out

theorem raise_writes (k : EventKind) {s t : State} (h : Writes s t) : Writes s (raise k t) := h.keeps (raise_keeps (.refl t) k)

/-! ## The stream receiver -/

theorem setEntry_writes (i : Fin 32) (e : Option StreamEntry) {s t : State} (h : Writes s t) : Writes s (setEntry i e t) :=
  h.away rfl rfl rfl

theorem allocate_writes (n : Nat) {s t : State} (h : Writes s t) : Writes s (allocate n t) := by
  induction n generalizing t with
  | zero => exact h
  | succ n ih =>
    unfold allocate
    split
    · split
      · exact ih (h.away rfl rfl rfl)
      · exact h
    · exact h

theorem loadStream_writes (i : Fin 32) (c : StreamContent) {s t : State} (h : Writes s t) : Writes s (loadStream i c t) := by
  have k := allocate_writes allocBound (setEntry_writes i (some (freshEntry c)) h)
  unfold loadStream
  dsimp only
  split
  · exact raise_writes _ k
  · exact k

theorem removeStream_writes (i : Fin 32) (e : StreamEntry) {s t : State} (h : Writes s t) : Writes s (removeStream i e t) := by
  unfold removeStream
  dsimp only
  have k : Writes s ((setEntry i none t).setSr { (setEntry i none t).sr with
      free := freeBuffers e.buffers (setEntry i none t).sr.free }) := h.away rfl rfl rfl
  split
  · exact allocate_writes _ (k.keeps (removalReport_keeps _ (.refl _)))
  · exact k.keeps (removalReport_keeps _ (.refl _))

theorem staleExpired_writes (i : Fin 32) {s t : State} (h : Writes s t) : Writes s (staleExpired i t) := by
  unfold staleExpired
  split
  · split
    · exact raise_writes _ (setEntry_writes _ _ h)
    · exact h
  · exact h

theorem writeStream_writes (i : Fin 32) (bs : List Byte) {s t : State} (h : Writes s t) : Writes s (writeStream i bs t).2 := by
  unfold writeStream
  split
  · split
    · exact removeStream_writes _ _ h
    · exact h
  · split
    · split
      · exact h
      · split
        · unfold rewriteStream
          dsimp only
          split
          · exact h
          · split
            · exact staleExpired_writes _ (setEntry_writes _ _ h)
            · exact loadStream_writes _ _ (removeStream_writes _ _ h)
        · exact loadStream_writes _ _ h
    · exact h

/-! ## Settings -/

theorem silenceExpired_writes (p : Port) {s t : State} (h : Writes s t) : Writes s (silenceExpired p t) := by
  unfold silenceExpired
  split <;> split
  · exact h.away rfl rfl rfl
  · exact h
  · exact h.away rfl rfl rfl
  · exact h

theorem noticeExpired_writes {s t : State} (h : Writes s t) : Writes s (noticeExpired t) :=
  (h.same (u := t.setMu { t.mu with interval := none }) rfl rfl rfl rfl rfl (fun q => ⟨q.due, q.work, q.offer, q.waiting⟩) rfl).keeps
    (tryNotice_keeps (.refl _))

theorem absenceExpired_writes (n : Fin 62) {s t : State} (h : Writes s t) : Writes s (absenceExpired n t) :=
  (h.same (u := t.setRf { t.rf with presence := t.rf.presence.set n { t.rf.presence[n] with present := false } })
    rfl rfl rfl rfl rfl id rfl).keeps (nodeIsAbsent_keeps _ (.refl _))

theorem foldl_writes {α : Type} (f : State → α → State) (hf : ∀ a {s t : State}, Writes s t → Writes s (f t a)) (l : List α)
    {s t : State} (h : Writes s t) : Writes s (l.foldl f t) := by
  induction l generalizing t with
  | nil => exact h
  | cons a l ih => exact ih (hf a h)

theorem applyAbsence_writes {s t : State} (h : Writes s t) : Writes s (applyAbsence t) := by
  refine foldl_writes _ (fun n s t h => ?_) _ h
  split
  · exact absenceExpired_writes n h
  · exact h

theorem applyEnergyReset_writes {s t : State} (h : Writes s t) : Writes s (applyEnergyReset t) := by
  have a (p : Port) (b : State → Prop) [∀ u, Decidable (b u)] {u : State} (hu : Writes s u) :
      Writes s (if b u then silenceExpired p u else u) := by
    split
    · exact silenceExpired_writes _ hu
    · exact hu
  exact a .east (fun u => u.desk.energyReset * 1000 ≤ u.elp.silence.getD 0)
    (a .west (fun u => u.desk.energyReset * 1000 ≤ u.wlp.silence.getD 0) h)

theorem applyNoticeInterval_writes {s t : State} (h : Writes s t) : Writes s (applyNoticeInterval t) := by
  unfold applyNoticeInterval
  split
  · split
    · exact noticeExpired_writes h
    · exact h
  · exact h

theorem settle_writes (ok : Bool) (f : State → State) {s t : State} (h : Writes s t) (hf : Writes s (f t)) :
    Writes s (settle ok f t).2 := by
  unfold settle
  split
  · exact hf
  · exact h

theorem numberSetting_writes (w lo hi : Nat) (bs : List Byte) (f : Nat → State → State) {s t : State} (h : Writes s t)
    (hf : ∀ n, Writes s (f n t)) : Writes s (numberSetting w lo hi bs f t).2 := by
  unfold numberSetting
  split
  · exact settle_writes _ _ h (hf _)
  · exact h

theorem writeStandby_writes (n : Nat) {s t : State} (h : Writes s t) : Writes s (writeStandby n t) := by
  have k : Writes s (t.setDesk { t.desk with standby := n }) := h.away rfl rfl rfl
  unfold writeStandby
  dsimp only
  split
  · exact h
  · split
    · exact k.away rfl rfl rfl
    · split
      · exact k
      · split
        · exact k.away rfl rfl rfl
        · split
          · exact k.keeps (enterStandby_keeps (.refl _))
          · exact k

theorem writeHead_writes (l : Bool) (i : Fin 4) (r : HeadRecord) {s t : State} (h : Writes s t) :
    Writes s (writeHead l i r t).2 := by
  have k : Writes s (t.setCp { t.cp with heads := t.cp.heads.set i r }) := h.away rfl rfl rfl
  unfold writeHead
  split
  · exact h
  · split
    · exact h
    · unfold storeHead
      dsimp only
      split
      · exact k.keeps (headReport_keeps (.refl _))
      · exact k

theorem writeDesk_writes (l : Bool) (o : Byte) (i : Nat) (bs : List Byte) {s t : State} (h : Writes s t) :
    Writes s (writeDesk l o i bs t).2 := by
  have head (k : Fin 4) : Writes s (writeHeadEntry l k bs t).2 := by
    unfold writeHeadEntry
    split
    · exact writeHead_writes _ _ _ h
    · exact h
  have pal (k : Fin 6) : Writes s (writePalette k bs t).2 := by
    unfold writePalette
    split
    · exact h.away rfl rfl rfl
    · exact settle_writes _ _ h (h.away rfl rfl rfl)
  have desk (d : Desk) : Writes s (t.setDesk d) := h.away rfl rfl rfl
  unfold writeDesk
  split
  · unfold writeRate
    split
    · exact desk _
    · split
      · exact desk _
      · exact h
  · exact head 0
  · exact head 1
  · exact head 2
  · exact head 3
  · exact pal 0
  · exact pal 1
  · exact pal 2
  · exact pal 3
  · exact pal 4
  · exact pal 5
  · exact numberSetting_writes _ _ _ _ _ h fun n => (desk { t.desk with guard := n }).away rfl rfl rfl
  · exact numberSetting_writes _ _ _ _ _ h fun n => writeStandby_writes n h
  · exact numberSetting_writes _ _ _ _ _ h fun n => desk _
  · refine numberSetting_writes _ _ _ _ _ h fun n => ?_
    unfold writeEnergyReset
    split
    · exact h
    · exact applyEnergyReset_writes (desk _)
  · exact numberSetting_writes _ _ _ _ _ h fun n => desk _
  · refine numberSetting_writes _ _ _ _ _ h fun n => ?_
    unfold writeAbsence
    split
    · exact h
    · exact applyAbsence_writes (desk _)
  · exact numberSetting_writes _ _ _ _ _ h fun n => desk _
  · exact numberSetting_writes _ _ _ _ _ h fun n => desk _
  · refine numberSetting_writes _ _ _ _ _ h fun n => ?_
    unfold writeNoticeInterval
    split
    · exact h
    · exact applyNoticeInterval_writes (desk _)
  · split
    · rename_i b
      refine settle_writes _ _ h ?_
      unfold writeNoticeTarget
      dsimp only
      split
      · exact (desk { t.desk with noticeTarget := b }).same rfl rfl rfl rfl rfl
          (fun q => ⟨q.due, q.work, q.offer, q.waiting⟩) rfl
      · exact desk _
    · exact h
  · unfold writeAuthority
    split
    · exact h
    · split
      · exact settle_writes _ _ h (desk _)
      · exact h
  · exact settle_writes _ _ h (desk _)
  · exact h

theorem writeEntry_writes (l : Bool) (o : Byte) (sp : Space) (i : Nat) (bs : List Byte) {s t : State} (h : Writes s t) :
    Writes s (writeEntry l o sp i bs t).2 := by
  have list (v : Cp) : Writes s (t.setCp v) := h.away rfl rfl rfl
  unfold writeEntry
  split
  · exact writeDesk_writes _ _ _ _ h
  · split
    · unfold writeSlotEntry
      split
      · exact h.keeps (writeSlot_keeps _ _ (.refl _))
      · split
        · exact h.keeps (writeSlot_keeps _ _ (.refl _))
        · exact h
    · exact h
  · split
    · exact writeStream_writes _ _ h
    · exact h
  · split
    · unfold writePreset
      split
      · split
        · exact list _
        · exact h
      · exact h
    · exact h
  · split
    · unfold writeStaged
      split
      · exact h
      · split
        · split
          · exact list _
          · exact h
        · exact h
    · exact h
  · split
    · exact h.keeps (writeHotKey_keeps _ _ (.refl _))
    · exact h
  · split
    · exact h.keeps (writeLamp_keeps _ _ (.refl _))
    · exact h
  · unfold writeEvents
    split
    · refine settle_writes _ _ h ?_
      have k (m : EventSet) : Writes s (t.setMu { t.mu with mask := m }) :=
        h.same rfl rfl rfl rfl rfl (fun q => ⟨q.due, q.work, q.offer, q.waiting⟩) rfl
      unfold writeMask
      dsimp only
      split
      · exact (k _).keeps (makeDue_keeps (.refl _))
      · exact k _
    · exact h
  all_goals exact h

theorem writeEntries_writes (o : Byte) (sp : Space) (i : Nat) (bs : List (List Byte)) {s t : State} (h : Writes s t) :
    Writes s (writeEntries o sp i bs t).2.2 := by
  induction bs generalizing i t with
  | nil => exact h
  | cons b bs ih =>
    have k := writeEntry_writes false o sp i b h
    unfold writeEntries
    split <;> rename_i u hu <;> rw [hu] at k
    · exact k
    · exact ih _ k

/-! ## Requests -/

theorem countMu_serves (f : MuCounters → MuCounters) {s t : State} (h : Serves s t) : Serves s (countMu f t) :=
  h.same rfl rfl rfl rfl rfl fun q => ⟨q.due, q.work, q.offer, q.waiting⟩

theorem commitLayout_serves (b : Byte) {s t : State} (h : Serves s t) : Serves s (commitLayout b t).2 := by
  unfold commitLayout
  split
  · exact h
  · exact h.away rfl rfl rfl

theorem clearCounters_serves {s t : State} (h : Serves s t) : Serves s (clearCounters t) :=
  have ⟨_, pe, pr, _⟩ := clearCounters_parts t
  have pm : (clearCounters t).mu = { t.mu with c := muCountersZero } := by simp [clearCounters]
  h.same (by rw [pe]) (by rw [pr]) (by rw [pr]) (by rw [pr]) (by rw [pr])
    fun q => by rw [pm]; exact ⟨q.due, q.work, q.offer, q.waiting⟩

theorem setProtection_serves (o a l : Byte) {s t : State} (h : Serves s t) : Serves s (setProtection o a l t).2 := by
  unfold setProtection
  split
  · exact h
  · split
    · split
      · exact h
      · dsimp only
        split <;> exact h.same rfl rfl rfl rfl rfl fun q => ⟨q.due, q.work, q.offer, q.waiting⟩
    · exact h

theorem beginSave_serves {s t : State} (h : Serves s t) : Serves s (beginSave t).2 := by
  unfold beginSave
  split
  · exact h.away rfl rfl rfl
  · exact h

/-- Handling a request, before its response is offered. -/
theorem handle_serves (o : Byte) (p : List Byte) {s t : State} (h : Serves s t) : Serves s (handle o p t).2 := by
  have hprot : Serves s (protect t).2 := h.same rfl rfl rfl rfl rfl fun q => ⟨q.due, q.work, q.offer, q.waiting⟩
  unfold handle
  split
  · unfold doRead
    split
    · exact h
    · split
      · exact h
      · split
        · exact hprot
        · exact h
  · unfold doWrite
    split
    · exact h
    · split
      · exact h
      · split
        · exact h
        · split
          · exact hprot
          · split
            · exact h
            · exact h.trans (writeEntries_writes _ _ _ _ (.refl _)).toServes
  · exact commitLayout_serves _ h
  · exact h.keeps (selectPreset_keeps _ (.refl _))
  · exact h.keeps (localRequest_keeps _ _ (.refl _))
  · exact h.keeps (localRelease_keeps _ _ (.refl _))
  · exact h.keeps (setPower_keeps _ (.refl _))
  · exact h.same rfl rfl rfl rfl rfl fun q => ⟨q.due, q.work, q.offer, q.waiting⟩
  · exact clearCounters_serves h
  · exact setProtection_serves _ _ _ h
  · exact beginSave_serves h
  · unfold doReset
    split <;> exact h

/-- Only a RESET is answered by a RESET's response (R179). -/
theorem handle_reset (o : Byte) (p : List Byte) (t : State) (h : (handle o p t).1.reset = true) : isAuthority o t = true ∧
    (byteAt p 2).toNat ∉ [1, 2, 3, 4, 5, 6, 7, 8, 9, 10, 11] := by
  unfold handle at h
  split at h
  · unfold doRead at h
    split at h
    · cases h
    · split at h
      · cases h
      · split at h <;> cases h
  · unfold doWrite at h
    split at h
    · cases h
    · split at h
      · cases h
      · split at h
        · cases h
        · split at h
          · cases h
          · split at h <;> cases h
  iterate 9 cases h
  rename_i h1 h2 h3 h4 h5 h6 h7 h8 h9 h10 h11
  unfold doReset at h
  split at h
  · rename_i ha
    exact ⟨ha, by simp_all⟩
  · cases h

/-- A response offered at a busy line: nothing of the pass-through path moves. -/
theorem offerResponse_busy (e : InsEntry) {t : State} (b : lineBusy t) :
    (offerResponse e t).rf.passQ = t.rf.passQ ∧ (offerResponse e t).rf.sending = t.rf.sending ∧
      (offerResponse e t).rf.share = t.rf.share ∧ t.rf.insQ <+: (offerResponse e t).rf.insQ := by
  unfold offerResponse
  split
  · exact ⟨rfl, rfl, rfl, List.prefix_refl _⟩
  · have k : (offerInsertion e t).2.rf.passQ = t.rf.passQ ∧ (offerInsertion e t).2.rf.sending = t.rf.sending ∧
        (offerInsertion e t).2.rf.share = t.rf.share ∧ t.rf.insQ <+: (offerInsertion e t).2.rf.insQ ∧
        lineBusy (offerInsertion e t).2 := by
      unfold offerInsertion
      split
      · unfold arbitrate
        rw [if_neg (by rintro ⟨u, n⟩; rcases b with b | b; exact b u; simp [State.setRf] at n; simp [n] at b)]
        exact ⟨rfl, rfl, rfl, List.prefix_append _ _, b⟩
      · exact ⟨rfl, rfl, rfl, List.prefix_refl _, b⟩
    split <;> rename_i u hu <;> rw [hu] at k
    · have r : (responseAppended e u).rf = u.rf := by unfold responseAppended; dsimp only; split <;> rfl
      have rb : lineBusy (responseAppended e u) := by
        have : (responseAppended e u).elp = u.elp := by unfold responseAppended; dsimp only; split <;> rfl
        unfold lineBusy; rw [this, r]; exact k.2.2.2.2
      obtain ⟨_, p, q, c, i⟩ := (tryNotice_keeps (.refl (responseAppended e u))).serves.busy rb
      rw [p, q, c]; rw [r] at i ⊢
      exact ⟨k.1, k.2.1, k.2.2.1, k.2.2.2.1.trans i⟩
    · exact ⟨k.1, k.2.1, k.2.2.1, k.2.2.2.1⟩

theorem offerResponse_quiet (e : InsEntry) (he : e.resetResponse = false) {t : State} (n : NoReset t) : NoReset (offerResponse e t) := by
  unfold offerResponse
  split
  · exact ⟨⟨n.mu.due, n.mu.work, n.mu.offer, fun x hx => by simp [State.setMu] at hx; rw [← hx]; exact he⟩, n.insQ⟩
  · have k := offerInsertion_quiet e he n
    split <;> rename_i u hu <;> rw [hu] at k
    · refine (tryNotice_keeps (.refl _)).quiet ?_
      unfold responseAppended
      rw [if_neg (by simp [he])]
      exact ⟨⟨k.mu.due, nofun, k.mu.offer, k.mu.waiting⟩, k.insQ⟩
    · exact ⟨⟨k.mu.due, k.mu.work, fun o ho => by simp [State.setMu] at ho; rw [← ho]; exact he, k.mu.waiting⟩, k.insQ⟩

/-! ## Taken frames -/

theorem tagOf_serves (p : List Byte) (s : State) : Serves s (tagOf p s).2 := by
  unfold tagOf
  split <;> exact (Serves.refl s).away rfl rfl rfl

/-- The state in which a request that is taken is handled (R169). -/
def inWork (f : Frame) (s : State) : State :=
  countMu (fun c => { c with taken := bump c.taken })
    ((tagOf f.payload s).2.setMu { (tagOf f.payload s).2.mu with work := some ⟨f.origin, (tagOf f.payload s).1, false⟩ })

theorem inWork_serves (f : Frame) (s : State) : Serves s (inWork f s) := by
  have k := (tagOf_serves f.payload s).same
    (u := (tagOf f.payload s).2.setMu { (tagOf f.payload s).2.mu with work := some ⟨f.origin, (tagOf f.payload s).1, false⟩ })
    rfl rfl rfl rfl rfl fun q => ⟨q.due, fun w hw => by cases hw; rfl, q.offer, q.waiting⟩
  exact countMu_serves _ k

/-- A request served at a busy line moves nothing of the pass-through path. -/
theorem serveRequest_busy (f : Frame) {s : State} (b : lineBusy s) :
    (serveRequest f s).rf.passQ = s.rf.passQ ∧ (serveRequest f s).rf.sending = s.rf.sending ∧
      (serveRequest f s).rf.share = s.rf.share ∧ s.rf.insQ <+: (serveRequest f s).rf.insQ := by
  have k : Serves s (if formValid f.payload then handle f.origin f.payload (inWork f s) else refuseForm (inWork f s)).2 := by
    split
    · exact handle_serves _ _ (inWork_serves f s)
    · exact (inWork_serves f s).same rfl rfl rfl rfl rfl fun q => ⟨q.due, q.work, q.offer, q.waiting⟩
  obtain ⟨b', p, q, c, i⟩ := k.busy b
  obtain ⟨p', q', c', i'⟩ := offerResponse_busy (responseEntry f.origin (tagOf f.payload s).1
    (if formValid f.payload then handle f.origin f.payload (inWork f s) else refuseForm (inWork f s)).1
    (if formValid f.payload then handle f.origin f.payload (inWork f s) else refuseForm (inWork f s)).2) b'
  exact ⟨p'.trans p, q'.trans q, c'.trans c, i.trans i'⟩

/-- A frame taken at a busy line moves nothing of the pass-through path. -/
theorem takeFrame_busy (f : Frame) {s : State} (b : lineBusy s) :
    (takeFrame f s).rf.passQ = s.rf.passQ ∧ (takeFrame f s).rf.sending = s.rf.sending ∧
      (takeFrame f s).rf.share = s.rf.share ∧ s.rf.insQ <+: (takeFrame f s).rf.insQ := by
  unfold takeFrame
  split
  · exact ⟨rfl, rfl, rfl, List.prefix_refl _⟩
  · split
    · exact ((claimTaken_keeps f (.refl s)).serves.busy b).2
    · split
      · unfold requestTaken
        split
        · exact ⟨rfl, rfl, rfl, List.prefix_refl _⟩
        · split
          · exact ⟨rfl, rfl, rfl, List.prefix_refl _⟩
          · exact serveRequest_busy f b
      · split
        · unfold beaconTaken
          split
          · rename_i n bc hn hb
            unfold updatePresence
            dsimp only
            have k : Serves s (s.setRf { s.rf with presence := s.rf.presence.set n (recordBeacon bc
                (s.rf.presence[n].present && !bc.restart && notFollowing s.rf.presence[n].sol bc.sol) s.rf.presence[n]) }) :=
              (Serves.refl s).same rfl rfl rfl rfl rfl id
            split
            · exact ((k.keeps (nodeIsPresent_keeps _ (.refl _))).busy b).2
            · split
              · exact ((k.keeps (nodeIsPresent_keeps _ (nodeIsAbsent_keeps _ (.refl _)))).busy b).2
              · exact (k.busy b).2
          · exact ⟨rfl, rfl, rfl, List.prefix_refl _⟩
        · exact ⟨rfl, rfl, rfl, List.prefix_refl _⟩

/-- The end of a step keeps the pass-through path (R42). -/
theorem finish_passes (t : State) :
    (finish t).rf.passQ = t.rf.passQ ∧ (finish t).rf.sending = t.rf.sending ∧ (finish t).rf.share = t.rf.share := by
  unfold finish
  split
  · have k : (abandonSave t).rf = t.rf := by
      unfold abandonSave
      split
      · rfl
      · dsimp only; split <;> rfl
      · rfl
    unfold softReset
    dsimp only [State.setRf, rfSoft]
    rw [k]
    exact ⟨rfl, rfl, rfl⟩
  · exact ⟨rfl, rfl, rfl⟩

end Sys2Proof.Machine
end

