-- ==== Sys2Proof/Laws/SettingWrites.lean ====
section
/-! SUPPORT. Writes of settings, hot keys, lamps and the event mask, case by case (R19, R38, R65, R83, R99, R114, R160, R163, R173,
R176, R183, R185). -/

namespace Sys2Proof.Machine

open Sys2Proof

/-! ## Number settings -/

theorem at8_lt (bs : List Byte) (i : Nat) : at8 bs i < 256 := (byteAt bs i).isLt

theorem numberSetting_short {w lo hi : Nat} {bs : List Byte} {f : Nat → State → State} {s : State} (h : bs.length ≠ w) :
    numberSetting w lo hi bs f s = (some .invalid, s) := by
  unfold numberSetting number; rw [if_neg h]

theorem numberSetting_out {w lo hi n : Nat} {bs : List Byte} {f : Nat → State → State} {s : State} (h : bs.length = w)
    (hn : n = if w = 1 then at8 bs 0 else at16 bs 0) (ho : n < lo ∨ hi < n) : numberSetting w lo hi bs f s = (some .invalid, s) := by
  unfold numberSetting number; rw [if_pos h, ← hn]
  show settle _ _ _ = _
  unfold settle; rw [if_neg (by simp; omega)]

theorem numberSetting_in {w lo hi n : Nat} {bs : List Byte} {f : Nat → State → State} {s : State} (h : bs.length = w)
    (hn : n = if w = 1 then at8 bs 0 else at16 bs 0) (h1 : lo ≤ n) (h2 : n ≤ hi) : numberSetting w lo hi bs f s = (none, f n s) := by
  unfold numberSetting number; rw [if_pos h, ← hn]
  show settle _ _ _ = _
  unfold settle; rw [if_pos (by simp; omega)]

theorem numberSetting_one (lo hi : Nat) (b : Byte) (f : Nat → State → State) (s : State) : numberSetting 1 lo hi [b] f s =
    if lo ≤ b.toNat ∧ b.toNat ≤ hi then (none, f b.toNat s) else (some .invalid, s) := by
  by_cases h : lo ≤ b.toNat ∧ b.toNat ≤ hi
  · rw [if_pos h]; exact numberSetting_in rfl rfl h.1 h.2
  · rw [if_neg h]; exact numberSetting_out rfl rfl (show b.toNat < lo ∨ hi < b.toNat by omega)

theorem numberSetting_two (lo hi : Nat) (a b : Byte) (f : Nat → State → State) (s : State) : numberSetting 2 lo hi [a, b] f s =
    if lo ≤ at16 [a, b] 0 ∧ at16 [a, b] 0 ≤ hi then (none, f (at16 [a, b] 0) s) else (some .invalid, s) := by
  by_cases h : lo ≤ at16 [a, b] 0 ∧ at16 [a, b] 0 ≤ hi
  · rw [if_pos h]; exact numberSetting_in rfl rfl h.1 h.2
  · rw [if_neg h]; exact numberSetting_out rfl rfl (show at16 [a, b] 0 < lo ∨ hi < at16 [a, b] 0 by omega)

theorem writeStandby_desk (n : Nat) (s : State) : (writeStandby n s).desk = { s.desk with standby := n } := by
  unfold writeStandby
  split
  · rename_i h; rw [h]
  · dsimp only
    split
    · rfl
    · split
      · rfl
      · split
        · rfl
        · split
          · exact (enterStandby_keeps (.refl _)).same.desk
          · rfl

theorem silenceExpired_desk (p : Port) (s : State) : (silenceExpired p s).desk = s.desk := by
  cases p <;> unfold silenceExpired <;> dsimp only <;> split <;> rfl

theorem writeEnergyReset_desk (n : Nat) (s : State) : (writeEnergyReset n s).desk = { s.desk with energyReset := n } := by
  unfold writeEnergyReset
  split
  · rename_i h; rw [h]
  · unfold applyEnergyReset
    dsimp only
    split <;> split <;> simp [silenceExpired_desk]

theorem reached_iff (o : Option Nat) {l : Nat} (h : 1 ≤ l) : l * 1000 ≤ o.getD 0 ↔ reached o (l * 1000) = true := by
  cases o with
  | none => simp [reached]; omega
  | some n => simp [reached]

theorem silent_iff {o : Option Nat} {l : Nat} {st : PortState} (h : reached o l = true) :
    st = .silent ∧ o.isSome = true ↔ st = .silent ∧ reached o l = true := by
  cases o with
  | none => cases h
  | some n => simp [h]

/-- What a new energy reset time does to timers already beyond it (R19). -/
theorem applyEnergyReset_ports (s : State) (h : 1 ≤ s.desk.energyReset) :
    (applyEnergyReset s).wlp = (if s.wlp.state = .silent ∧ reached s.wlp.silence (s.desk.energyReset * 1000) = true
      then { s.wlp with silence := none, agreed := none } else s.wlp) ∧
    (applyEnergyReset s).elp = (if s.elp.state = .silent ∧ reached s.elp.silence (s.desk.energyReset * 1000) = true
      then { s.elp with silence := none, agreed := none, ceiling := .full, attempts := 0 } else s.elp) := by
  have west : ∀ u : State, (silenceExpired .west u).elp = u.elp ∧ (silenceExpired .west u).desk = u.desk ∧
      ((silenceExpired .west u).wlp = if u.wlp.state = .silent ∧ u.wlp.silence.isSome
        then { u.wlp with silence := none, agreed := none } else u.wlp) := by
    intro u; unfold silenceExpired; dsimp only; split <;> exact ⟨rfl, rfl, rfl⟩
  have east : ∀ u : State, (silenceExpired .east u).wlp = u.wlp ∧
      ((silenceExpired .east u).elp = if u.elp.state = .silent ∧ u.elp.silence.isSome
        then { u.elp with silence := none, agreed := none, ceiling := .full, attempts := 0 } else u.elp) := by
    intro u; unfold silenceExpired; dsimp only; split <;> exact ⟨rfl, rfl⟩
  have first : ∀ u, u = (if s.desk.energyReset * 1000 ≤ s.wlp.silence.getD 0 then silenceExpired .west s else s) →
      u.elp = s.elp ∧ u.desk = s.desk ∧
      u.wlp = (if s.wlp.state = .silent ∧ reached s.wlp.silence (s.desk.energyReset * 1000) = true
        then { s.wlp with silence := none, agreed := none } else s.wlp) := by
    rintro u rfl
    by_cases hr : reached s.wlp.silence (s.desk.energyReset * 1000) = true
    · rw [if_pos ((reached_iff _ h).2 hr)]
      obtain ⟨a, b, c⟩ := west s
      refine ⟨a, b, c.trans ?_⟩
      by_cases hs : s.wlp.state = .silent ∧ s.wlp.silence.isSome = true
      · rw [if_pos hs, if_pos ((silent_iff hr).1 hs)]
      · rw [if_neg hs, if_neg (fun x => hs ((silent_iff hr).2 x))]
    · rw [if_neg (fun x => hr ((reached_iff _ h).1 x)), if_neg (fun x => hr x.2)]
      exact ⟨rfl, rfl, rfl⟩
  obtain ⟨u, hu⟩ : ∃ u, u = (if s.desk.energyReset * 1000 ≤ s.wlp.silence.getD 0 then silenceExpired .west s else s) := ⟨_, rfl⟩
  have e : applyEnergyReset s = if u.desk.energyReset * 1000 ≤ u.elp.silence.getD 0 then silenceExpired .east u else u := by
    rw [hu]; rfl
  obtain ⟨a, b, c⟩ := first u hu
  rw [e, ← c, a, b]
  by_cases hr : reached s.elp.silence (s.desk.energyReset * 1000) = true
  · rw [if_pos ((reached_iff _ h).2 hr)]
    refine ⟨(east u).1, (east u).2.trans ?_⟩
    rw [a]
    by_cases hs : s.elp.state = .silent ∧ s.elp.silence.isSome = true
    · rw [if_pos hs, if_pos ((silent_iff hr).1 hs)]
    · rw [if_neg hs, if_neg (fun x => hs ((silent_iff hr).2 x))]
  · rw [if_neg (fun x => hr ((reached_iff _ h).1 x)), if_neg (fun x => hr x.2)]
    exact ⟨rfl, a⟩

theorem absenceExpired_desk (n : Fin 62) (s : State) : (absenceExpired n s).desk = s.desk ∧ (absenceExpired n s).cl = s.cl ∧
    (absenceExpired n s).rf.presence = s.rf.presence.set n { s.rf.presence[n] with present := false } := by
  have k := (nodeIsAbsent_keeps (entryAddress n) (.refl (s.setRf { s.rf with
    presence := s.rf.presence.set n { s.rf.presence[n] with present := false } }))).same
  exact ⟨k.desk, k.cl, k.presence⟩

/-- What the absence timeout's fold over a list of entries does to the table. -/
theorem applyAbsence_fold (l : List (Fin 62)) (hl : l.Nodup) (s : State) :
    let t := l.foldl (fun s n => if absenceReached s.desk.absence n s then absenceExpired n s else s) s
    t.desk = s.desk ∧ t.cl = s.cl ∧ ∀ n : Fin 62, t.rf.presence[n] =
      if n ∈ l ∧ absenceReached s.desk.absence n s = true then { s.rf.presence[n] with present := false } else s.rf.presence[n] := by
  induction l generalizing s with
  | nil => exact ⟨rfl, rfl, fun n => by simp⟩
  | cons a l ih =>
    obtain ⟨ha, hl⟩ := List.nodup_cons.1 hl
    rw [List.foldl_cons]
    by_cases hr : absenceReached s.desk.absence a s = true
    · rw [if_pos hr]
      obtain ⟨d, c, p⟩ := absenceExpired_desk a s
      obtain ⟨i1, i2, i3⟩ := ih hl (absenceExpired a s)
      refine ⟨i1.trans d, i2.trans c, fun n => ?_⟩
      rw [i3 n, d]
      have hp : ∀ m : Fin 62, m ≠ a → (absenceExpired a s).rf.presence[m] = s.rf.presence[m] := by
        intro m hm
        have ne : (a : Nat) ≠ m := fun h => hm (Fin.ext h.symm)
        simp [p, Vector.getElem_set_ne, ne]
      by_cases hn : n = a
      · subst hn
        rw [if_neg (fun x => ha x.1), if_pos ⟨by simp, hr⟩, p]; simp
      · rw [hp n hn]
        have : absenceReached s.desk.absence n (absenceExpired a s) = absenceReached s.desk.absence n s := by
          unfold absenceReached own; rw [hp n hn, c]
        rw [this]; simp [hn]
    · rw [if_neg hr]
      obtain ⟨i1, i2, i3⟩ := ih hl s
      refine ⟨i1, i2, fun n => ?_⟩
      rw [i3 n]
      by_cases hn : n = a
      · subst hn; rw [if_neg (fun x => ha x.1), if_neg (fun x => hr x.2)]
      · simp [hn]

theorem entryAddress_own (s : State) (n : Fin 62) : entryAddress n ≠ own s ↔ nodeIndex (own s) ≠ some n := by
  unfold nodeIndex entryAddress
  have hn := n.isLt
  constructor
  · intro h e
    split at e
    · rename_i hr
      have e := congrArg Fin.val (Option.some.inj e)
      apply h
      apply BitVec.eq_of_toNat_eq
      simp only [byte, BitVec.toNat_ofNat]
      simp only at e
      omega
    · cases e
  · intro h e
    apply h
    have : (own s).toNat = n.val + 1 := by rw [← e]; simp [byte]; omega
    rw [dif_pos (by omega)]
    congr 1
    apply Fin.ext
    simp [this]

theorem writeAbsence_presence (n : Nat) (s : State) (h : n ≠ s.desk.absence) :
    (writeAbsence n s).desk = { s.desk with absence := n } ∧ ∀ m : Fin 62, (writeAbsence n s).rf.presence[m] =
      if s.rf.presence[m].present = true ∧ nodeIndex (own s) ≠ some m ∧ n ≤ s.rf.presence[m].time.getD 0
      then { s.rf.presence[m] with present := false } else s.rf.presence[m] := by
  unfold writeAbsence applyAbsence
  rw [if_neg h]
  obtain ⟨a, b, c⟩ := applyAbsence_fold (List.finRange 62) (List.nodup_finRange 62) (s.setDesk { s.desk with absence := n })
  refine ⟨a, fun m => ?_⟩
  rw [c m]
  have e : (m ∈ List.finRange 62 ∧ absenceReached (s.setDesk { s.desk with absence := n }).desk.absence m
      (s.setDesk { s.desk with absence := n }) = true) ↔
      (s.rf.presence[m].present = true ∧ nodeIndex (own s) ≠ some m ∧ n ≤ s.rf.presence[m].time.getD 0) := by
    unfold absenceReached
    simp only [List.mem_finRange, true_and, Bool.and_eq_true, decide_eq_true_eq]
    rw [show (entryAddress m ≠ own (s.setDesk { s.desk with absence := n })) = (entryAddress m ≠ own s) from rfl, entryAddress_own]
    exact and_assoc
  by_cases hc : s.rf.presence[m].present = true ∧ nodeIndex (own s) ≠ some m ∧ n ≤ s.rf.presence[m].time.getD 0
  · rw [if_pos hc, if_pos (e.2 hc)]; rfl
  · rw [if_neg hc, if_neg (fun x => hc (e.1 x))]; rfl

theorem writeAbsence_desk (n : Nat) (s : State) : (writeAbsence n s).desk = { s.desk with absence := n } := by
  by_cases h : n = s.desk.absence
  · unfold writeAbsence; rw [if_pos h, h]
  · exact (writeAbsence_presence n s h).1

theorem writeNoticeInterval_desk (n : Nat) (s : State) : (writeNoticeInterval n s).desk = { s.desk with noticeInterval := n } := by
  unfold writeNoticeInterval
  split
  · rename_i h; rw [h]
  · unfold applyNoticeInterval
    split
    · split
      · unfold noticeExpired; exact (tryNotice_posts _).desk
      · rfl
    · rfl

theorem numberWritesAct : NumberWritesAct := by
  intro o bs s
  refine ⟨?_, fun b => ?_, fun b t ht => ?_, fun b t ht => ?_, fun a b t ht => ?_, fun a b t ht => ?_⟩
  · intro e he w hw
    have all : ∀ (k wd lo hi : Nat) (g : Nat → Desk → Desk) (f : Nat → State → State), e = (k, wd, lo, hi, g) →
        writeEntry false o .desk k bs s = numberSetting wd lo hi bs f s → (∀ n, (f n s).desk = g n s.desk) →
        (k = 13 ∨ k = 15 ∨ k = 17 ∨ k = 18 → ∀ n, f n s = s.setDesk (g n s.desk)) →
        (bs.length ≠ e.2.1 → w = (some .invalid, s)) ∧
        (∀ n, bs.length = e.2.1 → n = (if e.2.1 = 1 then at8 bs 0 else at16 bs 0) →
          (n < e.2.2.1 ∨ e.2.2.2.1 < n → w = (some .invalid, s)) ∧
          (e.2.2.1 ≤ n → n ≤ e.2.2.2.1 → ∃ t, w = (none, t) ∧ t.desk = e.2.2.2.2 n s.desk ∧
            (e.1 = 13 ∨ e.1 = 15 ∨ e.1 = 17 ∨ e.1 = 18 → t = s.setDesk t.desk))) := by
      rintro k wd lo hi g f rfl hf hd hx
      rw [hw, hf]
      refine ⟨fun h => numberSetting_short h, fun n h hn => ⟨fun h2 => numberSetting_out h hn h2, fun h1 h2 => ?_⟩⟩
      refine ⟨_, numberSetting_in h hn h1 h2, hd n, fun hk => ?_⟩
      rw [hd n]; exact hx hk n
    simp only [numberEntries, List.mem_cons, List.not_mem_nil, or_false] at he
    rcases he with he | he | he | he | he | he | he | he | he
    · exact all _ _ _ _ _ writeGuard he rfl (fun _ => rfl) (by omega)
    · exact all _ _ _ _ _ writeStandby he rfl (fun n => writeStandby_desk n s) (by omega)
    · exact all _ _ _ _ _ (fun n s => s.setDesk { s.desk with downshift := n }) he rfl (fun _ => rfl) (fun _ _ => rfl)
    · exact all _ _ _ _ _ writeEnergyReset he rfl (fun n => writeEnergyReset_desk n s) (by omega)
    · exact all _ _ _ _ _ (fun n s => s.setDesk { s.desk with beaconPeriod := n }) he rfl (fun _ => rfl) (fun _ _ => rfl)
    · exact all _ _ _ _ _ writeAbsence he rfl (fun n => writeAbsence_desk n s) (by omega)
    · exact all _ _ _ _ _ (fun n s => s.setDesk { s.desk with priority := byte n }) he rfl (fun _ => rfl) (fun _ _ => rfl)
    · exact all _ _ _ _ _ (fun n s => s.setDesk { s.desk with claimTimeout := n }) he rfl (fun _ => rfl) (fun _ _ => rfl)
    · exact all _ _ _ _ _ writeNoticeInterval he rfl (fun n => writeNoticeInterval_desk n s) (by omega)
  · show numberSetting 1 0 255 [b] writeGuard s = _
    rw [numberSetting_one, if_pos (by have := b.isLt; omega)]
    rfl
  · have ht : numberSetting 1 0 240 [b] writeStandby s = (none, t) := ht
    by_cases hb : b.toNat ≤ 240
    · rw [numberSetting_one, if_pos ⟨by omega, hb⟩] at ht
      have ht : writeStandby b.toNat s = t := congrArg Prod.snd ht
      subst ht
      refine ⟨fun h => by unfold writeStandby; rw [if_pos h], fun h h0 => ?_, fun h h0 => ?_⟩
      · subst h0
        unfold writeStandby; rw [if_neg h]; rfl
      · have h0 : b.toNat ≠ 0 := fun e => h0 (BitVec.eq_of_toNat_eq e)
        have e : writeStandby b.toNat s = (let s := s.setDesk { s.desk with standby := b.toNat }
            if s.pu.power = .standby ∨ ¬ running s then s
            else
              match s.pu.idle with
              | none => s.setPu { s.pu with idle := some 0 }
              | some t => if b.toNat * 60000 ≤ t then enterStandby s else s) := by
          unfold writeStandby; exact (if_neg h).trans (if_neg h0)
        rw [e]
        dsimp only
        refine ⟨fun hp => ?_, fun hp hr hi => ?_, fun n hp hr hi => ⟨fun hn => ?_, fun hn => ?_⟩⟩
        · rw [if_pos]; · rfl
          rcases hp with hp | hp
          · exact .inl hp
          · exact .inr (by simp [running, hp])
        all_goals
          rw [if_neg (by simp [running, hp, hr])]
          simp only [State.setDesk_pu, hi]
        · rfl
        · rw [if_neg (by omega)]; rfl
        · rw [if_pos hn]
          rw [(enterStandby_hands (t := s.setDesk { s.desk with standby := b.toNat }) hp).2.2]
    · rw [numberSetting_one, if_neg (by omega)] at ht
      cases ht
  · have ht : numberSetting 1 1 255 [b] writeEnergyReset s = (none, t) := ht
    by_cases hb : 1 ≤ b.toNat
    · rw [numberSetting_one, if_pos ⟨hb, by have := b.isLt; omega⟩] at ht
      have ht : writeEnergyReset b.toNat s = t := congrArg Prod.snd ht
      subst ht
      refine ⟨fun h => by unfold writeEnergyReset; rw [if_pos h], fun h => ?_⟩
      unfold writeEnergyReset
      rw [if_neg h]
      exact applyEnergyReset_ports (s.setDesk { s.desk with energyReset := b.toNat }) hb
    · rw [numberSetting_one, if_neg (by omega)] at ht
      cases ht
  · have ht : numberSetting 2 100 5000 [a, b] writeAbsence s = (none, t) := ht
    by_cases hb : 100 ≤ at16 [a, b] 0 ∧ at16 [a, b] 0 ≤ 5000
    · rw [numberSetting_two, if_pos hb] at ht
      have ht : writeAbsence (at16 [a, b] 0) s = t := congrArg Prod.snd ht
      subst ht
      exact ⟨fun h => by unfold writeAbsence; rw [if_pos h], fun h => (writeAbsence_presence _ s h).2⟩
    · rw [numberSetting_two, if_neg hb] at ht
      cases ht
  · have ht : numberSetting 2 10 1000 [a, b] writeNoticeInterval s = (none, t) := ht
    by_cases hb : 10 ≤ at16 [a, b] 0 ∧ at16 [a, b] 0 ≤ 1000
    · rw [numberSetting_two, if_pos hb] at ht
      have ht : writeNoticeInterval (at16 [a, b] 0) s = t := congrArg Prod.snd ht
      subst ht
      refine ⟨fun h => by unfold writeNoticeInterval; rw [if_pos h], fun h => ⟨fun n hn hr hd => ?_, fun hr => ?_⟩⟩
      · unfold writeNoticeInterval applyNoticeInterval
        rw [if_neg h]
        simp only [State.setDesk_mu, hn]
        refine (congrArg State.mu (if_pos hr)).trans ?_
        unfold noticeExpired tryNotice
        rw [if_neg (by simp [hd])]
        rfl
      · unfold writeNoticeInterval applyNoticeInterval
        rw [if_neg h]
        rcases hr with hr | ⟨n, hn, hr⟩
        · simp only [State.setDesk_mu, hr]
        · simp only [State.setDesk_mu, hn]
          exact if_neg (Nat.not_le.2 hr)
    · rw [numberSetting_two, if_neg hb] at ht
      cases ht

/-! ## The other single settings -/

theorem namesNode_iff (s : State) (b : Byte) : namesNode s b = true ↔ targetOk s b := by
  unfold namesNode targetOk; simp

theorem settingWritesAct : SettingWritesAct := by
  intro o bs s
  refine ⟨rfl, rfl, fun h1 h2 => ?_, fun k => ?_, fun h => ?_, fun b => ⟨fun h => ?_, fun h => ?_⟩, fun h1 h2 => ?_, fun ha => ⟨fun h => ?_, fun b => ⟨fun h => ?_, fun h => ?_⟩⟩,
    fun a b c d => rfl, fun h => ?_, fun i hi => ?_⟩
  · show writeRate bs s = _
    unfold writeRate; rw [if_neg h1, if_neg h2]
  · have e : ∀ bs, writeEntry false o .desk (5 + k.val) bs s = writePalette k bs s := by
      intro bs
      match k with
      | 0 => rfl
      | 1 => rfl
      | 2 => rfl
      | 3 => rfl
      | 4 => rfl
      | 5 => rfl
    refine ⟨by rw [e]; rfl, fun r g b => by rw [e]; rfl, fun h1 h2 => ?_⟩
    rw [e]; unfold writePalette settle; rw [if_neg h1, if_neg (by simpa using h2)]
  · show (match bs with
      | [b] => settle (namesNode s b) (writeNoticeTarget b) s
      | _ => (some .invalid, s)) = _
    split
    · simp at h
    · rfl
  · show settle (namesNode s b) (writeNoticeTarget b) s = _
    unfold settle; rw [if_pos ((namesNode_iff s b).2 h)]
    unfold writeNoticeTarget
    split <;> rfl
  · show settle (namesNode s b) (writeNoticeTarget b) s = _
    unfold settle; rw [if_neg (fun x => h ((namesNode_iff s b).1 x))]
  · show writeAuthority false o bs s = _
    unfold writeAuthority; rw [if_pos ⟨by simp, by unfold isAuthority; simp only [h2, decide_false, Bool.or_false, decide_eq_true_eq]; exact h1⟩]
  · show writeAuthority false o bs s = _
    unfold writeAuthority; rw [if_neg (by rintro ⟨-, x⟩; apply x; unfold isAuthority; simpa using ha)]
    split
    · simp at h
    · rfl
  · show writeAuthority false o [b] s = _
    unfold writeAuthority; rw [if_neg (by rintro ⟨-, x⟩; apply x; unfold isAuthority; simpa using ha)]
    dsimp only
    unfold settle; rw [if_pos ((namesNode_iff s b).2 h)]
  · show writeAuthority false o [b] s = _
    unfold writeAuthority; rw [if_neg (by rintro ⟨-, x⟩; apply x; unfold isAuthority; simpa using ha)]
    dsimp only
    unfold settle; rw [if_neg (fun x => h ((namesNode_iff s b).1 x))]
  · show settle (decide (bs.length = 4)) (fun s => s.setDesk { s.desk with seed := at32 bs 0 }) s = _
    unfold settle; rw [if_neg (by simpa using h)]
  · show writeDesk false o i bs s = _
    unfold writeDesk
    split
    all_goals first | omega | rfl

/-! ## Hot keys, lamps, the event mask -/

theorem hotActionOf_code (c : Byte) : (hotActionOf c = none ↔ 7 ≤ c.toNat) ∧ (hotActionOf c = some .selectPreset ↔ c = 0) := by
  have hz : c = 0 ∨ c = 1 ∨ c = 2 ∨ c = 3 ∨ c = 4 ∨ c = 5 ∨ c = 6 ∨ 7 ≤ c.toNat := by
    by_cases h : 7 ≤ c.toNat
    · simp [h]
    · have : ∀ n : Nat, c.toNat = n → n < 256 → c = BitVec.ofNat 8 n := fun n e l => BitVec.eq_of_toNat_eq (by simp [e]; omega)
      have : c.toNat = 0 ∨ c.toNat = 1 ∨ c.toNat = 2 ∨ c.toNat = 3 ∨ c.toNat = 4 ∨ c.toNat = 5 ∨ c.toNat = 6 := by omega
      rcases this with e | e | e | e | e | e | e <;> (have := this _ e (by omega); subst this; simp)
  rcases hz with h | h | h | h | h | h | h | h
  all_goals first
    | (subst h; decide)
    | (have ne : ∀ n : Nat, n < 7 → c ≠ BitVec.ofNat 8 n := by
        intro n hn e; rw [e] at h; simp at h; omega
       unfold hotActionOf
       rw [if_neg (show c ≠ 0 from ne 0 (by omega)), if_neg (show c ≠ 1 from ne 1 (by omega)), if_neg (show c ≠ 2 from ne 2 (by omega)), if_neg (show c ≠ 3 from ne 3 (by omega)),
         if_neg (show c ≠ 4 from ne 4 (by omega)), if_neg (show c ≠ 5 from ne 5 (by omega)), if_neg (show c ≠ 6 from ne 6 (by omega))]
       exact ⟨⟨fun _ => h, fun _ => rfl⟩, ⟨nofun, fun e => absurd e (ne 0 (by omega))⟩⟩)

theorem behaviourOf_none (c : Byte) : behaviourOf c = none ↔ 4 ≤ c.toNat := by
  have hz : c = 0 ∨ c = 1 ∨ c = 2 ∨ c = 3 ∨ 4 ≤ c.toNat := by
    by_cases h : 4 ≤ c.toNat
    · simp [h]
    · have : ∀ n : Nat, c.toNat = n → n < 256 → c = BitVec.ofNat 8 n := fun n e l => BitVec.eq_of_toNat_eq (by simp [e]; omega)
      have : c.toNat = 0 ∨ c.toNat = 1 ∨ c.toNat = 2 ∨ c.toNat = 3 := by omega
      rcases this with e | e | e | e <;> (have := this _ e (by omega); subst this; simp)
  rcases hz with h | h | h | h | h
  all_goals first
    | (subst h; decide)
    | (have ne : ∀ n : Nat, n < 4 → c ≠ BitVec.ofNat 8 n := by
        intro n hn e; rw [e] at h; simp at h; omega
       unfold behaviourOf
       rw [if_neg (show c ≠ 0 from ne 0 (by omega)), if_neg (show c ≠ 1 from ne 1 (by omega)), if_neg (show c ≠ 2 from ne 2 (by omega)), if_neg (show c ≠ 3 from ne 3 (by omega))]
       simp [h])

theorem tableWritesAct : TableWritesAct := by
  intro o bs s
  refine ⟨fun i w hw => ?_, fun l w hw => ?_, fun a b => ?_, fun h => ?_, rfl⟩
  · have hw : w = writeHotKey i bs s := by
      rw [hw]; unfold writeEntry; simp only [i.isLt, dite_true]
    refine ⟨fun h => by rw [hw, h]; rfl, fun h1 h2 => ?_, ?_⟩
    · rw [hw]; unfold writeHotKey
      split
      · exact absurd rfl h1
      · simp at h2
      · rfl
    · rintro m u c g rfl
      have hc := hotActionOf_code c
      refine ⟨fun bad => ?_, fun a h1 h2 h3 h4 => ⟨fun use => ?_, fun nouse => ?_⟩⟩
      · rw [hw]; unfold writeHotKey; dsimp only
        cases ha : hotActionOf c with
        | none => rfl
        | some a =>
          dsimp only
          by_cases hu : u = 0 ∨ isModifier u = true
          · rw [if_pos hu]
          · rw [if_neg hu, if_pos]
            rcases bad with b | b | b | b
            · exact absurd (.inl b) hu
            · exact absurd (.inr b) hu
            · rw [hc.1.2 b] at ha; cases ha
            · rw [hc.2.2 b.1] at ha; cases ha; exact ⟨rfl, b.2⟩
      all_goals
        have hin : chordInUse i m u s = true ↔
            ∃ (j : Fin 16) (k : HotKey), j ≠ i ∧ s.iu.hotkeys[j] = some k ∧ k.mods = m ∧ k.usage = u := by
          unfold chordInUse
          simp only [List.any_eq_true, List.mem_finRange, true_and, Bool.and_eq_true, decide_eq_true_eq]
          constructor
          · rintro ⟨j, hj, h⟩
            split at h
            · rename_i k hk; exact ⟨j, k, hj, hk, of_decide_eq_true h⟩
            · cases h
          · rintro ⟨j, k, hj, hk, h⟩
            exact ⟨j, hj, by rw [hk]; exact decide_eq_true h⟩
        have hpre : ¬ (a = .selectPreset ∧ 8 ≤ g.toNat) := by
          rintro ⟨rfl, hg⟩
          rcases h4 with h4 | h4
          · exact h4 (hc.2.1 h3)
          · omega
        rw [hw]; unfold writeHotKey; dsimp only; rw [h3]; dsimp only
        rw [if_neg (by rintro (x | x); exacts [h1 x, by rw [h2] at x; cases x]), if_neg hpre]
      · rw [if_pos (hin.2 use)]
      · rw [if_neg]
        intro x
        obtain ⟨j, k, h1, h2, h3, h4⟩ := hin.1 x
        rcases nouse j k h1 h2 with n | n
        · exact n h3
        · exact n h4
  · have hw : w = writeLamp l bs s := by
      rw [hw]; unfold writeEntry; simp only [l.isLt, dite_true]
    refine ⟨fun bad => ?_, ?_⟩
    · rw [hw]; unfold writeLamp
      split
      · rename_i a b c d _
        rcases bad with bad | ⟨x, hx, h4⟩
        · simp at bad
        · have : behaviourOf a = none ∨ behaviourOf b = none ∨ behaviourOf c = none ∨ behaviourOf d = none := by
            simp only [List.mem_cons, List.not_mem_nil, or_false] at hx
            rcases hx with rfl | rfl | rfl | rfl
            · exact .inl ((behaviourOf_none _).2 h4)
            · exact .inr (.inl ((behaviourOf_none _).2 h4))
            · exact .inr (.inr (.inl ((behaviourOf_none _).2 h4)))
            · exact .inr (.inr (.inr ((behaviourOf_none _).2 h4)))
          split
          · rename_i e1 e2 e3 e4
            rw [e1, e2, e3, e4] at this
            simp at this
          · rfl
      · rfl
    · rintro a b c d p q r t rfl h1 h2 h3 h4
      rw [hw]; unfold writeLamp; dsimp only; rw [h1, h2, h3, h4]
  · show writeEvents 1 [a, b] s = _
    unfold writeEvents settle writeMask
    simp only [if_true, List.length_cons, List.length_nil, decide_true, byteAt, List.getD_cons_zero, List.getD_cons_succ]
  · show writeEvents 1 bs s = _
    unfold writeEvents settle
    rw [if_pos rfl, if_neg (by simpa using h)]

end Sys2Proof.Machine
end

