-- ==== Sys2Proof/Laws/ClaimWrites.lean ====
section
/-! SUPPORT. The outbox, local requests and releases, and writes of a directory slot, case by case (R136 to R144). -/

namespace Sys2Proof.Machine

open Sys2Proof

/-! ## What an emptying outbox does to the slots -/

/-- The claim unit's slots say what they said, but for when a deadline runs out; the presence view stays. -/
structure SameClaims (u v : Cu) : Prop where
  claims : ∀ j : Fin 16, claimOf v.slots[j] = claimOf u.slots[j]
  view : v.view = u.view

theorem SameClaims.refl (u : Cu) : SameClaims u u := ⟨fun _ => rfl, rfl⟩

theorem SameClaims.trans {u v w : Cu} (h : SameClaims u v) (k : SameClaims v w) : SameClaims u w :=
  ⟨fun j => (k.claims j).trans (h.claims j), k.view.trans h.view⟩

/-- A slot without a request is wholly fixed by what it says. -/
theorem claimOf_idle {a b : Option Slot} (h : claimOf a = claimOf b) (n : ∀ k, b = some k → k.request = none) : a = b := by
  unfold claimOf at h
  cases b with
  | none => cases a with
    | none => rfl
    | some a => cases h
  | some b => cases a with
    | none => cases h
    | some a =>
      have nb := n b rfl
      obtain ⟨ac, ah, ar, ao, al⟩ := a
      obtain ⟨bc, bh, br, bo, bl⟩ := b
      subst nb
      simp only [Option.map_some, Option.some.injEq, Prod.mk.injEq, Option.map_none, Option.map_eq_none_iff] at h
      obtain ⟨h1, h2, h3, h4, h5⟩ := h
      subst h1 h2 h3 h4 h5
      rfl

theorem claimAppended_claims (m : ClaimMsg) (t : State) : SameClaims t.cu (claimAppended m t).cu := by
  unfold claimAppended
  dsimp only
  split
  · exact ⟨fun _ => rfl, rfl⟩
  · split
    · rename_i k hk
      split
      · rename_i l hl
        split
        · exact ⟨fun _ => rfl, rfl⟩
        · refine ⟨fun j => ?_, rfl⟩
          have hk : t.cu.slots[m.slot] = some k := hk
          by_cases hj : j = m.slot
          · subst hj
            simp [setSlot, countCu, hk, claimOf, hl]
          · have ne : (m.slot : Nat) ≠ j := fun h => hj (Fin.ext h.symm)
            simp [setSlot, countCu, Vector.getElem_set_ne, ne]
      · exact ⟨fun _ => rfl, rfl⟩
    · exact ⟨fun _ => rfl, rfl⟩

theorem pumpOutbox_claims (n : Nat) (t : State) : SameClaims t.cu (pumpOutbox n t).cu := by
  induction n generalizing t with
  | zero => exact .refl _
  | succ n ih =>
    unfold pumpOutbox
    split
    · exact .refl _
    · split
      · exact .refl _
      · rename_i m ms hm
        have p := (offerInsertion_posts ⟨claimFrame m t, false⟩ (t.setCu { t.cu with outbox := ms })).cu
        have b : SameClaims t.cu (offerInsertion ⟨claimFrame m t, false⟩ (t.setCu { t.cu with outbox := ms })).2.cu := by
          rw [p]; exact ⟨fun _ => rfl, rfl⟩
        dsimp only
        split <;> rename_i u hu <;> rw [hu] at b
        · exact (b.trans (claimAppended_claims m u)).trans (ih _)
        · exact b.trans ⟨fun _ => rfl, rfl⟩

theorem queueRelease_claims (i : Fin 16) (l : Level) (a : Byte) (t : State) : SameClaims t.cu (queueRelease i l a t).cu := by
  unfold queueRelease
  dsimp only
  have d : ∀ u : State, u.cu.slots = t.cu.slots → u.cu.view = t.cu.view → SameClaims t.cu (pumpOutbox pumpBound u).cu := fun u h v =>
    SameClaims.trans ⟨fun j => by rw [h], v⟩ (pumpOutbox_claims pumpBound u)
  split
  · exact d _ rfl rfl
  · exact d _ rfl rfl

theorem slotAlone_of {i : Fin 16} {k : Option Slot} {s t u : State} (hk : ∀ x, k = some x → x.request = none)
    (h : slotAlone i k s t) (c : SameClaims t.cu u.cu) : slotAlone i k s u :=
  ⟨by rw [← h.1]; exact claimOf_idle (c.claims i) (by rw [h.1]; exact hk), fun j hj => (c.claims j).trans (h.2 j hj)⟩

theorem slotAlone_set (i : Fin 16) (k : Option Slot) {s t : State} (h : t.cu.slots = s.cu.slots.set i k) : slotAlone i k s t := by
  refine ⟨by simp [h], fun j hj => ?_⟩
  have ne : (i : Nat) ≠ j := fun h => hj (Fin.ext h.symm)
  simp [h, Vector.getElem_set_ne, ne]

/-! ## The outbox -/

theorem pumpOutbox_offered (n : Nat) {s : State} (h : s.cu.offered.isSome = true) : pumpOutbox n s = s := by
  cases n with
  | zero => rfl
  | succ n => unfold pumpOutbox; rw [if_pos h]

theorem inOutbox_iff (k : MsgKind) (i : Fin 16) (s : State) : inOutbox k i s = true ↔ ∃ m ∈ s.cu.outbox, m.kind = k ∧ m.slot = i := by
  unfold inOutbox; simp

theorem outboxEmpties : OutboxEmpties := by
  intro n s q
  refine ⟨pumpOutbox_offered n, fun h => ?_, ?_⟩
  · cases n with
    | zero => rfl
    | succ n =>
      unfold pumpOutbox
      split
      · rfl
      · rw [h]
  · intro m ms f ho hb hf
    have hf : f = claimFrame m s := by
      rw [hf]; unfold claimFrame claimPayload; rfl
    have e : pumpOutbox (n + 1) s = match offerInsertion ⟨f, false⟩ (s.setCu { s.cu with outbox := ms }) with
        | (true, t) => pumpOutbox n (claimAppended m t)
        | (false, t) => t.setCu { t.cu with offered := some ⟨m, f⟩ } := by
      rw [hf, show pumpOutbox (n + 1) s = _ from by unfold pumpOutbox; rfl, if_neg (by simp [ho]), hb]
      all_goals rfl
    refine ⟨fun hr => ?_, fun hr => ?_⟩
    · rw [e, offerInsertion_refused _ _ (by simpa using hr)]
      rfl
    · have q' : NoReset (s.setCu { s.cu with outbox := ms }) := q.congr rfl rfl
      rw [offerInsertion_accepted q' _ rfl (by simpa using hr)] at e
      have hst : stamp (s.setCu { s.cu with outbox := ms }) f = f := by rw [hf]; rfl
      dsimp only at e
      rw [hst, show takeIn (s.setCu { s.cu with outbox := ms }) ⟨f, false⟩ = takeIn s ⟨f, false⟩ from rfl] at e
      rw [e]
      generalize takeIn s ⟨f, false⟩ = r
      have hc : ({ s.cu with offered := none } : Cu) = s.cu := by
        cases hcu : s.cu; rw [hcu] at ho; simp only at ho; subst ho; rfl
      refine ⟨fun hk => ?_, fun k l hk hs hl hx => ?_, fun hk hs => ?_⟩
      · congr 1
        unfold claimAppended countCu
        rw [hk]
        show (s.setCu { s.cu with outbox := ms, offered := none, c := _ }).setRf r = _
        rw [← ho]; rfl
      · congr 1
        have hno : inOutbox .request m.slot ((s.setCu { s.cu with
            outbox := ms, offered := none, c := { s.cu.c with requestsSent := bump s.cu.c.requestsSent } }).setRf r) = false := by
          by_contra x
          obtain ⟨y, hy, hz⟩ := (inOutbox_iff _ _ _).1 (by simpa using x)
          exact hx y hy hz
        have : claimAppended m ((s.setCu { s.cu with outbox := ms }).setRf r) = setSlot m.slot (some { k with request := some ⟨l, some s.desk.claimTimeout⟩ })
            ((s.setCu { s.cu with
              outbox := ms, offered := none, c := { s.cu.c with requestsSent := bump s.cu.c.requestsSent } }).setRf r) := by
          unfold claimAppended countCu
          rw [hk]
          simp only [State.setCu_cu, State.setRf_cu]
          have hs : s.cu.slots[m.slot] = some k := hs
          rw [hs]
          dsimp only
          rw [hl]
          dsimp only
          exact if_neg (by rw [Bool.not_eq_true]; exact hno)
        rw [this]
        unfold setSlot
        show (s.setCu { s.cu with
            slots := _, outbox := ms, offered := none, c := { s.cu.c with requestsSent := bump s.cu.c.requestsSent } }).setRf r = _
        rw [← ho]
        rfl
      · congr 1
        have : claimAppended m ((s.setCu { s.cu with outbox := ms }).setRf r) = (s.setCu { s.cu with
              outbox := ms, offered := none, c := { s.cu.c with requestsSent := bump s.cu.c.requestsSent } }).setRf r := by
          unfold claimAppended countCu
          rw [hk]
          simp only [State.setCu_cu, State.setRf_cu]
          split
          · rename_i k hk'
            split
            · rename_i l hl
              have hyes : inOutbox .request m.slot ((s.setCu { s.cu with
                  outbox := ms, offered := none, c := { s.cu.c with requestsSent := bump s.cu.c.requestsSent } }).setRf r) = true :=
                (inOutbox_iff _ _ _).2 (hs k l hk' hl)
              exact if_pos hyes
            · rfl
          · rfl
        rw [this, ← ho]

/-! ## Local requests and releases -/

theorem localRequestsAct : LocalRequestsAct := by
  intro i l s n hn
  have hr : ∀ r, refuseRequest r s = (some r, n) := by intro r; rw [hn]; rfl
  refine ⟨fun h => by rw [h]; exact hr _, fun j h hj => ?_, fun j k h hj => ⟨fun bad => ?_, fun m hm hp hpr => ⟨fun a => ?_, fun a b => ?_, fun a b => ?_⟩⟩⟩
  · subst h
    unfold localRequest
    dsimp only
    rw [hj]
    exact hr _
  · subst h
    unfold localRequest
    dsimp only
    rw [hj]
    cases l with
    | none => exact hr _
    | some l =>
      dsimp only
      by_cases hp : s.pu.power = .standby
      · rw [if_pos hp]; exact hr _
      · rw [if_neg hp]
        have hpr : nodePresent s k.content.addr = false := by
          rcases bad with b | b | b
          · cases b
          · exact absurd b hp
          · exact b
        rw [if_pos (by simp [hpr])]; exact hr _
  all_goals
    subst h hm
    unfold localRequest
    dsimp only
    rw [hj]
    dsimp only
    rw [if_neg (by simp [hp]), if_neg (by simp [hpr])]
  · rw [if_pos a]; exact hr _
  · rw [if_neg (by omega), if_pos b]; exact hr _
  · rw [if_neg (by omega), if_neg (by simp [b])]; rfl

theorem queueRelease_pump (i : Fin 16) (l : Level) (a : Byte) (s : State) : ∃ u, queueRelease i l a s = pumpOutbox pumpBound u ∧
    u.cu.outbox = withRelease s.cu.outbox i l a ∧ u.cu.offered = s.cu.offered ∧ u.cu.slots = s.cu.slots ∧ u.cu.view = s.cu.view := by
  unfold queueRelease withRelease
  dsimp only
  by_cases h : inOutbox .release i (removeRequest i s) = true
  · rw [if_pos h, if_pos (show ∃ m ∈ s.cu.outbox.filter _, _ from (inOutbox_iff _ _ _).1 h)]
    exact ⟨_, rfl, rfl, rfl, rfl, rfl⟩
  · rw [if_neg h, if_neg (fun x : ∃ m ∈ s.cu.outbox.filter _, _ => h ((inOutbox_iff _ _ _).2 x))]
    exact ⟨_, rfl, rfl, rfl, rfl, rfl⟩

theorem queueRelease_outbox (i : Fin 16) (l : Level) (a : Byte) {s : State} (h : s.cu.offered.isSome = true) :
    (queueRelease i l a s).cu.outbox = withRelease s.cu.outbox i l a ∧ (queueRelease i l a s).cu.offered = s.cu.offered := by
  obtain ⟨u, e, o, f, -⟩ := queueRelease_pump i l a s
  rw [e, pumpOutbox_offered _ (by rw [f]; exact h)]
  exact ⟨o, f⟩

theorem localReleasesAct : LocalReleasesAct := by
  intro i l s
  refine ⟨fun h => ?_, fun j h hj => ?_, fun j k m h hj hm hne => ?_⟩
  · unfold localRelease
    split
    · rfl
    · split
      · rfl
      · rfl
      · rfl
      · rename_i n _
        rcases h with h | h | h
        · cases h
        · cases h
        · exact absurd (Option.some.inj h) (by rintro rfl; exact n rfl)
  · subst h
    unfold localRelease
    dsimp only
    rw [hj]
  · subst h hm
    have e : localRelease (some j) (some m) s = (none, releaseSlot j k m s) := by
      unfold localRelease
      dsimp only
      rw [hj]
      cases m with
      | view => rfl
      | shared => rfl
      | exclusive => exact absurd rfl hne
    refine ⟨_, e, ?_⟩
    have lowL : Level.rank m < Level.rank k.held → Level.lower m k.held = m := fun h => by unfold Level.lower; rw [if_pos (by omega)]
    have lowR : ¬ Level.rank m < Level.rank k.held → Level.rank (Level.lower m k.held) = Level.rank k.held := by
      intro h; unfold Level.lower; split
      · omega
      · rfl
    by_cases hlow : Level.rank m < Level.rank k.held
    · -- the level falls
      have hl' : Level.rank (Level.lower m k.held) < Level.rank k.held := by rw [lowL hlow]; exact hlow
      obtain ⟨c, hc⟩ : ∃ c, c = claimReport none (raise .claimChange (setSlot j (some { k with held := m, holder := holderAfter s m k.holder }) s)) :=
        ⟨_, rfl⟩
      have hcu : c.cu = { s.cu with slots := s.cu.slots.set j (some { k with held := m, holder := holderAfter s m k.holder }) } := by
        rw [hc, (claimReport_delivers none (.refl _)).cu, (raise_posts _ _).cu]; rfl
      have hslot : c.cu.slots[j] = some { k with held := m, holder := holderAfter s m k.holder } := by rw [hcu]; simp
      have he : releaseSlot j k m s = queueRelease j m k.content.addr
          (setSlot j (some { k with held := m, holder := holderAfter s m k.holder, request := none, outcome := .released }) c) := by
        unfold releaseSlot
        dsimp only
        rw [lowL hlow]
        rw [if_pos (.inl hlow), if_pos hlow, ← hc, hslot]
        dsimp only
        rw [if_pos (.inl hlow)]
      have hho : holderAfter s m k.holder = if k.holder = some (own s) then none else k.holder := by
        unfold holderAfter
        by_cases x : k.holder = some (own s)
        · rw [if_pos ⟨hne, x⟩, if_pos x]
        · rw [if_neg (fun y => x y.2), if_neg x]
      refine ⟨fun x => absurd hlow (by omega), fun x => absurd hlow (by omega), fun _ => ⟨?_, ?_⟩, fun ho => ?_⟩
      · rw [he]
        refine slotAlone_of (by intro x hx; cases hx; rfl) (slotAlone_set j _ ?_) (queueRelease_claims _ _ _ _)
        show (c.cu.slots.set j _) = _
        rw [hcu, hho, Vector.set_set]
      · rw [he]
        refine (queueRelease_keeps _ _ _ (.refl _)).events _ ?_
        show c.mu.events &&& _ ≠ 0
        rw [hc]
        exact (claimReport_keeps none (.refl _)).events _ (raise_pending _ _)
      · rw [he, if_pos (.inl hlow)]
        rw [(queueRelease_outbox j m k.content.addr (s := setSlot j _ c) (by show c.cu.offered.isSome = true; rw [hcu]; exact ho)).1]
        show withRelease c.cu.outbox _ _ _ = _
        rw [hcu, lowL hlow]
    · have hl' : ¬ Level.rank (Level.lower m k.held) < Level.rank k.held := by rw [lowR hlow]; omega
      obtain ⟨c, hc⟩ : ∃ c, c = if k.request.isSome = true then setSlot j (some { k with request := none, outcome := .released }) s else s := ⟨_, rfl⟩
      have he : releaseSlot j k m s = if k.request.isSome = true ∧ inOutbox .request j s = false
          then queueRelease j (Level.lower m k.held) k.content.addr c else removeRequest j c := by
        unfold releaseSlot
        dsimp only
        rw [if_neg hl', hj]
        dsimp only
        have : (if Level.rank (Level.lower m k.held) < Level.rank k.held ∨ k.request.isSome = true then
            setSlot j (some { k with request := none, outcome := .released }) s else s) = c := by
          rw [hc]; by_cases x : k.request.isSome = true
          · rw [if_pos (.inr x), if_pos x]
          · rw [if_neg (by rintro (y | y); exacts [hl' y, x y]), if_neg x]
        rw [this]
        by_cases x : k.request.isSome = true ∧ inOutbox .request j s = false
        · rw [if_pos x, if_pos (.inr (by simp [x.1, x.2]))]
        · rw [if_neg x, if_neg]
          rintro (y | y)
          · exact hl' y
          · simp only [Bool.and_eq_true, Bool.not_eq_true'] at y; exact x y
      refine ⟨fun _ hr ho => ?_, fun _ hr => ⟨?_, ?_, ?_⟩, fun x => absurd x hlow, fun ho => ?_⟩
      · rw [he, if_neg (by simp [hr]), hc, if_neg (by simp [hr])]
        unfold removeRequest
        rw [List.filter_eq_self.2]
        · rfl
        · intro x hx
          simp only [decide_eq_true_eq]
          intro y
          have := (inOutbox_iff .request j s).2 ⟨x, hx, y⟩
          rw [ho] at this; cases this
      all_goals
        try
          have hsome : k.request.isSome = true := by simpa [Option.isSome_iff_ne_none] using hr
          rw [if_pos hsome] at hc
      · have b : slotAlone j (some { k with request := none, outcome := .released }) s c := slotAlone_set j _ (by rw [hc]; rfl)
        rw [he]
        split
        · exact slotAlone_of (by intro x hx; cases hx; rfl) b (queueRelease_claims _ _ _ _)
        · exact slotAlone_of (by intro x hx; cases hx; rfl) b ⟨fun _ => rfl, rfl⟩
      · rw [he]
        split
        · rw [(queueRelease_iu _ _ _ _).2.1, hc]; rfl
        · rw [hc]; rfl
      · rw [he]
        split
        · rw [(queueRelease_iu _ _ _ _).1, hc]; rfl
        · rw [hc]; rfl
      · have co : c.cu.outbox = s.cu.outbox ∧ c.cu.offered = s.cu.offered := by
          rw [hc]; split <;> exact ⟨rfl, rfl⟩
        rw [he]
        by_cases x : k.request.isSome = true ∧ inOutbox .request j s = false
        · rw [if_pos x, if_pos (.inr ⟨by simpa [Option.isSome_iff_ne_none] using x.1, x.2⟩)]
          rw [(queueRelease_outbox j _ _ (by rw [co.2]; exact ho)).1, co.1]
        · rw [if_neg x, if_neg]
          · show c.cu.outbox.filter _ = _
            rw [co.1]
          · rintro (y | y)
            · exact hlow y
            · exact x ⟨by simpa [Option.isSome_iff_ne_none] using y.1, y.2⟩

/-! ## Writes of a directory slot -/

/-- What stands before a slot's record is replaced: its REQUEST out of the outbox, and a RELEASE queued where one is due. -/
def beforeReplaced (i : Fin 16) (k : Slot) (s : State) : State :=
  if mustRelease k (inOutbox .request i s) = true then queueRelease i .view k.content.addr (removeRequest i s) else removeRequest i s

theorem withRelease_filter (q : List ClaimMsg) (i : Fin 16) (l : Level) (a : Byte) :
    withRelease (q.filter fun m => ¬ (m.kind = .request ∧ m.slot = i)) i l a = withRelease q i l a := by
  unfold withRelease
  simp only [List.filter_filter, Bool.and_self]

theorem beforeReplaced_spec (i : Fin 16) (k : Slot) (s : State) :
    SameClaims s.cu (beforeReplaced i k s).cu ∧ (beforeReplaced i k s).iu = s.iu ∧ (beforeReplaced i k s).fu = s.fu ∧
    (beforeReplaced i k s).pu = s.pu ∧
    (s.cu.offered.isSome = true → (beforeReplaced i k s).cu.outbox = outboxWithout i k s ∧
      (beforeReplaced i k s).cu.offered = s.cu.offered ∧ (beforeReplaced i k s).cu.slots = s.cu.slots) := by
  have hm : mustRelease k (inOutbox .request i s) = true ↔
      k.held ≠ .view ∨ k.request ≠ none ∧ ¬ ∃ m ∈ s.cu.outbox, m.kind = .request ∧ m.slot = i := by
    rw [← inOutbox_iff]
    unfold mustRelease
    simp [Option.isSome_iff_ne_none]
  unfold beforeReplaced outboxWithout
  by_cases h : mustRelease k (inOutbox .request i s) = true
  · rw [if_pos h, if_pos (hm.1 h)]
    have q := queueRelease_iu i .view k.content.addr (removeRequest i s)
    refine ⟨queueRelease_claims i .view k.content.addr (removeRequest i s) |> fun x => ⟨x.claims, x.view⟩, q.1, q.2.1, q.2.2.1, fun ho => ?_⟩
    have r := queueRelease_outbox i .view k.content.addr (s := removeRequest i s) ho
    refine ⟨r.1.trans (withRelease_filter _ _ _ _), r.2, ?_⟩
    obtain ⟨u, e, -, f, g, -⟩ := queueRelease_pump i .view k.content.addr (removeRequest i s)
    rw [e, pumpOutbox_offered _ (by rw [f]; exact ho), g]; rfl
  · rw [if_neg h, if_neg (fun x => h (hm.2 x))]
    exact ⟨⟨fun _ => rfl, rfl⟩, rfl, rfl, rfl, fun _ => ⟨rfl, rfl, rfl⟩⟩

theorem addrInUse_iff (i : Fin 16) (a : Byte) (s : State) :
    addrInUse i a s = true ↔ ∃ (j : Fin 16) (k : Slot), j ≠ i ∧ s.cu.slots[j] = some k ∧ k.content.addr = a := by
  unfold addrInUse
  simp only [List.any_eq_true, List.mem_finRange, true_and, Bool.and_eq_true, decide_eq_true_eq]
  constructor
  · rintro ⟨j, hj, h⟩
    split at h
    · rename_i k hk; exact ⟨j, k, hj, hk, of_decide_eq_true h⟩
    · cases h
  · rintro ⟨j, k, hj, hk, h⟩
    exact ⟨j, hj, by rw [hk]; exact decide_eq_true h⟩

theorem slotNamed_iff (i : Fin 16) (s : State) :
    slotNamed i s = true ↔ ∃ (j : Fin 32) (e : StreamEntry), s.sr.entries[j] = some e ∧ e.content.slot = i := by
  unfold slotNamed
  simp only [List.any_eq_true]
  constructor
  · rintro ⟨x, hx, h⟩
    obtain ⟨j, hj, e⟩ := Array.mem_iff_getElem.1 (Array.mem_def.2 hx)
    split at h
    · rename_i e'
      exact ⟨⟨j, by simpa using hj⟩, e', by simpa using e, of_decide_eq_true h⟩
    · cases h
  · rintro ⟨j, e, he, h⟩
    refine ⟨some e, ?_, decide_eq_true h⟩
    rw [← he]
    exact Vector.mem_toList_iff.2 (Vector.getElem_mem _)

/-- The auto-share request of a slot just made (R151). -/
theorem autoShare_fresh (i : Fin 16) (c : SlotContent) {t : State} (h : t.cu.slots[i] = some ⟨c, .view, none, none, .none⟩) :
    (c.autoShare = true ∧ nodePresent t c.addr = true ∧ t.pu.power = .active →
      autoShare i t = requested i ⟨c, .view, none, none, .none⟩ .shared t) ∧
    (c.autoShare = false ∨ nodePresent t c.addr = false ∨ t.pu.power = .standby → autoShare i t = t) := by
  unfold autoShare
  simp only [h]
  constructor
  · rintro ⟨h1, h2, h3⟩
    rw [if_pos ⟨h1, h2, h3, trivial, trivial⟩]
    rw [((localRequestsAct (some i) (some .shared) t _ rfl).2.2 i _ rfl h).2 .shared rfl h3 h2 |>.2.2 (show 0 < 1 by omega) rfl]
  · intro h'
    rw [if_neg]
    rintro ⟨h1, h2, h3, -⟩
    rcases h' with x | x | x
    · rw [h1] at x; cases x
    · rw [h2] at x; cases x
    · rw [h3] at x; cases x

theorem requested_iu (i : Fin 16) (k : Slot) (l : Level) (s : State) : (requested i k l s).iu = s.iu ∧ (requested i k l s).fu = s.fu :=
  ⟨(pumpOutbox_iu _ _).1, (pumpOutbox_iu _ _).2.1⟩

theorem requested_claims (i : Fin 16) (k : Slot) (l : Level) (s : State) (j : Fin 16) : claimOf (requested i k l s).cu.slots[j] =
    if j = i then some (k.content, k.held, k.holder, k.outcome, some l) else claimOf s.cu.slots[j] := by
  unfold requested
  rw [(pumpOutbox_claims _ _).claims j]
  by_cases h : j = i
  · subst h; simp [claimOf]
  · have ne : (i : Nat) ≠ j := fun x => h (Fin.ext x.symm)
    simp [Vector.getElem_set_ne, ne, h]

theorem parseSlot_two (a g : Byte) : parseSlot [a, g] = some ⟨a, g.getLsbD 0, g.getLsbD 1⟩ := rfl

theorem clearSlot_eq (i : Fin 16) (k : Slot) (s : State) : clearSlot i k s = emptyQueue i
    (if k.held ≠ .view then raise .claimChange (setSlot i none (beforeReplaced i k s)) else setSlot i none (beforeReplaced i k s)) := rfl

theorem moveSlot_eq (i : Fin 16) (k : Slot) (c : SlotContent) (s : State) : moveSlot i k c s = autoShare i (claimReport none
    (addressChangeReport i (if k.held ≠ .view then raise .claimChange (setSlot i (some (freshSlot c)) (beforeReplaced i k s))
      else setSlot i (some (freshSlot c)) (beforeReplaced i k s)))) := rfl

/-- The report of an address change touches the input unit and the focus unit alone; no key or button is the slot's afterwards (R131). -/
theorem addressChangeReport_spec (i : Fin 16) (t : State) : (addressChangeReport i t).cu = t.cu ∧ (addressChangeReport i t).pu = t.pu ∧
    (∀ x ∈ (addressChangeReport i t).iu.keys, x.2 ≠ i) ∧ (∀ j : Fin 5, (addressChangeReport i t).iu.owners[j] ≠ some i) := by
  obtain ⟨u, hu⟩ : ∃ u : State, u = (freshSequence i (emptyQueue i t)).setIu { (freshSequence i (emptyQueue i t)).iu with
      keys := (freshSequence i (emptyQueue i t)).iu.keys.filter fun k => k.2 ≠ i,
      owners := dropOwners i (freshSequence i (emptyQueue i t)).iu.owners } := ⟨_, rfl⟩
  have e : addressChangeReport i t = if anyOwned t = true ∧ ¬ anyOwned u = true then dragEnd u else u := by
    rw [hu]; rfl
  have d : Delivers u (addressChangeReport i t) := by
    rw [e]
    split
    · exact reevaluate_delivers (fun i r _ _ h => appendRecord_delivers i r h) (.refl _)
    · exact .refl _
  have ku : (∀ x ∈ u.iu.keys, x.2 ≠ i) ∧ (∀ j : Fin 5, u.iu.owners[j] ≠ some i) := by
    rw [hu]
    refine ⟨fun x hx => ?_, fun j => dropOwners_ne i _ j⟩
    simpa using (List.mem_filter.1 hx).2
  refine ⟨d.cu.trans (by rw [hu]; rfl), d.pu.trans (by rw [hu]; rfl), fun x hx => ku.1 x (d.hands.keys x hx), fun j hj => ku.2 j (d.hands.owners j i hj)⟩

theorem slotWritesAct : SlotWritesAct := by
  intro i o bs s
  have hw : writeEntry false o .sources i.val bs s = writeSlotEntry i bs s := by
    unfold writeEntry; simp only [i.isLt, dite_true]
  rw [hw]
  refine ⟨fun h1 h2 => ?_, fun k h1 h2 => ⟨fun use => ?_, fun nouse => ⟨clearSlot i k s, ?_, ?_⟩⟩, fun h1 h2 => ?_, ?_⟩
  · unfold writeSlotEntry writeSlot; rw [if_pos h1, h2]
  · unfold writeSlotEntry writeSlot; rw [if_pos h1, h2]; dsimp only; rw [if_pos ((slotNamed_iff i s).2 use)]
  · unfold writeSlotEntry writeSlot; rw [if_pos h1, h2]; dsimp only
    rw [if_neg]
    intro x
    obtain ⟨j, e, a, b⟩ := (slotNamed_iff i s).1 x
    exact nouse j e a b
  · obtain ⟨bc, bi, bf, bp, bo⟩ := beforeReplaced_spec i k s
    have ha : slotAlone i none s (setSlot i none (beforeReplaced i k s)) := by
      refine ⟨by simp [setSlot], fun j hj => ?_⟩
      have ne : (i : Nat) ≠ j := fun x => hj (Fin.ext x.symm)
      simpa [setSlot, Vector.getElem_set_ne, ne] using bc.claims j
    rw [clearSlot_eq]
    generalize hv : setSlot i none (beforeReplaced i k s) = v at ha
    have hvi : v.iu = s.iu ∧ v.fu = s.fu ∧ v.cu.view = s.cu.view := by rw [← hv]; exact ⟨bi, bf, bc.view⟩
    have hvo : s.cu.offered.isSome = true → v.cu.outbox = outboxWithout i k s := by rw [← hv]; exact fun h => (bo h).1
    have p : Posts v (if k.held ≠ .view then raise .claimChange v else v) := by
      split
      · exact raise_posts _ _
      · exact .refl _
    have ev : k.held ≠ .view → (if k.held ≠ .view then raise .claimChange v else v).mu.events &&& EventKind.bit .claimChange ≠ 0 := by
      intro h; rw [if_pos h]; exact raise_pending _ _
    generalize (if k.held ≠ .view then raise .claimChange v else v) = u at p ev
    refine ⟨⟨?_, fun j hj => ?_⟩, ?_, ?_, ?_, ?_, ev, fun h => ?_⟩
    · show u.cu.slots[i] = none
      rw [p.cu]; exact ha.1
    · show claimOf u.cu.slots[j] = _
      rw [p.cu]; exact ha.2 j hj
    · show u.cu.view = _
      rw [p.cu]; exact hvi.2.2
    · show u.iu.queues.set i [] = _
      rw [p.iu, hvi.1]
    · show bumpBy u.iu.queues[i].length u.iu.c.slotDiscards = _
      rw [p.iu, hvi.1]
    · show u.fu = _
      rw [p.fu, hvi.2.1]
    · show u.cu.outbox = _
      rw [p.cu]; exact hvo h
  · unfold writeSlotEntry parseSlot; rw [if_neg h1, if_neg h2]
  · rintro a g c rfl hc
    have hp : writeSlotEntry i [a, g] s = writeSlot i (some c) s := by
      unfold writeSlotEntry; rw [if_neg (by simp), parseSlot_two, hc]
    have hca : c.addr = a := by rw [hc]
    have hn : nodeInRange c.addr = true ↔ 1 ≤ a.toNat ∧ a.toNat ≤ 62 := by
      rw [hca]; unfold nodeInRange; simp
    rw [hp]
    refine ⟨fun bad => ?_, fun h1 h2 h3 => ⟨fun use => ?_, fun nouse => ?_⟩⟩
    · unfold writeSlot
      dsimp only
      rw [if_pos]
      rcases bad with b | b
      · exact .inl (fun x => b (hn.1 x))
      · exact .inr (by rw [hca]; exact b)
    all_goals
      have hg : ¬ (¬ nodeInRange c.addr = true ∨ c.addr = own s) := by
        rintro (x | x)
        · exact x (hn.2 ⟨h1, h2⟩)
        · exact h3 (hca ▸ x)
    · unfold writeSlot
      dsimp only
      rw [if_neg hg, if_pos ((addrInUse_iff i _ s).2 (by rw [hca]; exact use))]
    · have hu : ¬ addrInUse i c.addr s = true := by
        intro x
        obtain ⟨j, k, h1, h2, h3⟩ := (addrInUse_iff i _ s).1 x
        exact nouse j k h1 h2 (hca ▸ h3)
      refine ⟨fun he => ?_, fun k he => ⟨fun hk => ?_, fun hk => ?_⟩⟩
      · refine ⟨autoShare i (freshSequence i (setSlot i (some (freshSlot c)) s)), ?_, fun h => ?_, fun h => ?_⟩
        · unfold writeSlot
          rw [he]
          dsimp only
          rw [if_neg hg, if_neg hu]
        all_goals
          have f := autoShare_fresh i c (t := freshSequence i (setSlot i (some (freshSlot c)) s)) (by simp [freshSequence, setSlot, freshSlot])
        · rw [f.1 ⟨h.1, by rw [hca]; exact h.2.1, h.2.2⟩]
          unfold requested
          congr 1
          show ((s.setCu _).setIu _).setCu _ = (s.setIu _).setCu _
          simp only [freshSequence, State.setCu, State.setIu, setSlot, freshSlot, Vector.set_set]
        · rw [f.2 (by rw [hca]; exact h)]; rfl
      · unfold writeSlot
        rw [he]
        dsimp only
        rw [if_neg hg, if_neg hu, if_pos (by rw [hca]; exact hk)]
        rfl
      · have e : writeSlot i (some c) s = (none, moveSlot i k c s) := by
          unfold writeSlot
          rw [he]
          dsimp only
          rw [if_neg hg, if_neg hu, if_neg (by rw [hca]; exact hk)]
        refine ⟨_, e, ?_⟩
        obtain ⟨bc, bi, bf, bp, bo⟩ := beforeReplaced_spec i k s
        have ha : slotAlone i (some (freshSlot c)) s (setSlot i (some (freshSlot c)) (beforeReplaced i k s)) := by
          refine ⟨by simp [setSlot], fun j hj => ?_⟩
          have ne : (i : Nat) ≠ j := fun x => hj (Fin.ext x.symm)
          simpa [setSlot, Vector.getElem_set_ne, ne] using bc.claims j
        rw [moveSlot_eq]
        generalize hv : setSlot i (some (freshSlot c)) (beforeReplaced i k s) = v at ha
        have hvi : v.pu = s.pu ∧ v.cu.view = s.cu.view := by rw [← hv]; exact ⟨bp, bc.view⟩
        have hvo : s.cu.offered.isSome = true → v.cu.outbox = outboxWithout i k s ∧ v.cu.offered = s.cu.offered ∧
            v.cu.slots = s.cu.slots.set i (some (freshSlot c)) := by
          rw [← hv]; intro h
          refine ⟨(bo h).1, (bo h).2.1, ?_⟩
          show (beforeReplaced i k s).cu.slots.set i _ = _
          rw [(bo h).2.2]
        have p : Posts v (if k.held ≠ .view then raise .claimChange v else v) := by
          split
          · exact raise_posts _ _
          · exact .refl _
        have ev : k.held ≠ .view → (if k.held ≠ .view then raise .claimChange v else v).mu.events &&& EventKind.bit .claimChange ≠ 0 := by
          intro h; rw [if_pos h]; exact raise_pending _ _
        generalize (if k.held ≠ .view then raise .claimChange v else v) = u at p ev
        obtain ⟨rc, rp, rk, ro⟩ := addressChangeReport_spec i u
        have re : k.held ≠ .view → (addressChangeReport i u).mu.events &&& EventKind.bit .claimChange ≠ 0 := fun h =>
          (addressChangeReport_keeps i (.refl u)).events _ (ev h)
        generalize addressChangeReport i u = r at rc rp rk ro re
        have dc := claimReport_delivers none (.refl r)
        have de : k.held ≠ .view → (claimReport none r).mu.events &&& EventKind.bit .claimChange ≠ 0 := fun h =>
          (claimReport_keeps none (.refl r)).events _ (re h)
        generalize claimReport none r = x at dc de
        have xc : x.cu = v.cu := dc.cu.trans (rc.trans p.cu)
        have xp : x.pu = s.pu := dc.pu.trans (rp.trans (p.pu.trans hvi.1))
        have xs : x.cu.slots[i] = some ⟨c, .view, none, none, .none⟩ := by rw [xc]; exact ha.1
        have xn : nodePresent x c.addr = nodePresent s a := by
          rw [hca]; unfold nodePresent; rw [xc, hvi.2]
        have f := autoShare_fresh i c xs
        have ai : (autoShare i x).iu = x.iu := by
          by_cases h : c.autoShare = true ∧ nodePresent x c.addr = true ∧ x.pu.power = .active
          · rw [f.1 h]; exact (requested_iu _ _ _ _).1
          · rw [f.2]
            by_cases h1 : c.autoShare = true
            · by_cases h2 : nodePresent x c.addr = true
              · exact .inr (.inr (by cases hpw : x.pu.power with
                  | active => exact absurd ⟨h1, h2, hpw⟩ h
                  | standby => rfl))
              · exact .inr (.inl (by simpa using h2))
            · exact .inl (by simpa using h1)
        refine ⟨fun h => ?_, fun h1 h2 h3 => ⟨fun j => ?_, fun ho => ?_⟩, fun h => (autoShare_keeps i (.refl x)).events _ (de h), fun y hy => ?_, fun j hj => ?_⟩
        · rw [f.2 (by rw [xn, xp]; exact h)]
          refine ⟨⟨by rw [xc]; exact ha.1, fun j hj => by rw [xc]; exact ha.2 j hj⟩, fun ho => ?_⟩
          rw [xc]; exact (hvo ho).1
        · rw [f.1 ⟨h1, by rw [xn]; exact h2, by rw [xp]; exact h3⟩, requested_claims]
          by_cases hj : j = i
          · rw [if_pos hj, if_pos hj]
          · rw [if_neg hj, if_neg hj, xc]; exact ha.2 j hj
        · rw [f.1 ⟨h1, by rw [xn]; exact h2, by rw [xp]; exact h3⟩]
          unfold requested
          rw [pumpOutbox_offered _ (by show x.cu.offered.isSome = true; rw [xc, (hvo ho).2.1]; exact ho)]
          refine ⟨by simp, ?_⟩
          show x.cu.outbox ++ _ = _
          rw [xc, (hvo ho).1, hca]
        · rw [ai] at hy; exact rk y (dc.hands.keys y hy)
        · rw [ai] at hj; exact ro j (dc.hands.owners j i hj)

end Sys2Proof.Machine
end

