-- ==== Sys2Proof/Laws/Departures.lean ====
section
/-! SUPPORT. A departure of the ELP from UP while a RESET response waits in the insertion queue (R16, R179, R193). -/

namespace Sys2Proof.Machine

open Sys2Proof

/-- With a soft reset due no notice is built, so an event changes the management unit alone (R179, R184). -/
theorem raise_due (k : EventKind) {t : State} (h : t.mu.resetDue = true) : ∃ m, raise k t = t.setMu m ∧ m.resetDue = true := by
  have tn (u : State) (hu : u.mu.resetDue = true) : tryNotice u = u := by
    unfold tryNotice
    rw [if_neg]
    rintro ⟨-, -, -, x⟩
    exact x hu
  unfold raise
  dsimp only
  split
  · unfold makeDue
    split
    · rw [tn _ (by exact h)]
      exact ⟨_, rfl, h⟩
    · exact ⟨_, rfl, h⟩
  · exact ⟨_, rfl, h⟩

theorem setMu_setMu (t : State) (m n : Mu) : (t.setMu m).setMu n = t.setMu n := rfl

/-- What follows a departure from UP with a soft reset due. -/
theorem afterLeavingUp_due {t : State} (h : t.mu.resetDue = true) : ∃ r m, afterLeavingUp t = (t.setRf r).setMu m ∧
    r.passQ = t.rf.passQ ∧ r.sending = t.rf.sending ∧ r.share = t.rf.share ∧ m.resetDue = true := by
  have ec : ∃ r, endClosure t = t.setRf r ∧ r.passQ = t.rf.passQ ∧ r.sending = t.rf.sending ∧ r.share = t.rf.share := by
    unfold endClosure
    split <;> exact ⟨_, rfl, rfl, rfl, rfl⟩
  obtain ⟨r, hr, r1, r2, r3⟩ := ec
  unfold afterLeavingUp
  rw [hr]
  dsimp only
  obtain ⟨m, hm, m1⟩ := raise_due .linkDown (t := (t.setRf r).setRf { r with ring := derivedRing (t.setRf r) }) h
  rw [State.setRf_rf, hm]
  split
  · obtain ⟨m', hm', m1'⟩ := raise_due .ringState (t := ((t.setRf r).setRf { r with ring := derivedRing (t.setRf r) }).setMu m) m1
    rw [hm']
    exact ⟨_, m', rfl, r1, r2, r3, m1'⟩
  · exact ⟨_, m, rfl, r1, r2, r3, m1⟩

/-- The ELP has left UP with a RESET response waiting: the soft reset is due, and the egress is empty (R28, R32, R179). -/
theorem elpLeft_due {t : State} {w : Work} (hw : t.mu.work = some w) (hq : w.resetQueued = true) : ∃ r m,
    elpLeft t = ((t.setElp { t.elp with linkDown := bump t.elp.linkDown }).setRf r).setMu m ∧ r.passQ = [] ∧ r.sending = none ∧
    r.share = 0 ∧ m.resetDue = true := by
  unfold elpLeft
  dsimp only
  rw [if_pos (by show ((t.mu.work.map (·.resetQueued)).getD false) = true; rw [hw]; exact hq)]
  obtain ⟨r, m, hr, r1, r2, r3, r4⟩ := afterLeavingUp_due (t := (egressLost (t.setElp { t.elp with linkDown := bump t.elp.linkDown })).setMu
    { (egressLost (t.setElp { t.elp with linkDown := bump t.elp.linkDown })).mu with resetDue := true }) rfl
  exact ⟨r, m, hr, r1, r2, r3, r4⟩

/-- What a reset that cuts a save short leaves alone (R196). -/
theorem abandonSave_blocks (t : State) : (abandonSave t).wlp = t.wlp ∧ (abandonSave t).elp = t.elp ∧ (abandonSave t).rf = t.rf ∧
    (abandonSave t).sr = t.sr ∧ (abandonSave t).cp = t.cp ∧ (abandonSave t).pu = t.pu ∧ (abandonSave t).cl = t.cl ∧
    (abandonSave t).desk = t.desk ∧ (abandonSave t).lineOut = t.lineOut ∧ (abandonSave t).pending = t.pending := by
  unfold abandonSave
  split
  · exact ⟨rfl, rfl, rfl, rfl, rfl, rfl, rfl, rfl, rfl, rfl⟩
  · dsimp only
    split <;> exact ⟨rfl, rfl, rfl, rfl, rfl, rfl, rfl, rfl, rfl, rfl⟩
  · exact ⟨rfl, rfl, rfl, rfl, rfl, rfl, rfl, rfl, rfl, rfl⟩

/-- A soft reset, from the state it begins in (R193). -/
theorem softReset_begun (t : State) : ResetBegun t (softReset t) ∧ (softReset t).elp = { t.elp with linkDown := 0 } ∧
    (softReset t).rf.passQ = t.rf.passQ ∧ (softReset t).rf.sending = t.rf.sending ∧ (softReset t).rf.share = t.rf.share := by
  obtain ⟨a1, a2, a3, a4, a5, a6, a7, a8, a9, a10⟩ := abandonSave_blocks t
  unfold softReset
  dsimp only
  refine ⟨⟨?_, ?_, ?_, rfl, rfl, rfl, rfl, ?_, ?_, rfl⟩, ?_, ?_, ?_, ?_⟩
  · show ({ (abandonSave t).cl with loader := _, cold := _, save := _, snapshot := _ } : Cl) = _
    rw [a7]
  · show ({ (abandonSave t).wlp with linkDown := _, crcErrors := _, truncated := _ } : Wlp) = _
    rw [a1]
  · rfl
  · show srStart (abandonSave t).sr.lines = _
    rw [a4]
  · exact a8
  · show ({ (abandonSave t).elp with linkDown := _ } : Elp) = _
    rw [a2]
  · show (abandonSave t).rf.passQ = _
    rw [a3]
  · show (abandonSave t).rf.sending = _
    rw [a3]
  · show (abandonSave t).rf.share = _
    rw [a3]

end Sys2Proof.Machine
end

