-- ==== Sys2Proof/Laws/NextWindow.lean ====
section
/-! SUPPORT. The window and the pixel that NEXT_WINDOW finds are those that R109 describes. -/

namespace Sys2Proof.Machine

open Sys2Proof

/-! ## The first pixel a window owns -/

/-- A pixel stands before another: above it, or left of it in its line (R109). -/
def earlier (p q : Nat × Nat) : Prop := p.2 < q.2 ∨ (p.2 = q.2 ∧ p.1 < q.1)

theorem ownsPixel_iff (w : Window) (later : List Window) (px py : Nat) : ownsPixel w later px py = true ↔
    winContains w px py = true ∧ ∀ v ∈ later, winContains v px py = false := by
  unfold ownsPixel
  rw [Bool.and_eq_true, List.all_eq_true]
  simp only [Bool.not_eq_true']

theorem winContains_iff (w : Window) (px py : Nat) : winContains w px py = true ↔
    (w.x ≤ px ∧ px < w.x + w.w) ∧ w.y ≤ py ∧ py < w.y + w.h := by
  unfold winContains within
  simp only [Bool.and_eq_true, decide_eq_true_eq]
  omega

/-- The greatest member of a list that does not exceed a bound. -/
theorem greatest_below (l : List Nat) (a b : Nat) (ha : a ∈ l) (hb : a ≤ b) : ∃ m ∈ l, m ≤ b ∧ ∀ n ∈ l, n ≤ b → n ≤ m := by
  induction l with
  | nil => cases ha
  | cons c l ih =>
    by_cases hm : ∃ x ∈ l, x ≤ b
    · obtain ⟨x, hx, hxb⟩ := hm
      have : ∃ m ∈ l, m ≤ b ∧ ∀ n ∈ l, n ≤ b → n ≤ m := by
        clear ha ih
        induction l generalizing x with
        | nil => cases hx
        | cons d l ih =>
          by_cases hd : ∃ y ∈ l, y ≤ b
          · obtain ⟨y, hy, hyb⟩ := hd
            obtain ⟨m, h1, h2, h3⟩ := ih y hy hyb
            by_cases hc : d ≤ b ∧ m < d
            · refine ⟨d, List.mem_cons_self, hc.1, fun n hn hnb => ?_⟩
              rcases List.mem_cons.1 hn with rfl | hn
              · exact Nat.le_refl _
              · exact Nat.le_trans (h3 n hn hnb) (Nat.le_of_lt hc.2)
            · refine ⟨m, List.mem_cons_of_mem _ h1, h2, fun n hn hnb => ?_⟩
              rcases List.mem_cons.1 hn with rfl | hn
              · omega
              · exact h3 n hn hnb
          · rcases List.mem_cons.1 hx with rfl | hx
            · refine ⟨x, List.mem_cons_self, hxb, fun n hn hnb => ?_⟩
              rcases List.mem_cons.1 hn with rfl | hn
              · exact Nat.le_refl _
              · exact absurd ⟨n, hn, hnb⟩ hd
            · exact absurd ⟨x, hx, hxb⟩ hd
      obtain ⟨m, h1, h2, h3⟩ := this
      by_cases hc : c ≤ b ∧ m < c
      · refine ⟨c, List.mem_cons_self, hc.1, fun n hn hnb => ?_⟩
        rcases List.mem_cons.1 hn with rfl | hn
        · exact Nat.le_refl _
        · exact Nat.le_trans (h3 n hn hnb) (Nat.le_of_lt hc.2)
      · refine ⟨m, List.mem_cons_of_mem _ h1, h2, fun n hn hnb => ?_⟩
        rcases List.mem_cons.1 hn with rfl | hn
        · omega
        · exact h3 n hn hnb
    · rcases List.mem_cons.1 ha with rfl | ha
      · refine ⟨a, List.mem_cons_self, hb, fun n hn hnb => ?_⟩
        rcases List.mem_cons.1 hn with rfl | hn
        · exact Nat.le_refl _
        · exact absurd ⟨n, hn, hnb⟩ hm
      · exact absurd ⟨a, ha, hb⟩ hm

/-- The pixels that the search looks at. -/
def searched (w : Window) (later : List Window) : List (Nat × Nat) :=
  ((w.y :: later.map fun v => v.y + v.h).flatMap fun y => (w.x :: later.map fun v => v.x + v.w).map fun x => (x, y)).filter
    fun p => ownsPixel w later p.1 p.2

/-- No owned pixel stands before all that the search looks at. -/
theorem searched_first (w : Window) (later : List Window) (px py : Nat) (h : ownsPixel w later px py = true) :
    ∃ c ∈ searched w later, ¬ earlier (px, py) c := by
  obtain ⟨hw, hv⟩ := (ownsPixel_iff _ _ _ _).1 h
  have hw := (winContains_iff _ _ _).1 hw
  obtain ⟨y, hy, hyb, hym⟩ := greatest_below (w.y :: later.map fun v => v.y + v.h) w.y py List.mem_cons_self hw.2.1
  obtain ⟨x, hx, hxb, hxm⟩ := greatest_below (w.x :: later.map fun v => v.x + v.w) w.x px List.mem_cons_self hw.1.1
  have hwy := hym w.y List.mem_cons_self hw.2.1
  have hwx := hxm w.x List.mem_cons_self hw.1.1
  refine ⟨(x, y), ?_, ?_⟩
  · unfold searched
    rw [List.mem_filter]
    refine ⟨List.mem_flatMap.2 ⟨y, hy, List.mem_map.2 ⟨x, hx, rfl⟩⟩, (ownsPixel_iff _ _ _ _).2 ⟨?_, fun v hm => ?_⟩⟩
    · rw [winContains_iff]; omega
    · have hn := hv v hm
      have hvy := hym (v.y + v.h) (List.mem_cons_of_mem _ (List.mem_map.2 ⟨v, hm, rfl⟩))
      have hvx := hxm (v.x + v.w) (List.mem_cons_of_mem _ (List.mem_map.2 ⟨v, hm, rfl⟩))
      rw [Bool.eq_false_iff, Ne, winContains_iff] at hn ⊢
      omega
  · unfold earlier
    simp only
    omega

/-- The fold of the search ends with a pixel that none of the list stands before. -/
theorem firstOf (l : List (Nat × Nat)) (b : Option (Nat × Nat)) :
    let r := l.foldl (fun best p => match best with
      | none => some p
      | some b => if p.2 < b.2 ∨ (p.2 = b.2 ∧ p.1 < b.1) then some p else some b) b
    (r = none ↔ b = none ∧ l = []) ∧
      ∀ p, r = some p → (b = some p ∨ p ∈ l) ∧ (∀ q ∈ l, ¬ earlier q p) ∧ ∀ q, b = some q → ¬ earlier q p := by
  induction l generalizing b with
  | nil =>
    refine ⟨by simp, fun p hp => ⟨.inl hp, nofun, fun q hq => ?_⟩⟩
    have hp : b = some p := hp
    rw [hq] at hp
    cases hp
    unfold earlier
    omega
  | cons a l ih =>
    intro r
    cases b with
    | none =>
      obtain ⟨i1, i2⟩ := ih (some a)
      refine ⟨by rw [show r = none ↔ _ from i1]; simp, fun p hp => ?_⟩
      obtain ⟨h1, h2, h3⟩ := i2 p hp
      refine ⟨.inr ?_, fun q hq => ?_, nofun⟩
      · rcases h1 with h1 | h1
        · cases h1; exact List.mem_cons_self
        · exact List.mem_cons_of_mem _ h1
      · rcases List.mem_cons.1 hq with rfl | hq
        · exact h3 q rfl
        · exact h2 q hq
    | some c =>
      by_cases hc : a.2 < c.2 ∨ (a.2 = c.2 ∧ a.1 < c.1)
      · obtain ⟨i1, i2⟩ := ih (some a)
        have hr : r = l.foldl (fun best p => match best with
            | none => some p
            | some b => if p.2 < b.2 ∨ (p.2 = b.2 ∧ p.1 < b.1) then some p else some b) (some a) := by
          show l.foldl _ (if a.2 < c.2 ∨ (a.2 = c.2 ∧ a.1 < c.1) then some a else some c) = _
          rw [if_pos hc]
        rw [← hr] at i1 i2
        refine ⟨by rw [i1]; simp, fun p hp => ?_⟩
        obtain ⟨h1, h2, h3⟩ := i2 p hp
        have ha := h3 a rfl
        refine ⟨.inr ?_, fun q hq => ?_, fun q hq => ?_⟩
        · rcases h1 with h1 | h1
          · cases h1; exact List.mem_cons_self
          · exact List.mem_cons_of_mem _ h1
        · rcases List.mem_cons.1 hq with rfl | hq
          · exact ha
          · exact h2 q hq
        · cases hq
          unfold earlier at ha ⊢
          omega
      · obtain ⟨i1, i2⟩ := ih (some c)
        have hr : r = l.foldl (fun best p => match best with
            | none => some p
            | some b => if p.2 < b.2 ∨ (p.2 = b.2 ∧ p.1 < b.1) then some p else some b) (some c) := by
          show l.foldl _ (if a.2 < c.2 ∨ (a.2 = c.2 ∧ a.1 < c.1) then some a else some c) = _
          rw [if_neg hc]
        rw [← hr] at i1 i2
        refine ⟨by rw [i1]; simp, fun p hp => ?_⟩
        obtain ⟨h1, h2, h3⟩ := i2 p hp
        have ha := h3 c rfl
        refine ⟨h1.imp id (List.mem_cons_of_mem _), fun q hq => ?_, fun q hq => ?_⟩
        · rcases List.mem_cons.1 hq with rfl | hq
          · unfold earlier at ha ⊢
            omega
          · exact h2 q hq
        · cases hq
          exact ha

/-- The first pixel a window owns (R109). -/
theorem firstOwned_spec (w : Window) (later : List Window) :
    (firstOwned w later = none ↔ ∀ px py : Nat, ownsPixel w later px py = false) ∧
    ∀ p, firstOwned w later = some p → ownsPixel w later p.1 p.2 = true ∧
      ∀ px py : Nat, ownsPixel w later px py = true → ¬ earlier (px, py) p := by
  obtain ⟨h1, h2⟩ := firstOf (searched w later) none
  have e : firstOwned w later = (searched w later).foldl (fun best p => match best with
      | none => some p
      | some b => if p.2 < b.2 ∨ (p.2 = b.2 ∧ p.1 < b.1) then some p else some b) none := rfl
  rw [← e] at h1 h2
  have mem {p : Nat × Nat} (hp : p ∈ searched w later) : ownsPixel w later p.1 p.2 = true := (List.mem_filter.1 hp).2
  refine ⟨h1.trans ⟨fun h px py => ?_, fun h => ⟨rfl, ?_⟩⟩, fun p hp => ?_⟩
  · cases ho : ownsPixel w later px py with
    | false => rfl
    | true =>
      obtain ⟨c, hc, _⟩ := searched_first w later px py ho
      rw [h.2] at hc
      cases hc
  · cases hs : searched w later with
    | nil => rfl
    | cons c l =>
      have := mem (p := c) (by rw [hs]; exact List.mem_cons_self)
      rw [h] at this
      cases this
  · obtain ⟨k1, k2, _⟩ := h2 p hp
    refine ⟨mem (k1.resolve_left nofun), fun px py ho => ?_⟩
    obtain ⟨c, hc, hn⟩ := searched_first w later px py ho
    have := k2 c hc
    unfold earlier at *
    simp only at hn
    omega

/-! ## The list of R109 -/

theorem withLater_get (ws : List Window) (k : Nat) : (withLater ws)[k]? = ws[k]?.map fun w => (w, ws.drop (k + 1)) := by
  induction ws generalizing k with
  | nil => rfl
  | cons w ws ih =>
    cases k with
    | zero => rfl
    | succ k => exact ih k

theorem owns_iff (s : State) (h : Fin 4) (k px py : Nat) (w : Window) (hw : s.cp.active[h][k]? = some w) :
    Owns s h k px py ↔ ownsPixel w (s.cp.active[h].drop (k + 1)) px py = true := by
  rw [ownsPixel_iff]
  unfold Owns
  rw [hw]
  constructor
  · rintro ⟨v, hv, h1, h2⟩
    cases hv
    exact ⟨h1, h2⟩
  · rintro ⟨h1, h2⟩
    exact ⟨w, rfl, h1, h2⟩

/-- What the list of NEXT_WINDOW holds for a window with those after it. -/
def candidate (s : State) (h : Fin 4) (wl : Window × List Window) : Option (Focus × Nat × Nat) :=
  match focusable s wl.1, firstOwned wl.1 wl.2 with
  | some k, some p =>
    let q := if ownsPixel wl.1 wl.2 (wl.1.x + wl.1.w / 2 : Nat) (wl.1.y + wl.1.h / 2 : Nat)
      then (wl.1.x + wl.1.w / 2, wl.1.y + wl.1.h / 2) else p
    some (⟨k, h, wl.1.id⟩, s.cp.heads[h].ox + q.1, s.cp.heads[h].oy + q.2)
  | _, _ => none

/-- The places of all windows, head 0 first, each head's in list order; a disabled head has none. -/
def places (s : State) : List (Fin 4 × Nat) :=
  (List.finRange 4).flatMap fun h => if s.cp.heads[h].enabled then (List.range s.cp.active[h].length).map fun k => (h, k) else []

/-- The candidate at a place. -/
def candidateAt (s : State) (p : Fin 4 × Nat) : Option (Focus × Nat × Nat) :=
  s.cp.active[p.1][p.2]?.bind fun w => candidate s p.1 (w, s.cp.active[p.1].drop (p.2 + 1))

theorem withLater_range (ws : List Window) (f : Window × List Window → Option (Focus × Nat × Nat)) :
    (withLater ws).filterMap f = (List.range ws.length).filterMap fun k => ws[k]?.bind fun w => f (w, ws.drop (k + 1)) := by
  induction ws with
  | nil => rfl
  | cons w ws ih =>
    rw [List.length_cons, List.range_succ_eq_map, List.filterMap_cons, List.filterMap_map]
    unfold withLater
    rw [List.filterMap_cons, ih]
    rfl

theorem nextCandidates_places (s : State) : nextCandidates s = (places s).filterMap (candidateAt s) := by
  unfold nextCandidates places
  rw [List.filterMap_flatMap]
  congr 1
  funext h
  split
  · rw [List.filterMap_map]
    exact withLater_range _ (candidate s h)
  · rfl

theorem places_before (s : State) : (places s).Pairwise fun p q => before p.1 p.2 q.1 q.2 := by
  unfold places
  rw [List.pairwise_flatMap]
  refine ⟨fun h _ => ?_, ?_⟩
  · split
    · rw [List.pairwise_map]
      exact (List.pairwise_lt_range).imp fun h => .inr ⟨rfl, h⟩
    · exact .nil
  · refine (show (List.finRange 4).Pairwise (· < ·) from by decide).imp fun {a b} hab x hx y hy => .inl ?_
    split at hx <;> split at hy <;> first | cases hx | cases hy | skip
    obtain ⟨i, _, rfl⟩ := List.mem_map.1 hx
    obtain ⟨j, _, rfl⟩ := List.mem_map.1 hy
    exact hab

theorem mem_places (s : State) (h : Fin 4) (k : Nat) (w : Window) (he : s.cp.heads[h].enabled = true)
    (hw : s.cp.active[h][k]? = some w) : (h, k) ∈ places s := by
  unfold places
  refine List.mem_flatMap.2 ⟨h, List.mem_finRange h, ?_⟩
  rw [if_pos he]
  exact List.mem_map.2 ⟨k, List.mem_range.2 (List.getElem?_eq_some_iff.1 hw).1, rfl⟩

theorem places_enabled (s : State) {h : Fin 4} {k : Nat} (hp : (h, k) ∈ places s) : s.cp.heads[h].enabled = true := by
  unfold places at hp
  obtain ⟨a, _, hm⟩ := List.mem_flatMap.1 hp
  split at hm
  · rename_i he
    obtain ⟨i, _, hi⟩ := List.mem_map.1 hm
    cases hi
    exact he
  · cases hm

/-- A place has a candidate exactly where a listed window stands, and it is that window at the pixel of R109. -/
theorem candidateAt_spec (s : State) (h : Fin 4) (k : Nat) (hp : (h, k) ∈ places s) :
    ((candidateAt s (h, k)).isSome = true ↔ ∃ w, Listed s h k w) ∧
    ∀ c, candidateAt s (h, k) = some c → ∃ w g q, Listed s h k w ∧ focusable s w = some g ∧ NextPixel s h k w q ∧
      c = (⟨g, h, w.id⟩, s.cp.heads[h].ox + q.1, s.cp.heads[h].oy + q.2) := by
  have he := places_enabled s hp
  unfold candidateAt
  cases hw : s.cp.active[h][k]? with
  | none =>
    simp only [Option.bind_none]
    refine ⟨⟨nofun, fun ⟨w, hl⟩ => ?_⟩, nofun⟩
    rw [hl.place] at hw
    cases hw
  | some w =>
    simp only [Option.bind_some]
    obtain ⟨f1, f2⟩ := firstOwned_spec w (s.cp.active[h].drop (k + 1))
    have ow := fun px py => owns_iff s h k px py w hw
    unfold candidate
    cases hf : focusable s w with
    | none =>
      simp only
      refine ⟨⟨nofun, fun ⟨v, hl⟩ => ?_⟩, nofun⟩
      have := hl.place
      rw [hw] at this
      cases this
      have := hl.input
      rw [hf] at this
      cases this
    | some g =>
      cases ho : firstOwned w (s.cp.active[h].drop (k + 1)) with
      | none =>
        simp only
        refine ⟨⟨nofun, fun ⟨v, hl⟩ => ?_⟩, nofun⟩
        have := hl.place
        rw [hw] at this
        cases this
        obtain ⟨px, py, hs⟩ := hl.seen
        have := f1.1 ho px py
        rw [(ow px py).1 hs] at this
        cases this
      | some p =>
        obtain ⟨p1, p2⟩ := f2 p ho
        have hl : Listed s h k w := ⟨he, hw, by rw [hf]; rfl, p.1, p.2, (ow _ _).2 p1⟩
        simp only
        refine ⟨⟨fun _ => ⟨w, hl⟩, fun _ => rfl⟩, fun c hc => ?_⟩
        refine ⟨w, g, _, hl, hf, ⟨fun hcen => ?_, fun hcen => ?_⟩, (Option.some.inj hc).symm⟩
        · rw [if_pos ((ow _ _).1 hcen)]
        · rw [if_neg (fun x => hcen ((ow _ _).2 x))]
          refine ⟨(ow _ _).2 p1, fun px py hs => ?_⟩
          have := p2 px py ((ow _ _).1 hs)
          unfold earlier at this
          simp only at this
          omega

/-! ## The window that is next -/

theorem before_irrefl (h : Fin 4) (k : Nat) : ¬ before h k h k := by unfold before; omega

theorem before_asymm {h h' : Fin 4} {k k' : Nat} (a : before h k h' k') : ¬ before h' k' h k := by unfold before at *; omega

theorem before_total {h h' : Fin 4} {k k' : Nat} (a : (h, k) ≠ (h', k')) : before h k h' k' ∨ before h' k' h k := by
  unfold before
  rcases Nat.lt_trichotomy h.val h'.val with x | x | x
  · exact .inl (.inl x)
  · have hh := Fin.ext x
    subst hh
    rcases Nat.lt_trichotomy k k' with y | y | y
    · exact .inl (.inr ⟨rfl, y⟩)
    · subst y; exact absurd rfl a
    · exact .inr (.inr ⟨rfl, y⟩)
  · exact .inr (.inl x)

/-- The candidates with their places. -/
def placed (s : State) : List ((Fin 4 × Nat) × Focus × Nat × Nat) :=
  (places s).filterMap fun p => (candidateAt s p).map fun c => (p, c)

theorem nextCandidates_placed (s : State) : nextCandidates s = (placed s).map (·.2) := by
  rw [nextCandidates_places]
  unfold placed
  rw [List.map_filterMap]
  congr 1
  funext p
  cases candidateAt s p <;> rfl

theorem placed_before (s : State) : (placed s).Pairwise fun a b => before a.1.1 a.1.2 b.1.1 b.1.2 := by
  unfold placed
  rw [List.pairwise_filterMap]
  refine (places_before s).imp fun {a b} hab x hx y hy => ?_
  obtain ⟨c, _, rfl⟩ := Option.map_eq_some_iff.1 hx
  obtain ⟨d, _, rfl⟩ := Option.map_eq_some_iff.1 hy
  exact hab

theorem placed_listed (s : State) {h : Fin 4} {k : Nat} {c : Focus × Nat × Nat} (hm : ((h, k), c) ∈ placed s) :
    ∃ w g q, Listed s h k w ∧ focusable s w = some g ∧ NextPixel s h k w q ∧
      c = (⟨g, h, w.id⟩, s.cp.heads[h].ox + q.1, s.cp.heads[h].oy + q.2) := by
  unfold placed at hm
  obtain ⟨p, hp, hc⟩ := List.mem_filterMap.1 hm
  obtain ⟨d, hd, he⟩ := Option.map_eq_some_iff.1 hc
  cases he
  exact (candidateAt_spec s h k hp).2 c hd

theorem listed_placed (s : State) {h : Fin 4} {k : Nat} {w : Window} (hl : Listed s h k w) : ∃ c, ((h, k), c) ∈ placed s := by
  have hp := mem_places s h k w hl.enabled hl.place
  have := (candidateAt_spec s h k hp).1.2 ⟨w, hl⟩
  obtain ⟨c, hc⟩ := Option.isSome_iff_exists.1 this
  exact ⟨c, List.mem_filterMap.2 ⟨(h, k), hp, by rw [hc]; rfl⟩⟩

theorem Listed.same {s : State} {h : Fin 4} {k : Nat} {v w : Window} (a : Listed s h k v) (b : Listed s h k w) : v = w :=
  Option.some.inj (a.place.symm.trans b.place)

/-- The pixel of R109 is one. -/
theorem NextPixel.same {s : State} {h : Fin 4} {k : Nat} {w : Window} {p q : Nat × Nat} (a : NextPixel s h k w p)
    (b : NextPixel s h k w q) : p = q := by
  by_cases c : Owns s h k (w.x + w.w / 2) (w.y + w.h / 2)
  · exact (a.centre c).trans (b.centre c).symm
  · obtain ⟨a1, a2⟩ := a.first c
    obtain ⟨b1, b2⟩ := b.first c
    have x := a2 q.1 q.2 b1
    have y := b2 p.1 p.2 a1
    exact Prod.ext (by omega) (by omega)

/-- NEXT_WINDOW's target with no window listed. -/
theorem nextTarget_none (s : State) (h : ∀ h k w, ¬ Listed s h k w) : nextTarget s.fu.focus (nextCandidates s) = none := by
  have e : placed s = [] := by
    cases hp : placed s with
    | nil => rfl
    | cons a l =>
      obtain ⟨w, _, _, hl, _⟩ := placed_listed s (h := a.1.1) (k := a.1.2) (c := a.2) (by rw [hp]; exact List.mem_cons_self)
      exact absurd hl (h _ _ _)
  rw [nextCandidates_placed, e]
  unfold nextTarget
  split
  · rfl
  · rfl

/-- NEXT_WINDOW's target is the window that R109 names, at its pixel. -/
theorem nextTarget_spec (s : State) (h : Fin 4) (k : Nat) (w : Window) (q : Nat × Nat) (g : Fin 16) (n : NextWindow s h k w)
    (hq : NextPixel s h k w q) (hg : focusable s w = some g) : nextTarget s.fu.focus (nextCandidates s) =
      some (⟨g, h, w.id⟩, s.cp.heads[h].ox + q.1, s.cp.heads[h].oy + q.2) := by
  obtain ⟨c, hc⟩ := listed_placed s n.listed
  have ce : c = (⟨g, h, w.id⟩, s.cp.heads[h].ox + q.1, s.cp.heads[h].oy + q.2) := by
    obtain ⟨v, g', q', hl, hf, hn, e⟩ := placed_listed s hc
    have := hl.same n.listed
    subst this
    rw [hg] at hf
    cases hf
    rw [e, hn.same hq]
  rw [← ce]
  have pw := placed_before s
  -- a place before which nothing listed stands is the first
  have head : (∀ h' k' w', Listed s h' k' w' → ¬ before h' k' h k) → (placed s).head?.map (·.2) = some c := by
    intro hb
    cases hp : placed s with
    | nil => rw [hp] at hc; cases hc
    | cons a l =>
      rw [hp] at hc pw
      rcases List.mem_cons.1 hc with e | hm
      · rw [← e]; rfl
      · have hx := (List.pairwise_cons.1 pw).1 _ hm
        obtain ⟨v, _, _, hl, _⟩ := placed_listed s (h := a.1.1) (k := a.1.2) (c := a.2) (by rw [hp]; exact List.mem_cons_self)
        exact absurd hx (hb _ _ _ hl)
  have hm : nextTarget s.fu.focus (nextCandidates s) = nextTarget s.fu.focus ((placed s).map (·.2)) := by rw [nextCandidates_placed]
  rw [hm]
  by_cases hfoc : ∀ h' k' w', Listed s h' k' w' → ¬ hasFocus s h' w'
  · have hh := head (n.first hfoc)
    cases hf : s.fu.focus with
    | none => unfold nextTarget; rw [List.head?_map]; exact hh
    | some f =>
      have hd : (((placed s).map (·.2)).dropWhile fun c => ¬ (c.1.head = f.head ∧ c.1.win = f.win)) = [] := by
        rw [List.dropWhile_eq_nil_iff]
        intro x hx
        obtain ⟨a, ha, rfl⟩ := List.mem_map.1 hx
        obtain ⟨v, g', q', hl, _, _, e⟩ := placed_listed s (h := a.1.1) (k := a.1.2) (c := a.2) ha
        rw [e]
        simp only [decide_eq_true_eq]
        rintro ⟨h1, h2⟩
        exact hfoc _ _ _ hl ⟨f, hf, h1.symm, h2.symm⟩
      unfold nextTarget
      simp only [hd]
      rw [List.head?_map]
      exact hh
  · have : ∃ h' k' w', Listed s h' k' w' ∧ hasFocus s h' w' := by
      by_contra hx
      exact hfoc fun h' k' w' a b => hx ⟨h', k', w', a, b⟩
    obtain ⟨h1, k1, w1, l1, f, hf, e1, e2⟩ := this
    have hd : ∃ d t, (((placed s).map (·.2)).dropWhile fun c => ¬ (c.1.head = f.head ∧ c.1.win = f.win)) = (d :: t).map (·.2) ∧
        (∃ p, placed s = p ++ d :: t) ∧ d.2.1.head = f.head ∧ d.2.1.win = f.win := by
      rw [List.dropWhile_map]
      obtain ⟨c1, hc1⟩ := listed_placed s l1
      obtain ⟨v, g', q', hl, _, _, e⟩ := placed_listed s hc1
      have := hl.same l1
      subst this
      generalize hP : ((fun c : Focus × Nat × Nat => decide ¬ (c.1.head = f.head ∧ c.1.win = f.win)) ∘
        fun x : (Fin 4 × Nat) × Focus × Nat × Nat => x.2) = P
      have hpre : placed s = (placed s).takeWhile P ++ (placed s).dropWhile P := (List.takeWhile_append_dropWhile).symm
      cases hdw : (placed s).dropWhile P with
      | nil =>
        have := List.dropWhile_eq_nil_iff.1 hdw _ hc1
        rw [← hP, e] at this
        simp only [Function.comp, decide_eq_true_eq] at this
        exact absurd ⟨e1.symm, e2.symm⟩ this
      | cons d t =>
        rw [hdw] at hpre
        refine ⟨d, t, rfl, ⟨_, hpre⟩, ?_⟩
        have := List.head_dropWhile_not (p := P) (l := placed s) (by rw [hdw]; exact List.cons_ne_nil _ _)
        simp only [hdw, List.head_cons] at this
        rw [← hP] at this
        simp only [Function.comp, decide_eq_false_iff_not, not_not] at this
        exact this
    obtain ⟨d, t, hdw, ⟨p, hp⟩, d1, d2⟩ := hd
    have dl : ∃ v, Listed s d.1.1 d.1.2 v ∧ hasFocus s d.1.1 v := by
      obtain ⟨v, g', q', hl, _, _, e⟩ := placed_listed s (h := d.1.1) (k := d.1.2) (c := d.2) (by rw [hp]; simp)
      rw [e] at d1 d2
      exact ⟨v, hl, f, hf, d1.symm, d2.symm⟩
    obtain ⟨v, hl, hv⟩ := dl
    rw [hp] at pw
    have pwd := (List.pairwise_append.1 pw).2.1
    have inP {x} (hx : x ∈ placed s) : x ∈ p ∨ x = d ∨ x ∈ t := by rw [hp] at hx; simpa using hx
    rw [hf]
    unfold nextTarget
    simp only [hdw]
    cases t with
    | nil =>
      simp only [List.map_cons, List.map_nil]
      rcases n.follows _ _ _ hl hv with ⟨hb, _⟩ | hb
      · exfalso
        rcases inP hc with hx | hx | hx
        · exact before_asymm hb ((List.pairwise_append.1 pw).2.2 _ hx d List.mem_cons_self)
        · rw [← hx] at hb; exact before_irrefl _ _ hb
        · cases hx
      · rw [List.head?_map]
        exact head fun h' k' w' a => (hb h' k' w' a).2
    | cons x t =>
      simp only [List.map_cons]
      have hx : before d.1.1 d.1.2 x.1.1 x.1.2 := (List.pairwise_cons.1 pwd).1 x List.mem_cons_self
      obtain ⟨xw, _, _, xl, _⟩ := placed_listed s (h := x.1.1) (k := x.1.2) (c := x.2) (by rw [hp]; simp)
      rcases n.follows _ _ _ hl hv with ⟨hb, hnone⟩ | hb
      · have ex : x = ((h, k), c) := by
          rcases inP hc with hy | hy | hy
          · exact absurd hb (before_asymm ((List.pairwise_append.1 pw).2.2 _ hy d List.mem_cons_self))
          · rw [← hy] at hb; exact absurd hb (before_irrefl _ _)
          · rcases List.mem_cons.1 hy with hy | hy
            · exact hy.symm
            · have := (List.pairwise_cons.1 (List.pairwise_cons.1 pwd).2).1 _ hy
              exact absurd ⟨hx, this⟩ (hnone _ _ _ xl)
        rw [ex]
      · exact absurd hx (hb _ _ _ xl).1

end Sys2Proof.Machine
end

