-- ==== Sys2Proof/Laws/StandbyForms.lean ====
section
/-! SUPPORT. What release synthesis, an entry to STANDBY and a wake come to (R94, R107, R125, R152, R157, R158). -/

namespace Sys2Proof.Machine

open Sys2Proof

/-! ## The focus in STANDBY -/

theorem asTarget_standby {t : State} (h : t.pu.power = .standby) (x : Option (Fin 4 × Window)) : asTarget t x = none := by
  unfold asTarget focusable
  cases x with
  | none => rfl
  | some hw =>
    have : ∀ i, slotTakesInput t i = false := by
      intro i; unfold slotTakesInput
      split
      · simp [h]
      · rfl
    dsimp only [Option.bind_some]
    split
    · cases windowSlot t hw.2 with
      | none => rfl
      | some i => simp [this]
    · rfl

/-- With no focus and the lock clear, nothing becomes focus in STANDBY (R107). -/
theorem fuReevaluate_standby {t : State} (h : t.pu.power = .standby) (hf : t.fu.focus = none) (hl : t.fu.lock = false) :
    fuReevaluate t = t := by
  have hp : ∀ u : State, u.fu.focus = none → positionRequest append u = u := by
    intro u hu; unfold positionRequest requestedPoint; rw [hu]; rfl
  unfold fuReevaluate reevaluate
  rw [hf]
  simp only [Option.map_none, Option.getD_none, if_true, hl]
  rw [if_neg (by simp)]
  split
  · exact hp t hf
  · have : changeFocus (targetAtPointer t) t = t := by
      unfold changeFocus targetAtPointer; rw [asTarget_standby h, hf]
    rw [this]; exact hp t hf

theorem claimReport_standby {t : State} (h : t.pu.power = .standby) (hf : t.fu.focus = none) (hl : t.fu.lock = false) :
    claimReport none t = t := by
  unfold claimReport; rw [fuReevaluate_standby h hf hl]

/-! ## The releases -/

/-- A slot's record after its release to VIEW (R144). -/
def released (a : Byte) (k : Slot) : Slot :=
  { k with
    held := .view, request := none, holder := if k.held ≠ .view ∧ k.holder = some a then none else k.holder,
    outcome := if k.held ≠ .view ∨ k.request ≠ none then .released else k.outcome }

theorem released_congr (a : Byte) {x y : Option Slot} (h : claimOf x = claimOf y) : x.map (released a) = y.map (released a) := by
  unfold claimOf at h
  cases x with
  | none => cases y with
    | none => rfl
    | some y => cases h
  | some x => cases y with
    | none => cases h
    | some y =>
      obtain ⟨xc, xh, xr, xo, xl⟩ := x
      obtain ⟨yc, yh, yr, yo, yl⟩ := y
      simp only [Option.map_some, Option.some.injEq, Prod.mk.injEq] at h
      obtain ⟨h1, h2, h3, h4, h5⟩ := h
      subst h1 h2 h3 h4
      have : xr = none ↔ yr = none := by rw [← Option.map_eq_none_iff (f := fun r : Request => r.level), h5, Option.map_eq_none_iff]
      simp only [Option.map_some, released, ne_eq, this]

theorem standbyRelease_keeps (i : Fin 16) {s t : State} (h : Keeps s t) : Keeps s (standbyRelease i t) := by
  unfold standbyRelease
  split
  · exact releaseSlot_keeps _ _ _ h
  · exact h

/-- The release of a slot in STANDBY. -/
theorem standbyRelease_spec (i : Fin 16) {t : State} (h : t.pu.power = .standby) (hf : t.fu.focus = none) (hl : t.fu.lock = false) :
    (standbyRelease i t).fu = t.fu ∧ (standbyRelease i t).iu = t.iu ∧
    (standbyRelease i t).cu.slots[i] = t.cu.slots[i].map (released (own t)) ∧
    (∀ j : Fin 16, j ≠ i → claimOf (standbyRelease i t).cu.slots[j] = claimOf t.cu.slots[j]) ∧
    (∀ k, t.cu.slots[i] = some k → k.held ≠ .view → (standbyRelease i t).mu.events &&& EventKind.bit .claimChange ≠ 0) := by
  unfold standbyRelease
  cases hk : t.cu.slots[i] with
  | none => exact ⟨rfl, rfl, by simp [hk], fun _ _ => rfl, nofun⟩
  | some k =>
    dsimp only
    have hv : ∀ l : Level, l ≠ .view ↔ Level.rank .view < Level.rank l := by intro l; cases l <;> decide
    have lw : Level.lower .view k.held = .view := by unfold Level.lower; cases k.held <;> rfl
    obtain ⟨c, hc⟩ : ∃ c, c = if Level.rank .view < Level.rank k.held then claimReport none (raise .claimChange
        (setSlot i (some { k with held := .view, holder := holderAfter t .view k.holder }) t)) else t := ⟨_, rfl⟩
    have cf : c.fu = t.fu ∧ c.iu = t.iu ∧ c.cu = (if Level.rank .view < Level.rank k.held
        then { t.cu with slots := t.cu.slots.set i (some { k with held := .view, holder := holderAfter t .view k.holder }) } else t.cu) ∧
        (k.held ≠ .view → c.mu.events &&& EventKind.bit .claimChange ≠ 0) := by
      rw [hc]
      split
      · have p := raise_posts .claimChange (setSlot i (some { k with held := .view, holder := holderAfter t .view k.holder }) t)
        rw [claimReport_standby (by rw [p.pu]; exact h) (by rw [p.fu]; exact hf) (by rw [p.fu]; exact hl)]
        exact ⟨p.fu, p.iu, p.cu, fun _ => raise_pending _ _⟩
      · rename_i x
        exact ⟨rfl, rfl, rfl, fun y => absurd ((hv _).1 y) x⟩
    have cs : c.cu.slots[i] = some { k with held := .view, holder := if k.held ≠ .view ∧ k.holder = some (own t) then none else k.holder } := by
      rw [cf.2.2.1]
      by_cases x : k.held = .view
      · rw [if_neg (by rw [x]; decide), hk]
        have e : ({ k with held := .view, holder := if k.held ≠ .view ∧ k.holder = some (own t) then none else k.holder } : Slot) = k := by
          rw [if_neg (fun y => y.1 x)]
          obtain ⟨a, b, d, e, f⟩ := k
          simp only at x; subst x; rfl
        rw [e]
      · rw [if_pos ((hv _).1 x)]
        have : holderAfter t .view k.holder = if k.held ≠ .view ∧ k.holder = some (own t) then none else k.holder := by
          unfold holderAfter; simp [x]
        simp [this]
    have co : ∀ j : Fin 16, j ≠ i → c.cu.slots[j] = t.cu.slots[j] := by
      intro j hj
      have ne : (i : Nat) ≠ j := fun h => hj (Fin.ext h.symm)
      rw [cf.2.2.1]
      split
      · simp [Vector.getElem_set_ne, ne]
      · rfl
    obtain ⟨d, hd⟩ : ∃ d, d = if Level.rank .view < Level.rank k.held ∨ k.request.isSome = true
        then setSlot i (some { k with
          held := .view, holder := if k.held ≠ .view ∧ k.holder = some (own t) then none else k.holder, request := none,
          outcome := .released }) c else c := ⟨_, rfl⟩
    have e : releaseSlot i k .view t = if Level.rank .view < Level.rank k.held ∨ (k.request.isSome && !inOutbox .request i t) = true
        then queueRelease i .view k.content.addr d else removeRequest i d := by
      unfold releaseSlot
      dsimp only
      rw [lw, ← hc, cs]
      dsimp only
      rw [← hd]
    have hiff : (Level.rank .view < Level.rank k.held ∨ k.request.isSome = true) ↔ (k.held ≠ .view ∨ k.request ≠ none) := by
      rw [hv, Option.isSome_iff_ne_none]
    have ds : d.cu.slots[i] = some (released (own t) k) := by
      rw [hd]
      unfold released
      by_cases x : k.held ≠ .view ∨ k.request ≠ none
      · rw [if_pos (hiff.2 x), if_pos x]; simp [setSlot]
      · rw [if_neg (fun y => x (hiff.1 y)), if_neg x, cs]
        have : k.request = none := by by_contra y; exact x (.inr y)
        obtain ⟨a1, a2, a3, a4, a5⟩ := k
        simp only at this; subst this; rfl
    have dp : ∀ j : Fin 16, j ≠ i → d.cu.slots[j] = t.cu.slots[j] := by
      intro j hj
      rw [hd]
      split
      · have ne : (i : Nat) ≠ j := fun h => hj (Fin.ext h.symm)
        have := co j hj
        simpa [setSlot, Vector.getElem_set_ne, ne] using this
      · exact co j hj
    have dr : d.fu = t.fu ∧ d.iu = t.iu ∧ (k.held ≠ .view → d.mu.events &&& EventKind.bit .claimChange ≠ 0) := by
      rw [hd]; split <;> exact ⟨cf.1, cf.2.1, cf.2.2.2⟩
    have fin : ∀ u : State, SameClaims d.cu u.cu → u.fu = d.fu → u.iu = d.iu →
        (d.mu.events &&& EventKind.bit .claimChange ≠ 0 → u.mu.events &&& EventKind.bit .claimChange ≠ 0) →
        u.fu = t.fu ∧ u.iu = t.iu ∧ u.cu.slots[i] = (some k).map (released (own t)) ∧
        (∀ j : Fin 16, j ≠ i → claimOf u.cu.slots[j] = claimOf t.cu.slots[j]) ∧
        (∀ k', some k = some k' → k'.held ≠ .view → u.mu.events &&& EventKind.bit .claimChange ≠ 0) := by
      intro u sc uf ui ue
      refine ⟨uf.trans dr.1, ui.trans dr.2.1, ?_, fun j hj => ?_, fun k' hk' hh => ?_⟩
      · have := claimOf_idle (sc.claims i) (by rw [ds]; intro x hx; cases hx; rfl)
        rw [this, ds]; rfl
      · rw [sc.claims j, dp j hj]
      · cases hk'; exact ue (dr.2.2 hh)
    rw [e]
    split
    · have q := queueRelease_iu i .view k.content.addr d
      exact fin _ (queueRelease_claims _ _ _ _) q.2.1 q.1 fun x => (queueRelease_keeps _ _ _ (.refl _)).events _ x
    · exact fin _ ⟨fun _ => rfl, rfl⟩ rfl rfl id

/-- Every loaded slot's release in STANDBY (R152). -/
theorem standbyClaims_spec {t : State} (h : t.pu.power = .standby) (hf : t.fu.focus = none) (hl : t.fu.lock = false) :
    (standbyClaims t).fu = t.fu ∧ (standbyClaims t).iu = t.iu ∧
    (∀ i : Fin 16, (standbyClaims t).cu.slots[i] = t.cu.slots[i].map (released (own t))) ∧
    (∀ (i : Fin 16) (k : Slot), t.cu.slots[i] = some k → k.held ≠ .view →
      (standbyClaims t).mu.events &&& EventKind.bit .claimChange ≠ 0) := by
  have main : ∀ (l : List (Fin 16)), l.Nodup → ∀ t u : State, t.pu.power = .standby → t.fu.focus = none → t.fu.lock = false →
      u = l.foldl (fun s i => standbyRelease i s) t →
      u.fu = t.fu ∧ u.iu = t.iu ∧ (∀ i : Fin 16, i ∈ l → u.cu.slots[i] = t.cu.slots[i].map (released (own t))) ∧
      (∀ i : Fin 16, i ∉ l → claimOf u.cu.slots[i] = claimOf t.cu.slots[i]) ∧
      (∀ (i : Fin 16) (k : Slot), i ∈ l → t.cu.slots[i] = some k → k.held ≠ .view → u.mu.events &&& EventKind.bit .claimChange ≠ 0) := by
    intro l
    induction l with
    | nil =>
      rintro _ t u - - - rfl
      exact ⟨rfl, rfl, fun _ h => (List.not_mem_nil h).elim, fun _ _ => rfl, fun _ _ h => (List.not_mem_nil h).elim⟩
    | cons a l ih =>
      intro hn t u h hf hl hu
      rw [List.foldl_cons] at hu
      obtain ⟨ha, hn⟩ := List.nodup_cons.1 hn
      obtain ⟨r1, r2, r3, r4, r5⟩ := standbyRelease_spec a h hf hl
      have rk := standbyRelease_keeps a (.refl t)
      have rp : (standbyRelease a t).pu = t.pu := by
        unfold standbyRelease; split
        · exact (releaseSlot_hands _ _ _ _).2.1
        · rfl
      have ro : own (standbyRelease a t) = own t := by unfold own; rw [rk.same.cl]
      obtain ⟨i1, i2, i3, i4, i5⟩ := ih hn (standbyRelease a t) u (by rw [rp]; exact h) (by rw [r1]; exact hf) (by rw [r1]; exact hl) hu
      have ke := foldl_keeps (fun s i => standbyRelease i s) (fun i _ _ h => standbyRelease_keeps i h) l (.refl (standbyRelease a t))
      rw [← hu] at ke
      refine ⟨i1.trans r1, i2.trans r2, fun i hi => ?_, fun i hi => ?_, fun i k hi hk hh => ?_⟩
      · rcases List.mem_cons.1 hi with rfl | hm
        · have c := i4 i ha
          rw [claimOf_idle c (by rw [r3]; intro k hk; obtain ⟨x, _, rfl⟩ := Option.map_eq_some_iff.1 hk; rfl), r3]
        · rw [i3 i hm, ro]
          exact released_congr _ (r4 i (by rintro rfl; exact ha hm))
      · have hi' : i ≠ a ∧ i ∉ l := by simpa using hi
        rw [i4 i hi'.2]
        exact r4 i hi'.1
      · by_cases hia : i = a
        · subst hia
          exact ke.events _ (r5 k hk hh)
        · have hi : i ∈ l := by simpa [hia] using hi
          have c := r4 i hia
          rw [hk] at c
          cases hu : (standbyRelease a t).cu.slots[i] with
          | none => rw [hu] at c; cases c
          | some k' =>
            rw [hu] at c
            have : k'.held = k.held := by
              unfold claimOf at c; simp only [Option.map_some, Option.some.injEq, Prod.mk.injEq] at c; exact c.2.1
            exact i5 i k' hi hu (by rw [this]; exact hh)
  obtain ⟨a, b, c, _, e⟩ := main (List.finRange 16) (List.nodup_finRange 16) t (standbyClaims t) h hf hl rfl
  exact ⟨a, b, fun i => c i (List.mem_finRange i), fun i k hk hh => e i k (List.mem_finRange i) hk hh⟩

/-! ## Release synthesis (R125) -/

theorem queued_key (q : List InputRecord) (u : Byte) (b : Bool) : queued q (.key u b) = q ++ [.key u b] := by
  unfold queued
  split
  · rename_i h; cases h
  · rfl

/-- The key-ups of a slot, where the builder has a frame kept and the queue has room for them all. -/
theorem synthKeys_room (n : Nat) (a : Fin 16) (t : State) (hb : t.iu.held.isSome = true) (hn : (t.iu.keys.filter fun k => k.2 = a).length ≤ n)
    (hq : t.iu.queues[a].length + (t.iu.keys.filter fun k => k.2 = a).length ≤ 24) :
    synthKeys n a t = t.setIu { t.iu with
      queues := t.iu.queues.set a (t.iu.queues[a] ++ (t.iu.keys.filter fun k => k.2 = a).map fun k => .key k.1 true),
      keys := t.iu.keys.filter fun k => k.2 ≠ a } := by
  induction n generalizing t with
  | zero =>
    have h0 : (t.iu.keys.filter fun k => k.2 = a) = [] := List.eq_nil_of_length_eq_zero (by omega)
    unfold synthKeys
    rw [h0, List.map_nil, List.append_nil]
    have : (t.iu.keys.filter fun k => k.2 ≠ a) = t.iu.keys := by
      apply List.filter_eq_self.2
      intro k hk
      have := List.filter_eq_nil_iff.1 h0 k hk
      simpa using this
    rw [this]
    have hs : t.iu.queues.set a t.iu.queues[a] = t.iu.queues := Vector.set_getElem_self ..
    rw [hs]
    rfl
  | succ n ih =>
    unfold synthKeys
    split
    · rename_i hnone
      have h0 : (t.iu.keys.filter fun k => k.2 = a) = [] := by
        apply List.filter_eq_nil_iff.2
        intro k hk
        simpa using List.find?_eq_none.1 hnone k hk
      rw [h0, List.map_nil, List.append_nil]
      have : (t.iu.keys.filter fun k => k.2 ≠ a) = t.iu.keys := by
        apply List.filter_eq_self.2
        intro k hk
        have := List.filter_eq_nil_iff.1 h0 k hk
        simpa using this
      rw [this]
      have hs : t.iu.queues.set a t.iu.queues[a] = t.iu.queues := Vector.set_getElem_self ..
      rw [hs]
      rfl
    · rename_i k hk
      obtain ⟨hka, as, bs, hsplit, has⟩ := List.find?_eq_some_iff_append.1 hk
      have hka : k.2 = a := by simpa using hka
      have has' : ∀ x ∈ as, ¬ x.2 = a := fun x hx => by simpa using has x hx
      have herase : t.iu.keys.erase k = as ++ bs := by
        rw [hsplit, List.erase_append_right _ (fun h => has' k h hka), List.erase_cons_head]
      have hfas : (as.filter fun k => k.2 = a) = [] := List.filter_eq_nil_iff.2 fun x hx => by simpa using has' x hx
      have hf1 : (t.iu.keys.filter fun k => k.2 = a) = k :: bs.filter fun k => k.2 = a := by
        rw [hsplit, List.filter_append, hfas, List.nil_append, List.filter_cons_of_pos (by simpa using hka)]
      have hf2 : ((as ++ bs).filter fun k => k.2 = a) = bs.filter fun k => k.2 = a := by
        rw [List.filter_append, hfas, List.nil_append]
      have hf3 : (t.iu.keys.filter fun k => k.2 ≠ a) = (as ++ bs).filter fun k => k.2 ≠ a := by
        rw [hsplit, List.filter_append, List.filter_append, List.filter_cons_of_neg (by simpa using hka)]
      rw [hf1] at hq hn
      simp only [List.length_cons] at hq hn
      have hroom : (queued (t.setIu { t.iu with keys := t.iu.keys.erase k }).iu.queues[a] (.key k.1 true)).length ≤ 24 := by
        rw [queued_key]; simp only [State.setIu_iu, List.length_append, List.length_singleton]; omega
      have ap : appendRecord a (.key k.1 true) (t.setIu { t.iu with keys := t.iu.keys.erase k }) = t.setIu { t.iu with
          keys := as ++ bs, queues := t.iu.queues.set a (t.iu.queues[a] ++ [.key k.1 true]) } := by
        rw [appendRecord_enqueue a _ hroom]
        unfold enqueue
        rw [pumpBuilder_kept _ (by exact hb), queued_key, herase]
        rfl
      have hq' : t.iu.queues[a.val].length + ((bs.filter fun k => k.2 = a).length + 1) ≤ 24 := hq
      rw [ap, ih _ (by exact hb) (by simp only [State.setIu_iu, hf2]; omega) (by simp only [State.setIu_iu, hf2]; simp; omega)]
      rw [hf1]
      simp only [hf2, hf3, State.setIu]
      simp

/-- Release synthesis where the builder has a frame kept and the queue has room. -/
theorem synthesis_room (a : Fin 16) {t : State} (hb : t.iu.held.isSome = true) (hq : (synthesised a t).length ≤ 24) :
    (synthesis a t).iu = { t.iu with
      queues := t.iu.queues.set a (synthesised a t), keys := t.iu.keys.filter fun k => k.2 ≠ a, owners := dropOwners a t.iu.owners } := by
  obtain ⟨q, hqd⟩ : ∃ q, q = t.iu.queues[a] ++ (t.iu.keys.filter fun k => k.2 = a).map fun k => InputRecord.key k.1 true := ⟨_, rfl⟩
  have grow : ∀ (q : List InputRecord) r, q.length ≤ (queued q r).length := by
    intro q r
    unfold queued
    split
    · rename_i h1 h2
      have hne : q ≠ [] := by rintro rfl; cases h2
      split
      · rw [List.length_append, List.length_dropLast]; simp; have := List.length_pos_iff.2 hne; omega
      · simp
    · simp
  have hsy : synthesised a t = match t.fu.reported with
      | some p => if ∃ j : Fin 5, t.iu.owners[j] = some a then queued q (.position p 0) else q
      | none => q := by rw [hqd]; rfl
  have hle : q.length ≤ 24 := by
    rw [hsy] at hq
    split at hq
    · split at hq
      · exact Nat.le_trans (grow _ _) hq
      · exact hq
    · exact hq
  have hlen : t.iu.queues[a].length + (t.iu.keys.filter fun k => k.2 = a).length ≤ 24 := by
    rw [hqd] at hle; simpa using hle
  have hs := synthKeys_room t.iu.keys.length a t hb (List.length_filter_le _ _) hlen
  rw [← hqd] at hs
  have how : ownedBy a (synthKeys t.iu.keys.length a t) = 0 ↔ ¬ ∃ j : Fin 5, t.iu.owners[j] = some a := by
    rw [hs]
    constructor
    · rintro h ⟨j, hj⟩
      exact ownedBy_zero h j hj
    · intro h
      unfold ownedBy
      have : ∀ j : Fin 5, t.iu.owners[j] ≠ some a := fun j hj => h ⟨j, hj⟩
      have key : ∀ (l : List (Fin 5)) (b : BitVec 5), l.foldl (fun b k => if t.iu.owners[k] = some a then b ||| (1#5 <<< k.val) else b) b = b := by
        intro l
        induction l with
        | nil => intro b; rfl
        | cons k l ih => intro b; rw [List.foldl_cons, if_neg (this k)]; exact ih b
      exact key _ _
  have hdrop : (¬ ∃ j : Fin 5, t.iu.owners[j] = some a) → dropOwners a t.iu.owners = t.iu.owners := by
    intro h
    unfold dropOwners mapTable
    ext1 j hj
    rw [Vector.getElem_ofFn]
    exact if_neg (fun x => h ⟨⟨j, hj⟩, x⟩)
  unfold synthesis
  dsimp only
  by_cases ho : ∃ j : Fin 5, t.iu.owners[j] = some a
  · rw [if_neg (fun x => how.1 x ho), hs]
    cases hr : t.fu.reported with
    | none =>
      rw [hr] at hsy
      rw [show (t.setIu { t.iu with queues := t.iu.queues.set a q, keys := t.iu.keys.filter fun k => k.2 ≠ a }).fu.reported = none from hr]
      rw [hsy]
      rfl
    | some p =>
      rw [hr] at hsy
      rw [show (t.setIu { t.iu with queues := t.iu.queues.set a q, keys := t.iu.keys.filter fun k => k.2 ≠ a }).fu.reported = some p from hr]
      dsimp only at hsy ⊢
      rw [if_pos ho] at hsy
      have hq' : (queued (t.setIu { t.iu with queues := t.iu.queues.set a q, keys := t.iu.keys.filter fun k => k.2 ≠ a }).iu.queues[a]
          (.position p 0)).length ≤ 24 := by
        simp only [State.setIu_iu, Fin.getElem_fin, Vector.getElem_set_self]
        rw [← hsy]; exact hq
      rw [appendRecord_enqueue a _ hq']
      unfold enqueue
      rw [pumpBuilder_kept _ (by exact hb)]
      rw [hsy]
      simp
  · rw [if_pos (how.2 ho), hs, hdrop ho]
    have : synthesised a t = q := by
      rw [hsy]
      split
      · rw [if_neg ho]
      · rfl
    rw [this]
    rfl

/-! ## The entry to STANDBY and the wake -/

/-- The entry to STANDBY (R107, R152, R157). -/
theorem enterStandby_spec {t : State} (h : t.pu.power = .active) :
    (enterStandby t).pu = { t.pu with power := .standby, idle := none, c := { t.pu.c with standbys := bump t.pu.c.standbys } } ∧
    (enterStandby t).fu = { t.fu with
      focus := none, lock := false, accum := 0, last := match t.fu.focus with | some f => some f.slot | none => t.fu.last,
      reported := match t.fu.focus with | some _ => none | none => t.fu.reported } ∧
    (∀ i : Fin 16, (enterStandby t).cu.slots[i] = t.cu.slots[i].map (released (own t))) ∧
    (∀ (i : Fin 16) (k : Slot), t.cu.slots[i] = some k → k.held ≠ .view → (enterStandby t).mu.events &&& EventKind.bit .claimChange ≠ 0) ∧
    (∀ f, t.fu.focus = some f → t.iu.held.isSome = true → (synthesised f.slot t).length ≤ 24 → (enterStandby t).iu = { t.iu with
      queues := t.iu.queues.set f.slot (synthesised f.slot t), keys := t.iu.keys.filter fun k => k.2 ≠ f.slot,
      owners := dropOwners f.slot t.iu.owners }) := by
  refine ⟨(enterStandby_hands h).2.2, ?_⟩
  obtain ⟨u, hu⟩ : ∃ u : State, u = (countPu (fun c => { c with standbys := bump c.standbys })
    (t.setPu { t.pu with power := .standby, idle := none })).setFu { t.fu with lock := false, accum := 0 } := ⟨_, rfl⟩
  have e : enterStandby t = standbyClaims (changeFocus none u) := by
    unfold enterStandby
    rw [if_neg (by rw [h]; decide), hu]
    rfl
  have ui : u.iu = t.iu ∧ u.cu = t.cu ∧ own u = own t ∧ u.pu.power = .standby ∧ u.fu = { t.fu with lock := false, accum := 0 } := by
    rw [hu]; exact ⟨rfl, rfl, rfl, rfl, rfl⟩
  have d := changeFocus_delivers none (.refl u)
  have k := changeFocus_keeps none (.refl u)
  have cf : (changeFocus none u).fu = { t.fu with
      focus := none, lock := false, accum := 0, last := match t.fu.focus with | some f => some f.slot | none => t.fu.last,
      reported := match t.fu.focus with | some _ => none | none => t.fu.reported } := by
    unfold changeFocus
    rw [ui.2.2.2.2]
    cases hf : t.fu.focus with
    | none =>
      dsimp only
      rw [ui.2.2.2.2]
      have : t.fu = { t.fu with focus := none } := by rw [← hf]
      rw [this]
    | some f =>
      dsimp only
      rw [State.setFu_fu, (synthesis_clears f.slot u).1, ui.2.2.2.2]
  have ci : ∀ f, t.fu.focus = some f → (changeFocus none u).iu = (synthesis f.slot u).iu := by
    intro f hf
    unfold changeFocus
    rw [ui.2.2.2.2, hf]
    rfl
  rw [e]
  obtain ⟨a1, a2, a3, a4⟩ := standbyClaims_spec (t := changeFocus none u) (by rw [d.pu]; exact ui.2.2.2.1) (by rw [cf]) (by rw [cf])
  have ow : own (changeFocus none u) = own t := by
    rw [← ui.2.2.1]; unfold own; rw [k.same.cl]
  have cu : (changeFocus none u).cu = t.cu := d.cu.trans ui.2.1
  refine ⟨a1.trans cf, fun i => by rw [a3 i, ow, cu], fun i k hk hh => a4 i k (by rw [cu]; exact hk) hh, fun f hf hb hq => ?_⟩
  have sy : synthesised f.slot u = synthesised f.slot t := by
    unfold synthesised; rw [ui.1, ui.2.2.2.2]
  rw [a2, ci f hf, synthesis_room f.slot (by rw [ui.1]; exact hb) (by rw [sy]; exact hq), sy, ui.1]

theorem autoShare_pu (i : Fin 16) (t : State) : (autoShare i t).pu = t.pu ∧ (autoShare i t).fu = t.fu ∧ (autoShare i t).iu = t.iu := by
  unfold autoShare
  split
  · exact ⟨rfl, rfl, rfl⟩
  · split
    · have k := localRequest_iu (some i) (some .shared) t
      exact ⟨k.2.2.1, k.2.1, k.1⟩
    · exact ⟨rfl, rfl, rfl⟩

theorem wakeClaims_pu (t : State) : (wakeClaims t).pu = t.pu ∧ (wakeClaims t).fu = t.fu ∧ (wakeClaims t).iu = t.iu := by
  unfold wakeClaims
  generalize List.finRange 16 = l
  induction l generalizing t with
  | nil => exact ⟨rfl, rfl, rfl⟩
  | cons i l ih =>
    have a := autoShare_pu i t
    have b := ih (autoShare i t)
    exact ⟨b.1.trans a.1, b.2.1.trans a.2.1, b.2.2.trans a.2.2⟩

/-- The wake from STANDBY, with the loader in RUNNING (R158). -/
theorem wake_spec (c : WakeCause) {t : State} (h : t.pu.power = .standby) (hr : t.cl.loader = .running) :
    (wake c t).pu = { t.pu with
      power := .active, wake := some c, c := { t.pu.c with wakes := bump t.pu.c.wakes },
      idle := if t.desk.standby = 0 then none else some 0 } ∧
    (wake c t).fu = t.fu ∧ (wake c t).iu = t.iu ∧ (wake c t).mu.events &&& EventKind.bit .wake ≠ 0 := by
  unfold wake
  rw [if_neg (by rw [h]; decide)]
  dsimp only
  have p := raise_posts .wake (t.setPu { t.pu with power := .active, wake := some c })
  have ev := raise_pending .wake (t.setPu { t.pu with power := .active, wake := some c })
  generalize raise .wake (t.setPu { t.pu with power := .active, wake := some c }) = u at p ev
  have w := wakeClaims_pu (restartIdle (countPu (fun c => { c with wakes := bump c.wakes }) u))
  have up : u.pu = { t.pu with power := .active, wake := some c } := p.pu
  have uc : u.cl = t.cl := p.cl
  have ud : u.desk = t.desk := p.desk
  have r : restartIdle (countPu (fun c => { c with wakes := bump c.wakes }) u) = u.setPu { u.pu with
      c := { u.pu.c with wakes := bump u.pu.c.wakes }, idle := if t.desk.standby = 0 then none else some 0 } := by
    unfold restartIdle countPu
    by_cases z : t.desk.standby = 0
    · rw [if_neg (by rintro ⟨-, -, x⟩; exact x (by simpa [ud] using z)), if_pos z]; rfl
    · rw [if_pos ⟨by simp [up], by simp [running, uc, hr], by simpa [ud] using z⟩, if_neg z]; rfl
  rw [r] at w
  rw [r]
  refine ⟨w.1.trans (by simp [up]), w.2.1.trans p.fu, w.2.2.trans p.iu, ?_⟩
  exact (wakeClaims_keeps (.refl _)).events _ ev

/-! ## Auto-share (R151, R152) -/

/-- The auto-share request of a slot of an ACTIVE desk: made where it is due, and else nothing (R151). -/
theorem autoShare_cases (i : Fin 16) {t : State} (h : t.pu.power = .active) :
    (t.cu.slots[i] = none → autoShare i t = t) ∧
    (∀ k, t.cu.slots[i] = some k → (wantsShare t k → autoShare i t = requested i k .shared t) ∧ (¬ wantsShare t k → autoShare i t = t)) := by
  refine ⟨fun hn => ?_, fun k hk => ⟨fun hw => ?_, fun hw => ?_⟩⟩
  · unfold autoShare; rw [hn]
  · obtain ⟨h1, h2, h3, h4⟩ := hw
    unfold autoShare
    rw [hk]
    dsimp only
    rw [if_pos ⟨h1, h2, h, h3, h4⟩]
    exact congrArg Prod.snd ((((localRequestsAct (some i) (some .shared) t _ rfl).2.2 i k rfl hk).2 .shared rfl h h2).2.2
      (by rw [h3]; decide) h4)
  · unfold autoShare
    rw [hk]
    dsimp only
    rw [if_neg (by rintro ⟨h1, h2, -, h3, h4⟩; exact hw ⟨h1, h2, h3, h4⟩)]

theorem requested_view (i : Fin 16) (k : Slot) (l : Level) (t : State) : (requested i k l t).cu.view = t.cu.view :=
  (pumpOutbox_claims _ _).view

/-- What one slot's auto-share request makes of every claim (R151). -/
theorem autoShare_claims (i : Fin 16) {t : State} (h : t.pu.power = .active) :
    (autoShare i t).cu.view = t.cu.view ∧
    (∀ j : Fin 16, j ≠ i → claimOf (autoShare i t).cu.slots[j] = claimOf t.cu.slots[j]) ∧
    (t.cu.slots[i] = none → (autoShare i t).cu.slots[i] = none) ∧
    (∀ k, t.cu.slots[i] = some k →
      (wantsShare t k → claimOf (autoShare i t).cu.slots[i] = some (k.content, .view, k.holder, k.outcome, some .shared)) ∧
      (¬ wantsShare t k → claimOf (autoShare i t).cu.slots[i] = claimOf (some k))) := by
  obtain ⟨c1, c2⟩ := autoShare_cases i h
  cases hk : t.cu.slots[i] with
  | none => rw [c1 hk]; exact ⟨rfl, fun _ _ => rfl, fun _ => hk, nofun⟩
  | some k =>
    obtain ⟨d1, d2⟩ := c2 k hk
    by_cases hw : wantsShare t k
    · rw [d1 hw]
      refine ⟨requested_view _ _ _ _, fun j hj => ?_, nofun, fun k' e => ?_⟩
      · rw [requested_claims, if_neg hj]
      · cases e
        refine ⟨fun _ => ?_, fun x => absurd hw x⟩
        rw [requested_claims, if_pos rfl, ← hw.2.2.1]
    · rw [d2 hw]
      refine ⟨rfl, fun _ _ => rfl, nofun, fun k' e => ?_⟩
      cases e
      exact ⟨fun x => absurd x hw, fun _ => by rw [hk]⟩

theorem claimOf_none {x : Option Slot} (h : claimOf x = claimOf none) : x = none := by
  cases x with
  | none => rfl
  | some _ => cases h

/-- A slot that says the same wants the same. -/
theorem wantsShare_congr {t u : State} {k k' : Slot} (hv : u.cu.view = t.cu.view) (h : claimOf (some k') = claimOf (some k)) :
    wantsShare u k' ↔ wantsShare t k := by
  obtain ⟨kc, kh, kr, ko, kl⟩ := k
  obtain ⟨kc', kh', kr', ko', kl'⟩ := k'
  unfold claimOf at h
  simp only [Option.map_some, Option.some.injEq, Prod.mk.injEq] at h
  obtain ⟨h1, h2, h3, h4, h5⟩ := h
  subst h1 h2 h3 h4
  have : kr' = none ↔ kr = none := by rw [← Option.map_eq_none_iff (f := fun r : Request => r.level), h5, Option.map_eq_none_iff]
  have np : nodePresent u kc'.addr = nodePresent t kc'.addr := by unfold nodePresent; rw [hv]
  unfold wantsShare
  rw [np]
  simp only [this]

/-- Every slot's auto-share request in turn (R152). -/
theorem wakeClaims_shares {t : State} (h : t.pu.power = .active) : AutoShared t (wakeClaims t) := by
  have main : ∀ (l : List (Fin 16)), l.Nodup → ∀ t u : State, t.pu.power = .active → u = l.foldl (fun s i => autoShare i s) t →
      u.cu.view = t.cu.view ∧ (∀ i : Fin 16, i ∉ l → claimOf u.cu.slots[i] = claimOf t.cu.slots[i]) ∧
      (∀ i : Fin 16, i ∈ l → (t.cu.slots[i] = none → u.cu.slots[i] = none) ∧ ∀ k, t.cu.slots[i] = some k →
        (wantsShare t k → claimOf u.cu.slots[i] = some (k.content, .view, k.holder, k.outcome, some .shared)) ∧
        (¬ wantsShare t k → claimOf u.cu.slots[i] = claimOf (some k))) := by
    intro l
    induction l with
    | nil => rintro _ t u - rfl; exact ⟨rfl, fun _ _ => rfl, fun _ h => (List.not_mem_nil h).elim⟩
    | cons a l ih =>
      intro hn t u h hu
      rw [List.foldl_cons] at hu
      obtain ⟨ha, hn⟩ := List.nodup_cons.1 hn
      obtain ⟨r1, r2, r3, r4⟩ := autoShare_claims a h
      obtain ⟨i1, i2, i3⟩ := ih hn (autoShare a t) u (by rw [(autoShare_pu a t).1]; exact h) hu
      refine ⟨i1.trans r1, fun i hi => ?_, fun i hi => ?_⟩
      · have hi' : i ≠ a ∧ i ∉ l := by simpa using hi
        rw [i2 i hi'.2, r2 i hi'.1]
      · by_cases hia : i = a
        · subst hia
          have c := i2 i ha
          refine ⟨fun hk => ?_, fun k hk => ⟨fun hw => ?_, fun hw => ?_⟩⟩
          · rw [r3 hk] at c; exact claimOf_none c
          · rw [c]; exact (r4 k hk).1 hw
          · rw [c]; exact (r4 k hk).2 hw
        · have hi : i ∈ l := by simpa [hia] using hi
          have c := r2 i hia
          cases hu : (autoShare a t).cu.slots[i] with
          | none =>
            rw [hu] at c
            have z := claimOf_none c.symm
            exact ⟨fun _ => (i3 i hi).1 hu, fun k hk => by rw [z] at hk; cases hk⟩
          | some k' =>
            rw [hu] at c
            refine ⟨fun hk => (by rw [hk] at c; cases c), fun k hk => ?_⟩
            rw [hk] at c
            have w := wantsShare_congr r1 c
            have d := (i3 i hi).2 k' hu
            refine ⟨fun hw => ?_, fun hw => by rw [d.2 (fun x => hw (w.1 x)), c]⟩
            rw [d.1 (w.2 hw)]
            unfold claimOf at c
            simp only [Option.map_some, Option.some.injEq, Prod.mk.injEq] at c
            obtain ⟨e1, -, e3, e4, -⟩ := c
            rw [e1, e3, e4]
  obtain ⟨-, -, c⟩ := main (List.finRange 16) (List.nodup_finRange 16) t (wakeClaims t) h rfl
  exact fun i => c i (List.mem_finRange i)

theorem AutoShared.congr {s s' t : State} (h : AutoShared s t) (e : s'.cu = s.cu) : AutoShared s' t := by
  unfold AutoShared wantsShare nodePresent at *
  rw [e]; exact h

/-- The auto-share requests of a wake (R152, R158). -/
theorem wake_shares (c : WakeCause) {t : State} (h : t.pu.power = .standby) : AutoShared t (wake c t) := by
  unfold wake
  rw [if_neg (by rw [h]; decide)]
  dsimp only
  have p := raise_posts .wake (t.setPu { t.pu with power := .active, wake := some c })
  generalize raise .wake (t.setPu { t.pu with power := .active, wake := some c }) = u at p
  have r : (restartIdle (countPu (fun c => { c with wakes := bump c.wakes }) u)).cu = t.cu ∧
      (restartIdle (countPu (fun c => { c with wakes := bump c.wakes }) u)).pu.power = .active := by
    have up : u.pu.power = .active := by rw [p.pu]; rfl
    unfold restartIdle countPu
    split <;> exact ⟨p.cu, up⟩
  exact (wakeClaims_shares r.2).congr r.1.symm

end Sys2Proof.Machine
end

