-- ==== Sys2Proof/Laws/FocusForms.lean ====
section
/-! SUPPORT. What the focus unit's rules leave of its own record: a focus change, a POSITION request, re-evaluation, the end of drag
capture, motion with and without the lock, and the actions of the focus hot keys. -/

namespace Sys2Proof.Machine

open Sys2Proof

/-! ## Focus change and POSITION request -/

/-- A focus change to a window (R94). -/
theorem changeFocus_some (f : Focus) (s : State) : (changeFocus (some f) s).fu = { s.fu with
    focus := some f, last := if s.fu.focus.map (·.slot) = some f.slot then s.fu.last else some f.slot,
    accum := if s.fu.focus.map (·.slot) = some f.slot then s.fu.accum else 0 } := by
  unfold changeFocus
  cases h : s.fu.focus with
  | none => simp
  | some g =>
    dsimp only
    by_cases e : g.slot = f.slot
    · simp [e]
    · simp [e, (synthesis_clears g.slot s).1]

/-- A focus change moves the focus and leaves pointer and lock (R94). -/
theorem changeFocus_fu (t : Option Focus) (s : State) : (changeFocus t s).fu.focus = t ∧ (changeFocus t s).fu.x = s.fu.x ∧
    (changeFocus t s).fu.y = s.fu.y ∧ (changeFocus t s).fu.lock = s.fu.lock ∧ (s.fu.accum = 0 → (changeFocus t s).fu.accum = 0) := by
  cases t with
  | some f =>
    rw [changeFocus_some]
    refine ⟨rfl, rfl, rfl, rfl, fun h => ?_⟩
    dsimp only
    split
    · exact h
    · rfl
  | none =>
    unfold changeFocus
    split
    · exact ⟨by assumption, rfl, rfl, rfl, id⟩
    · rename_i h
      cases h
    · rename_i h
      cases h
    · refine ⟨rfl, ?_, ?_, ?_, fun _ => rfl⟩ <;> simp [(synthesis_clears _ s).1]

/-- The slot that a focus change takes the focus from owns nothing after it (R94, R125). -/
theorem changeFocus_leaves (t : Option Focus) {s : State} {f : Focus} (hf : s.fu.focus = some f) (h : t.map (·.slot) ≠ some f.slot) :
    (changeFocus t s).iu = (synthesis f.slot s).iu := by
  unfold changeFocus
  rw [hf]
  cases t with
  | none => rfl
  | some g =>
    dsimp only
    rw [if_neg (fun e => h (by simp [e]))]
    rfl

/-- A record appended leaves the focus unit as it is. -/
theorem positionRequest_fu {app : Fin 16 → InputRecord → State → State} {s : State}
    (h : ∀ k p, requestedPoint s = some (k, p) → (app k (.position p (ownedBy k s)) (s.setFu { s.fu with reported := some p })).fu =
      { s.fu with reported := some p }) :
    (positionRequest app s).fu = { s.fu with reported := ((requestedPoint s).map (·.2)).or s.fu.reported } := by
  unfold positionRequest
  cases hr : requestedPoint s with
  | none => rfl
  | some kp => exact h kp.1 kp.2 hr

/-- The POSITION request at the end of drag capture. -/
theorem positionRequest_record (s : State) : (positionRequest appendRecord s).fu =
    { s.fu with reported := ((requestedPoint s).map (·.2)).or s.fu.reported } :=
  positionRequest_fu fun _ _ _ => (appendRecord_owners _ _ _).1

/-- A queue with room has it for one record more. -/
theorem queued_room (q : List InputRecord) (r : InputRecord) (h : q.length < 24) : (queued q r).length ≤ 24 := by
  rw [queued_coalesce]
  cases hc : coalesce q r with
  | some q' => have := coalesce_length hc; simp only [Option.getD_some]; omega
  | none => simp only [Option.getD_none, List.length_append, List.length_cons, List.length_nil]; omega

/-- A POSITION request that ends no drag capture: no button is owned, or no queue overflows (R95). -/
theorem requestPosition_fu {s : State} (h : anyOwned s = false ∨ ∀ i : Fin 16, s.iu.queues[i].length < 24) :
    (requestPosition s).fu = { s.fu with reported := ((requestedPoint s).map (·.2)).or s.fu.reported } := by
  refine positionRequest_fu fun k p _ => ?_
  rcases h with h | h
  · rw [append_unowned _ _ (by exact h)]
    exact (appendRecord_owners _ _ _).1
  · rw [append_enqueue _ _ (queued_room _ _ (by exact h k))]
    exact (enqueue_builds _ _ _).fu

/-- No button owned is no owner in the set. -/
theorem anyOwned_false {s : State} : anyOwned s = false ↔ ∀ j : Fin 5, s.iu.owners[j] = none := by
  unfold anyOwned
  rw [List.any_eq_false]
  constructor
  · intro h j
    have := h s.iu.owners[j] (by simp)
    simpa using this
  · intro h x hx
    obtain ⟨i, hi, e⟩ := List.mem_iff_getElem.1 hx
    rw [← e]
    simp only [Vector.length_toList] at hi
    have := h ⟨i, hi⟩
    simp only [Fin.getElem_fin] at this
    simp [this]

theorem anyOwned_mono {s t : State} (h : ∀ (j : Fin 5) (a : Fin 16), t.iu.owners[j] = some a → s.iu.owners[j] = some a)
    (hs : anyOwned s = false) : anyOwned t = false := by
  rw [anyOwned_false] at hs ⊢
  intro j
  cases hj : t.iu.owners[j] with
  | none => rfl
  | some a =>
    have := h j a hj
    rw [hs j] at this
    cases this

/-- The keys and owners that an append leaves are among those before it. -/
theorem requestPosition_hands {s : State} (h : anyOwned s = false) : Hands s.iu (requestPosition s).iu := by
  unfold requestPosition positionRequest
  split
  · exact .refl _
  · rw [append_unowned _ _ (by exact h)]
    exact (appendRecord_delivers _ _ (Delivers.refl (s.setFu { s.fu with reported := some _ }))).hands

theorem changeFocus_unowned (f : Option Focus) {s : State} (h : anyOwned s = false) : anyOwned (changeFocus f s) = false :=
  anyOwned_mono (changeFocus_delivers f (.refl s)).hands.owners h

/-! ## Re-evaluation -/

/-- The POSITION request of a re-evaluation changes nothing of the focus unit but the reported position, where no button is owned. -/
def ReportsOnly (app : Fin 16 → InputRecord → State → State) : Prop :=
  ∀ u : State, anyOwned u = false → ∃ r, (positionRequest app u).fu = { u.fu with reported := r }

theorem reportsOnly_record : ReportsOnly appendRecord := fun u _ => ⟨_, positionRequest_record u⟩

theorem reportsOnly_append : ReportsOnly append := fun _ h => ⟨_, requestPosition_fu (.inl h)⟩

/-- The pointer limited to the focus window (R97). -/
theorem confine_fu (x y : Int) {s : State} {f : Focus} {w : Window} (hf : s.fu.focus = some f) (hw : windowOf s f = some w) :
    confine x y s = s.setFu { s.fu with x := (limitTo s.cp.heads[f.head] w x y).1, y := (limitTo s.cp.heads[f.head] w x y).2 } := by
  unfold confine
  rw [hf]
  dsimp only
  rw [hw]

/-- A forced change where no button is owned: the focus follows the pointer, and the lock is cleared (R103). -/
theorem forceFocus_unowned {app : Fin 16 → InputRecord → State → State} (ha : ReportsOnly app) {s : State} (h : anyOwned s = false) :
    (forceFocus app s).fu.focus = targetAtPointer s ∧ (forceFocus app s).fu.lock = false ∧ (forceFocus app s).fu.x = s.fu.x ∧
    (forceFocus app s).fu.y = s.fu.y := by
  unfold forceFocus
  dsimp only
  obtain ⟨u, hu⟩ : ∃ u : State, u = s.setFu { s.fu with lock := false, accum := 0 } := ⟨_, rfl⟩
  rw [← hu]
  have hou : anyOwned u = false := by rw [hu]; exact h
  obtain ⟨r, hr⟩ := ha (changeFocus (targetAtPointer u) u) (changeFocus_unowned _ hou)
  obtain ⟨c1, c2, c3, c4, _⟩ := changeFocus_fu (targetAtPointer u) u
  have et : targetAtPointer u = targetAtPointer s := by rw [hu]; rfl
  rw [hr]
  refine ⟨c1.trans et, c4.trans ?_, c2.trans ?_, c3.trans ?_⟩ <;> rw [hu] <;> rfl

/-- Re-evaluation with the lock clear and no button owned: the focus follows the pointer (R102, R103). -/
theorem reevaluate_clear {app : Fin 16 → InputRecord → State → State} (ha : ReportsOnly app) {s : State} (h : anyOwned s = false)
    (hl : s.fu.lock = false) : (reevaluate app s).fu.focus = targetAtPointer s ∧ (reevaluate app s).fu.lock = false ∧
    (reevaluate app s).fu.x = s.fu.x ∧ (reevaluate app s).fu.y = s.fu.y := by
  unfold reevaluate
  split
  · rw [if_neg (by simp [hl]), if_neg (by simp [h])]
    obtain ⟨r, hr⟩ := ha (changeFocus (targetAtPointer s) s) (changeFocus_unowned _ h)
    obtain ⟨c1, c2, c3, c4, _⟩ := changeFocus_fu (targetAtPointer s) s
    rw [hr]
    exact ⟨c1, c4.trans hl, c2, c3⟩
  · exact forceFocus_unowned ha h

/-- Re-evaluation with the lock set and the focus window holding: focus and lock stay, and the pointer is limited to it (R97, R102). -/
theorem reevaluate_locked {app : Fin 16 → InputRecord → State → State} (ha : ReportsOnly app) {s : State} (h : anyOwned s = false)
    {f : Focus} {w : Window} (hl : s.fu.lock = true) (hf : s.fu.focus = some f) (hw : windowOf s f = some w)
    (hh : focusHolds s f = true) : (reevaluate app s).fu.focus = some f ∧ (reevaluate app s).fu.lock = true ∧
    ((reevaluate app s).fu.x, (reevaluate app s).fu.y) = limitTo s.cp.heads[f.head] w s.fu.x s.fu.y := by
  unfold reevaluate
  rw [if_pos (by rw [hf]; exact hh), if_pos hl, confine_fu _ _ hf hw]
  obtain ⟨r, hr⟩ := ha (s.setFu { s.fu with
    x := (limitTo s.cp.heads[f.head] w s.fu.x s.fu.y).1, y := (limitTo s.cp.heads[f.head] w s.fu.x s.fu.y).2 }) h
  rw [hr]
  exact ⟨hf, hl, rfl⟩

/-- Re-evaluation where the focus window no longer holds is a forced change (R102). -/
theorem reevaluate_lost {app : Fin 16 → InputRecord → State → State} {s : State} {f : Focus} (hf : s.fu.focus = some f)
    (hh : focusHolds s f = false) : reevaluate app s = forceFocus app s := by
  unfold reevaluate
  rw [if_neg (by rw [hf]; simp [hh])]

/-- Re-evaluation under drag capture with the lock clear: a focus window that holds stays, and the pointer with it (R102). -/
theorem fuReevaluate_drag {s : State} {f : Focus} (h : anyOwned s = true) (hl : s.fu.lock = false) (hf : s.fu.focus = some f)
    (hh : focusHolds s f = true) (hq : ∀ i : Fin 16, s.iu.queues[i].length < 24) :
    (fuReevaluate s).fu.focus = some f ∧ (fuReevaluate s).fu.lock = false ∧ (fuReevaluate s).fu.x = s.fu.x ∧
    (fuReevaluate s).fu.y = s.fu.y := by
  unfold fuReevaluate reevaluate
  rw [if_pos (by rw [hf]; exact hh), if_neg (by simp [hl]), if_pos h]
  have := requestPosition_fu (s := s) (.inr hq)
  unfold requestPosition at this
  rw [this]
  exact ⟨hf, hl, rfl, rfl⟩

/-! ## Motion -/

/-- A motion under the focus lock moves the pointer within the focus window (R97). -/
theorem lockedMotion_spec (dx dy : Int) {s : State} {f : Focus} {w : Window} (ho : anyOwned s = false) (hf : s.fu.focus = some f)
    (hw : windowOf s f = some w) : (lockedMotion dx dy s).fu.lock = s.fu.lock ∧ (lockedMotion dx dy s).fu.focus = some f ∧
    ((lockedMotion dx dy s).fu.x, (lockedMotion dx dy s).fu.y) = limitTo s.cp.heads[f.head] w (s.fu.x + dx) (s.fu.y + dy) ∧
    (lockedMotion dx dy s).fu.accum = 0 := by
  unfold lockedMotion
  rw [confine_fu _ _ hf hw]
  have r := fun v : Fu => requestPosition_fu (s := (s.setFu v).setFu { (s.setFu v).fu with accum := 0 }) (.inl ho)
  dsimp only at r ⊢
  rw [r]
  exact ⟨rfl, hf, rfl, rfl⟩

/-! ## The focus hot keys -/

/-- NEXT_WINDOW with the lock set, under drag capture, or with no window to go to does nothing (R109). -/
theorem nextWindowAction_idle {s : State} (h : s.fu.lock = true ∨ anyOwned s = true ∨ ∀ h n x, ¬ Listed s h n x) :
    nextWindowAction s = s := by
  unfold nextWindowAction
  split
  · rfl
  · rename_i hn
    rcases h with h | h | h
    · exact absurd (.inl h) hn
    · exact absurd (.inr h) hn
    · rw [nextTarget_none s h]

/-- NEXT_WINDOW moves pointer and focus to the window that R109 names, at its pixel. -/
theorem nextWindowAction_moves {s : State} {h : Fin 4} {k : Nat} {w : Window} {q : Nat × Nat} {g : Fin 16} (hl : s.fu.lock = false)
    (ho : anyOwned s = false) (n : NextWindow s h k w) (hq : NextPixel s h k w q) (hg : focusable s w = some g) :
    (nextWindowAction s).fu = { s.fu with
      x := s.cp.heads[h].ox + q.1, y := s.cp.heads[h].oy + q.2, focus := some ⟨g, h, w.id⟩, accum := 0,
      last := if s.fu.focus.map (·.slot) = some g then s.fu.last else some g,
      reported := ((requestedPoint (s.setFu { s.fu with
        x := s.cp.heads[h].ox + q.1, y := s.cp.heads[h].oy + q.2, focus := some ⟨g, h, w.id⟩ })).map (·.2)).or s.fu.reported } ∧
    ∀ f, s.fu.focus = some f → f.slot ≠ g → ∀ y ∈ (nextWindowAction s).iu.keys, y.2 ≠ f.slot := by
  obtain ⟨u, hu⟩ : ∃ u : State, u = s.setFu { s.fu with x := s.cp.heads[h].ox + q.1, y := s.cp.heads[h].oy + q.2, accum := 0 } := ⟨_, rfl⟩
  have e : nextWindowAction s = requestPosition (changeFocus (some ⟨g, h, w.id⟩) u) := by
    unfold nextWindowAction
    rw [if_neg (by simp [hl, ho]), nextTarget_spec s h k w q g n hq hg, hu]
  have hou : anyOwned u = false := by rw [hu]; exact ho
  have ho2 := changeFocus_unowned (some ⟨g, h, w.id⟩) hou
  have d := changeFocus_delivers (some ⟨g, h, w.id⟩) (.refl u)
  have k := changeFocus_keeps (some ⟨g, h, w.id⟩) (.refl u)
  have cf := changeFocus_some ⟨g, h, w.id⟩ u
  refine ⟨?_, fun f hf hfg y hy => ?_⟩
  · have rp : requestedPoint (changeFocus (some ⟨g, h, w.id⟩) u) = requestedPoint (s.setFu { s.fu with
        x := s.cp.heads[h].ox + q.1, y := s.cp.heads[h].oy + q.2, focus := some ⟨g, h, w.id⟩ }) := by
      unfold requestedPoint windowOf streamOf streamIndex
      rw [cf, k.same.sr, d.cp, hu]
      rfl
    rw [e, requestPosition_fu (.inl ho2), rp, cf, hu]
    simp
  · rw [e] at hy
    have := (requestPosition_hands ho2).keys y hy
    have hfu : u.fu.focus = some f := by rw [hu]; exact hf
    rw [changeFocus_leaves _ hfu (by simpa using fun e => hfg e.symm)] at this
    exact (synthesis_clears f.slot u).2.2.1 y this

/-- FOCUS_LOCK that sets the lock: the pointer is limited to the focus window (R108). -/
theorem focusLock_sets {s : State} {f : Focus} {w : Window} (hl : s.fu.lock = false) (hf : s.fu.focus = some f)
    (hw : windowOf s f = some w) (h : anyOwned s = false ∨ ∀ i : Fin 16, s.iu.queues[i].length < 24) :
    (focusLockAction s).fu.lock = true ∧ (focusLockAction s).fu.focus = some f ∧ (focusLockAction s).fu.accum = 0 ∧
    ((focusLockAction s).fu.x, (focusLockAction s).fu.y) = limitTo s.cp.heads[f.head] w s.fu.x s.fu.y := by
  unfold focusLockAction
  rw [if_neg (by simp [hl]), if_pos (by simp [hf]), confine_fu (s := s.setFu { s.fu with lock := true, accum := 0 }) _ _ hf hw]
  rw [requestPosition_fu (by exact h)]
  exact ⟨rfl, hf, rfl, rfl⟩

end Sys2Proof.Machine
end

