-- ==== Sys2Proof/Laws/DeskForms.lean ====
section
/-! SUPPORT. How a desk record is taken, which hot key it matches, and which buttons a slot owns. -/

namespace Sys2Proof.Machine

open Sys2Proof

/-! ## Taking a record -/

/-- A record taken in ACTIVE is reported (R112, R159). -/
theorem deskReport_reported {s : State} (h : Awake s) (k : Option WakeKind) : deskReport k s = reported s := by
  unfold deskReport
  rw [h.active]
  unfold restartIdle reported
  simp only [h.active, running, h.loaded]
  by_cases z : s.desk.standby = 0 <;> simp [z]

/-- A record that does not wake is reported in ACTIVE alone (R112, R158). -/
theorem deskReport_quietly {s : State} (h : s.cl.loader = .running) : deskReport none s = heardQuietly s := by
  unfold heardQuietly
  split
  · rename_i a
    unfold deskReport
    rw [a]
    unfold restartIdle reported
    simp only [a, running, h]
    by_cases z : s.desk.standby = 0 <;> simp [z]
  · unfold deskReport
    cases h : s.pu.power <;> simp_all

theorem reported_quiet {s : State} (h : NoReset s) : NoReset (reported s) := h.congr rfl rfl

theorem heardQuietly_quiet {s : State} (h : NoReset s) : NoReset (heardQuietly s) := by
  unfold heardQuietly
  split
  · exact reported_quiet h
  · exact h

theorem takeRecord_awake {s : State} (h : Awake s) (k : Option WakeKind) (f : State → State) : takeRecord true k f s = f (reported s) := by
  unfold takeRecord
  rw [if_pos ⟨by simp [running, h.loaded], rfl⟩, deskReport_reported h]

theorem takeRecord_quietly {s : State} (h : s.cl.loader = .running) (f : State → State) : takeRecord true none f s = f (heardQuietly s) := by
  unfold takeRecord
  rw [if_pos ⟨by simp [running, h], rfl⟩, deskReport_quietly h]

/-- What keeps a state without a RESET response is a step's next state. -/
theorem completed_keeps {s t : State} (h : NoReset s) (k : Keeps s t) : completed t = .next t := completed_next (k.quiet h)

/-! ## Hot keys -/

theorem matchHotKey_none {s : State} {u : Byte}
    (h : ∀ (i : Fin 16) (k : HotKey), s.iu.hotkeys[i] = some k → k.usage ≠ u ∨ k.mods ≠ s.iu.mods) : matchHotKey u s = none := by
  unfold matchHotKey findIndex
  rw [List.find?_eq_none.2]
  · rfl
  · intro i _
    dsimp only
    split
    · rename_i k hk
      rcases h i k hk with x | x <;> simp [x]
    · simp

theorem finRange_split (i : Fin 16) : List.finRange 16 = (List.finRange 16).take i.val ++ i :: (List.finRange 16).drop (i.val + 1) ∧
    ∀ a ∈ (List.finRange 16).take i.val, a < i := by
  revert i
  decide

/-- The matching entry is the one of lowest index with the chord (R115). -/
theorem matchHotKey_some {s : State} {u : Byte} (i : Fin 16) (k : HotKey) (hi : s.iu.hotkeys[i] = some k) (hu : k.usage = u)
    (hm : k.mods = s.iu.mods)
    (h : ∀ (j : Fin 16) (k' : HotKey), j < i → s.iu.hotkeys[j] = some k' → ¬ (k'.usage = u ∧ k'.mods = s.iu.mods)) :
    matchHotKey u s = some k := by
  have key : (List.finRange 16).find? (fun i => match s.iu.hotkeys[i] with
      | some k => decide (k.usage = u) && decide (k.mods = s.iu.mods) | none => false) = some i := by
    rw [List.find?_eq_some_iff_append]
    refine ⟨by simp only [hi]; simp [hu, hm], _, _, (finRange_split i).1, fun a ha => ?_⟩
    have lt := (finRange_split i).2 a ha
    cases hk : s.iu.hotkeys[a] with
    | none => rfl
    | some k' =>
      have := h a k' lt hk
      simp only [Bool.not_eq_true', Bool.and_eq_false_iff, decide_eq_false_iff_not]
      exact not_and_or.1 this
  unfold matchHotKey findIndex
  refine Eq.trans (congrArg (fun o : Option (Fin 16) => o.bind fun i => s.iu.hotkeys[i]) key) hi

/-! ## What the focus rules read -/

/-- Whether a window is focusable depends on the stream table, the claim unit and the power state alone (R92). -/
theorem focusable_congr {s t : State} (hs : t.sr = s.sr) (hc : t.cu = s.cu) (hp : t.pu.power = s.pu.power) (w : Window) :
    focusable t w = focusable s w := by
  unfold focusable windowSlot streamOf streamIndex slotTakesInput nodePresent
  rw [hs, hc, hp]

theorem focusHolds_congr {s t : State} (hs : t.sr = s.sr) (hc : t.cu = s.cu) (hp : t.pu.power = s.pu.power) (hd : t.cp = s.cp)
    (f : Focus) : focusHolds t f = focusHolds s f := by
  unfold focusHolds windowOf
  rw [hd]
  cases s.cp.active[f.head].find? fun w => w.id = f.win with
  | none => rfl
  | some w => simp only [focusable_congr hs hc hp]

theorem asTarget_congr {s t : State} (hs : t.sr = s.sr) (hc : t.cu = s.cu) (hp : t.pu.power = s.pu.power)
    (hit : Option (Fin 4 × Window)) : asTarget t hit = asTarget s hit := by
  unfold asTarget
  simp only [focusable_congr hs hc hp]

theorem hitTest_congr {s t : State} (hd : t.cp = s.cp) (x y : Int) : hitTest t x y = hitTest s x y := by
  unfold hitTest headAt
  rw [hd]

/-! ## Buttons -/

/-- With no button owned, a slot owns none. -/
theorem ownedBy_unowned (i : Fin 16) {o : State} (h : anyOwned o = false) : ownedBy i o = 0 := by
  rw [anyOwned_false] at h
  have key : ∀ (l : List (Fin 5)) (b : BitVec 5),
      List.foldl (fun b k => if o.iu.owners[k] = some i then b ||| (1#5 <<< k.val) else b) b l = b := by
    intro l
    induction l with
    | nil => exact fun b => rfl
    | cons x l ih =>
      intro b
      rw [List.foldl_cons, if_neg (by rw [h x]; simp)]
      exact ih b
  exact key _ _

/-- A button's number is its place in the owner set. -/
theorem buttonIndex_of {b : Byte} {k : Fin 5} (h : b.toNat = k.val + 1) : buttonIndex b = some k ∧ buttonInRange b = true := by
  unfold buttonIndex buttonInRange
  have := k.isLt
  constructor
  · rw [dif_pos (by omega)]
    congr 1
    ext
    simp [h]
  · simp
    omega

/-- An append to a full queue whose tail does not take the record raises QUEUE_OVERFLOW (R130). -/
theorem append_overflow_event (i : Fin 16) (r : InputRecord) {s : State} (h : 24 < (queued s.iu.queues[i] r).length)
    (hq : s.iu.queues[i].length ≤ 24) : (append i r s).mu.events &&& EventKind.bit .queueOverflow ≠ 0 := by
  have k : (appendRecord i r s).mu.events &&& EventKind.bit .queueOverflow ≠ 0 := by
    rw [appendRecord_overflow i r h hq, (pumpBuilder_builds _ _).events]
    exact raise_pending _ _
  unfold append
  dsimp only
  split
  · exact (dragEnd_keeps (.refl _)).events _ k
  · exact k

/-- The owner set with one button's owner taken out. -/
theorem anyOwned_without {s o : State} {k : Fin 5} (h : o.iu.owners = s.iu.owners.set k none) :
    anyOwned o = false ↔ ∀ j : Fin 5, j ≠ k → s.iu.owners[j] = none := by
  rw [anyOwned_false, h]
  constructor
  · intro a j hj
    have := a j
    rwa [Fin.getElem_fin, Vector.getElem_set_ne _ _ (fun e => hj (Fin.ext e.symm))] at this
  · intro a j
    by_cases e : j = k
    · subst e
      simp
    · rw [Fin.getElem_fin, Vector.getElem_set_ne _ _ (fun x => e (Fin.ext x.symm))]
      exact a j e

/-! ## Points -/

/-- The head search finds a head exactly where an enabled one contains the point (R89, R91). -/
theorem onDesk_iff (s : State) (x y : Int) : (headAt s x y).isSome = true ↔ onDesk s x y := by
  unfold onDesk
  constructor
  · intro h
    obtain ⟨i, hi⟩ := Option.isSome_iff_exists.1 h
    exact ⟨i, by simpa [headContains, within, and_assoc] using (findIndex_least hi).1⟩
  · rintro ⟨i, h⟩
    cases hh : headAt s x y with
    | some j => rfl
    | none =>
      have := find_ofFn_none hh i
      rw [show (s.cp.heads[i].enabled && headContains s.cp.heads[i] x y) = true by
        simpa [headContains, within, and_assoc] using h] at this
      cases this

/-- The trial point is the one a movement leads to (R89). -/
theorem trialPoint_of {s : State} {dx dy : Int} {p : Int × Int} (h : MovesTo s dx dy p) : trialPoint s dx dy = p := by
  unfold trialPoint
  dsimp only
  have o := fun x y => onDesk_iff s x y
  rcases h with ⟨rfl, b⟩ | ⟨a, rfl, c⟩ | ⟨a, b, rfl, d⟩ | ⟨a, b, c, rfl⟩
  · rw [if_pos ((o _ _).2 b)]
  · rw [if_neg (fun x => a ((o _ _).1 x)), if_pos ((o _ _).2 c)]
  · rw [if_neg (fun x => a ((o _ _).1 x)), if_neg (fun x => b ((o _ _).1 x)), if_pos ((o _ _).2 d)]
  · rw [if_neg (fun x => a ((o _ _).1 x)), if_neg (fun x => b ((o _ _).1 x)), if_neg (fun x => c ((o _ _).1 x))]

/-- A point that the hit test finds a window at has no negative coordinate. -/
theorem hitTest_nonneg {s : State} {x y : Int} {h : Fin 4 × Window} (e : hitTest s x y = some h) : 0 ≤ x ∧ 0 ≤ y := by
  unfold hitTest at e
  split at e
  · cases e
  · rename_i i hi
    obtain ⟨k, _, a, b, c, d⟩ := (onDesk_iff s x y).1 (by rw [hi]; rfl)
    omega

/-! ## Appends to other queues -/

/-- An append leaves the other slots' queues as they are while the builder keeps a frame. -/
theorem appendRecord_other {i k : Fin 16} {r : InputRecord} {t : State} (hh : t.iu.held.isSome = true) (hk : k ≠ i) :
    (appendRecord k r t).iu.queues[i] = t.iu.queues[i] := by
  have key (u : State) (h1 : u.iu.held = t.iu.held) (q : List InputRecord) (h2 : u.iu.queues = t.iu.queues.set k q) :
      (pumpBuilder pumpBound u).iu.queues[i] = t.iu.queues[i] := by
    rw [pumpBuilder_kept _ (by rw [h1]; exact hh)]
    simp only [Fin.getElem_fin, h2]
    rw [Vector.getElem_set_ne]
    exact fun e => hk (Fin.ext e)
  obtain ⟨u, e, hu⟩ : ∃ u, appendRecord k r t = pumpBuilder pumpBound u ∧ u = (match coalesce t.iu.queues[k] r with
      | some q' => t.setIu { t.iu with queues := t.iu.queues.set k q' }
      | none => if t.iu.queues[k].length < 24 then t.setIu { t.iu with queues := t.iu.queues.set k (t.iu.queues[k] ++ [r]) }
        else overflow k (t.iu.queues[k].length + 1) t) := ⟨_, rfl, rfl⟩
  rw [e]
  split at hu
  · subst hu
    exact key _ rfl _ rfl
  · split at hu
    · subst hu
      exact key _ rfl _ rfl
    · subst hu
      unfold overflow
      refine key _ ?_ [.resync] ?_ <;> rw [(raise_posts _ _).iu] <;> rfl

/-- The POSITION of one slot leaves another slot's queue as it is while the builder keeps a frame. -/
theorem requestPosition_other {s : State} {i : Fin 16} (ho : anyOwned s = false) (hh : s.iu.held.isSome = true)
    (hf : s.fu.focus.map (·.slot) ≠ some i) : (requestPosition s).iu.queues[i] = s.iu.queues[i] := by
  unfold requestPosition positionRequest
  split
  · rfl
  · rename_i k p hr
    have hk : k ≠ i := by
      unfold requestedPoint at hr
      intro e
      subst e
      apply hf
      cases hfo : s.fu.focus with
      | none =>
        rw [hfo] at hr
        cases hr
      | some f =>
        rw [hfo] at hr
        simp only [Option.bind_some, Option.bind_eq_some_iff, Option.map_eq_some_iff] at hr
        obtain ⟨w, _, a, _, b⟩ := hr
        cases b
        rfl
    rw [append_unowned _ _ (by exact ho), appendRecord_other (t := s.setFu { s.fu with reported := some p }) hh hk]
    rfl

/-! ## The entry to STANDBY -/

/-- After an entry to STANDBY the slot that lost focus owns neither key nor button (R107, R125). -/
theorem enterStandby_leaves {t : State} (h : t.pu.power = .active) {f : Focus} (hf : t.fu.focus = some f) :
    (∀ x ∈ (enterStandby t).iu.keys, x.2 ≠ f.slot) ∧ ∀ j : Fin 5, (enterStandby t).iu.owners[j] ≠ some f.slot := by
  obtain ⟨u, hu⟩ : ∃ u : State, u = (countPu (fun c => { c with standbys := bump c.standbys })
    (t.setPu { t.pu with power := .standby, idle := none })).setFu { t.fu with lock := false, accum := 0 } := ⟨_, rfl⟩
  have e : enterStandby t = standbyClaims (changeFocus none u) := by
    unfold enterStandby
    rw [if_neg (by rw [h]; decide), hu]
    rfl
  have uf : u.fu.focus = some f := by rw [hu]; exact hf
  have ci := changeFocus_leaves none uf (by simp)
  obtain ⟨_, _, c, d, _⟩ := synthesis_clears f.slot u
  have hands := (standbyClaims_hands (changeFocus none u)).1
  rw [e]
  constructor
  · intro x hx
    have := hands.keys x hx
    rw [ci] at this
    exact c x this
  · intro j hj
    have := hands.owners j _ hj
    rw [ci] at this
    exact d j this

end Sys2Proof.Machine
end

