-- ==== Sys2Proof/Laws/FirmLinks.lean ====
section
/-! SUPPORT. The link ports, the ring forwarder and the management unit's offers leave tables, pool, ownership and claims alone; the
attempt counter stays below the downshift count. -/

namespace Sys2Proof.Machine

open Sys2Proof

/-! ## Calm operations -/

theorem setWlp_calm (t : State) (v : Wlp) : Calm t (t.setWlp v) := ⟨rfl, rfl, rfl, rfl, rfl, rfl, rfl, rfl, .inl rfl⟩

theorem setElp_calm (t : State) (v : Elp) (h : v.attempts = t.elp.attempts ∨ v.attempts = 0) : Calm t (t.setElp v) :=
  ⟨rfl, rfl, rfl, rfl, rfl, rfl, rfl, rfl, h⟩

theorem setRf_calm (t : State) (v : Rf) : Calm t (t.setRf v) := ⟨rfl, rfl, rfl, rfl, rfl, rfl, rfl, rfl, .inl rfl⟩

theorem setMu_calm (t : State) (v : Mu) : Calm t (t.setMu v) := ⟨rfl, rfl, rfl, rfl, rfl, rfl, rfl, rfl, .inl rfl⟩

theorem setCl_calm (t : State) (v : Cl) (h : v.ownAddress = t.cl.ownAddress) : Calm t (t.setCl v) :=
  ⟨rfl, rfl, rfl, rfl, rfl, rfl, rfl, h, .inl rfl⟩

theorem setSerial_calm (t : State) (v : Serial) : Calm t (t.setSerial v) := ⟨rfl, rfl, rfl, rfl, rfl, rfl, rfl, rfl, .inl rfl⟩

theorem setFree_calm (t : State) (n : Nat) : Calm t (t.setFree n) := ⟨rfl, rfl, rfl, rfl, rfl, rfl, rfl, rfl, .inl rfl⟩

theorem raise_calm (k : EventKind) (t : State) : Calm t (raise k t) := (raise_posts k t).calm

theorem sendSymbols_calm (p : Port) (l : List LineSymbol) (t : State) : Calm t (sendSymbols p l t) :=
  ⟨rfl, rfl, rfl, rfl, rfl, rfl, rfl, rfl, .inl rfl⟩

theorem deriveRing_calm (t : State) : Calm t (deriveRing t) := by
  unfold deriveRing
  split
  · exact .refl t
  · exact (setRf_calm t _).trans (raise_calm _ _)

theorem endClosure_calm (t : State) : Calm t (endClosure t) := by
  unfold endClosure
  split <;> exact setRf_calm t _

theorem afterLeavingUp_calm (t : State) : Calm t (afterLeavingUp t) := by
  have k := ((endClosure_calm t).trans (setRf_calm _ { (endClosure t).rf with ring := derivedRing (endClosure t) })).trans
    (raise_calm .linkDown _)
  unfold afterLeavingUp
  dsimp only
  split
  · exact k.trans (raise_calm _ _)
  · exact k

theorem elpLeft_calm (t : State) : Calm t (elpLeft t) := by
  have k : Calm t (egressLost (t.setElp { t.elp with linkDown := bump t.elp.linkDown })) := by
    unfold egressLost
    exact (setElp_calm t _ (.inl (by rfl))).trans (setRf_calm _ _)
  unfold elpLeft
  dsimp only
  refine .trans ?_ (afterLeavingUp_calm _)
  split
  · exact k.trans (setMu_calm _ _)
  · exact k

theorem wlpLeft_calm (rxMid : Bool) (t : State) : Calm t (wlpLeft rxMid t) := (setWlp_calm t _).trans (afterLeavingUp_calm _)

theorem beginTrialAt_calm (r : Rate) (t : State) : Calm t (beginTrialAt r t) := by
  unfold beginTrialAt
  exact (setElp_calm t _ (.inl (by rfl))).trans (sendSymbols_calm _ _ _)

theorem beginTrial_calm (t : State) : Calm t (beginTrial t) := beginTrialAt_calm _ t

theorem energyFound_calm (p : Port) (t : State) : Calm t (energyFound p t) := by
  unfold energyFound
  repeat' split
  all_goals first | exact setWlp_calm t _ | exact setElp_calm t _ (.inl (by rfl))

theorem enterService_calm (p : Port) (t : State) : Calm t (enterService p t) := by
  unfold enterService
  repeat' split
  all_goals first | exact setWlp_calm t _ | exact setElp_calm t _ (.inl (by rfl))

theorem energyGone_calm (p : Port) (rxMid : Bool) (t : State) : Calm t (energyGone p rxMid t) := by
  have w (v v' : Wlp) (b : Prop) [Decidable b] :
      Calm t (if b then wlpLeft rxMid ((t.setWlp v).setWlp v') else (t.setWlp v).setWlp v') := by
    have k := (setWlp_calm t v).trans (setWlp_calm _ v')
    split
    · exact k.trans (wlpLeft_calm _ _)
    · exact k
  have e (v v' : Elp) (h : v.attempts = t.elp.attempts) (h' : v'.attempts = v.attempts) (b : Prop) [Decidable b] :
      Calm t (if b then elpLeft ((t.setElp v).setElp v') else (t.setElp v).setElp v') := by
    have k := (setElp_calm t v (.inl h)).trans (setElp_calm _ v' (.inl h'))
    split
    · exact k.trans (elpLeft_calm _)
    · exact k
  unfold energyGone
  dsimp only
  split
  · split
    · exact setWlp_calm t _
    · exact setWlp_calm t _
    all_goals exact w _ _ _
  · split
    · exact setElp_calm t _ (.inl (by rfl))
    · exact setElp_calm t _ (.inl (by rfl))
    all_goals exact e _ _ (by rfl) (by rfl) _

theorem silenceExpired_calm (p : Port) (t : State) : Calm t (silenceExpired p t) := by
  unfold silenceExpired
  split
  · split
    · exact setWlp_calm t _
    · exact .refl t
  · split
    · exact setElp_calm t _ (.inr (by rfl))
    · exact .refl t

theorem wlpWaits_calm (t : State) : Calm t (wlpWaits t) := setWlp_calm t _

theorem wlpMismatch_calm (t : State) : Calm t (wlpMismatch t) := setWlp_calm t _

theorem elpMismatch_calm (t : State) : Calm t (elpMismatch t) := setElp_calm t _ (.inl (by rfl))

/-- A port accepts a word or does not: the ways on from there. -/
theorem wlpOn_calm (rxMid ok : Bool) {t u : State} (h : Calm t u) :
    Calm t (if ok = true then wlpWaits u else raise .linkMismatch (wlpMismatch u)) ∧
    Calm t (if ok = true then wlpLeft rxMid (wlpWaits u) else raise .linkMismatch (wlpLeft rxMid (wlpMismatch u))) ∧
    Calm t (if ok = true then wlpWaits u else u) := by
  cases ok
  · exact ⟨(h.trans (wlpMismatch_calm u)).trans (raise_calm _ _),
      ((h.trans (wlpMismatch_calm u)).trans (wlpLeft_calm _ _)).trans (raise_calm _ _), h⟩
  · exact ⟨h.trans (wlpWaits_calm u), (h.trans (wlpWaits_calm u)).trans (wlpLeft_calm _ _), h.trans (wlpWaits_calm u)⟩

theorem elpOn_calm (ok : Bool) {t u : State} (h : Calm t u) :
    Calm t (if ok = true then beginTrial u else raise .linkMismatch (elpMismatch u)) ∧
    Calm t (if ok = true then elpLeft (beginTrial u) else raise .linkMismatch (elpLeft (elpMismatch u))) ∧
    Calm t (if ok = true then beginTrial u else u) := by
  cases ok
  · exact ⟨(h.trans (elpMismatch_calm u)).trans (raise_calm _ _),
      ((h.trans (elpMismatch_calm u)).trans (elpLeft_calm _)).trans (raise_calm _ _), h⟩
  · exact ⟨h.trans (beginTrial_calm u), (h.trans (beginTrial_calm u)).trans (elpLeft_calm _), h.trans (beginTrial_calm u)⟩

theorem wlpCap_calm (w : CapWord) (rxMid : Bool) (t : State) : Calm t (wlpCap w rxMid t) := by
  obtain ⟨a, b, c⟩ := wlpOn_calm rxMid (accepts t w) (setWlp_calm t { t.wlp with partner := some w })
  unfold wlpCap
  dsimp only
  split
  · exact .refl t
  · exact .refl t
  · exact a
  · split
    · exact .refl t
    · exact a
  · split
    · exact .refl t
    · exact b
  · split
    · exact .refl t
    · exact c

theorem elpCap_calm (w : CapWord) (t : State) : Calm t (elpCap w t) := by
  obtain ⟨a, b, c⟩ := elpOn_calm (accepts t w) (setElp_calm t { t.elp with partner := some w } (.inl (by rfl)))
  unfold elpCap
  dsimp only
  split
  · exact .refl t
  · exact .refl t
  · exact a
  · split
    · exact .refl t
    · exact a
  · split
    · exact .refl t
    · exact b
  · split
    · exact .refl t
    · exact c

theorem wlpOwnWord_calm (rxMid : Bool) (t : State) : Calm t (wlpOwnWord rxMid t) := by
  obtain ⟨a, b, c⟩ := wlpOn_calm rxMid (recordAccepted t t.wlp.partner) (sendSymbols_calm .west [.cap (ownWord t)] t)
  unfold wlpOwnWord
  dsimp only
  split
  · exact .refl t
  · exact .refl t
  · exact .refl t
  · exact a
  · exact b
  · exact c

theorem elpOwnWord_calm (t : State) : Calm t (elpOwnWord t) := by
  obtain ⟨a, b, c⟩ := elpOn_calm (recordAccepted t t.elp.partner) (sendSymbols_calm .east [.cap (ownWord t)] t)
  unfold elpOwnWord
  dsimp only
  split
  · exact .refl t
  · exact .refl t
  · exact .refl t
  · exact a
  · exact b
  · exact c

theorem wlpTrial_calm (r : Rate) (rxMid : Bool) (t : State) : Calm t (wlpTrial r rxMid t) := by
  unfold wlpTrial
  dsimp only
  split
  · exact setWlp_calm t _
  · exact (setWlp_calm t _).trans (wlpLeft_calm _ _)
  all_goals exact .refl t

theorem wlpGo_calm (t : State) : Calm t (wlpGo t) := by
  unfold wlpGo
  split
  · exact (setWlp_calm t _).trans (deriveRing_calm _)
  · exact .refl t

theorem generateBeacon_calm (t : State) : Calm t (generateBeacon t) := by
  have k := (offerInsertion_posts ⟨beaconFrame t, false⟩ t).calm
  unfold generateBeacon
  split <;> rename_i u hu <;> rw [hu] at k <;> exact k.trans (setRf_calm _ _)

theorem beaconTick_calm (t : State) : Calm t (beaconTick t) := (generateBeacon_calm t).trans (setRf_calm _ _)

theorem startBeacons_calm (t : State) : Calm t (startBeacons t) := by
  unfold startBeacons
  split
  · exact beaconTick_calm t
  · exact .refl t

theorem elpLock_calm (r : Rate) (t : State) : Calm t (elpLock r t) := by
  unfold elpLock
  split
  · dsimp only
    exact ((((setElp_calm t _ (.inr (by rfl))).trans (sendSymbols_calm _ _ _)).trans (arbitrate_posts _).calm).trans
      (startBeacons_calm _)).trans (deriveRing_calm _)
  · exact .refl t

theorem elpRetrain_calm (t : State) : Calm t (elpRetrain t) := by
  unfold elpRetrain
  split
  · exact (beginTrialAt_calm _ t).trans (elpLeft_calm _)
  · exact .refl t

theorem lockLost_calm (p : Port) (rxMid : Bool) (t : State) : Calm t (lockLost p rxMid t) := by
  unfold lockLost
  split
  · split
    · exact ((setWlp_calm t _).trans (sendSymbols_calm _ _ _)).trans (wlpLeft_calm _ _)
    · exact setWlp_calm t _
  · split
    · exact (setElp_calm t _ (.inl (by rfl))).trans (elpLeft_calm _)
    · exact .refl t

theorem errorBurst_calm (rxMid : Bool) (t : State) : Calm t (errorBurst rxMid t) := by
  unfold errorBurst
  split
  · exact (((setWlp_calm t _).trans (sendSymbols_calm _ _ _)).trans (wlpWaits_calm _)).trans (wlpLeft_calm _ _)
  · exact .refl t

theorem receiverLocks_calm (t : State) : Calm t (receiverLocks t) := by
  unfold receiverLocks
  split
  · exact setWlp_calm t _
  · exact .refl t

theorem forward_calm (f : Frame) (t : State) : Calm t (forward f t) := by
  unfold forward
  repeat' split
  all_goals first | exact setRf_calm t _ | exact (setRf_calm t _).trans (arbitrate_posts _).calm

theorem frameSent_calm (t : State) : Calm t (frameSent t) := by
  unfold frameSent
  split
  · exact (setRf_calm t _).trans (arbitrate_posts _).calm
  · exact .refl t

theorem beaconDue_calm (t : State) : Calm t (beaconDue t) := by
  unfold beaconDue
  split
  · exact beaconTick_calm t
  · exact .refl t

theorem closureDue_calm (t : State) : Calm t (closureDue t) := by
  unfold closureDue
  split
  · exact (endClosure_calm t).trans (deriveRing_calm _)
  · exact .refl t

theorem refreshClosure_calm (f : Frame) (t : State) : Calm t (refreshClosure f t) := by
  unfold refreshClosure
  split
  · split
    · exact (setRf_calm t _).trans (deriveRing_calm _)
    · exact .refl t
  · exact .refl t

/-! ## The attempt counter (R11) -/

/-- The attempt counter set below the downshift count. -/
theorem setElp_firm {s t : State} (h : Firm s t) (v : Elp) (ha : t.desk.downshift ≤ 15 → t.elp.attempts ≤ 15 → v.attempts ≤ 15) :
    Firm s (t.setElp v) :=
  h.trans ⟨fun c => ⟨c.downshift, ha c.downshift c.attempts, c.guardDistance, c.accum⟩, id, id, id, id, id, id⟩

theorem trialFailed_firm (r : Rate) {s t : State} (h : Firm s t) : Firm s (trialFailed r t) := by
  unfold trialFailed
  split
  · rename_i hl; exact setElp_firm h _ fun d _ => by show t.elp.attempts + 1 ≤ 15; omega
  · split
    · split
      · exact raise_firm _ (setElp_firm h _ fun _ _ => Nat.zero_le _)
      · exact setElp_firm h _ fun _ _ => Nat.zero_le _
    · exact setElp_firm h _ fun _ _ => Nat.zero_le _

theorem windowExpires_firm {s t : State} (h : Firm s t) : Firm s (windowExpires t) := by
  unfold windowExpires
  split
  · split
    · exact (trialFailed_firm _ h).calm (beginTrial_calm _)
    · exact h
  · exact h

/-! ## Offers of the management unit -/

theorem tryNotice_calm (t : State) : Calm t (tryNotice t) := (tryNotice_posts t).calm

theorem makeDue_calm (t : State) : Calm t (makeDue t) := by
  unfold makeDue
  split
  · exact (setMu_calm t _).trans (tryNotice_calm _)
  · exact .refl t

theorem responseAppended_calm (e : InsEntry) (t : State) : Calm t (responseAppended e t) := by
  unfold responseAppended
  dsimp only
  split <;> exact (setMu_calm t _).trans (setMu_calm _ _)

theorem offerResponse_calm (e : InsEntry) (t : State) : Calm t (offerResponse e t) := by
  have k := (offerInsertion_posts e t).calm
  unfold offerResponse
  split
  · exact setMu_calm t _
  · split <;> rename_i u hu <;> rw [hu] at k
    · exact (k.trans (responseAppended_calm _ _)).trans (tryNotice_calm _)
    · exact k.trans (setMu_calm _ _)

theorem appendManagement_calm (o : MuOffer) (t : State) : Calm t (appendManagement o t) := by
  have k := (setMu_calm t { t.mu with offer := none }).trans (offerInsertion_posts o.entry _).calm
  unfold appendManagement
  dsimp only
  split
  · have n : Calm t (noticeAppended (offerInsertion o.entry (t.setMu { t.mu with offer := none })).2) :=
      k.trans (setMu_calm _ _)
    unfold offerWaiting
    split
    · exact (n.trans (setMu_calm _ _)).trans (offerResponse_calm _ _)
    · exact n
  · exact (k.trans (responseAppended_calm _ _)).trans (tryNotice_calm _)

theorem noticeExpired_calm (t : State) : Calm t (noticeExpired t) := by
  unfold noticeExpired
  exact (setMu_calm t _).trans (tryNotice_calm _)

theorem intervalDue_calm (t : State) : Calm t (intervalDue t) := by
  unfold intervalDue
  split
  · exact noticeExpired_calm t
  · exact .refl t

end Sys2Proof.Machine
end

