-- ==== Sys2Proof/Laws/FirmRest.lean ====
section
/-! SUPPORT. The compositor, the settings, management, reception, load, resets and the passing of time keep what Safety.lean says of
tables, pool, ownership and claims. -/

namespace Sys2Proof.Machine

open Sys2Proof

/-! ## The compositor -/

theorem listValid_whole {h : Fin 4} {ws : List Window} {t : State} (k : listValid h ws t = true) : listWhole ws := by
  unfold listValid at k
  simp only [Bool.and_eq_true, decide_eq_true_eq] at k
  exact ⟨k.1.1, k.1.2⟩

theorem ListsWhole.set_list {n : Nat} {v : Vector (List Window) n} (h : ∀ i : Fin n, listWhole v[i]) (i : Fin n) {ws : List Window}
    (hw : listWhole ws) (j : Fin n) : listWhole (v.set i ws)[j] := by
  simp only [Fin.getElem_fin, Vector.getElem_set]
  split
  · exact hw
  · exact h j

theorem storeHead_firm (i : Fin 4) (r : HeadRecord) {s t : State} (h : Firm s t) (hr : headInRange r = true) :
    Firm s (storeHead i r t) := by
  have k : Firm s (t.setCp { t.cp with heads := t.cp.heads.set i r }) :=
    setCp_firm h _ (fun w => ⟨w.active, w.staged, w.presets⟩) fun w j => by
      simp only [Fin.getElem_fin, Vector.getElem_set]
      split
      · exact hr
      · exact w j
  unfold storeHead
  dsimp only
  split
  · exact headReport_firm k
  · exact k

theorem headRefusal_none {l : Bool} {i : Fin 4} {r : HeadRecord} {t : State} (h : headRefusal l i r t = none) :
    headInRange r = true := by
  unfold headRefusal at h
  split at h
  · cases h
  · rename_i n; simpa using n

theorem writeHead_firm (l : Bool) (i : Fin 4) (r : HeadRecord) {s t : State} (h : Firm s t) : Firm s (writeHead l i r t).2 := by
  unfold writeHead
  split
  · exact h
  · split
    · exact h
    · rename_i hn; exact storeHead_firm _ _ h (headRefusal_none hn)

theorem writeStaged_firm (i : Fin 4) (ws : Option (List Window)) {s t : State} (h : Firm s t) : Firm s (writeStaged i ws t).2 := by
  unfold writeStaged
  split
  · exact h
  · split
    · split
      · rename_i hv
        exact setCp_firm h _ (fun w => ⟨w.active, ListsWhole.set_list w.staged i (listValid_whole hv), w.presets⟩) id
      · exact h
    · exact h

theorem writePreset_firm (i : Fin 32) (ws : Option (List Window)) {s t : State} (h : Firm s t) :
    Firm s (writePreset i ws t).2 := by
  unfold writePreset
  split
  · split
    · rename_i hv
      exact setCp_firm h _ (fun w => ⟨w.active, w.staged, ListsWhole.set_list w.presets i (listValid_whole hv)⟩) id
    · exact h
  · exact h

theorem commitLayout_firm (b : Byte) {s t : State} (h : Firm s t) : Firm s (commitLayout b t).2 := by
  unfold commitLayout
  split
  · exact h
  · exact setCp_firm h _ (fun w => ⟨w.active, w.staged, w.presets⟩) id

theorem latchAll_firm {s t : State} (h : Firm s t) : Firm s (latchAll t) := by
  refine setCp_firm h _ (fun w => ⟨fun k => ?_, w.staged, w.presets⟩) id
  simp only [Fin.getElem_fin, Vector.getElem_ofFn]
  split
  · exact w.staged k
  · exact w.active k

theorem boundary_firm {s t : State} (h : Firm s t) : Firm s (boundary t) := by
  have k := latchAll_firm (swapAll_firm h)
  unfold boundary
  dsimp only
  generalize latchAll (swapAll t) = u at k ⊢
  have p : Firm s (u.setCp { u.cp with raster := nextPeriod u, picture := some (takePicture u) }) :=
    setCp_firm k _ (fun w => ⟨w.active, w.staged, w.presets⟩) id
  split
  · exact fuReevaluate_firm p
  · exact p

/-! ## Settings -/

theorem absenceExpired_firm (n : Fin 62) {s t : State} (h : Firm s t) : Firm s (absenceExpired n t) :=
  nodeIsAbsent_firm _ (h.calm (setRf_calm _ _))

theorem applyAbsence_firm {s t : State} (h : Firm s t) : Firm s (applyAbsence t) := by
  refine foldl_firm _ (fun n s t h => ?_) _ h
  split
  · exact absenceExpired_firm n h
  · exact h

theorem applyEnergyReset_firm {s t : State} (h : Firm s t) : Firm s (applyEnergyReset t) := by
  have a : Firm s (if t.desk.energyReset * 1000 ≤ t.wlp.silence.getD 0 then silenceExpired .west t else t) := by
    split
    · exact h.calm (silenceExpired_calm _ _)
    · exact h
  have b {u : State} (hu : Firm s u) :
      Firm s (if u.desk.energyReset * 1000 ≤ u.elp.silence.getD 0 then silenceExpired .east u else u) := by
    split
    · exact hu.calm (silenceExpired_calm _ _)
    · exact hu
  exact b a

theorem settle_firm (ok : Bool) (f : State → State) {s t : State} (h : Firm s t) (hf : ok = true → Firm s (f t)) :
    Firm s (settle ok f t).2 := by
  unfold settle
  split
  · rename_i hk; exact hf hk
  · exact h

theorem numberSetting_firm (w lo hi : Nat) (bs : List Byte) (f : Nat → State → State) {s t : State} (h : Firm s t)
    (hf : ∀ n, lo ≤ n → n ≤ hi → Firm s (f n t)) : Firm s (numberSetting w lo hi bs f t).2 := by
  unfold numberSetting
  split
  · exact settle_firm _ _ h fun k => by simp at k; exact hf _ k.1 k.2
  · exact h

theorem writeDesk_firm (l : Bool) (o : Byte) (i : Nat) (bs : List Byte) {s t : State} (h : Firm s t) :
    Firm s (writeDesk l o i bs t).2 := by
  have head (k : Fin 4) : Firm s (writeHeadEntry l k bs t).2 := by
    unfold writeHeadEntry
    split
    · exact writeHead_firm _ _ _ h
    · exact h
  have color (k : Fin 6) (c : Option Colour) : Firm s (t.setCp { t.cp with palette := t.cp.palette.set k c }) :=
    setCp_firm h _ (fun w => ⟨w.active, w.staged, w.presets⟩) id
  have pal (k : Fin 6) : Firm s (writePalette k bs t).2 := by
    unfold writePalette
    split
    · exact color k _
    · exact settle_firm _ _ h fun _ => color k _
  have plain (v : Desk) (hd : v.downshift = t.desk.downshift) (hg : v.guard = t.desk.guard) : Firm s (t.setDesk v) :=
    setDesk_firm h v (by rw [hd]; exact id) (by rw [hg]; exact id)
  unfold writeDesk
  split
  · unfold writeRate
    split
    · exact plain _ rfl rfl
    · split
      · exact plain _ rfl rfl
      · exact h
  · exact head 0
  · exact head 1
  · exact head 2
  · exact head 3
  · exact pal 0
  · exact pal 1
  · exact pal 2
  · exact pal 3
  · exact pal 4
  · exact pal 5
  · refine numberSetting_firm _ _ _ _ _ h fun n _ hn => ?_
    exact setFu_firm (setDesk_firm h { t.desk with guard := n } id fun _ => hn) _ rfl (.inr rfl)
  · exact numberSetting_firm _ _ _ _ _ h fun n _ hn => writeStandby_firm n h
  · exact numberSetting_firm _ _ _ _ _ h fun n _ h2 => setDesk_firm h { t.desk with downshift := n } (fun _ => h2) id
  · refine numberSetting_firm _ _ _ _ _ h fun n h1 h2 => ?_
    unfold writeEnergyReset
    split
    · exact h
    · exact applyEnergyReset_firm (plain _ rfl rfl)
  · exact numberSetting_firm _ _ _ _ _ h fun n _ _ => plain { t.desk with beaconPeriod := n } rfl rfl
  · refine numberSetting_firm _ _ _ _ _ h fun n h1 h2 => ?_
    unfold writeAbsence
    split
    · exact h
    · exact applyAbsence_firm (plain _ rfl rfl)
  · exact numberSetting_firm _ _ _ _ _ h fun n _ _ => plain { t.desk with priority := byte n } rfl rfl
  · exact numberSetting_firm _ _ _ _ _ h fun n _ _ => plain { t.desk with claimTimeout := n } rfl rfl
  · refine numberSetting_firm _ _ _ _ _ h fun n h1 h2 => ?_
    have k := plain { t.desk with noticeInterval := n } rfl rfl
    unfold writeNoticeInterval applyNoticeInterval
    split
    · exact h
    · split
      · split
        · exact k.calm (noticeExpired_calm _)
        · exact k
      · exact k
  · split
    · rename_i b
      refine settle_firm _ _ h fun hb => ?_
      have k := plain { t.desk with noticeTarget := b } rfl rfl
      unfold writeNoticeTarget
      dsimp only
      split
      · exact k.calm (setMu_calm _ _)
      · exact k
    · exact h
  · unfold writeAuthority
    split
    · exact h
    · split
      · rename_i b
        exact settle_firm _ _ h fun hb => plain { t.desk with authority := b } rfl rfl
      · exact h
  · exact settle_firm _ _ h fun _ => plain { t.desk with seed := at32 bs 0 } rfl rfl
  · exact h

theorem writeEntry_firm (l : Bool) (o : Byte) (sp : Space) (i : Nat) (bs : List Byte) {s t : State} (h : Firm s t) :
    Firm s (writeEntry l o sp i bs t).2 := by
  unfold writeEntry
  split
  · exact writeDesk_firm _ _ _ _ h
  · split
    · unfold writeSlotEntry
      split
      · exact writeSlot_firm _ _ h
      · split
        · exact writeSlot_firm _ _ h
        · exact h
    · exact h
  · split
    · exact writeStream_firm _ _ h
    · exact h
  · split
    · exact writePreset_firm _ _ h
    · exact h
  · split
    · exact writeStaged_firm _ _ h
    · exact h
  · split
    · exact writeHotKey_firm _ _ h
    · exact h
  · split
    · exact writeLamp_firm _ _ h
    · exact h
  · unfold writeEvents
    split
    · refine settle_firm _ _ h fun _ => ?_
      unfold writeMask
      dsimp only
      split
      · exact (h.calm (setMu_calm _ _)).calm (makeDue_calm _)
      · exact h.calm (setMu_calm _ _)
    · exact h
  all_goals exact h

theorem writeEntries_firm (o : Byte) (sp : Space) (i : Nat) (bs : List (List Byte)) {s t : State} (h : Firm s t) :
    Firm s (writeEntries o sp i bs t).2.2 := by
  induction bs generalizing i t with
  | nil => exact h
  | cons b bs ih =>
    have k := writeEntry_firm false o sp i b h
    unfold writeEntries
    split <;> rename_i u hu <;> rw [hu] at k
    · exact k
    · exact ih _ k

/-! ## Management -/

theorem mapTable_flatMap {α : Type} {n : Nat} (g : α → α) (f : α → List Nat) (v : Vector α n) (h : ∀ x, f (g x) = f x) :
    (mapTable g v).toList.flatMap f = v.toList.flatMap f := by
  have e : (mapTable g v).toList = v.toList.map g := by
    unfold mapTable
    apply List.ext_getElem
    · simp
    · intro i h1 h2; simp
  rw [e, List.flatMap_map]
  simp only [h]

/-- A change of every entry that touches neither state, buffers, assembly nor ready frame. -/
theorem PoolWhole.map {r : Sr} (p : PoolWhole r) (g : StreamEntry → StreamEntry) (hs : ∀ e, (g e).state = e.state)
    (hb : ∀ e, (g e).buffers = e.buffers) (ha : ∀ e, (g e).assembly = e.assembly) (hr : ∀ e, (g e).ready = e.ready) :
    PoolWhole { r with entries := mapTable (Option.map g) r.entries } := by
  refine ⟨?_, p.rising, fun i e h => ?_⟩
  · show (r.free ++ (mapTable (Option.map g) r.entries).toList.flatMap entryBuffers).Perm _
    rw [mapTable_flatMap (Option.map g) entryBuffers r.entries (fun x => by cases x <;> simp [entryBuffers, hb])]
    exact p.whole
  · simp only [mapTable, Fin.getElem_fin, Vector.getElem_ofFn, Option.map_eq_some_iff] at h
    obtain ⟨x, hx, rfl⟩ := h
    exact (p.entries i x hx).plain (by rw [hs]) (hb x) (by rw [ha]) (hr x)

/-- The counters cleared: no entry's state, buffers or numbers are among them. -/
theorem clearCounters_firm {s t : State} (h : Firm s t) : Firm s (clearCounters t) := by
  unfold clearCounters
  dsimp only
  refine Firm.calm (setPu_firm (setCu_firm (setIu_firm (setSr_firm (((h.calm (setWlp_calm _ _)).calm
    (setElp_calm _ _ (.inl (by rfl)))).calm (setRf_calm _ _)) _ ?_) _ ?_ ?_) _ ?_) _ ?_) (setMu_calm _ _)
  · exact fun p => p.map (fun e => { e with c := streamCountersZero }) (fun _ => rfl) (fun _ => rfl) (fun _ => rfl) fun _ => rfl
  · exact .refl _
  · exact fun _ _ => id
  · exact fun _ _ c => c.same rfl rfl
  · rfl

theorem handle_firm (o : Byte) (p : List Byte) {s t : State} (h : Firm s t) : Firm s (handle o p t).2 := by
  have hprot : Firm s (protect t).2 := h.calm (setMu_calm _ _)
  unfold handle
  split
  · unfold doRead
    split
    · exact h
    · split
      · exact h
      · split
        · exact hprot
        · exact h
  · unfold doWrite
    split
    · exact h
    · split
      · exact h
      · split
        · exact h
        · split
          · exact hprot
          · split
            · exact h
            · exact writeEntries_firm _ _ _ _ h
  · exact commitLayout_firm _ h
  · exact selectPreset_firm _ h
  · exact localRequest_firm _ _ h
  · exact localRelease_firm _ _ h
  · exact setPower_firm _ h
  · exact h.calm (setMu_calm _ _)
  · exact clearCounters_firm h
  · unfold setProtection answered
    repeat' split
    all_goals first | exact h | exact h.calm (setMu_calm _ _)
  · unfold beginSave answered
    split
    · exact h.calm (setCl_calm _ _ rfl)
    · exact h
  · unfold doReset
    split
    · exact h
    · exact h

theorem tagOf_calm (p : List Byte) (t : State) : Calm t (tagOf p t).2 := by
  unfold tagOf
  split
  · exact .refl t
  · exact setFree_calm t _
  · exact setFree_calm t _

theorem serveRequest_firm (f : Frame) {s t : State} (h : Firm s t) : Firm s (serveRequest f t) := by
  unfold serveRequest
  dsimp only
  refine Firm.calm ?_ (offerResponse_calm _ _)
  have k : Firm s (countMu (fun c => { c with taken := bump c.taken })
      ((tagOf f.payload t).2.setMu { (tagOf f.payload t).2.mu with work := some ⟨f.origin, (tagOf f.payload t).1, false⟩ })) :=
    ((h.calm (tagOf_calm _ _)).calm (setMu_calm _ _)).calm (setMu_calm _ _)
  split
  · exact handle_firm _ _ k
  · exact k.calm (setMu_calm _ _)

theorem requestTaken_firm (f : Frame) {s t : State} (h : Firm s t) : Firm s (requestTaken f t) := by
  unfold requestTaken
  split
  · exact h.calm (setMu_calm _ _)
  · split
    · exact h.calm (setMu_calm _ _)
    · exact serveRequest_firm _ h

/-! ## Reception -/

theorem beaconTaken_firm (f : Frame) {s t : State} (h : Firm s t) : Firm s (beaconTaken f t) := by
  unfold beaconTaken
  split
  · unfold updatePresence
    dsimp only
    split
    · exact nodeIsPresent_firm _ (h.calm (setRf_calm _ _))
    · split
      · exact nodeIsPresent_firm _ (nodeIsAbsent_firm _ (h.calm (setRf_calm _ _)))
      · exact h.calm (setRf_calm _ _)
  · exact h.calm (setRf_calm _ _)

theorem takeFrame_firm (f : Frame) {s t : State} (h : Firm s t) : Firm s (takeFrame f t) := by
  unfold takeFrame
  split
  · exact h.calm (setRf_calm _ _)
  · split
    · exact claimTaken_firm _ h
    · split
      · exact requestTaken_firm _ h
      · split
        · exact beaconTaken_firm _ h
        · exact h.calm (setRf_calm _ _)

theorem decideFrame_firm (f : Frame) {s t : State} (h : Firm s t) : Firm s (decideFrame f t) := by
  unfold decideFrame
  split
  · unfold stripFrame
    dsimp only
    split
    · exact (h.calm (setRf_calm _ _)).calm (refreshClosure_calm _ _)
    · exact h.calm (setRf_calm _ _)
  · split
    · exact h.calm (setRf_calm _ _)
    · unfold routeFrame
      split
      · unfold copyStrip
        split
        · exact offerStrip_firm _ (h.calm (forward_calm _ _))
        · exact h.calm (forward_calm _ _)
      · split
        · exact takeFrame_firm _ (h.calm (forward_calm _ _))
        · split
          · exact takeFrame_firm _ h
          · exact h.calm (forward_calm _ _)

theorem countVerdict_calm (v : Verdict) (t : State) : Calm t (countVerdict v t) := by
  unfold countVerdict
  split <;> exact setWlp_calm t _

theorem frameSeen_firm (b : List Byte) {s t : State} (h : Firm s t) : Firm s (frameSeen b t) := by
  unfold frameSeen
  split
  · exact h
  · split
    · exact h.calm (errorBurst_calm _ _)
    · split
      · exact decideFrame_firm _ (h.calm (countVerdict_calm _ _))
      · exact h.calm (countVerdict_calm _ _)

theorem appendKept_firm (p : Producer) {s t : State} (h : Firm s t) : Firm s (appendKept p t) := by
  unfold appendKept
  split
  · split
    · have k := setIu_firm h { t.iu with held := none } (.refl _) fun _ _ => id
      exact pumpBuilder_firm _ (k.calm (offerInsertion_posts _ _).calm)
    · exact h
  · split
    · exact pumpOutbox_firm _ (claimAppended_firm _ (h.calm (offerInsertion_posts _ _).calm))
    · exact h
  · split
    · exact h.calm (appendManagement_calm _ _)
    · exact h

theorem placeFrees_firm (p : Producer) {s t : State} (h : Firm s t) : Firm s (placeFrees p t) := by
  unfold placeFrees countStillWaiting
  split
  · split
    · exact appendKept_firm _ h
    · exact (appendKept_firm _ h).calm (setRf_calm _ _)
  · exact h

theorem absenceDue_firm (n : Fin 62) {s t : State} (h : Firm s t) : Firm s (absenceDue n t) := by
  unfold absenceDue
  split
  · exact absenceExpired_firm n h
  · exact h

/-! ## Load -/

theorem defaultHead_inRange (i : Fin 4) (b : Bool) : headInRange { defaultHead i with enabled := b } = true := by
  revert i b; decide

theorem fallbackHead_firm (i : Fin 4) {s t : State} (h : Firm s t) : Firm s (fallbackHead i t) := by
  refine storeHead_firm i _ h ?_
  split
  · exact defaultHead_inRange i false
  · exact defaultHead_inRange i (defaultHead i).enabled

theorem fallbackEntry_firm (sp : Space) (i : Nat) {s t : State} (h : Firm s t) : Firm s (fallbackEntry sp i t) := by
  unfold fallbackEntry
  split
  · split
    · exact fallbackHead_firm _ h
    · exact writeEntry_firm _ _ _ _ _ h
  · exact writeEntry_firm _ _ _ _ _ h
  all_goals exact h

theorem loadEntry_firm (sp : Space) (i : Nat) (c : Option (List Byte)) {s t : State} (h : Firm s t) :
    Firm s (loadEntry sp i c t) := by
  unfold loadEntry
  split
  · exact fallbackEntry_firm _ _ (raise_firm _ h)
  · rename_i bs
    have k := writeEntry_firm true 0 sp i bs h
    split <;> rename_i u hu <;> rw [hu] at k
    · exact k
    · exact fallbackEntry_firm _ _ (raise_firm _ k)

theorem loadEntries_firm (o : List (Space × Nat)) (l : List (Option (List Byte))) {s t : State} (h : Firm s t) :
    Firm s (loadEntries o l t) := by
  induction o generalizing l t with
  | nil => unfold loadEntries; exact h
  | cons e o ih =>
    cases l with
    | nil => unfold loadEntries; exact h
    | cons c l => exact ih l (loadEntry_firm e.1 e.2 c h)

theorem loadLevel_firm (a : Area) (l : Option ProtLevel) {s t : State} (h : Firm s t) : Firm s (loadLevel a l t) := by
  have k : Firm s (if l.isNone then raise .loadFault t else t) := by
    split
    · exact raise_firm _ h
    · exact h
  unfold loadLevel
  dsimp only
  split
  · exact k.calm (setMu_calm _ _)
  · exact k.calm (setMu_calm _ _)

theorem loadAreas_firm (a : SerialAnswers) {s t : State} (h : Firm s t) : Firm s (loadAreas a t) := by
  have flags (d l : Validity) (p : Prop) [Decidable p] :
      Firm s (if p then raise .loadFault (t.setCl { t.cl with deskFlag := d, layoutFlag := l })
        else t.setCl { t.cl with deskFlag := d, layoutFlag := l }) := by
    split
    · exact raise_firm _ (h.calm (setCl_calm _ _ rfl))
    · exact h.calm (setCl_calm _ _ rfl)
  unfold loadAreas
  exact setCp_firm (loadLevel_firm _ _ (loadEntries_firm _ _ (loadLevel_firm _ _ (loadEntries_firm _ _
    (flags _ _ _))))) _ (fun w => ⟨w.active, w.staged, w.presets⟩) id

theorem startBlocks_firm (w : Bool) {s t : State} (h : Firm s t) : Firm s (startBlocks w t) := by
  have k := h.calm (startBeacons_calm t)
  unfold startBlocks
  dsimp only
  generalize startBeacons t = u at k ⊢
  have k := restartIdle_firm (placePointer_firm (boundary_firm (setCp_firm k { u.cp with raster := ⟨true, u.desk.rate, 0⟩ }
    (fun w => ⟨w.active, w.staged, w.presets⟩) id)))
  generalize restartIdle (placePointer (boundary (u.setCp { u.cp with raster := ⟨true, u.desk.rate, 0⟩ }))) = v at k ⊢
  have k := setPu_firm k { v.pu with filter := none, run := 0, blink := some ⟨0, 0⟩ } rfl
  split
  · exact k.calm (makeDue_calm _)
  · exact k

theorem enterRunning_firm (rxMid : Bool) {s t : State} (h : Firm s t) : Firm s (enterRunning rxMid t) := by
  have o (tag : Byte) {u : State} (hu : Firm s u) : Firm s (ownWordChange rxMid tag u) := by
    unfold ownWordChange
    split
    · exact hu
    · exact (hu.calm (wlpOwnWord_calm _ _)).calm (elpOwnWord_calm _)
  have p (c : Bool) {u : State} (hu : Firm s u) : Firm s (portsIntoService c u) := by
    unfold portsIntoService
    split
    · exact (hu.calm (enterService_calm _ _)).calm (enterService_calm _ _)
    · exact hu
  unfold enterRunning
  exact startBlocks_firm _ (p _ (o _ ((h.calm (setCl_calm _ _ (by rfl))).calm (setRf_calm _ _))))

theorem completeLoad_firm (a : SerialAnswers) (rxMid : Bool) {s t : State} (h : Firm s t) : Firm s (completeLoad a rxMid t) :=
  (enterRunning_firm rxMid (loadAreas_firm a h)).calm (setFree_calm _ _)

/-! ## Saves and resets -/

theorem layoutWritten_calm (t : State) : Calm t (layoutWritten t) := by
  unfold layoutWritten
  split
  · exact (((setSerial_calm t _).trans (setSerial_calm _ _)).trans (setSerial_calm _ _)).trans (setCl_calm _ _ rfl)
  · exact .refl t

theorem deskWritten_calm (t : State) : Calm t (deskWritten t) := by
  unfold deskWritten
  split
  · exact (((setSerial_calm t _).trans (setSerial_calm _ _)).trans (setCl_calm _ _ (by rfl))).trans (raise_calm _ _)
  · exact .refl t

theorem saveFaults_calm (d : Bool) (t : State) : Calm t (saveFaults d t) := by
  have k : Calm t (faultedImage d t) := by
    unfold faultedImage
    split
    · exact .refl t
    · split
      · exact (setSerial_calm t _).trans (setCl_calm _ _ rfl)
      · exact ((setSerial_calm t _).trans (setSerial_calm _ _)).trans (setCl_calm _ _ rfl)
    · exact (setSerial_calm t _).trans (setCl_calm _ _ rfl)
  unfold saveFaults
  split
  · exact .refl t
  · exact (k.trans (setCl_calm _ _ (by rfl))).trans (raise_calm _ _)

theorem abandonSave_calm (t : State) : Calm t (abandonSave t) := by
  have k (v : Serial) (n : Nat) : Calm t ((t.setSerial v).setFree n) := (setSerial_calm t v).trans (setFree_calm _ _)
  unfold abandonSave
  split
  · exact .refl t
  · dsimp only
    split
    · exact ((k _ _).trans (setSerial_calm _ _)).trans (setSerial_calm _ _)
    · exact k _ _
  · exact setSerial_calm t _

/-- The start states of the blocks have whole tables, a whole pool, no owner and no claim. -/
theorem start_whole : ListsWhole cpStart ∧ HeadsInRange cpStart ∧ (∀ l, PoolWhole (srStart l)) ∧
    (∀ f, OwnedByFocus iuStart f) ∧ ∀ a p, ClaimsWhole a p cuStart := by
  have empty : listWhole [] := ⟨Nat.zero_le _, List.nodup_nil⟩
  refine ⟨⟨fun h => ?_, fun h => ?_, fun i => ?_⟩, fun h => ?_, fun l => ⟨?_, ?_, ?_⟩, fun f => ⟨nofun, ?_, List.nodup_nil⟩, fun a p => ?_⟩
  · simpa [cpStart] using empty
  · simpa [cpStart] using empty
  · simpa [cpStart] using empty
  · simpa [cpStart] using defaultHead_inRange h (defaultHead h).enabled
  · simp [srStart, Vector.toList_replicate, entryBuffers]
  · exact List.pairwise_lt_range
  · intro i e h; simp [srStart] at h
  · intro j a h; simp [iuStart] at h
  · refine ⟨?_, ?_, List.nodup_nil, nofun, ?_⟩
    · intro i k r h; simp [cuStart] at h
    · intro i k h; simp [cuStart] at h
    · intro _ i k h; simp [cuStart] at h

theorem powerOn_firm (l : Bool) (b : BitVec 6) (s t : State) : Firm s (powerOn l b t) := by
  obtain ⟨hl, hh, hp, ho, hc⟩ := start_whole
  exact ⟨fun _ => ⟨(by decide : deskDefault.downshift ≤ 15), (by decide : elpStart.attempts ≤ 15),
    (by decide : deskDefault.guard ≤ 255), (by decide : fuStart.accum ≤ 254)⟩, fun _ => hl, fun _ => hh, fun _ => hp _, fun _ => ho _,
    fun _ => hc _ _, fun _ => hc _ _⟩

theorem softReset_firm {s t : State} (h : Firm s t) : Firm s (softReset t) := by
  obtain ⟨hl, _, hp, ho, hc⟩ := start_whole
  refine (h.calm (abandonSave_calm t)).trans ⟨fun c => ⟨c.downshift, c.attempts, c.guardDistance, Nat.zero_le _⟩,
    fun _ => ⟨hl.active, hl.staged, hl.presets⟩, id, fun _ => hp _, fun _ => ho _, fun _ => hc _ _, fun _ => hc _ _⟩

theorem finish_firm {s t : State} (h : Firm s t) : Firm s (finish t) := by
  unfold finish
  split
  · exact softReset_firm h
  · exact h

/-! ## Time -/

/-- A deadline runs down; a request without one stays without (R142). -/
theorem ClaimsWhole.aged {a : Byte} {p : Power} {u : Cu} (c : ClaimsWhole a p u) :
    ClaimsWhole a p { u with slots := mapTable (Option.map ageSlot) u.slots } := by
  have get {i : Fin 16} {k : Slot} (h : (mapTable (Option.map ageSlot) u.slots)[i] = some k) :
      ∃ x, u.slots[i] = some x ∧ ageSlot x = k := by
    simpa only [mapTable, Fin.getElem_fin, Vector.getElem_ofFn, Option.map_eq_some_iff] using h
  refine ⟨fun i k r hs hr => ?_, fun i k hs hh => ?_, c.once, fun m hm hk => ?_, fun hp i k hs => ?_⟩
  · obtain ⟨x, hx, rfl⟩ := get hs
    obtain ⟨y, hy, rfl⟩ := Option.map_eq_some_iff.1 hr
    exact c.above i x y hx hy
  · obtain ⟨x, hx, rfl⟩ := get hs
    exact c.holder i x hx hh
  · obtain ⟨k, l, h1, h2⟩ := c.asked m hm hk
    have h1 : u.slots[(m.slot : Nat)] = some k := h1
    exact ⟨ageSlot k, l, by simp [mapTable, h1], by simp [ageSlot, h2]⟩
  · obtain ⟨x, hx, rfl⟩ := get hs
    obtain ⟨h1, h2⟩ := c.standby hp i x hx
    exact ⟨h1, by simp [ageSlot, h2]⟩

theorem advance_firm {s t : State} (h : Firm s t) : Firm s (advance t) := by
  refine h.trans ⟨fun c => ⟨c.downshift, c.attempts, c.guardDistance, c.accum⟩, fun w => ⟨w.active, w.staged, w.presets⟩, id,
    fun p => ?_, id, fun c => c.aged, fun c => c.aged⟩
  exact p.map ageStream (fun _ => rfl) (fun _ => rfl) (fun _ => rfl) fun _ => rfl

theorem setPending_firm (l : List Instr) {s t : State} (h : Firm s t) : Firm s (t.setPending l) :=
  h.trans ⟨fun c => ⟨c.downshift, c.attempts, c.guardDistance, c.accum⟩, id, id, id, id, id, id⟩

theorem idle_firm {s t : State} (h : Firm s t) : Firm s (idle t) := by
  unfold idle
  split
  · exact setPending_firm _ h
  · exact setPending_firm _ (advance_firm h)

end Sys2Proof.Machine
end

