-- ==== Sys2Proof/Laws/FocusActs.lean ====
section
/-! SUPPORT. Re-evaluation, the clamp of the pointer and motion under the lock, in every case that Safety.lean tells apart (R90, R97, R102,
R103). -/

namespace Sys2Proof.Machine

open Sys2Proof

/-! ## A POSITION request that may end drag capture -/

/-- What hit test and focusability read (R91, R92). -/
structure SameView (s t : State) : Prop where
  sr : t.sr = s.sr
  cp : t.cp = s.cp
  cu : t.cu = s.cu
  power : t.pu.power = s.pu.power

theorem SameView.refl (s : State) : SameView s s := ⟨rfl, rfl, rfl, rfl⟩

theorem SameView.trans {s t u : State} (h : SameView s t) (k : SameView t u) : SameView s u :=
  ⟨k.sr.trans h.sr, k.cp.trans h.cp, k.cu.trans h.cu, k.power.trans h.power⟩

theorem SameView.of {s t : State} (d : Delivers s t) (k : Keeps s t) : SameView s t := ⟨k.same.sr, d.cp, d.cu, by rw [d.pu]⟩

theorem SameView.target {s t : State} (h : SameView s t) (hx : t.fu.x = s.fu.x) (hy : t.fu.y = s.fu.y) :
    targetAtPointer t = targetAtPointer s := by
  unfold targetAtPointer
  rw [asTarget_congr h.sr h.cu h.power, hitTest_congr h.cp, hx, hy]

theorem SameView.holds {s t : State} (h : SameView s t) (f : Focus) : focusHolds t f = focusHolds s f :=
  focusHolds_congr h.sr h.cu h.power h.cp f

theorem SameView.window {s t : State} (h : SameView s t) (f : Focus) : windowOf t f = windowOf s f := by
  unfold windowOf
  rw [h.cp]

theorem SameView.point {s t : State} (h : SameView s t) (hf : t.fu.focus = s.fu.focus) (hx : t.fu.x = s.fu.x) (hy : t.fu.y = s.fu.y) :
    requestedPoint t = requestedPoint s := by
  unfold requestedPoint windowOf streamOf streamIndex
  rw [hf, hx, hy, h.cp, h.sr]

theorem append_view (i : Fin 16) (r : InputRecord) (s : State) : SameView s (append i r s) :=
  .of (append_delivers i r (.refl s)) (append_keeps i r (.refl s))

theorem changeFocus_view (f : Option Focus) (s : State) : SameView s (changeFocus f s) :=
  .of (changeFocus_delivers f (.refl s)) (changeFocus_keeps f (.refl s))

/-- A POSITION request sets the reported position, and nothing else of the focus unit, unless its overflow ends drag capture; then the end
of drag capture follows (R95, R127, R130). -/
theorem requestPosition_cases (s : State) : ∃ r, (requestPosition s).fu = { s.fu with reported := r } ∨
    ∃ v, requestPosition s = dragEnd v ∧ v.fu = { s.fu with reported := r } ∧ anyOwned v = false ∧ SameView s v := by
  unfold requestPosition positionRequest
  split
  · exact ⟨s.fu.reported, .inl rfl⟩
  · rename_i k p _
    refine ⟨some p, ?_⟩
    obtain ⟨u, hu⟩ : ∃ u : State, u = s.setFu { s.fu with reported := some p } := ⟨_, rfl⟩
    rw [← hu]
    have fu := (appendRecord_owners k (.position p (ownedBy k s)) u).1
    have vw : SameView s (appendRecord k (.position p (ownedBy k s)) u) := by
      refine (show SameView s u from by rw [hu]; exact ⟨rfl, rfl, rfl, rfl⟩).trans ?_
      exact .of (appendRecord_delivers _ _ (.refl u)) (appendRecord_keeps _ _ (.refl u))
    unfold append
    dsimp only
    split
    · rename_i h
      exact .inr ⟨_, rfl, fu.trans (by rw [hu]; rfl), by simpa using h.2, vw⟩
    · exact .inl (fu.trans (by rw [hu]; rfl))

/-! ## Re-evaluation -/

theorem clampRun_idem (lo len : Nat) (v : Int) : clampRun lo len (clampRun lo len v) = clampRun lo len v := by
  unfold clampRun
  omega

theorem limitTo_idem (head : HeadRecord) (w : Window) (x y : Int) :
    limitTo head w (limitTo head w x y).1 (limitTo head w x y).2 = limitTo head w x y := by
  unfold limitTo
  simp only [clampRun_idem]

/-- Where the accumulator is clear and no button is owned, a re-evaluation leaves it clear. -/
theorem reevaluate_accum {app : Fin 16 → InputRecord → State → State} (ha : ReportsOnly app) {s : State} (h : anyOwned s = false)
    (h0 : s.fu.accum = 0) : (reevaluate app s).fu.accum = 0 := by
  have ch (t : Option Focus) (u : State) (hu : anyOwned u = false) (h1 : u.fu.accum = 0) :
      (positionRequest app (changeFocus t u)).fu.accum = 0 := by
    obtain ⟨r, hr⟩ := ha (changeFocus t u) (changeFocus_unowned _ hu)
    rw [hr]
    exact (changeFocus_fu t u).2.2.2.2 h1
  have cf (x y : Int) (u : State) : (confine x y u).fu.accum = u.fu.accum ∧ (confine x y u).iu = u.iu := by
    unfold confine
    (repeat' split) <;> exact ⟨rfl, rfl⟩
  unfold reevaluate
  split
  · split
    · obtain ⟨r, hr⟩ := ha (confine s.fu.x s.fu.y s) (by rw [anyOwned_congr (s := s) (by rw [(cf _ _ s).2])]; exact h)
      rw [hr]
      exact ((cf _ _ s).1).trans h0
    · rw [if_neg (by simp [h])]
      exact ch _ _ h h0
  · unfold forceFocus
    exact ch _ _ h rfl

/-- A forced change in every state (R103). -/
theorem forceFocus_append (s : State) : (forceFocus append s).fu.focus = targetAtPointer s ∧ (forceFocus append s).fu.lock = false ∧
    (forceFocus append s).fu.accum = 0 ∧ (forceFocus append s).fu.x = s.fu.x ∧ (forceFocus append s).fu.y = s.fu.y := by
  obtain ⟨u, hu⟩ : ∃ u : State, u = s.setFu { s.fu with lock := false, accum := 0 } := ⟨_, rfl⟩
  have e : forceFocus append s = requestPosition (changeFocus (targetAtPointer u) u) := by rw [hu]; rfl
  have vu : SameView s u := by rw [hu]; exact ⟨rfl, rfl, rfl, rfl⟩
  obtain ⟨c1, c2, c3, c4, c5⟩ := changeFocus_fu (targetAtPointer u) u
  have vc := vu.trans (changeFocus_view (targetAtPointer u) u)
  have t0 : targetAtPointer u = targetAtPointer s := vu.target (by rw [hu]; rfl) (by rw [hu]; rfl)
  have c2 : (changeFocus (targetAtPointer u) u).fu.x = s.fu.x := c2.trans (by rw [hu]; rfl)
  have c3 : (changeFocus (targetAtPointer u) u).fu.y = s.fu.y := c3.trans (by rw [hu]; rfl)
  have c4 : (changeFocus (targetAtPointer u) u).fu.lock = false := c4.trans (by rw [hu]; rfl)
  have c5 : (changeFocus (targetAtPointer u) u).fu.accum = 0 := c5 (by rw [hu]; rfl)
  rw [e]
  obtain ⟨r, hr | ⟨v, hr, hv, hn, vw⟩⟩ := requestPosition_cases (changeFocus (targetAtPointer u) u)
  · rw [hr]
    exact ⟨c1.trans t0, c4, c5, c2, c3⟩
  · rw [hr]
    have vx : v.fu.x = s.fu.x := by rw [hv]; exact c2
    have vy : v.fu.y = s.fu.y := by rw [hv]; exact c3
    obtain ⟨x1, x2, x3, x4⟩ := reevaluate_clear reportsOnly_record hn (by rw [hv]; exact c4)
    exact ⟨x1.trans ((vc.trans vw).target vx vy), x2, reevaluate_accum reportsOnly_record hn (by rw [hv]; exact c5), x3.trans vx,
      x4.trans vy⟩

/-- A POSITION request under the lock, the focus window holding and the pointer within it: nothing moves (R97, R102). -/
theorem requestPosition_locked {s : State} {f : Focus} {w : Window} (hl : s.fu.lock = true) (hf : s.fu.focus = some f)
    (hw : windowOf s f = some w) (hh : focusHolds s f = true) (hp : limitTo s.cp.heads[f.head] w s.fu.x s.fu.y = (s.fu.x, s.fu.y)) :
    (requestPosition s).fu.focus = some f ∧ (requestPosition s).fu.lock = true ∧ (requestPosition s).fu.x = s.fu.x ∧
    (requestPosition s).fu.y = s.fu.y ∧ (s.fu.accum = 0 → (requestPosition s).fu.accum = 0) := by
  obtain ⟨r, hr | ⟨v, hr, hv, hn, vw⟩⟩ := requestPosition_cases s
  · rw [hr]
    exact ⟨hf, hl, rfl, rfl, id⟩
  · rw [hr]
    obtain ⟨x1, x2, x3⟩ := reevaluate_locked reportsOnly_record hn (f := f) (w := w) (by rw [hv]; exact hl) (by rw [hv]; exact hf)
      (by rw [vw.window]; exact hw) (by rw [vw.holds]; exact hh)
    have x3 : ((dragEnd v).fu.x, (dragEnd v).fu.y) = (s.fu.x, s.fu.y) := x3.trans (by rw [vw.cp, hv]; exact hp)
    exact ⟨x1, x2, congrArg Prod.fst x3, congrArg Prod.snd x3, fun h => reevaluate_accum reportsOnly_record hn (by rw [hv]; exact h)⟩

/-- The pointer limited to the focus window, and a POSITION request, under the lock (R97). -/
theorem confined_locked (x y : Int) (v : Fu) {s : State} {f : Focus} {w : Window} (hw : windowOf s f = some w)
    (hh : focusHolds s f = true) (hf : v.focus = some f) (hl : v.lock = true) (hx : v.x = (limitTo s.cp.heads[f.head] w x y).1)
    (hy : v.y = (limitTo s.cp.heads[f.head] w x y).2) :
    (requestPosition (s.setFu v)).fu.focus = some f ∧ (requestPosition (s.setFu v)).fu.lock = true ∧
    ((requestPosition (s.setFu v)).fu.x, (requestPosition (s.setFu v)).fu.y) = limitTo s.cp.heads[f.head] w x y ∧
    (v.accum = 0 → (requestPosition (s.setFu v)).fu.accum = 0) := by
  have vw : SameView s (s.setFu v) := ⟨rfl, rfl, rfl, rfl⟩
  obtain ⟨x1, x2, x3, x4, x5⟩ := requestPosition_locked (s := s.setFu v) (f := f) (w := w) hl hf
    (by rw [vw.window]; exact hw) (by rw [vw.holds]; exact hh) (by
      show limitTo s.cp.heads[f.head] w v.x v.y = (v.x, v.y)
      rw [hx, hy]
      exact limitTo_idem _ _ _ _)
  refine ⟨x1, x2, ?_, x5⟩
  rw [x3, x4]
  show (v.x, v.y) = _
  rw [hx, hy]

/-- Every re-evaluation ends with a POSITION request, in a state with the same tables and lists (R102). -/
theorem fuReevaluate_ends (s : State) : ∃ u, fuReevaluate s = requestPosition u ∧ SameView s u ∧ (anyOwned s = false → anyOwned u = false) := by
  have cf (x y : Int) (u : State) : SameView u (confine x y u) ∧ (confine x y u).iu = u.iu := by
    unfold confine
    (repeat' split) <;> exact ⟨⟨rfl, rfl, rfl, rfl⟩, rfl⟩
  unfold fuReevaluate reevaluate
  split
  · split
    · exact ⟨_, rfl, (cf _ _ s).1, fun h => by rw [anyOwned_congr (s := s) (by rw [(cf _ _ s).2])]; exact h⟩
    · split
      · exact ⟨s, rfl, .refl s, id⟩
      · exact ⟨_, rfl, changeFocus_view _ s, changeFocus_unowned _⟩
  · refine ⟨_, rfl, ?_, fun h => changeFocus_unowned _ (by exact h)⟩
    exact (show SameView s (s.setFu { s.fu with lock := false, accum := 0 }) from ⟨rfl, rfl, rfl, rfl⟩).trans (changeFocus_view _ _)

/-- What a re-evaluation makes of the focus unit (R102, R103). -/
theorem focusReevaluated (s : State) : FocusReevaluated s (fuReevaluate s) := by
  refine ⟨fun f hf hh => ?_, fun f w hl hf hw hh => ?_, fun hl ho => ?_, fun f hl hf hh ⟨j, hj⟩ hq => ?_, fun k p ho hp => ?_⟩
  · unfold fuReevaluate
    rw [reevaluate_lost hf hh]
    exact forceFocus_append s
  · unfold fuReevaluate reevaluate
    rw [if_pos (by rw [hf]; exact hh), if_pos hl, confine_fu _ _ hf hw]
    obtain ⟨x1, x2, x3, _⟩ := confined_locked (s := s) s.fu.x s.fu.y { s.fu with
      x := (limitTo s.cp.heads[f.head] w s.fu.x s.fu.y).1, y := (limitTo s.cp.heads[f.head] w s.fu.x s.fu.y).2 } hw hh hf hl rfl rfl
    exact ⟨x1, x2, x3⟩
  · exact reevaluate_clear reportsOnly_append (anyOwned_false.2 ho) hl
  · refine fuReevaluate_drag ?_ hl hf hh hq
    cases hb : anyOwned s with
    | true => rfl
    | false => exact absurd (anyOwned_false.1 hb j) hj
  · obtain ⟨u, hu, vw, hn⟩ := fuReevaluate_ends s
    have r := requestPosition_fu (.inl (hn (anyOwned_false.2 ho)))
    rw [hu] at hp ⊢
    have e : requestedPoint (s.setFu (requestPosition u).fu) = requestedPoint u := by
      have sv : SameView (s.setFu (requestPosition u).fu) u := ⟨vw.sr, vw.cp, vw.cu, vw.power⟩
      exact (sv.point (by show _ = (requestPosition u).fu.focus; rw [r]) (by show _ = (requestPosition u).fu.x; rw [r])
        (by show _ = (requestPosition u).fu.y; rw [r])).symm
    rw [e] at hp
    rw [r, hp]
    rfl

/-! ## The clamp (R90) -/

theorem clampRun_nat (lo len v : Nat) : clampRun lo len v = max lo (min v (lo + len - 1)) := by
  unfold clampRun
  omega

/-- The least of a list of points is one of it, and none before it or after it is nearer. -/
theorem leastPoint_spec {α : Type} (l : List α) (g : α → Nat × Nat × Nat) (a : α) (before after : List α) (hl : l = before ++ a :: after)
    (hb : ∀ x ∈ before, (g a).1 < (g x).1) (ha : ∀ x ∈ after, (g a).1 ≤ (g x).1) : leastPoint (l.map g) = some (g a) := by
  subst hl
  have tail : ∀ q, leastPoint (after.map g) = some q → (g a).1 ≤ q.1 := by
    clear hb
    induction after with
    | nil => intro q h; cases h
    | cons x xs ih =>
      intro q h
      have ih := ih fun y hy => ha y (List.mem_cons_of_mem _ hy)
      have hx := ha x (List.mem_cons_self ..)
      simp only [List.map_cons, leastPoint] at h
      split at h
      · cases h; exact hx
      · rename_i r hr
        split at h
        · cases h; exact hx
        · cases h; exact ih _ hr
  have mid : leastPoint ((a :: after).map g) = some (g a) := by
    simp only [List.map_cons, leastPoint]
    split
    · rfl
    · rename_i r hr
      rw [if_pos (tail r hr)]
  induction before with
  | nil => exact mid
  | cons x xs ih =>
    have ih := ih fun y hy => hb y (List.mem_cons_of_mem _ hy)
    have hx := hb x (List.mem_cons_self ..)
    simp only [List.cons_append, List.map_cons, leastPoint]
    rw [ih]
    dsimp only
    rw [if_neg (by omega)]

/-- The clamp of the pointer (R90). -/
theorem pointerClamped (s : State) : PointerClamped s (clampPointer s) := by
  have np : nearestPoints s = ((List.finRange 4).filter fun h => s.cp.heads[h].enabled).map fun h =>
      (headDistance s.cp.heads[h] s.fu.x s.fu.y, nearestPoint s.cp.heads[h] s.fu.x s.fu.y) := by
    unfold nearestPoints headDistance nearestPoint
    simp only [← clampRun_nat]
    induction List.finRange 4 with
    | nil => rfl
    | cons h l ih =>
      simp only [List.filterMap_cons, List.filter_cons]
      split <;> rename_i x <;> split at x <;> simp_all
  refine ⟨fun h => ?_, fun h hd he hk => ?_⟩
  · unfold clampPointer
    split
    · rfl
    · rename_i hn
      rcases h with h | h
      · exact absurd ((onDesk_iff s _ _).2 h) hn
      · rw [np, List.filter_eq_nil_iff.2 fun k _ => by rw [h k]; exact Bool.false_ne_true]
        rfl
  · unfold clampPointer
    rw [if_neg fun c => hd ((onDesk_iff s _ _).1 c)]
    have sp : (List.finRange 4).filter (fun k => s.cp.heads[k].enabled) =
        ((List.finRange 4).filter fun k => decide (k < h) && s.cp.heads[k].enabled) ++
          h :: (List.finRange 4).filter fun k => decide (h < k) && s.cp.heads[k].enabled := by
      fin_cases h <;> simp [List.finRange_succ, List.filter_cons] at he ⊢ <;> simp [he] <;> (repeat' split) <;> simp_all
    rw [np, leastPoint_spec _ _ h _ _ sp (fun k hk' => ?_) fun k hk' => ?_]
    · have := List.mem_filter.1 hk'
      simp only [Bool.and_eq_true, decide_eq_true_eq] at this
      exact (hk k this.2.2).2 this.2.1
    · have := List.mem_filter.1 hk'
      simp only [Bool.and_eq_true, decide_eq_true_eq] at this
      exact (hk k this.2.2).1

theorem headReportsAct : HeadReportsAct := fun s => ⟨pointerClamped s, focusReevaluated s⟩

/-! ## Motion under the lock (R97) -/

/-- A motion under the focus lock moves the pointer within a focus window that holds, also under drag capture. -/
theorem lockedMotion_holds (dx dy : Int) {s : State} {f : Focus} {w : Window} (hl : s.fu.lock = true) (hf : s.fu.focus = some f)
    (hw : windowOf s f = some w) (hh : focusHolds s f = true) : (lockedMotion dx dy s).fu.lock = true ∧
    (lockedMotion dx dy s).fu.focus = some f ∧
    ((lockedMotion dx dy s).fu.x, (lockedMotion dx dy s).fu.y) = limitTo s.cp.heads[f.head] w (s.fu.x + dx) (s.fu.y + dy) ∧
    (lockedMotion dx dy s).fu.accum = 0 := by
  unfold lockedMotion
  rw [confine_fu _ _ hf hw]
  obtain ⟨x1, x2, x3, x4⟩ := confined_locked (s := s) (s.fu.x + dx) (s.fu.y + dy) { s.fu with
    x := (limitTo s.cp.heads[f.head] w (s.fu.x + dx) (s.fu.y + dy)).1,
    y := (limitTo s.cp.heads[f.head] w (s.fu.x + dx) (s.fu.y + dy)).2, accum := 0 } hw hh hf hl rfl rfl
  exact ⟨x2, x1, x3, x4 rfl⟩

end Sys2Proof.Machine
end

