-- ==== Sys2Proof/Laws/Requests.lean ====
section
/-! SUPPORT. A management request from its frame to its response, case by case (R169 to R181). -/

namespace Sys2Proof.Machine

open Sys2Proof

/-! ## A refused write changes nothing (R176) -/

/-- An answer that refuses leaves the state it was asked in. -/
def Unchanged (s : State) (a : Answer × State) : Prop := ∀ r u, a = (some r, u) → u = s

theorem Unchanged.refuse (s : State) (r : Reason) : Unchanged s (some r, s) := fun _ _ h => (Prod.mk.inj h).2.symm

theorem Unchanged.apply (s t : State) : Unchanged s (none, t) := fun _ _ h => nomatch (Prod.mk.inj h).1

theorem settle_unchanged (ok : Bool) (f : State → State) (s : State) : Unchanged s (settle ok f s) := by
  unfold settle
  split
  · exact .apply _ _
  · exact .refuse _ _

theorem numberSetting_unchanged (w lo hi : Nat) (bs : List Byte) (f : Nat → State → State) (s : State) :
    Unchanged s (numberSetting w lo hi bs f s) := by
  unfold numberSetting
  split
  · exact settle_unchanged _ _ _
  · exact .refuse _ _

theorem writeDesk_unchanged (l : Bool) (o : Byte) (i : Nat) (bs : List Byte) (s : State) : Unchanged s (writeDesk l o i bs s) := by
  have head : ∀ h, Unchanged s (writeHeadEntry l h bs s) := by
    intro h
    unfold writeHeadEntry
    split
    · unfold writeHead
      split
      · exact .apply _ _
      · split
        · exact .refuse _ _
        · exact .apply _ _
    · exact .refuse _ _
  have pal : ∀ k, Unchanged s (writePalette k bs s) := by
    intro k
    unfold writePalette
    split
    · exact .apply _ _
    · exact settle_unchanged _ _ _
  have rate : Unchanged s (writeRate bs s) := by
    unfold writeRate
    split
    · exact .apply _ _
    · split
      · exact .apply _ _
      · exact .refuse _ _
  have auth : Unchanged s (writeAuthority l o bs s) := by
    unfold writeAuthority
    split
    · exact .refuse _ _
    · split
      · exact settle_unchanged _ _ _
      · exact .refuse _ _
  unfold writeDesk
  split
  all_goals first
    | exact rate | exact head _ | exact pal _ | exact numberSetting_unchanged _ _ _ _ _ _ | exact auth
    | exact settle_unchanged _ _ _ | exact .refuse _ _
    | (split; · exact settle_unchanged _ _ _
       · exact .refuse _ _)

/-- A refused entry leaves the state as it was (R176, R191). -/
theorem writeEntry_unchanged (l : Bool) (o : Byte) (sp : Space) (i : Nat) (bs : List Byte) (s : State) :
    Unchanged s (writeEntry l o sp i bs s) := by
  unfold writeEntry
  split
  · exact writeDesk_unchanged _ _ _ _ _
  · split
    · unfold writeSlotEntry writeSlot
      (repeat' split) <;> first | exact .refuse _ _ | exact .apply _ _
    · exact .refuse _ _
  · split
    · unfold writeStream
      (repeat' split) <;> first | exact .refuse _ _ | exact .apply _ _
    · exact .refuse _ _
  · split
    · unfold writePreset
      (repeat' split) <;> first | exact .refuse _ _ | exact .apply _ _
    · exact .refuse _ _
  · split
    · unfold writeStaged
      (repeat' split) <;> first | exact .refuse _ _ | exact .apply _ _
    · exact .refuse _ _
  · split
    · unfold writeHotKey
      (repeat' split) <;> first | exact .refuse _ _ | exact .apply _ _
    · exact .refuse _ _
  · split
    · unfold writeLamp
      (repeat' split) <;> first | exact .refuse _ _ | exact .apply _ _
    · exact .refuse _ _
  · unfold writeEvents
    split
    · exact settle_unchanged _ _ _
    · exact .refuse _ _
  all_goals exact .refuse _ _

/-- The entries of a WRITE, applied in order up to the first refused. -/
theorem writeEntries_applied (o : Byte) (sp : Space) (i : Nat) (es : List (List Byte)) (s : State) :
    Applied o sp i es s (writeEntries o sp i es s).1 (writeEntries o sp i es s).2.1 (writeEntries o sp i es s).2.2 := by
  induction es generalizing i s with
  | nil => exact ⟨rfl, rfl, rfl⟩
  | cons e es ih =>
    unfold Applied writeEntries
    cases h : writeEntry false o sp i e s with
    | mk a t =>
      cases a with
      | some r =>
        have := writeEntry_unchanged false o sp i e s r t h
        subst this
        exact .inl ⟨r, rfl, rfl, rfl, rfl⟩
      | none => exact .inr ⟨t, _, rfl, ih (i + 1) t, rfl⟩

/-! ## The form check (R169, R201) -/

theorem takeEntries_flat (es : List (List Byte)) (h : ∀ x ∈ es, x.length < 256) :
    takeEntries es.length (es.flatMap entryBytes) = (es.map some, some []) := by
  induction es with
  | nil => rfl
  | cons e es ih =>
    have he := h e (by simp)
    have e1 : (e :: es).flatMap entryBytes = byte e.length :: (e ++ es.flatMap entryBytes) := rfl
    rw [e1, List.length_cons, takeEntries, byte_toNat he, if_pos (by simp)]
    dsimp only
    rw [List.drop_left' rfl, List.take_left' rfl, ih fun x hx => h x (by simp [hx])]
    rfl

theorem takeEntries_exact (n : Nat) (l : List Byte) {xs : List (Option (List Byte))} (h : takeEntries n l = (xs, some [])) :
    ∃ es : List (List Byte), l = es.flatMap entryBytes ∧ es.length = n ∧ (∀ x ∈ es, x.length < 256) ∧ xs = es.map some := by
  induction n generalizing l xs with
  | zero =>
    simp only [takeEntries, Prod.mk.injEq, Option.some.injEq] at h
    obtain ⟨rfl, rfl⟩ := h
    exact ⟨[], rfl, rfl, nofun, rfl⟩
  | succ n ih =>
    cases l with
    | nil => simp [takeEntries] at h
    | cons len rest =>
      unfold takeEntries at h
      split at h
      · rename_i hl
        dsimp only at h
        simp only [Prod.mk.injEq] at h
        obtain ⟨h1, h2⟩ := h
        obtain ⟨es, a, b, c, d⟩ := ih (rest.drop len.toNat) (xs := (takeEntries n (rest.drop len.toNat)).1) (Prod.ext rfl h2)
        have lt : (rest.take len.toNat).length = len.toNat := by rw [List.length_take]; omega
        refine ⟨rest.take len.toNat :: es, ?_, by simp [b], fun x hx => ?_, ?_⟩
        · rw [List.flatMap_cons, ← a]
          unfold entryBytes
          rw [lt, show byte len.toNat = len from BitVec.eq_of_toNat_eq (byte_toNat len.isLt), List.cons_append, List.take_append_drop]
        · rcases List.mem_cons.1 hx with rfl | hx
          · rw [lt]; exact len.isLt
          · exact c x hx
        · rw [← h1, d]; rfl
      · cases h

theorem writeEntriesOf_flat (t1 t2 k sp first n : Byte) (es : List (List Byte)) (hn : es.length = n.toNat)
    (h : ∀ x ∈ es, x.length < 256) : writeEntriesOf (t1 :: t2 :: k :: sp :: first :: n :: es.flatMap entryBytes) = some es := by
  unfold writeEntriesOf
  have e1 : at8 (t1 :: t2 :: k :: sp :: first :: n :: es.flatMap entryBytes) 5 = es.length := hn.symm
  have e2 : (t1 :: t2 :: k :: sp :: first :: n :: es.flatMap entryBytes).drop 6 = es.flatMap entryBytes := rfl
  rw [e1, e2, takeEntries_flat es h]
  dsimp only
  have : ∀ l : List (List Byte), (l.map some).mapM (m := Option) id = some l := by
    intro l
    induction l with
    | nil => rfl
    | cons a l ih => rw [List.map_cons, List.mapM_cons, ih]; rfl
  exact this es

theorem writeEntriesOf_some (t1 t2 k sp first n : Byte) (more : List Byte)
    (h : (writeEntriesOf (t1 :: t2 :: k :: sp :: first :: n :: more)).isSome = true) :
    ∃ es : List (List Byte), more = es.flatMap entryBytes ∧ es.length = n.toNat ∧ ∀ x ∈ es, x.length < 256 := by
  unfold writeEntriesOf at h
  split at h
  · rename_i es he
    obtain ⟨es', a, b, c, _⟩ := takeEntries_exact _ _ he
    exact ⟨es', a, b, c⟩
  · cases h

theorem kind_cases (k : Byte) : (k = 1 ∨ k = 2 ∨ k = 3 ∨ k = 4 ∨ k = 5 ∨ k = 6 ∨ k = 7 ∨ k = 8 ∨ k = 9 ∨ k = 10 ∨ k = 11 ∨ k = 12) ∨
    (k ≠ 1 ∧ k ≠ 2 ∧ k ≠ 3 ∧ k ≠ 4 ∧ k ≠ 5 ∧ k ≠ 6 ∧ k ≠ 7 ∧ k ≠ 8 ∧ k ≠ 9 ∧ k ≠ 10 ∧ k ≠ 11 ∧ k ≠ 12) := by tauto

theorem fieldBytes_none {k : Byte} (h : k ≠ 1 ∧ k ≠ 2 ∧ k ≠ 3 ∧ k ≠ 4 ∧ k ≠ 5 ∧ k ≠ 6 ∧ k ≠ 7 ∧ k ≠ 8 ∧ k ≠ 9 ∧ k ≠ 10 ∧ k ≠ 11 ∧ k ≠ 12) :
    fieldBytes k = none := by
  have hv : ∀ n : Nat, n < 256 → k ≠ BitVec.ofNat 8 n → k.toNat ≠ n := by
    intro n hn hk e
    apply hk
    apply BitVec.eq_of_toNat_eq
    rw [e, BitVec.toNat_ofNat, Nat.mod_eq_of_lt hn]
  obtain ⟨h1, h2, h3, h4, h5, h6, h7, h8, h9, h10, h11, h12⟩ := h
  have := hv 1 (by omega) h1
  have := hv 2 (by omega) h2
  have := hv 3 (by omega) h3
  have := hv 4 (by omega) h4
  have := hv 5 (by omega) h5
  have := hv 6 (by omega) h6
  have := hv 7 (by omega) h7
  have := hv 8 (by omega) h8
  have := hv 9 (by omega) h9
  have := hv 10 (by omega) h10
  have := hv 11 (by omega) h11
  have := hv 12 (by omega) h12
  unfold fieldBytes
  by_cases h0 : k.toNat = 0
  · rw [h0]; rfl
  · rw [List.getD_eq_default _ _ (by simp; omega)]

/-- The form check as the rules state it. -/
theorem formValid_iff (p : List Byte) : formValid p = true ↔ FormPasses p := by
  match p with
  | [] => exact ⟨fun h => by simp [formValid] at h, by rintro ⟨_, _, _, _, _, h, _⟩; cases h⟩
  | [_] => exact ⟨fun h => by simp [formValid] at h, by rintro ⟨_, _, _, _, _, h, _⟩; cases h⟩
  | [_, _] => exact ⟨fun h => by simp [formValid] at h, by rintro ⟨_, _, _, _, _, h, _⟩; cases h⟩
  | t1 :: t2 :: k :: more =>
    have hb : byteAt (t1 :: t2 :: k :: more) 2 = k := rfl
    have hl : (t1 :: t2 :: k :: more).length = more.length + 3 := by simp
    have fv : formValid (t1 :: t2 :: k :: more) = true ↔ more.length + 3 ≤ 1024 ∧
        (match fieldBytes k with
         | some n => decide (3 + n ≤ more.length + 3) && (k ≠ 2 || (writeEntriesOf (t1 :: t2 :: k :: more)).isSome)
         | none => false) = true := by
      unfold formValid
      rw [hb, hl]
      simp only [Bool.and_eq_true, decide_eq_true_eq]
      constructor
      · rintro ⟨⟨a, -⟩, b⟩; exact ⟨a, b⟩
      · rintro ⟨a, b⟩; exact ⟨⟨a, by omega⟩, b⟩
    have fp : FormPasses (t1 :: t2 :: k :: more) ↔ more.length + 3 ≤ 1024 ∧
        ((k = 1 ∧ 3 ≤ more.length) ∨
         (k = 2 ∧ ∃ (sp first n : Byte) (es : List (List Byte)), more = sp :: first :: n :: es.flatMap entryBytes ∧ es.length = n.toNat ∧
           ∀ x ∈ es, x.length < 256) ∨
         ((k = 3 ∨ k = 4 ∨ k = 7) ∧ 1 ≤ more.length) ∨
         ((k = 5 ∨ k = 6 ∨ k = 8 ∨ k = 10) ∧ 2 ≤ more.length) ∨ k = 9 ∨ k = 11 ∨ k = 12) := by
      unfold FormPasses
      rw [hl]
      constructor
      · rintro ⟨a, t1', t2', k', more', e, b⟩
        cases e; exact ⟨a, b⟩
      · rintro ⟨a, b⟩; exact ⟨a, t1, t2, k, more, rfl, b⟩
    rw [fv, fp]
    apply and_congr_right
    intro hlen
    rcases kind_cases k with h | h
    · rcases h with h | h | h | h | h | h | h | h | h | h | h | h <;> subst h
      case inr.inl =>
        show (decide (3 + 3 ≤ more.length + 3) && (false || (writeEntriesOf (t1 :: t2 :: 2 :: more)).isSome)) = true ↔ _
        simp only [Bool.and_eq_true, decide_eq_true_eq, Bool.false_or]
        constructor
        · rintro ⟨h3, hw⟩
          match more, h3, hw with
          | sp :: first :: n :: rest, _, hw =>
            obtain ⟨es, a, b, c⟩ := writeEntriesOf_some _ _ _ _ _ _ _ hw
            exact   .inr (.inl ⟨by trivial, sp, first, n, es, by rw [a], b, c⟩)
          | [], h3, _ => simp at h3
          | [_], h3, _ => simp at h3
          | [_, _], h3, _ => simp at h3
        · rintro (⟨h, _⟩ | ⟨_, sp, first, n, es, rfl, b, c⟩ | ⟨h, _⟩ | ⟨h, _⟩ | h | h | h)
          · exact absurd h (by decide)
          · exact ⟨by simp, by rw [writeEntriesOf_flat _ _ _ _ _ _ _ b c]; rfl⟩
          all_goals exact absurd h (by decide)
      all_goals
        constructor
        · intro hh
          have hh := of_decide_eq_true (Bool.and_eq_true_iff.1 hh).1
          first
            | exact .inl ⟨by trivial, by omega⟩
            | exact .inr (.inr (.inl ⟨by decide, by omega⟩))
            | exact .inr (.inr (.inr (.inl ⟨by decide, by omega⟩)))
            | exact .inr (.inr (.inr (.inr (by decide))))
        · intro hh
          refine Bool.and_eq_true_iff.2 ⟨decide_eq_true ?_, rfl⟩
          rcases hh with ⟨h, hh⟩ | ⟨h, _⟩ | ⟨h, hh⟩ | ⟨h, hh⟩ | h | h | h
          all_goals first | omega | exact absurd h (by decide)
    · rw [fieldBytes_none h]
      constructor
      · intro x; cases x
      · obtain ⟨h1, h2, h3, h4, h5, h6, h7, h8, h9, h10, h11, h12⟩ := h
        rintro (⟨x, _⟩ | ⟨x, _⟩ | ⟨x | x | x, _⟩ | ⟨x | x | x | x, _⟩ | x | x | x)
        exacts [absurd x h1, absurd x h2, absurd x h3, absurd x h4, absurd x h7, absurd x h5, absurd x h6, absurd x h8, absurd x h10,
          absurd x h9, absurd x h11, absurd x h12]

/-! ## From the frame to the response -/

theorem goodSeen_quiet {s : State} (h : NoReset s) : NoReset (goodSeen s) := h.congr rfl rfl

theorem Taken.not_all {s : State} {f : Frame} (h : Taken s f) : f.dest ≠ allNodes := by
  rw [h.here]
  intro e
  have := h.node
  unfold nodeInRange at this
  rw [e] at this
  exact absurd this (by decide)

/-- A frame that a block of this node takes, once the line has brought it whole (R24). -/
theorem taken_exec {s : State} {f : Frame} (h : Taken s f)
    (j : judgeFrame s.cl.seed (wireBytes s.cl.seed f) = (.good, some f)) (hk : f.kind ≠ kindStrip) :
    exec (hear s f) s = completed (takeFrame (hopped f) (goodSeen s)) := by
  show exec (.frameReceived _) s = _
  rw [frameReceived_good h.toHeard j, decideFrame_arrives h.toArrives]
  unfold routeFrame
  have hd : (hopped f).dest = own (goodSeen s) := h.here
  rw [if_neg (show ¬ (hopped f).kind = kindStrip from hk), if_neg (show ¬ (hopped f).dest = allNodes from h.not_all), if_pos hd]

/-- The state in which a request is handled, and what it is answered with. -/
def requestReply (f : Frame) (t1 t2 : Byte) (s : State) : Reply × State :=
  if formValid f.payload then handle f.origin f.payload (atWork f (t1 ++ t2) s) else refuseForm (atWork f (t1 ++ t2) s)

theorem request_exec {s : State} {f : Frame} {t1 t2 : Byte} {rest : List Byte} (h : Taken s f)
    (j : judgeFrame s.cl.seed (wireBytes s.cl.seed f) = (.good, some f)) (hk : f.kind = kindMgmtReq)
    (ho : nodeInRange f.origin = true) (hp : f.payload = t1 :: t2 :: rest) (hw : s.mu.work = none) :
    exec (hear s f) s = completed (offerResponse (responseEntry f.origin (t1 ++ t2) (requestReply f t1 t2 s).1 (requestReply f t1 t2 s).2)
      (requestReply f t1 t2 s).2) := by
  rw [taken_exec h j (by rw [hk]; decide)]
  congr 1
  unfold takeFrame
  rw [if_neg (by simp [running, goodSeen, h.loaded]), if_neg (by show f.kind ≠ _; rw [hk]; decide), if_pos (by exact hk)]
  unfold requestTaken
  rw [if_neg (by show ¬ ¬ nodeInRange f.origin = true; simp [ho]), if_neg (by show ¬ s.mu.work.isSome = true; simp [hw])]
  unfold serveRequest
  have ht : tagOf (hopped f).payload (goodSeen s) = (t1 ++ t2, goodSeen s) := by
    show tagOf f.payload _ = _
    rw [hp]; rfl
  rw [ht]
  rfl

theorem tag_bytes (a b : Byte) : be16 (a ++ b).toNat = [a, b] := by
  have h : (a ++ b).toNat = a.toNat * 256 + b.toNat := by
    rw [BitVec.toNat_append, Nat.shiftLeft_eq, ← Nat.shiftLeft_eq, ← Nat.shiftLeft_add_eq_or_of_lt b.isLt, Nat.shiftLeft_eq]
  have ha := a.isLt
  have hb := b.isLt
  unfold be16
  congr 1
  · apply BitVec.eq_of_toNat_eq; rw [BitVec.toNat_ofNat, h]; omega
  · congr 1
    apply BitVec.eq_of_toNat_eq; rw [BitVec.toNat_ofNat, h]; omega

theorem atWork_quiet {s : State} (f : Frame) (t : BitVec 16) (h : NoReset s) : NoReset (atWork f t s) :=
  ⟨⟨h.mu.due, fun w hw => by cases hw; rfl, h.mu.offer, h.mu.waiting⟩, h.insQ⟩

theorem handle_own (o : Byte) (p : List Byte) (t : State) : own (handle o p t).2 = own t := by
  have k : ∀ u : State, u.cl.ownAddress = t.cl.ownAddress → own u = own t := fun u h => by unfold own; rw [h]
  apply k
  unfold handle
  split
  · unfold doRead
    (repeat' split) <;> rfl
  · unfold doWrite
    (repeat' split) <;> first | rfl | exact congrArg Cl.ownAddress (writeEntries_writes _ _ _ _ (.refl _)).outside.1
  · unfold answered commitLayout; dsimp only; split <;> rfl
  · exact congrArg Cl.ownAddress (selectPreset_keeps _ (.refl _)).same.cl
  · exact congrArg Cl.ownAddress (localRequest_keeps _ _ (.refl _)).same.cl
  · exact congrArg Cl.ownAddress (localRelease_keeps _ _ (.refl _)).same.cl
  · exact congrArg Cl.ownAddress (setPower_keeps _ (.refl _)).same.cl
  · rfl
  · unfold clearCounters; rfl
  · unfold answered setProtection
    (repeat' split) <;> rfl
  · unfold answered beginSave; dsimp only; split <;> rfl
  · unfold doReset
    split <;> rfl

/-- A request that is no RESET and brings no entries back is answered with its outcome and count. -/
theorem answered_by {s : State} {f : Frame} {t1 t2 : Byte} {rest : List Byte} (n : NoReset s) (h : Taken s f)
    (j : judgeFrame s.cl.seed (wireBytes s.cl.seed f) = (.good, some f)) (hk : f.kind = kindMgmtReq)
    (ho : nodeInRange f.origin = true) (hp : f.payload = t1 :: t2 :: rest) (hw : s.mu.work = none) (hf : FormPasses f.payload)
    {o : Outcome} {c : Nat} {u : State} (e : handle f.origin f.payload (atWork f (t1 ++ t2) s) = (⟨o, c, [], false⟩, u)) :
    Answered f t1 t2 s o c u := by
  have hr : requestReply f t1 t2 s = (⟨o, c, [], false⟩, u) := by
    unfold requestReply; rw [if_pos ((formValid_iff _).2 hf), e]
  have q : NoReset u := by
    have := (handle_serves f.origin f.payload (.refl (atWork f (t1 ++ t2) s))).quiet (atWork_quiet f _ n)
    rw [e] at this; exact this
  have ow : own u = own s := by
    have := handle_own f.origin f.payload (atWork f (t1 ++ t2) s)
    rw [e] at this; exact this
  have re : responseEntry f.origin (t1 ++ t2) ⟨o, c, [], false⟩ u = ⟨response f t1 t2 o c s, false⟩ := by
    unfold responseEntry responsePayload response
    rw [tag_bytes, ow]
    simp
  unfold Answered
  rw [request_exec h j hk ho hp hw, hr]
  dsimp only
  rw [re]
  exact completed_next (offerResponse_quiet _ rfl q)

/-- A request that fails the form check is refused as INVALID and counted (R169). -/
theorem form_refused {s : State} {f : Frame} {t1 t2 : Byte} {rest : List Byte} (n : NoReset s) (h : Taken s f)
    (j : judgeFrame s.cl.seed (wireBytes s.cl.seed f) = (.good, some f)) (hk : f.kind = kindMgmtReq)
    (ho : nodeInRange f.origin = true) (hp : f.payload = t1 :: t2 :: rest) (hw : s.mu.work = none) (hf : ¬ FormPasses f.payload) :
    Answered f t1 t2 s (.refused .invalid) 0 ((atWork f (t1 ++ t2) s).setMu { (atWork f (t1 ++ t2) s).mu with
      c := { (atWork f (t1 ++ t2) s).mu.c with malformed := bump (atWork f (t1 ++ t2) s).mu.c.malformed } }) := by
  have hr : requestReply f t1 t2 s = refuseForm (atWork f (t1 ++ t2) s) := by
    unfold requestReply; rw [if_neg (fun x => hf ((formValid_iff _).1 x))]
  unfold Answered
  rw [request_exec h j hk ho hp hw, hr]
  have re : responseEntry f.origin (t1 ++ t2) (refuseForm (atWork f (t1 ++ t2) s)).1 (refuseForm (atWork f (t1 ++ t2) s)).2 =
      ⟨response f t1 t2 (.refused .invalid) 0 s, false⟩ := by
    show (⟨⟨kindMgmtRsp, f.origin, own s, 63, responsePayload _ _⟩, false⟩ : InsEntry) = _
    unfold responsePayload response
    rw [tag_bytes]
    rfl
  rw [re]
  exact completed_next (offerResponse_quiet _ rfl ⟨⟨n.mu.due, fun w hw => by cases hw; rfl, n.mu.offer, n.mu.waiting⟩, n.insQ⟩)

theorem responsesOffered : ResponsesOffered := by
  intro e s n hor hhop
  have hst : ({ e with frame := stamp s e.frame } : InsEntry) = e := by
    obtain ⟨⟨a, b, c, d, p⟩, r⟩ := e
    simp only at hor hhop
    subst hor hhop
    rfl
  refine ⟨fun he ho hi hd => ?_, fun ho hi => ?_, fun ho => ?_⟩
  · unfold offerResponse
    rw [if_neg (by simp [ho]), offerInsertion_accepted n e he hi, hst]
    dsimp only
    unfold responseAppended
    rw [if_neg (by simp [he])]
    unfold tryNotice
    rw [if_neg (by simp [hd])]
    rfl
  · unfold offerResponse
    rw [if_neg (by simp [ho]), offerInsertion_refused _ _ (by omega)]
    rfl
  · unfold offerResponse
    rw [if_pos ho]

/-- What CLEAR_COUNTERS leaves of each block that counts, and of those that do not (R186). -/
theorem clearCounters_blocks (t : State) :
    (clearCounters t).wlp = { t.wlp with linkDown := 0, crcErrors := 0, truncated := 0 } ∧ (clearCounters t).elp = { t.elp with linkDown := 0 } ∧
    (clearCounters t).rf = { t.rf with c := rfCountersZero, presence := mapTable (fun e => { e with gaps := 0 }) t.rf.presence } ∧
    (clearCounters t).sr = { t.sr with entries := mapTable (Option.map fun e => { e with c := streamCountersZero }) t.sr.entries } ∧
    (clearCounters t).iu = { t.iu with c := iuCountersZero } ∧ (clearCounters t).cu = { t.cu with c := cuCountersZero } ∧
    (clearCounters t).pu = { t.pu with c := puCountersZero } ∧ (clearCounters t).mu = { t.mu with c := muCountersZero } ∧
    (clearCounters t).fu = t.fu ∧ (clearCounters t).cp = t.cp ∧ (clearCounters t).desk = t.desk := by
  simp [clearCounters]

/-- What a READ brings back (R175): the entries in index order, as many as the count, the space and the room allow. -/
theorem readFrom_spec (sp : Space) (t : State) (n i room : Nat) (es : List (List Byte)) (hi : i ≤ spaceSize sp)
    (hes : es = readFrom sp t n i room) :
    (∀ k (h : k < es.length), es[k] = entryBytes (readEntry sp (i + k) t)) ∧
    es.length ≤ n ∧ i + es.length ≤ spaceSize sp ∧ es.flatten.length ≤ room ∧
    (es.length = n ∨ i + es.length = spaceSize sp ∨
      room < es.flatten.length + (entryBytes (readEntry sp (i + es.length) t)).length) := by
  induction n generalizing i room es with
  | zero => subst hes; exact ⟨fun k h => absurd h (Nat.not_lt_zero k), Nat.le_refl _, hi, Nat.zero_le _, .inl rfl⟩
  | succ n ih =>
    unfold readFrom at hes
    by_cases hs : i < spaceSize sp
    · rw [if_pos hs] at hes
      dsimp only at hes
      by_cases hr : (entryBytes (readEntry sp i t)).length ≤ room
      · rw [if_pos hr] at hes
        obtain ⟨fs, hfs⟩ : ∃ fs, fs = readFrom sp t n (i + 1) (room - (entryBytes (readEntry sp i t)).length) := ⟨_, rfl⟩
        rw [← hfs] at hes
        obtain ⟨a, b, c, d, e⟩ := ih (i + 1) _ fs hs hfs
        subst hes
        refine ⟨fun k h => ?_, by simp only [List.length_cons]; omega, by simp only [List.length_cons]; omega,
          by simp only [List.flatten_cons, List.length_append]; omega, ?_⟩
        · cases k with
          | zero => rfl
          | succ k => rw [List.getElem_cons_succ, a k (by simpa using h), show i + (k + 1) = i + 1 + k by omega]
        · simp only [List.length_cons, List.flatten_cons, List.length_append]
          rcases e with e | e | e
          · exact .inl (by omega)
          · exact .inr (.inl (by omega))
          · refine .inr (.inr ?_)
            rw [show i + (fs.length + 1) = i + 1 + fs.length by omega]
            omega
      · rw [if_neg hr] at hes
        subst hes
        exact ⟨fun k h => absurd h (Nat.not_lt_zero k), Nat.zero_le _, hi, Nat.zero_le _, .inr (.inr (by simpa using hr))⟩
    · rw [if_neg hs] at hes
      subst hes
      exact ⟨fun k h => absurd h (Nat.not_lt_zero k), Nat.zero_le _, hi, Nat.zero_le _, .inr (.inl (by simp; omega))⟩

/-- How a due notice is built and offered (R170, R184). -/
theorem noticesOffered : NoticesOffered := by
  rintro s e n rfl
  refine ⟨fun h => ?_, fun hd hi ho => ⟨fun hq => ?_, fun hq => ?_⟩⟩
  · unfold tryNotice
    rw [if_neg]
    rintro ⟨h1, h2, h3, -⟩
    rcases h with x | x | x
    · rw [x] at h1; cases h1
    · rw [h2] at x; cases x
    · rw [h3] at x; cases x
  all_goals
    unfold tryNotice
    rw [if_pos ⟨hd, hi, ho, by simp [n.mu.due]⟩]
    dsimp only
  · rw [offerInsertion_accepted (show NoReset (s.setMu { s.mu with due := false }) from ⟨⟨n.mu.due, n.mu.work, n.mu.offer, n.mu.waiting⟩, n.insQ⟩) _ rfl (by exact hq)]
    rfl
  · rw [offerInsertion_refused _ _ (by show ¬ s.rf.insQ.length < 12; omega)]
    rfl

/-! ## The requests -/

section
variable {s : State} {f : Frame} {t1 t2 : Byte} {rest : List Byte}

theorem readsAndWrites (n : NoReset s) (h : Taken s f) (j : judgeFrame s.cl.seed (wireBytes s.cl.seed f) = (.good, some f))
    (hk : f.kind = kindMgmtReq) (ho : nodeInRange f.origin = true) (hp : f.payload = t1 :: t2 :: rest) (hw : s.mu.work = none)
    (hf : FormPasses f.payload) : ReadsAndWrites f t1 t2 rest s (atWork f (t1 ++ t2) s) := by
  have by' := fun (o : Outcome) (c : Nat) (u : State) (e : handle f.origin f.payload (atWork f (t1 ++ t2) s) = (⟨o, c, [], false⟩, u)) =>
    answered_by n h j hk ho hp hw hf e
  have rd : ∀ sp first n more, rest = 1 :: sp :: first :: n :: more →
      handle f.origin f.payload (atWork f (t1 ++ t2) s) = doRead f.origin sp first n (atWork f (t1 ++ t2) s) := by
    rintro sp first n more rfl; rw [hp]; rfl
  have rd' : ∀ sp first more, rest = 1 :: sp :: first :: more →
      handle f.origin f.payload (atWork f (t1 ++ t2) s) = doRead f.origin sp first (byteAt f.payload 5) (atWork f (t1 ++ t2) s) := by
    rintro sp first more rfl; rw [hp]; rfl
  have wr : ∀ sp first more, rest = 2 :: sp :: first :: more → handle f.origin f.payload (atWork f (t1 ++ t2) s) =
      doWrite f.origin sp first ((writeEntriesOf f.payload).getD []) (atWork f (t1 ++ t2) s) := by
    rintro sp first more rfl; rw [hp]; rfl
  refine ⟨?_, ?_, ?_, ?_, ?_, ?_, ?_⟩
  · intro kind sp first more hr hkind hun
    rcases hkind with rfl | rfl
    · apply by'
      rw [rd' sp first more hr]
      unfold doRead
      rcases hun with hun | ⟨e, he, hs⟩
      · rw [hun]; rfl
      · rw [he]; exact if_pos hs
    · apply by'
      rw [wr sp first more hr]
      unfold doWrite
      rcases hun with hun | ⟨e, he, hs⟩
      · rw [hun]; rfl
      · rw [he]; exact if_pos hs
  · intro sp e first n more hr he hs hpr
    apply by'
    rw [rd sp first n more hr]
    unfold doRead
    rw [he]
    dsimp only
    rw [if_neg (by omega), if_pos (by exact hpr)]
    rfl
  · intro sp e first n' more hr he hs hpr
    obtain ⟨es, hes⟩ : ∃ es, es = readFrom e (atWork f (t1 ++ t2) s) n'.toNat first.toNat readRoom := ⟨_, rfl⟩
    obtain ⟨r1, r2, r3, r4, r5⟩ := readFrom_spec e (atWork f (t1 ++ t2) s) n'.toNat first.toNat readRoom es (by omega) hes
    refine ⟨es, r1, r2, r3, r4, r5, ?_⟩
    have q : requestReply f t1 t2 s = (⟨.done, es.length, es, false⟩, atWork f (t1 ++ t2) s) := by
      unfold requestReply
      rw [if_pos ((formValid_iff _).2 hf), rd sp first n' more hr]
      unfold doRead
      rw [he]
      dsimp only
      rw [if_neg (by omega), if_neg (show ¬ readProtected e f.origin (atWork f (t1 ++ t2) s) = true from fun x => by
        have x : readProtected e f.origin s = true := x
        rw [hpr] at x; cases x), ← hes]
    have re : responseEntry f.origin (t1 ++ t2) ⟨.done, es.length, es, false⟩ (atWork f (t1 ++ t2) s) =
        ⟨⟨kindMgmtRsp, f.origin, own s, 63, [t1, t2, 0, 0, byte es.length] ++ es.flatten⟩, false⟩ := by
      unfold responseEntry responsePayload
      rw [tag_bytes]
      rfl
    rw [request_exec h j hk ho hp hw, q]
    dsimp only
    rw [re]
    exact completed_next (offerResponse_quiet _ rfl (atWork_quiet f _ n))
  · intro sp e first more hr he hs hro
    apply by'
    rw [wr sp first more hr]
    unfold doWrite
    rw [he]
    dsimp only
    rw [if_neg (by omega), if_pos hro]
    rfl
  · intro sp e first more hr he hs hro hpr
    apply by'
    rw [wr sp first more hr]
    unfold doWrite
    rw [he]
    dsimp only
    rw [if_neg (by omega), if_neg (by simp [hro]), if_pos (by exact hpr)]
    rfl
  · intro sp e first more hr he hs hro hpr ha hsv
    apply by'
    rw [wr sp first more hr]
    unfold doWrite
    rw [he]
    dsimp only
    rw [if_neg (by omega), if_neg (by simp [hro]), if_neg (by simp only [Bool.not_eq_true]; exact hpr), if_pos (by exact ⟨ha, hsv⟩)]
    rfl
  · intro sp e first n more es hr hm hn hx he hs hro hpr hsv
    refine ⟨_, _, _, writeEntries_applied f.origin e first.toNat es (atWork f (t1 ++ t2) s), fun ha => ?_, fun x ha => ?_⟩
    all_goals
      apply by'
      rw [wr sp first (n :: more) hr]
      have hwe : writeEntriesOf f.payload = some es := by
        rw [hp, hr, hm]; exact writeEntriesOf_flat _ _ _ _ _ _ _ hn hx
      rw [hwe]
      unfold doWrite
      rw [he]
      dsimp only
      rw [if_neg (by omega), if_neg (by simp [hro]), if_neg (by simp only [Bool.not_eq_true]; exact hpr),
        if_neg (by rintro ⟨a, b⟩; rcases hsv with x | x <;> first | exact b x | (rw [x] at a; cases a))]
      dsimp only [Option.getD_some]
      rw [ha]
      rfl

/-- A step that a reset is due after ends in the soft reset (R179, R193). -/
theorem finish_due {u : State} (h : u.mu.resetDue = true) : finish u = softReset u := if_pos h

theorem requestsAct (n : NoReset s) (h : Taken s f) (j : judgeFrame s.cl.seed (wireBytes s.cl.seed f) = (.good, some f))
    (hk : f.kind = kindMgmtReq) (ho : nodeInRange f.origin = true) (hp : f.payload = t1 :: t2 :: rest) (hw : s.mu.work = none)
    (hf : FormPasses f.payload) : RequestsAct f t1 t2 rest s (atWork f (t1 ++ t2) s) := by
  have by' := fun (o : Outcome) (c : Nat) (u : State) (e : handle f.origin f.payload (atWork f (t1 ++ t2) s) = (⟨o, c, [], false⟩, u)) =>
    answered_by n h j hk ho hp hw hf e
  have ans : ∀ a : Answer × State, handle f.origin f.payload (atWork f (t1 ++ t2) s) = answered a → AnsweredBy f t1 t2 s a := by
    intro a e
    refine ⟨fun h0 => by' _ _ _ (by rw [e]; unfold answered; rw [h0]; rfl), fun x hx => by' _ _ _ (by rw [e]; unfold answered; rw [hx]; rfl)⟩
  have slot : ∀ b : Byte, (16 ≤ b.toNat → slotOfByte b = none) ∧ ∀ i : Fin 16, b.toNat = i.val → slotOfByte b = some i := by
    intro b
    unfold slotOfByte
    refine ⟨fun hb => dif_neg (by omega), fun i hb => ?_⟩
    rw [dif_pos (by omega)]
    congr 1
    exact Fin.ext hb
  have bz : ∀ b : Byte, b = 0 ∨ b = 1 ∨ 2 ≤ b.toNat := by
    intro b
    by_cases h2 : 2 ≤ b.toNat
    · exact .inr (.inr h2)
    · have : b.toNat = 0 ∨ b.toNat = 1 := by omega
      rcases this with e | e
      · exact .inl (BitVec.eq_of_toNat_eq e)
      · exact .inr (.inl (BitVec.eq_of_toNat_eq e))
  have auth : isAuthority f.origin (atWork f (t1 ++ t2) s) = true ↔ s.desk.authority = 0 ∨ f.origin = s.desk.authority := by
    show (decide (s.desk.authority = 0) || decide (f.origin = s.desk.authority)) = true ↔ _
    simp
  refine ⟨?_, ?_, ?_, ?_, ?_, ?_, ?_, ?_, ?_⟩
  · rintro h' more rfl
    have e : handle f.origin f.payload (atWork f (t1 ++ t2) s) = answered (commitLayout h' (atWork f (t1 ++ t2) s)) := by rw [hp]; rfl
    refine ⟨fun hb => ?_, fun h0 hb => ?_⟩
    · have hs : commitLayout h' (atWork f (t1 ++ t2) s) = (some .invalid, atWork f (t1 ++ t2) s) := by
        unfold commitLayout; rw [if_pos hb]
      rw [hs] at e
      exact (ans _ e).2 .invalid rfl
    · have hs : commitLayout h' (atWork f (t1 ++ t2) s) = (none, (atWork f (t1 ++ t2) s).setCp { s.cp with
          pending := Vector.ofFn fun k => s.cp.pending[k] || h'.getLsbD k.val, current := none }) := by
        unfold commitLayout; rw [if_neg (by rintro (a | a); exacts [h0 a, by omega])]; rfl
      rw [hs] at e
      exact (ans _ e).1 rfl
  · rintro b more rfl
    have e : handle f.origin f.payload (atWork f (t1 ++ t2) s) = answered (selectPreset b.toNat (atWork f (t1 ++ t2) s)) := by rw [hp]; rfl
    refine ⟨fun hb => ?_, fun p hb => ?_⟩
    · have hs : selectPreset b.toNat (atWork f (t1 ++ t2) s) = (some .invalid, atWork f (t1 ++ t2) s) := by
        unfold selectPreset; rw [dif_neg (by omega)]
      rw [hs] at e
      exact (ans _ e).2 .invalid rfl
    · have hs : selectPreset b.toNat (atWork f (t1 ++ t2) s) = (none, (atWork f (t1 ++ t2) s).setCp { s.cp with
          staged := Vector.ofFn fun k => s.cp.presets[presetIndex p k], pending := Vector.replicate 4 true, current := some p }) := by
        rw [hb]
        unfold selectPreset
        rw [dif_pos p.isLt]
        rfl
      rw [hs] at e
      exact (ans _ e).1 rfl
  · rintro b l more rfl
    have e : handle f.origin f.payload (atWork f (t1 ++ t2) s) =
        answered (localRequest (slotOfByte b) (levelOf l) (atWork f (t1 ++ t2) s)) := by rw [hp]; rfl
    refine ⟨fun hb => ?_, fun i hb => ?_⟩
    · rw [(slot b).1 hb] at e; exact ans _ e
    · rw [(slot b).2 i hb] at e; exact ans _ e
  · rintro b l more rfl
    have e : handle f.origin f.payload (atWork f (t1 ++ t2) s) =
        answered (localRelease (slotOfByte b) (levelOf l) (atWork f (t1 ++ t2) s)) := by rw [hp]; rfl
    refine ⟨fun hb => ?_, fun i hb => ?_⟩
    · rw [(slot b).1 hb] at e; exact ans _ e
    · rw [(slot b).2 i hb] at e; exact ans _ e
  · rintro b more rfl
    have e : handle f.origin f.payload (atWork f (t1 ++ t2) s) = answered (setPower (powerOf b) (atWork f (t1 ++ t2) s)) := by rw [hp]; rfl
    have hrun : (atWork f (t1 ++ t2) s).cl.loader = .running := h.loaded
    refine ⟨fun hb => ?_, fun hb hpw => ?_, fun hb hpw => ?_, fun hb hpw => ?_, fun hb hpw => ?_⟩
    · have hn : powerOf b = none := by
        unfold powerOf
        rw [if_neg (by rintro rfl; exact absurd hb (by decide)), if_neg (by rintro rfl; exact absurd hb (by decide))]
      rw [hn] at e
      exact (ans _ e).2 .invalid rfl
    · subst hb
      have hs : setPower (powerOf 0) (atWork f (t1 ++ t2) s) = (none, (atWork f (t1 ++ t2) s).setPu { s.pu with
          idle := if s.desk.standby = 0 then none else some 0 }) := by
        show (none, if s.pu.power = .standby then _ else restartIdle (atWork f (t1 ++ t2) s)) = _
        rw [if_neg (by rw [hpw]; decide)]
        congr 1
        unfold restartIdle
        by_cases z : s.desk.standby = 0
        · rw [if_neg (by rintro ⟨-, -, x⟩; exact x z), if_pos z]; rfl
        · rw [if_pos ⟨hpw, decide_eq_true hrun, z⟩, if_neg z]; rfl
      rw [hs] at e
      exact (ans _ e).1 rfl
    · subst hb
      have hs : setPower (powerOf 0) (atWork f (t1 ++ t2) s) = (none, wake .management (atWork f (t1 ++ t2) s)) := by
        show (none, if s.pu.power = .standby then wake .management (atWork f (t1 ++ t2) s) else _) = _
        rw [if_pos hpw]
      rw [hs] at e
      obtain ⟨w1, _, _, w4⟩ := wake_spec .management (t := atWork f (t1 ++ t2) s) hpw hrun
      exact ⟨_, (ans _ e).1 rfl, w1, w4, (wake_shares .management (t := atWork f (t1 ++ t2) s) hpw).congr rfl⟩
    · subst hb
      have hs : setPower (powerOf 1) (atWork f (t1 ++ t2) s) = (none, atWork f (t1 ++ t2) s) := by
        show (none, enterStandby (atWork f (t1 ++ t2) s)) = _
        unfold enterStandby
        rw [if_pos (show (atWork f (t1 ++ t2) s).pu.power = .standby from hpw)]
      rw [hs] at e
      exact (ans _ e).1 rfl
    · subst hb
      have e : handle f.origin f.payload (atWork f (t1 ++ t2) s) = answered (none, enterStandby (atWork f (t1 ++ t2) s)) := e
      obtain ⟨w1, w2, w3, _⟩ := enterStandby_spec (t := atWork f (t1 ++ t2) s) hpw
      refine ⟨_, (ans _ e).1 rfl, w1, by rw [w2], by rw [w2], fun i k hk => ?_⟩
      rw [w3] at hk
      obtain ⟨x, _, rfl⟩ := Option.map_eq_some_iff.1 hk
      exact ⟨rfl, rfl⟩
  · rintro a b more rfl
    exact by' _ _ _ (by rw [hp]; rfl)
  · rintro a b more rfl
    have e : handle f.origin f.payload (atWork f (t1 ++ t2) s) = answered (setProtection f.origin a b (atWork f (t1 ++ t2) s)) := by rw [hp]; rfl
    refine ⟨fun h1 h2 => ?_, fun ha => ?_⟩
    · have hs : setProtection f.origin a b (atWork f (t1 ++ t2) s) = (some .notAuthority, atWork f (t1 ++ t2) s) := by
        unfold setProtection
        rw [if_pos (fun x => by rcases auth.1 x with y | y; exacts [h1 y, h2 y])]
      rw [hs] at e
      exact (ans _ e).2 .notAuthority rfl
    · have hs : setProtection f.origin a b (atWork f (t1 ++ t2) s) =
          match areaOf a, protLevelOf b with
          | some a, some l =>
            if s.cl.save ≠ .idle then (some .saving, atWork f (t1 ++ t2) s)
            else
              match a with
              | .config => (none, (atWork f (t1 ++ t2) s).setMu { (atWork f (t1 ++ t2) s).mu with configLevel := l })
              | .layout => (none, (atWork f (t1 ++ t2) s).setMu { (atWork f (t1 ++ t2) s).mu with layoutLevel := l })
          | _, _ => (some .invalid, atWork f (t1 ++ t2) s) := by
        unfold setProtection
        rw [if_neg (fun x => x (auth.2 ha))]
        rfl
      have areas : (areaOf 0 = some .config) ∧ (areaOf 1 = some .layout) ∧ (2 ≤ a.toNat → areaOf a = none) := by
        refine ⟨rfl, rfl, fun h2 => ?_⟩
        unfold areaOf
        rw [if_neg (by rintro rfl; exact absurd h2 (by decide)), if_neg (by rintro rfl; exact absurd h2 (by decide))]
      refine ⟨fun bad => ?_, fun l h2 hl => ⟨fun hsv => ?_, fun hsv => ?_⟩⟩
      · have : setProtection f.origin a b (atWork f (t1 ++ t2) s) = (some .invalid, atWork f (t1 ++ t2) s) := by
          rw [hs]
          rcases bad with h2 | h3
          · rw [areas.2.2 h2]
          · have : protLevelOf b = none := by
              unfold protLevelOf
              rw [if_neg (by rintro rfl; exact absurd h3 (by decide)), if_neg (by rintro rfl; exact absurd h3 (by decide)),
                if_neg (by rintro rfl; exact absurd h3 (by decide))]
            rw [this]
            split
            · rename_i x; cases x
            · rfl
        rw [this] at e
        exact (ans _ e).2 .invalid rfl
      · have : setProtection f.origin a b (atWork f (t1 ++ t2) s) = (some .saving, atWork f (t1 ++ t2) s) := by
          rw [hs, hl]
          rcases bz a with rfl | rfl | h2'
          · rw [areas.1]; exact if_pos hsv
          · rw [areas.2.1]; exact if_pos hsv
          · omega
        rw [this] at e
        exact (ans _ e).2 .saving rfl
      · have : setProtection f.origin a b (atWork f (t1 ++ t2) s) = (none, (atWork f (t1 ++ t2) s).setMu (if a = 0
            then { (atWork f (t1 ++ t2) s).mu with configLevel := l } else { (atWork f (t1 ++ t2) s).mu with layoutLevel := l })) := by
          rw [hs, hl]
          rcases bz a with rfl | rfl | h2'
          · rw [areas.1]; exact if_neg (fun x => x hsv)
          · rw [areas.2.1]; exact if_neg (fun x => x hsv)
          · omega
        rw [this] at e
        exact (ans _ e).1 rfl
  · rintro more rfl
    have e : handle f.origin f.payload (atWork f (t1 ++ t2) s) = answered (beginSave (atWork f (t1 ++ t2) s)) := by rw [hp]; rfl
    refine ⟨fun hsv => ?_, fun hsv => ?_⟩
    · have : beginSave (atWork f (t1 ++ t2) s) = (some .saving, atWork f (t1 ++ t2) s) := by
        unfold beginSave; exact if_neg hsv
      rw [this] at e
      exact (ans _ e).2 .saving rfl
    · have : beginSave (atWork f (t1 ++ t2) s) = (none, (atWork f (t1 ++ t2) s).setCl { s.cl with
          save := .writingLayout, snapshot := some ⟨deskArea s, layoutArea s⟩ }) := by
        unfold beginSave; exact if_pos hsv
      rw [this] at e
      exact (ans _ e).1 rfl
  · rintro more rfl
    have e : handle f.origin f.payload (atWork f (t1 ++ t2) s) = doReset f.origin (atWork f (t1 ++ t2) s) := by rw [hp]; rfl
    have ok : s.desk.authority = 0 ∨ f.origin = s.desk.authority →
        exec (hear s f) s = completed (offerResponse ⟨response f t1 t2 .done 0 s, true⟩ (atWork f (t1 ++ t2) s)) := by
      intro ha
      have hr : requestReply f t1 t2 s = (⟨.done, 0, [], true⟩, atWork f (t1 ++ t2) s) := by
        unfold requestReply; rw [if_pos ((formValid_iff _).2 hf), e]
        unfold doReset; rw [if_pos (auth.2 ha)]
      rw [request_exec h j hk ho hp hw, hr]
      have re : responseEntry f.origin (t1 ++ t2) ⟨.done, 0, [], true⟩ (atWork f (t1 ++ t2) s) = ⟨response f t1 t2 .done 0 s, true⟩ := by
        unfold responseEntry responsePayload response
        rw [tag_bytes]
        rfl
      dsimp only
      rw [re]
    have q := atWork_quiet f (t1 ++ t2) n
    have hrd : (atWork f (t1 ++ t2) s).mu.resetDue = false := n.mu.due
    have hst : stamp (atWork f (t1 ++ t2) s) (response f t1 t2 .done 0 s) = response f t1 t2 .done 0 s := rfl
    refine ⟨fun h1 h2 => ?_, fun ha hfull => ?_, fun ha hno hroom => ⟨fun hup hsend hdue => ?_, fun hdown => ?_, fun hup hsend hpq hiq => ?_⟩⟩
    · refine by' _ _ _ (e.trans ?_)
      unfold doReset
      rw [if_neg (fun x => by rcases auth.1 x with y | y; exacts [h1 y, h2 y])]
      rfl
    · rw [ok ha]
      apply completed_settled
      unfold offerResponse
      by_cases hof : s.mu.offer.isSome = true
      · rw [if_pos (by exact hof)]; exact hrd
      · rw [if_neg (by exact hof), offerInsertion_refused _ _ (by rcases hfull with x | x; exacts [absurd x hof, by show ¬ s.rf.insQ.length < 12; omega])]
        exact hrd
    all_goals
      rw [ok ha]
      have room : (atWork f (t1 ++ t2) s).rf.insQ.length < 12 := hroom
      unfold offerResponse
      rw [if_neg (by show ¬ s.mu.offer.isSome = true; simp [hno])]
      unfold offerInsertion
      rw [if_pos room]
      dsimp only
      rw [hst]
    · have ar : arbitrate ((atWork f (t1 ++ t2) s).setRf { (atWork f (t1 ++ t2) s).rf with
          insQ := (atWork f (t1 ++ t2) s).rf.insQ ++ [⟨response f t1 t2 .done 0 s, true⟩] }) = (atWork f (t1 ++ t2) s).setRf { s.rf with
          insQ := s.rf.insQ ++ [⟨response f t1 t2 .done 0 s, true⟩] } := by
        unfold arbitrate
        rw [if_neg (by rintro ⟨-, x⟩; have x : s.rf.sending = none := x; rw [x] at hsend; cases hsend)]
        rfl
      rw [ar]
      unfold responseAppended
      dsimp only
      rw [if_pos rfl]
      unfold tryNotice
      rw [if_neg (by rintro ⟨x, -⟩; have x : s.mu.due = true := x; rw [hdue] at x; cases x)]
      have hd : (s.mu.resetDue || decide (s.elp.state ≠ .up)) = s.mu.resetDue := by simp [hup]
      rw [completed_settled (by show (s.mu.resetDue || decide (s.elp.state ≠ .up)) = false; rw [hd]; exact hrd)]
      congr 1
      show State.setMu _ _ = State.setRf _ _
      have : (atWork f (t1 ++ t2) s).mu.resetDue = (s.mu.resetDue || decide (s.elp.state ≠ .up)) := hd.symm
      unfold State.setMu State.setRf
      congr 1
      show ({ (atWork f (t1 ++ t2) s).mu with
        work := _, resetDue := (s.mu.resetDue || decide (s.elp.state ≠ .up)), c := _ } : Mu) = _
      rw [hd]
      rfl
    · have ar : arbitrate ((atWork f (t1 ++ t2) s).setRf { (atWork f (t1 ++ t2) s).rf with
          insQ := (atWork f (t1 ++ t2) s).rf.insQ ++ [⟨response f t1 t2 .done 0 s, true⟩] }) = (atWork f (t1 ++ t2) s).setRf { s.rf with
          insQ := s.rf.insQ ++ [⟨response f t1 t2 .done 0 s, true⟩] } := by
        unfold arbitrate
        rw [if_neg (by rintro ⟨x, -⟩; exact hdown x)]
        rfl
      rw [ar]
      unfold responseAppended
      dsimp only
      rw [if_pos rfl]
      unfold tryNotice
      have hd : ∀ b : Bool, (b || decide (s.elp.state ≠ .up)) = true := by intro b; simp [hdown]
      rw [if_neg (by rintro ⟨-, -, -, x⟩; exact x (hd _))]
      refine ⟨_, rfl, ?_⟩
      rw [finish_due (hd _)]
      exact ⟨rfl, rfl, rfl⟩
    · have ar : arbitrate ((atWork f (t1 ++ t2) s).setRf { (atWork f (t1 ++ t2) s).rf with
          insQ := (atWork f (t1 ++ t2) s).rf.insQ ++ [⟨response f t1 t2 .done 0 s, true⟩] }) =
          beginInsertion ⟨response f t1 t2 .done 0 s, true⟩ [] ((atWork f (t1 ++ t2) s).setRf { s.rf with
            insQ := [⟨response f t1 t2 .done 0 s, true⟩] }) := by
        have hi : (atWork f (t1 ++ t2) s).rf.insQ = [] := hiq
        have hr : (atWork f (t1 ++ t2) s).rf = s.rf := rfl
        rw [hr, hiq, List.nil_append]
        unfold arbitrate
        rw [if_pos (by exact ⟨hup, hsend⟩)]
        simp only [State.setRf_rf, hpq]
      rw [ar]
      unfold beginInsertion responseAppended
      dsimp only
      rw [if_pos rfl, if_pos rfl]
      unfold tryNotice
      rw [if_neg (by rintro ⟨-, -, -, x⟩; exact x rfl)]
      refine ⟨_, rfl, ?_⟩
      rw [finish_due rfl]
      refine ⟨rfl, ?_, rfl⟩
      unfold softReset
      have : ∀ u : State, (abandonSave u).rf = u.rf := by
        intro u
        unfold abandonSave
        split
        · rfl
        · dsimp only; split <;> rfl
        · rfl
      dsimp only [rfSoft, State.setRf]
      rw [this]
      rfl

end

end Sys2Proof.Machine
end

