-- ==== Sys2Proof/Laws/KeptFrames.lean ====
section
/-! SUPPORT. The kept frames of the three producers, from the freed place to what each does next (R29, R133, R142, R170). -/

namespace Sys2Proof.Machine

open Sys2Proof

/-! ## The management unit under appends that are no RESET response -/

theorem offerInsertion_mu {t : State} (n : NoReset t) (e : InsEntry) (he : e.resetResponse = false) : (offerInsertion e t).2.mu = t.mu := by
  by_cases h : t.rf.insQ.length < 12
  · rw [offerInsertion_accepted n e he h]
    rfl
  · rw [offerInsertion_refused e t h]
    rfl

theorem claimAppended_mu (m : ClaimMsg) (t : State) : (claimAppended m t).mu = t.mu ∧ (claimAppended m t).rf = t.rf := by
  unfold claimAppended
  dsimp only
  split
  · exact ⟨rfl, rfl⟩
  · split
    · split
      · split <;> exact ⟨rfl, rfl⟩
      · exact ⟨rfl, rfl⟩
    · exact ⟨rfl, rfl⟩

theorem pumpBuilder_mu (k : Nat) {t : State} (n : NoReset t) : (pumpBuilder k t).mu = t.mu := by
  induction k generalizing t with
  | zero => rfl
  | succ k ih =>
    unfold pumpBuilder
    split
    · rfl
    · split
      · rfl
      · rename_i i _
        have q : NoReset (builtFrom i t) := n.congr rfl rfl
        have m := offerInsertion_mu q ⟨inputFrame i t, false⟩ rfl
        have o := offerInsertion_quiet ⟨inputFrame i t, false⟩ rfl q
        split
        · rename_i u hu
          rw [hu] at m o
          exact (ih o).trans m
        · rename_i u hu
          rw [hu] at m
          exact m

theorem pumpOutbox_mu (k : Nat) {t : State} (n : NoReset t) : (pumpOutbox k t).mu = t.mu := by
  induction k generalizing t with
  | zero => rfl
  | succ k ih =>
    unfold pumpOutbox
    split
    · rfl
    · split
      · rfl
      · rename_i m ms _
        have q : NoReset (t.setCu { t.cu with outbox := ms }) := n.congr rfl rfl
        have mu := offerInsertion_mu q ⟨claimFrame m t, false⟩ rfl
        have o := offerInsertion_quiet ⟨claimFrame m t, false⟩ rfl q
        dsimp only
        split
        · rename_i u hu
          rw [hu] at mu o
          have c := claimAppended_mu m u
          exact (ih (o.congr c.1 (by rw [c.2]))).trans (c.1.trans mu)
        · rename_i u hu
          rw [hu] at mu
          exact mu

/-! ## The producers that still wait -/

/-- How many producers but one keep a frame. -/
theorem waiting_others (s : State) :
    ((waitingProducers s).filter fun q => q ≠ Producer.iu).length = s.cu.offered.isSome.toNat + s.mu.offer.isSome.toNat ∧
    ((waitingProducers s).filter fun q => q ≠ Producer.cu).length = s.iu.held.isSome.toNat + s.mu.offer.isSome.toNat ∧
    ((waitingProducers s).filter fun q => q ≠ Producer.mu).length = s.iu.held.isSome.toNat + s.cu.offered.isSome.toNat := by
  unfold waitingProducers
  cases s.iu.held.isSome <;> cases s.cu.offered.isSome <;> cases s.mu.offer.isSome <;> decide

theorem countStillWaiting_eq {p : Producer} {s : State} {n : Nat} (h : ((waitingProducers s).filter fun q => q ≠ p).length = n) :
    countStillWaiting p s = stillWaiting n s := by
  unfold countStillWaiting stillWaiting
  dsimp only
  rw [h]

theorem stillWaiting_quiet (n : Nat) {s : State} (h : NoReset s) : NoReset (stillWaiting n s) := by
  unfold stillWaiting
  split
  · exact h
  · exact h.congr rfl rfl

/-- A freed place, from the producer's own part on. -/
theorem placeFrees_next {p : Producer} {s u v : State} {n : Nat} (room : s.rf.insQ.length < 12) (hp : p ∈ waitingProducers s)
    (hk : appendKept p s = v) (hv : v = u) (hq : NoReset u) (hn : ((waitingProducers u).filter fun q => q ≠ p).length = n) :
    exec (.refusedFrameAppended p) s = .next (stillWaiting n u) := by
  subst hv
  show completed (placeFrees p s) = _
  unfold placeFrees
  rw [if_pos ⟨room, hp⟩, hk, countStillWaiting_eq hn]
  exact completed_next (stillWaiting_quiet n hq)

theorem NoReset.setRf_takeIn {s : State} (h : NoReset s) {e : InsEntry} (he : e.resetResponse = false) : NoReset (s.setRf (takeIn s e)) := by
  refine ⟨h.mu, fun x hx => ?_⟩
  have mem : ∀ y ∈ s.rf.insQ ++ [e], y.resetResponse = false := by
    intro y hy
    rcases List.mem_append.1 hy with hy | hy
    · exact h.insQ y hy
    · simp at hy; subst hy; exact he
  have hx : x ∈ (takeIn s e).insQ := hx
  unfold takeIn at hx
  dsimp only at hx
  split at hx
  · unfold arbiterTable at hx
    (repeat' split at hx)
    all_goals first
      | exact mem x hx
      | (rename_i h1 h2; exact mem x (by rw [show s.rf.insQ ++ [e] = _ from h2]; exact List.mem_cons_of_mem _ hx))
      | (rename_i h1 h2 _; exact mem x hx)
      | (rename_i h1 h2 _; exact mem x (by rw [show s.rf.insQ ++ [e] = _ from h2]; exact List.mem_cons_of_mem _ hx))
      | simp at hx
  · exact mem x hx

/-! ## Each producer's kept frame -/

/-- An appended claim frame: counted, and the deadline of a request that waits for it starts (R142). -/
theorem claimAppended_forms (m : ClaimMsg) (t : State) :
    (m.kind = .release → claimAppended m t = t.setCu { t.cu with
      offered := none, c := { t.cu.c with releasesSent := bump t.cu.c.releasesSent } }) ∧
    (∀ k l, m.kind = .request → t.cu.slots[m.slot] = some k → k.request = some ⟨l, none⟩ →
      (∀ x ∈ t.cu.outbox, ¬ (x.kind = .request ∧ x.slot = m.slot)) → claimAppended m t = t.setCu { t.cu with
        slots := t.cu.slots.set m.slot (some { k with request := some ⟨l, some t.desk.claimTimeout⟩ }),
        offered := none, c := { t.cu.c with requestsSent := bump t.cu.c.requestsSent } }) ∧
    (m.kind = .request → (∀ k l, t.cu.slots[m.slot] = some k → k.request = some ⟨l, none⟩ →
        ∃ x ∈ t.cu.outbox, x.kind = .request ∧ x.slot = m.slot) → claimAppended m t = t.setCu { t.cu with
      offered := none, c := { t.cu.c with requestsSent := bump t.cu.c.requestsSent } }) := by
  obtain ⟨v, hv⟩ : ∃ v, v = t.setCu { t.cu with offered := none, c := { t.cu.c with requestsSent := bump t.cu.c.requestsSent } } := ⟨_, rfl⟩
  have req : m.kind = .request → claimAppended m t = match v.cu.slots[m.slot] with
      | some k =>
        match k.request with
        | some ⟨l, none⟩ =>
          if inOutbox .request m.slot v then v
          else setSlot m.slot (some { k with request := some ⟨l, some v.desk.claimTimeout⟩ }) v
        | _ => v
      | none => v := by
    intro h
    unfold claimAppended
    rw [h, hv]
    rfl
  have ib : inOutbox .request m.slot v = true ↔ ∃ x ∈ t.cu.outbox, x.kind = .request ∧ x.slot = m.slot := by
    rw [hv]
    unfold inOutbox
    rw [List.any_eq_true]
    simp
  have vs : v.cu.slots = t.cu.slots := by rw [hv]; rfl
  refine ⟨fun h => ?_, fun k l h hs hq hx => ?_, fun h hx => ?_⟩
  · unfold claimAppended
    rw [h]
    rfl
  · rw [req h, vs, hs]
    dsimp only
    rw [hq]
    dsimp only
    rw [if_neg (fun c => by obtain ⟨x, h1, h2⟩ := ib.1 c; exact hx x h1 h2), hv]
    rfl
  · rw [req h, vs, ← hv]
    split
    · rename_i k hk
      split
      · rename_i l hl
        exact if_pos (ib.2 (hx k l hk hl))
      · rfl
    · rfl

section
variable {s : State}

theorem builtFrame_kept (n : NoReset s) (room : s.rf.insQ.length < 12) {f : Frame} (hf : s.iu.held = some f) :
    exec (.refusedFrameAppended .iu) s = .next (stillWaiting (s.cu.offered.isSome.toNat + s.mu.offer.isSome.toNat)
      (pumpBuilder pumpBound ((s.setIu { s.iu with held := none }).setRf (takeIn s ⟨{ f with origin := own s, hop := 63 }, false⟩)))) := by
  have q : NoReset (s.setIu { s.iu with held := none }) := n.congr rfl rfl
  have q' : NoReset ((s.setIu { s.iu with held := none }).setRf (takeIn s ⟨{ f with origin := own s, hop := 63 }, false⟩)) :=
    (n.setRf_takeIn (e := ⟨{ f with origin := own s, hop := 63 }, false⟩) rfl).congr rfl rfl
  refine placeFrees_next room (by simp [waitingProducers, hf]) (v := appendBuilt f s) (by unfold appendKept; dsimp only; rw [hf]) ?_ ?_ ?_
  · unfold appendBuilt
    rw [offerInsertion_accepted q _ rfl (by exact room)]
    rfl
  · exact (pumpBuilder_keeps pumpBound (.refl _)).quiet q'
  · rw [(waiting_others _).1, (pumpBuilder_delivers pumpBound (.refl _)).cu, pumpBuilder_mu _ q']
    rfl

theorem claimFrame_kept (n : NoReset s) (room : s.rf.insQ.length < 12) {o : Offered} (ho : s.cu.offered = some o) :
    exec (.refusedFrameAppended .cu) s = .next (stillWaiting (s.iu.held.isSome.toNat + s.mu.offer.isSome.toNat)
      (pumpOutbox pumpBound (claimAppended o.msg (s.setRf (takeIn s ⟨{ o.frame with origin := own s, hop := 63 }, false⟩))))) := by
  have q := n.setRf_takeIn (e := ⟨{ o.frame with origin := own s, hop := 63 }, false⟩) rfl
  have c := claimAppended_mu o.msg (s.setRf (takeIn s ⟨{ o.frame with origin := own s, hop := 63 }, false⟩))
  have q' := q.congr (t := claimAppended o.msg (s.setRf (takeIn s ⟨{ o.frame with origin := own s, hop := 63 }, false⟩))) c.1 (by rw [c.2])
  refine placeFrees_next room (by simp [waitingProducers, ho]) (v := appendClaim o s) (by unfold appendKept; dsimp only; rw [ho]) ?_ ?_ ?_
  · unfold appendClaim
    rw [offerInsertion_accepted n _ rfl (by exact room)]
    rfl
  · exact (pumpOutbox_keeps pumpBound (.refl _)).quiet q'
  · rw [(waiting_others _).2.1, (pumpOutbox_iu pumpBound _).1, (claimAppended_iu _ _).1, pumpOutbox_mu _ q', c.1]
    rfl

theorem managementFrame_kept (n : NoReset s) (room : s.rf.insQ.length < 12) {o : MuOffer} (ho : s.mu.offer = some o) {u : State}
    (hu : u = s.setRf (takeIn s ⟨{ o.entry.frame with origin := own s, hop := 63 }, false⟩)) :
    (o.isNotice = false → exec (.refusedFrameAppended .mu) s = .next (stillWaiting (s.iu.held.isSome.toNat + s.cu.offered.isSome.toNat)
      (tryNotice (u.setMu { s.mu with offer := none, work := none, c := { s.mu.c with responses := bump s.mu.c.responses } })))) ∧
    (o.isNotice = true → s.mu.waiting = none → exec (.refusedFrameAppended .mu) s = .next (stillWaiting
      (s.iu.held.isSome.toNat + s.cu.offered.isSome.toNat) (u.setMu { s.mu with
        offer := none, interval := some 0, c := { s.mu.c with notices := bump s.mu.c.notices } }))) ∧
    (∀ e, o.isNotice = true → s.mu.waiting = some e → exec (.refusedFrameAppended .mu) s = .next (stillWaiting
      (s.iu.held.isSome.toNat + s.cu.offered.isSome.toNat) (offerResponse e (u.setMu { s.mu with
        offer := none, waiting := none, interval := some 0, c := { s.mu.c with notices := bump s.mu.c.notices } })))) := by
  have he : o.entry.resetResponse = false := n.mu.offer o ho
  have hq : ∀ w : Option Work, (w = none ∨ w = s.mu.work) → ∀ x : Option InsEntry, (x = none ∨ x = s.mu.waiting) → ∀ (i : Option Nat) (c : MuCounters),
      NoReset (u.setMu { s.mu with offer := none, work := w, waiting := x, interval := i, c := c }) := by
    intro w hw x hx i c
    have q := n.setRf_takeIn (e := ⟨{ o.entry.frame with origin := own s, hop := 63 }, false⟩) rfl
    refine ⟨⟨n.mu.due, fun y hy => ?_, nofun, fun y hy => ?_⟩, by rw [hu]; exact q.insQ⟩
    · rcases hw with rfl | rfl
      · cases hy
      · exact n.mu.work y hy
    · rcases hx with rfl | rfl
      · cases hy
      · exact n.mu.waiting y hy
  have acc : (offerInsertion o.entry (s.setMu { s.mu with offer := none })).2 = (u.setMu { s.mu with offer := none }) := by
    have q : NoReset (s.setMu { s.mu with offer := none }) := ⟨⟨n.mu.due, n.mu.work, nofun, n.mu.waiting⟩, n.insQ⟩
    rw [offerInsertion_accepted q _ he (by exact room), hu]
    obtain ⟨⟨f, r⟩, b⟩ := o
    simp only at he
    subst he
    rfl
  have hui : u.iu = s.iu ∧ u.cu = s.cu := by rw [hu]; exact ⟨rfl, rfl⟩
  have mem : Producer.mu ∈ waitingProducers s := by simp [waitingProducers, ho]
  have kept : appendKept .mu s = appendManagement o s := by unfold appendKept; dsimp only; rw [ho]
  have form : appendManagement o s = if o.isNotice then offerWaiting (noticeAppended (u.setMu { s.mu with offer := none }))
      else tryNotice (responseAppended o.entry (u.setMu { s.mu with offer := none })) := by
    unfold appendManagement
    rw [acc]
  refine ⟨fun hn => ?_, fun hn hw => ?_, fun e hn hw => ?_⟩
  · have p := tryNotice_posts (u.setMu { s.mu with offer := none, work := none, c := { s.mu.c with responses := bump s.mu.c.responses } })
    refine placeFrees_next room mem (kept.trans form) ?_ ?_ ?_
    · rw [hn, if_neg Bool.false_ne_true]
      unfold responseAppended
      dsimp only
      rw [if_neg (by rw [he]; exact Bool.false_ne_true)]
      rfl
    · exact (tryNotice_keeps (.refl _)).quiet (hq none (.inl rfl) _ (.inr rfl) s.mu.interval _)
    · rw [(waiting_others _).2.2, p.iu, p.cu]
      show u.iu.held.isSome.toNat + u.cu.offered.isSome.toNat = _
      rw [hui.1, hui.2]
  · refine placeFrees_next room mem (kept.trans form) ?_ (hq _ (.inr rfl) _ (.inr rfl) (some 0) _) ?_
    · rw [if_pos hn]
      unfold offerWaiting noticeAppended
      rw [show ((u.setMu { s.mu with offer := none }).setMu { (u.setMu { s.mu with offer := none }).mu with
        interval := some 0, c := { (u.setMu { s.mu with offer := none }).mu.c with notices := bump (u.setMu { s.mu with offer := none }).mu.c.notices } }).mu.waiting = none from hw]
      rfl
    · rw [(waiting_others _).2.2]
      show u.iu.held.isSome.toNat + u.cu.offered.isSome.toNat = _
      rw [hui.1, hui.2]
  · have q := hq s.mu.work (.inr rfl) none (.inl rfl) (some 0) { s.mu.c with notices := bump s.mu.c.notices }
    have c : (offerResponse e (u.setMu { s.mu with
        offer := none, waiting := none, interval := some 0, c := { s.mu.c with notices := bump s.mu.c.notices } })).iu = u.iu ∧
        (offerResponse e (u.setMu { s.mu with
        offer := none, waiting := none, interval := some 0, c := { s.mu.c with notices := bump s.mu.c.notices } })).cu = u.cu := by
      have c := offerResponse_calm e (u.setMu { s.mu with
        offer := none, waiting := none, interval := some 0, c := { s.mu.c with notices := bump s.mu.c.notices } })
      exact ⟨c.iu, c.cu⟩
    refine placeFrees_next room mem (kept.trans form) ?_ (offerResponse_quiet e (n.mu.waiting e hw) q) ?_
    · rw [if_pos hn]
      unfold offerWaiting noticeAppended
      rw [show ((u.setMu { s.mu with offer := none }).setMu { (u.setMu { s.mu with offer := none }).mu with
        interval := some 0, c := { (u.setMu { s.mu with offer := none }).mu.c with notices := bump (u.setMu { s.mu with offer := none }).mu.c.notices } }).mu.waiting = some e from hw]
      rfl
    · rw [(waiting_others _).2.2, c.1, c.2, hui.1, hui.2]

end

end Sys2Proof.Machine
end

