-- ==== Sys2Proof/Laws/Loads.lean ====
section
/-! SUPPORT. What a load brings (R190, R191), and what the entry to RUNNING keeps of it (R192). -/

namespace Sys2Proof.Machine

open Sys2Proof

/-! ## The areas (R190) -/

theorem headerGood_iff (a : SerialAnswers) (s : State) : headerGood a s = true ↔ HeaderGood a s := by
  unfold headerGood
  rw [Bool.and_eq_true, Bool.and_eq_true, decide_eq_true_eq, Bool.not_eq_true']
  exact ⟨fun ⟨⟨h, w⟩, m⟩ => ⟨h, w, m⟩, fun ⟨h, w, m⟩ => ⟨⟨h, w⟩, m⟩⟩

theorem areaGood_iff (a : SerialAnswers) (ans bad : Bool) (base len : Nat) (s : State) :
    (headerGood a s && ans && !bad && crcGood base len s) = true ↔ AreaGood a ans bad base len s := by
  unfold crcGood
  rw [Bool.and_eq_true, Bool.and_eq_true, Bool.and_eq_true, headerGood_iff, decide_eq_true_eq, Bool.not_eq_true']
  exact ⟨fun ⟨⟨⟨h, w⟩, b⟩, m⟩ => ⟨h, w, b, m⟩, fun ⟨h, w, b, m⟩ => ⟨⟨⟨h, w⟩, b⟩, m⟩⟩

/-! ## Entries (R191) -/

/-- A setting of the built-in defaults is always accepted in a load. -/
theorem defaultDesk_accepted (i : Nat) (s : State) (hi : i < 23) (h : i = 0 ∨ 4 < i) :
    (writeEntry true 0 .desk i (defaultContent .desk i) s).1 = none := by
  obtain rfl | rfl | rfl | rfl | rfl | rfl | rfl | rfl | rfl | rfl | rfl | rfl | rfl | rfl | rfl | rfl | rfl | rfl | rfl :
    i = 0 ∨ i = 5 ∨ i = 6 ∨ i = 7 ∨ i = 8 ∨ i = 9 ∨ i = 10 ∨ i = 11 ∨ i = 12 ∨ i = 13 ∨ i = 14 ∨ i = 15 ∨ i = 16 ∨ i = 17 ∨
      i = 18 ∨ i = 19 ∨ i = 20 ∨ i = 21 ∨ i = 22 := by omega
  all_goals rfl

theorem defaultLamp_accepted (l : Fin 5) (s : State) :
    writeEntry true 0 .lamps l.val (defaultContent .lamps l.val) s =
      (none, s.setPu { s.pu with lamps := s.pu.lamps.set l (defaultLamp l) }) := by
  obtain ⟨i, hi⟩ := l
  obtain rfl | rfl | rfl | rfl | rfl : i = 0 ∨ i = 1 ∨ i = 2 ∨ i = 3 ∨ i = 4 := by omega
  all_goals rfl

theorem fallsBack (sp : Space) (i : Nat) (s : State) : FallsBack sp i s (fallbackEntry sp i s) := by
  refine ⟨fun h hi h4 => ?_, fun h hs hi => ?_, fun h hi => ?_, fun h1 h2 => ?_⟩
  · subst h
    have e : fallbackEntry .desk i s = (writeEntry true 0 .desk i (defaultContent .desk i) s).2 :=
      dif_neg (by omega)
    rw [e, ← defaultDesk_accepted i s hi h4]
  · subst hs hi
    have e : fallbackEntry .desk (h.val + 1) s = fallbackHead h s := dif_pos (by omega)
    rw [e]
    refine ⟨_, rfl, fun ⟨k, hk, he, hm⟩ => if_pos ?_, fun hn => if_neg ?_⟩
    · unfold overlaps
      rw [Bool.and_eq_true, List.any_eq_true]
      refine ⟨rfl, k, List.mem_finRange k, ?_⟩
      show (decide (k < h) && s.cp.heads[k].enabled && rectsMeet (defaultHead h) s.cp.heads[k]) = true
      rw [decide_eq_true hk, he, hm]; rfl
    · unfold overlaps
      rw [Bool.and_eq_true, List.any_eq_true]
      rintro ⟨-, k, -, hk⟩
      simp only [if_true, Bool.and_eq_true, decide_eq_true_eq] at hk
      rw [hn k hk.1.1 hk.1.2] at hk
      cases hk.2
  · subst h
    show writeEntry true 0 .lamps i _ s = (none, (writeEntry true 0 .lamps i _ s).2)
    rw [defaultLamp_accepted ⟨i, hi⟩ s]
  · cases sp <;> first | rfl | exact absurd rfl h1 | exact absurd rfl h2

theorem entryLoads (sp : Space) (i : Nat) (c : Option (List Byte)) (s : State) : EntryLoads sp i c s (loadEntry sp i c s) := by
  refine ⟨fun bs u hc hw => ?_, fun bs r u hc hw => ?_, fun hc => ?_⟩ <;> subst hc
  · show (match writeEntry true 0 sp i bs s with | (none, t) => t | (some _, t) => fallbackEntry sp i (raise .loadFault t)) = u
    rw [hw]
  · have hu := writeEntry_unchanged true 0 sp i bs s r u hw
    subst hu
    have e : loadEntry sp i (some bs) u = fallbackEntry sp i (raise .loadFault u) := by
      show (match writeEntry true 0 sp i bs u with | (none, t) => t | (some _, t) => fallbackEntry sp i (raise .loadFault t)) = _
      rw [hw]
    rw [e]
    exact fallsBack _ _ _
  · exact fallsBack _ _ _

theorem entriesLoad (o : List (Space × Nat)) (cs : List (Option (List Byte))) (s : State) : EntriesLoad o cs s (loadEntries o cs s) := by
  induction o generalizing cs s with
  | nil => exact rfl
  | cons e o ih =>
    cases cs with
    | nil => exact rfl
    | cons c cs => exact ⟨_, entryLoads e.1 e.2 c s, ih cs _⟩

/-- What a load brings, up to RUNNING. -/
theorem loadAreas_brings (a : SerialAnswers) (s : State) : Brings a s (loadAreas a s) := by
  have lv : ∀ (x : Area) (l : Option ProtLevel) (u : State), loadLevel x l u = withLevel x l u := by
    intro x l u
    unfold loadLevel withLevel
    cases l <;> cases x <;> rfl
  have dgi : (s.cl.loadSel && deskGood a s) = true ↔ s.cl.loadSel = true ∧ AreaGood a a.desk s.serial.deskBad 16 1516 s := by
    rw [Bool.and_eq_true]; exact and_congr_right fun _ => areaGood_iff _ _ _ _ _ _
  have lgi : (s.cl.loadSel && layoutGood a s) = true ↔ s.cl.loadSel = true ∧ AreaGood a a.layout s.serial.layoutBad 1536 6652 s := by
    rw [Bool.and_eq_true]; exact and_congr_right fun _ => areaGood_iff _ _ _ _ _ _
  unfold loadAreas
  dsimp only
  rw [lv, lv]
  generalize (s.cl.loadSel && deskGood a s) = dg at dgi ⊢
  generalize (s.cl.loadSel && layoutGood a s) = lg at lgi ⊢
  have hp : ∀ c : Prop, (c ∧ ¬ (dg = true ∧ lg = true)) = (c ∧ (dg = false ∨ lg = false)) := by
    intro c; cases dg <;> cases lg <;> simp
  simp only [hp]
  exact ⟨dg, lg, _, _, _, _, _, dgi, lgi, rfl, rfl, rfl, entriesLoad _ _ _, entriesLoad _ _ _, rfl⟩

/-! ## The built-in defaults (R190) -/

/-- A load is under way with nothing in the tables. -/
structure Bare (s : State) : Prop where
  loading : s.cl.loader = .loading
  tables : TablesEmpty s

/-- The settings that have defaults: the DESK settings, the head records, the palette and the lamps. -/
def preset (s : State) : Desk × Vector HeadRecord 4 × Vector (Option Colour) 6 × Vector (Vector Behaviour 4) 5 :=
  (s.desk, s.cp.heads, s.cp.palette, s.pu.lamps)

theorem Bare.of {s t : State} (b : Bare s) (hl : t.cl.loader = s.cl.loader) (hc : t.cu.slots = s.cu.slots)
    (he : t.sr.entries = s.sr.entries) (hk : t.iu.hotkeys = s.iu.hotkeys) (ha : t.cp.active = s.cp.active)
    (hs : t.cp.staged = s.cp.staged) (hp : t.cp.presets = s.cp.presets) : Bare t :=
  ⟨hl.trans b.loading, hc.trans b.tables.slots, he.trans b.tables.entries, hk.trans b.tables.hotkeys, ha.trans b.tables.active,
    hs.trans b.tables.staged, hp.trans b.tables.presets⟩

theorem Bare.posts {s t : State} (b : Bare s) (k : Posts s t) : Bare t ∧ preset t = preset s :=
  ⟨b.of (by rw [k.cl]) (by rw [k.cu]) (by rw [k.sr]) (by rw [k.iu]) (by rw [k.cp]) (by rw [k.cp]) (by rw [k.cp]),
    by unfold preset; rw [k.desk, k.cp, k.pu]⟩

/-- A default entry loads into a bare state: it stays bare, and its settings change by a function. -/
def LoadsAs (e : Space × Nat) (f : Desk × Vector HeadRecord 4 × Vector (Option Colour) 6 × Vector (Vector Behaviour 4) 5 →
    Desk × Vector HeadRecord 4 × Vector (Option Colour) 6 × Vector (Vector Behaviour 4) 5) (s : State) : Prop :=
  Bare (loadEntry e.1 e.2 (some (defaultContent e.1 e.2)) s) ∧
    preset (loadEntry e.1 e.2 (some (defaultContent e.1 e.2)) s) = f (preset s)

theorem noSlot {s : State} (b : Bare s) (a : Byte) : slotOfAddr s a = none := by
  unfold slotOfAddr findIndex
  rw [List.find?_eq_none]
  intro i _
  rw [b.tables.slots]
  simp

theorem absenceExpired_bare (n : Fin 62) {s : State} (b : Bare s) : Bare (absenceExpired n s) ∧ preset (absenceExpired n s) = preset s := by
  unfold absenceExpired nodeIsAbsent
  split
  · exact ⟨b.of rfl rfl rfl rfl rfl rfl rfl, rfl⟩
  · rename_i m hm
    dsimp only
    have e : slotOfAddr ((s.setRf { s.rf with presence := s.rf.presence.set n { s.rf.presence[n] with present := false } }).setCu
        { s.cu with view := s.cu.view.set m false }) (entryAddress n) = none := noSlot (b.of rfl rfl rfl rfl rfl rfl rfl) _
    have e2 : slotOfAddr ((s.setRf { s.rf with presence := s.rf.presence.set n { s.rf.presence[n] with present := false } }).setCu
        { (s.setRf { s.rf with presence := s.rf.presence.set n { s.rf.presence[n] with present := false } }).cu with
          view := (s.setRf { s.rf with presence := s.rf.presence.set n { s.rf.presence[n] with present := false } }).cu.view.set m false })
        (entryAddress n) = none := e
    rw [e2]
    exact ⟨b.of rfl rfl rfl rfl rfl rfl rfl, rfl⟩

theorem applyAbsence_bare {s : State} (b : Bare s) : Bare (applyAbsence s) ∧ preset (applyAbsence s) = preset s := by
  unfold applyAbsence
  generalize List.finRange 62 = l
  induction l generalizing s with
  | nil => exact ⟨b, rfl⟩
  | cons n l ih =>
    rw [List.foldl_cons]
    split
    · obtain ⟨b1, e1⟩ := absenceExpired_bare n b
      obtain ⟨b2, e2⟩ := ih b1
      exact ⟨b2, e2.trans e1⟩
    · exact ih b

theorem applyEnergyReset_bare {s : State} (b : Bare s) : Bare (applyEnergyReset s) ∧ preset (applyEnergyReset s) = preset s := by
  have k (p : Port) {u : State} (h : Bare u) : Bare (silenceExpired p u) ∧ preset (silenceExpired p u) = preset u := by
    unfold silenceExpired
    cases p <;> dsimp only <;> split <;> exact ⟨h.of rfl rfl rfl rfl rfl rfl rfl, rfl⟩
  have a (p : Port) (c : State → Prop) [∀ u, Decidable (c u)] {u : State} (h : Bare u) :
      Bare (if c u then silenceExpired p u else u) ∧ preset (if c u then silenceExpired p u else u) = preset u := by
    split
    · exact k p h
    · exact ⟨h, rfl⟩
  obtain ⟨b1, e1⟩ := a .west (fun u => u.desk.energyReset * 1000 ≤ u.wlp.silence.getD 0) b
  obtain ⟨b2, e2⟩ := a .east (fun u => u.desk.energyReset * 1000 ≤ u.elp.silence.getD 0) b1
  exact ⟨b2, e2.trans e1⟩

/-- What the default of a DESK entry does to the settings. -/
def deskStep (i : Nat) (d : Desk × Vector HeadRecord 4 × Vector (Option Colour) 6 × Vector (Vector Behaviour 4) 5) :
    Desk × Vector HeadRecord 4 × Vector (Option Colour) 6 × Vector (Vector Behaviour 4) 5 :=
  match i with
  | 0 => ({ d.1 with rate := .hz60 }, d.2)
  | 1 => (d.1, d.2.1.set 0 (defaultHead 0), d.2.2)
  | 2 => (d.1, d.2.1.set 1 (defaultHead 1), d.2.2)
  | 3 => (d.1, d.2.1.set 2 (defaultHead 2), d.2.2)
  | 4 => (d.1, d.2.1.set 3 (defaultHead 3), d.2.2)
  | 5 => (d.1, d.2.1, d.2.2.1.set 0 (some 0xFFB000#24), d.2.2.2)
  | 6 => (d.1, d.2.1, d.2.2.1.set 1 (some 0xE02020#24), d.2.2.2)
  | 7 => (d.1, d.2.1, d.2.2.1.set 2 (some 0x20C040#24), d.2.2.2)
  | 8 => (d.1, d.2.1, d.2.2.1.set 3 (some 0x2060E0#24), d.2.2.2)
  | 9 => (d.1, d.2.1, d.2.2.1.set 4 (some 0x808080#24), d.2.2.2)
  | 10 => (d.1, d.2.1, d.2.2.1.set 5 none, d.2.2.2)
  | 11 => ({ d.1 with guard := 0 }, d.2)
  | 12 => ({ d.1 with standby := 0 }, d.2)
  | 13 => ({ d.1 with downshift := 4 }, d.2)
  | 14 => ({ d.1 with energyReset := 4 }, d.2)
  | 15 => ({ d.1 with beaconPeriod := 10 }, d.2)
  | 16 => ({ d.1 with absence := 1000 }, d.2)
  | 17 => ({ d.1 with priority := 128#8 }, d.2)
  | 18 => ({ d.1 with claimTimeout := 200 }, d.2)
  | 19 => ({ d.1 with noticeInterval := 100 }, d.2)
  | 20 => ({ d.1 with noticeTarget := 0 }, d.2)
  | 21 => ({ d.1 with authority := 0 }, d.2)
  | 22 => ({ d.1 with seed := builtinSeed }, d.2)
  | _ => d

/-- The default head records loaded before the one of head `h` leave it room. -/
theorem defaultHead_accepted (h : Fin 4) {s : State} (b : Bare s) (k : ∀ j : Fin 4, j < h → s.cp.heads[j] = defaultHead j) :
    writeEntry true 0 .desk (h.val + 1) (headBytes (defaultHead h)) s =
      (none, s.setCp { s.cp with heads := s.cp.heads.set h (defaultHead h) }) := by
  have w : writeEntry true 0 .desk (h.val + 1) (headBytes (defaultHead h)) s = writeHead true h (defaultHead h) s := by
    obtain ⟨i, hi⟩ := h
    have p : ∀ h : Fin 4, parseHead (headBytes (defaultHead h)) = some (defaultHead h) := by decide
    obtain rfl | rfl | rfl | rfl : i = 0 ∨ i = 1 ∨ i = 2 ∨ i = 3 := by omega
    · show writeHeadEntry true 0 (headBytes (defaultHead 0)) s = writeHead true 0 (defaultHead 0) s
      unfold writeHeadEntry; rw [p]
    · show writeHeadEntry true 1 (headBytes (defaultHead 1)) s = writeHead true 1 (defaultHead 1) s
      unfold writeHeadEntry; rw [p]
    · show writeHeadEntry true 2 (headBytes (defaultHead 2)) s = writeHead true 2 (defaultHead 2) s
      unfold writeHeadEntry; rw [p]
    · show writeHeadEntry true 3 (headBytes (defaultHead 3)) s = writeHead true 3 (defaultHead 3) s
      unfold writeHeadEntry; rw [p]
  have r : headInRange (defaultHead h) = true := (by decide : ∀ h : Fin 4, headInRange (defaultHead h) = true) h
  have o : overlaps true h (defaultHead h) s = false := by
    unfold overlaps
    rw [Bool.and_eq_false_iff, List.any_eq_false]
    refine .inr fun j _ x => ?_
    rw [if_pos rfl, Bool.and_eq_true, Bool.and_eq_true, decide_eq_true_eq] at x
    rw [k j x.1.1] at x
    have : ∀ h j : Fin 4, j < h → rectsMeet (defaultHead h) (defaultHead j) = false := by decide
    rw [this h j x.1.1] at x
    cases x.2
  have e : headWindows h s = [] := by
    unfold headWindows
    rw [b.tables.active, b.tables.staged, b.tables.presets]
    simp
  rw [w]
  unfold writeHead headRefusal
  rw [if_neg (by simp), if_neg (by simp [r]), if_neg (by simp [o]), e]
  have hr : headReport (s.setCp { s.cp with heads := s.cp.heads.set h (defaultHead h) }) =
      s.setCp { s.cp with heads := s.cp.heads.set h (defaultHead h) } := by
    unfold headReport
    exact if_neg (by simp [running, b.loading])
  show (none, storeHead h (defaultHead h) s) = _
  unfold storeHead
  dsimp only
  rw [hr, ite_self]

theorem loadDesk_default (i : Nat) (hi : i < 23) {s : State} (b : Bare s)
    (k : ∀ h j : Fin 4, i = h.val + 1 → j < h → s.cp.heads[j] = defaultHead j) : LoadsAs (.desk, i) (deskStep i) s := by
  have head : ∀ h : Fin 4, i = h.val + 1 → loadEntry .desk i (some (headBytes (defaultHead h))) s =
      s.setCp { s.cp with heads := s.cp.heads.set h (defaultHead h) } := by
    intro h e
    show (match writeEntry true 0 .desk i (headBytes (defaultHead h)) s with
      | (none, t) => t | (some _, t) => fallbackEntry .desk i (raise .loadFault t)) = _
    rw [e, defaultHead_accepted h b fun j hj => k h j e hj]
  have two : ∀ (lo hi i n : Nat) (f : Nat → State → State), (∀ bs, writeEntry true 0 .desk i bs s = numberSetting 2 lo hi bs f s) →
      defaultContent .desk i = be16 n → n < 65536 ∧ lo ≤ n ∧ n ≤ hi →
      loadEntry .desk i (some (defaultContent .desk i)) s = f n s := by
    intro lo hi i n f hf hc hn
    have e : at16 (be16 n) 0 = n := be16_toNat hn.1
    unfold loadEntry
    rw [hc]
    dsimp only
    rw [hf, show be16 n = [BitVec.ofNat 8 (n / 256), BitVec.ofNat 8 n] from rfl, numberSetting_two]
    rw [show at16 [BitVec.ofNat 8 (n / 256), BitVec.ofNat 8 n] 0 = n from e, if_pos hn.2]
  unfold LoadsAs
  obtain rfl | rfl | rfl | rfl | rfl | rfl | rfl | rfl | rfl | rfl | rfl | rfl | rfl | rfl | rfl | rfl | rfl | rfl | rfl | rfl |
      rfl | rfl | rfl : i = 0 ∨ i = 1 ∨ i = 2 ∨ i = 3 ∨ i = 4 ∨ i = 5 ∨ i = 6 ∨ i = 7 ∨ i = 8 ∨ i = 9 ∨ i = 10 ∨ i = 11 ∨ i = 12 ∨
      i = 13 ∨ i = 14 ∨ i = 15 ∨ i = 16 ∨ i = 17 ∨ i = 18 ∨ i = 19 ∨ i = 20 ∨ i = 21 ∨ i = 22 := by omega
  · exact ⟨b.of rfl rfl rfl rfl rfl rfl rfl, rfl⟩
  · rw [show defaultContent .desk 1 = headBytes (defaultHead 0) from rfl, head 0 rfl]
    exact ⟨b.of rfl rfl rfl rfl rfl rfl rfl, rfl⟩
  · rw [show defaultContent .desk 2 = headBytes (defaultHead 1) from rfl, head 1 rfl]
    exact ⟨b.of rfl rfl rfl rfl rfl rfl rfl, rfl⟩
  · rw [show defaultContent .desk 3 = headBytes (defaultHead 2) from rfl, head 2 rfl]
    exact ⟨b.of rfl rfl rfl rfl rfl rfl rfl, rfl⟩
  · rw [show defaultContent .desk 4 = headBytes (defaultHead 3) from rfl, head 3 rfl]
    exact ⟨b.of rfl rfl rfl rfl rfl rfl rfl, rfl⟩
  · exact ⟨b.of rfl rfl rfl rfl rfl rfl rfl, rfl⟩
  · exact ⟨b.of rfl rfl rfl rfl rfl rfl rfl, rfl⟩
  · exact ⟨b.of rfl rfl rfl rfl rfl rfl rfl, rfl⟩
  · exact ⟨b.of rfl rfl rfl rfl rfl rfl rfl, rfl⟩
  · exact ⟨b.of rfl rfl rfl rfl rfl rfl rfl, rfl⟩
  · exact ⟨b.of rfl rfl rfl rfl rfl rfl rfl, rfl⟩
  · exact ⟨b.of rfl rfl rfl rfl rfl rfl rfl, rfl⟩
  · show Bare (writeStandby 0 s) ∧ preset (writeStandby 0 s) = _
    unfold writeStandby
    split
    · rename_i h; exact ⟨b, by unfold preset deskStep; simp only [h]⟩
    · exact ⟨b.of rfl rfl rfl rfl rfl rfl rfl, rfl⟩
  · exact ⟨b.of rfl rfl rfl rfl rfl rfl rfl, rfl⟩
  · show Bare (writeEnergyReset 4 s) ∧ preset (writeEnergyReset 4 s) = _
    unfold writeEnergyReset
    split
    · rename_i h; exact ⟨b, by unfold preset deskStep; simp only [h]⟩
    · have := applyEnergyReset_bare (s := s.setDesk { s.desk with energyReset := 4 }) (b.of rfl rfl rfl rfl rfl rfl rfl)
      exact ⟨this.1, this.2⟩
  · exact ⟨b.of rfl rfl rfl rfl rfl rfl rfl, rfl⟩
  · rw [show loadEntry .desk 16 (some (defaultContent .desk 16)) s = writeAbsence 1000 s from two _ _ 16 1000 _ (fun _ => rfl) rfl (by decide)]
    show Bare (writeAbsence 1000 s) ∧ preset (writeAbsence 1000 s) = _
    unfold writeAbsence
    split
    · rename_i h; exact ⟨b, by unfold preset deskStep; simp only [h]⟩
    · have := applyAbsence_bare (s := s.setDesk { s.desk with absence := 1000 }) (b.of rfl rfl rfl rfl rfl rfl rfl)
      exact ⟨this.1, this.2⟩
  · exact ⟨b.of rfl rfl rfl rfl rfl rfl rfl, rfl⟩
  · rw [show loadEntry .desk 18 (some (defaultContent .desk 18)) s = s.setDesk { s.desk with claimTimeout := 200 } from
      two _ _ 18 200 (fun n s => s.setDesk { s.desk with claimTimeout := n }) (fun _ => rfl) rfl (by decide)]
    exact ⟨b.of rfl rfl rfl rfl rfl rfl rfl, rfl⟩
  · rw [show loadEntry .desk 19 (some (defaultContent .desk 19)) s = writeNoticeInterval 100 s from two _ _ 19 100 _ (fun _ => rfl) rfl (by decide)]
    show Bare (writeNoticeInterval 100 s) ∧ preset (writeNoticeInterval 100 s) = _
    have c : Bare (s.setDesk { s.desk with noticeInterval := 100 }) := b.of rfl rfl rfl rfl rfl rfl rfl
    unfold writeNoticeInterval
    split
    · rename_i h; exact ⟨b, by unfold preset deskStep; simp only [h]⟩
    · unfold applyNoticeInterval
      split
      · split
        · unfold noticeExpired
          have := (c.of (t := (s.setDesk { s.desk with noticeInterval := 100 }).setMu
            { (s.setDesk { s.desk with noticeInterval := 100 }).mu with interval := none }) rfl rfl rfl rfl rfl rfl rfl).posts (tryNotice_posts _)
          exact ⟨this.1, this.2⟩
        · exact ⟨c, rfl⟩
      · exact ⟨c, rfl⟩
  · exact ⟨b.of rfl rfl rfl rfl rfl rfl rfl, rfl⟩
  · exact ⟨b.of rfl rfl rfl rfl rfl rfl rfl, rfl⟩
  · exact ⟨b.of rfl rfl rfl rfl rfl rfl rfl, rfl⟩

/-- The default contents of entries. -/
def contents (o : List (Space × Nat)) : List (Option (List Byte)) := o.map fun e => some (defaultContent e.1 e.2)

theorem loadEntries_append (o p : List (Space × Nat)) (s : State) :
    loadEntries (o ++ p) (contents (o ++ p)) s = loadEntries p (contents p) (loadEntries o (contents o) s) := by
  induction o generalizing s with
  | nil => rfl
  | cons e o ih => exact ih _

theorem loadEntries_one (e : Space × Nat) (s : State) :
    loadEntries [e] (contents [e]) s = loadEntry e.1 e.2 (some (defaultContent e.1 e.2)) s := by
  show loadEntries [] [] _ = _
  rfl

/-- Entries of a space, in order, whose defaults load as given. -/
theorem indices_load (sp : Space) (f : Nat → Desk × Vector HeadRecord 4 × Vector (Option Colour) 6 × Vector (Vector Behaviour 4) 5 →
    Desk × Vector HeadRecord 4 × Vector (Option Colour) 6 × Vector (Vector Behaviour 4) 5) (n : Nat) {s : State} (b : Bare s)
    (h : ∀ i < n, ∀ u, Bare u → preset u = (List.range i).foldl (fun d j => f j d) (preset s) → LoadsAs (sp, i) (f i) u) :
    Bare (loadEntries (indices sp n) (contents (indices sp n)) s) ∧
      preset (loadEntries (indices sp n) (contents (indices sp n)) s) = (List.range n).foldl (fun d j => f j d) (preset s) := by
  induction n with
  | zero => exact ⟨b, rfl⟩
  | succ n ih =>
    obtain ⟨b1, e1⟩ := ih fun i hi => h i (by omega)
    have e : indices sp (n + 1) = indices sp n ++ [(sp, n)] := by
      unfold indices; rw [List.range_succ, List.map_append]; rfl
    rw [e, loadEntries_append, loadEntries_one, List.range_succ, List.foldl_append]
    obtain ⟨b2, e2⟩ := h n (by omega) _ b1 e1
    exact ⟨b2, by rw [e2, e1]; rfl⟩

/-- Entries of a space whose defaults change no setting. -/
theorem indices_same (sp : Space) (n : Nat) {s : State} (b : Bare s) (h : ∀ i < n, ∀ u, Bare u → LoadsAs (sp, i) id u) :
    Bare (loadEntries (indices sp n) (contents (indices sp n)) s) ∧
      preset (loadEntries (indices sp n) (contents (indices sp n)) s) = preset s := by
  obtain ⟨a, c⟩ := indices_load sp (fun _ d => d) n b fun i hi u hu _ => h i hi u hu
  refine ⟨a, c.trans ?_⟩
  induction List.range n with
  | nil => rfl
  | cons _ _ ih => exact ih

/-- A space whose entries change no setting by their default. -/
theorem entry_same (sp : Space) (i : Nat) (hs : sp = .sources ∨ sp = .streams ∨ sp = .hotkeys ∨ sp = .presets ∨ sp = .staged)
    (hi : i < spaceSize sp) (u : State) (b : Bare u) : LoadsAs (sp, i) id u := by
  unfold LoadsAs
  rcases hs with rfl | rfl | rfl | rfl | rfl <;> simp only [spaceSize] at hi
  · have e : loadEntry .sources i (some []) u = u := by
      unfold loadEntry writeEntry writeSlotEntry writeSlot
      dsimp only
      rw [dif_pos hi, if_pos rfl]
      have : u.cu.slots[(⟨i, hi⟩ : Fin 16)] = none := by rw [b.tables.slots]; simp
      rw [this]
    show Bare (loadEntry .sources i (some []) u) ∧ _
    rw [show loadEntry .sources i (some (defaultContent .sources i)) u = u from e, e]
    exact ⟨b, rfl⟩
  · have e : loadEntry .streams i (some []) u = u := by
      unfold loadEntry writeEntry writeStream
      dsimp only
      rw [dif_pos hi, if_pos rfl]
      have : u.sr.entries[(⟨i, hi⟩ : Fin 32)] = none := by rw [b.tables.entries]; simp
      rw [this]
    show Bare (loadEntry .streams i (some []) u) ∧ _
    rw [show loadEntry .streams i (some (defaultContent .streams i)) u = u from e, e]
    exact ⟨b, rfl⟩
  · have e : loadEntry .hotkeys i (some []) u = u.setIu { u.iu with hotkeys := u.iu.hotkeys.set i none } := by
      unfold loadEntry writeEntry writeHotKey
      dsimp only
      rw [dif_pos hi]
    have h : u.iu.hotkeys.set i none = u.iu.hotkeys := by
      rw [b.tables.hotkeys]; ext j hj; simp
    show Bare (loadEntry .hotkeys i (some []) u) ∧ _
    rw [show loadEntry .hotkeys i (some (defaultContent .hotkeys i)) u = _ from e, e]
    exact ⟨b.of rfl rfl rfl h rfl rfl rfl, rfl⟩
  · have e : loadEntry .presets i (some [0]) u = u.setCp { u.cp with presets := u.cp.presets.set i [] } := by
      unfold loadEntry writeEntry writePreset
      dsimp only
      rw [dif_pos hi]
      rfl
    have h : u.cp.presets.set i [] = u.cp.presets := by
      rw [b.tables.presets]; ext j hj; simp
    show Bare (loadEntry .presets i (some [0]) u) ∧ _
    rw [show loadEntry .presets i (some (defaultContent .presets i)) u = _ from e, e]
    exact ⟨b.of rfl rfl rfl rfl rfl rfl h, rfl⟩
  · have h : u.cp.staged.set i [] = u.cp.staged := by
      rw [b.tables.staged]; ext j hj; simp
    show Bare (loadEntry .staged i (some [0]) u) ∧ preset (loadEntry .staged i (some [0]) u) = _
    by_cases hp : u.cp.pending[(⟨i, hi⟩ : Fin 4)] = true
    · have e : loadEntry .staged i (some [0]) u = raise .loadFault u := by
        unfold loadEntry writeEntry writeStaged
        dsimp only
        rw [dif_pos hi, if_pos hp]
        rfl
      rw [e]
      exact b.posts (raise_posts _ _)
    · have e : loadEntry .staged i (some [0]) u = u.setCp { u.cp with staged := u.cp.staged.set i [] } := by
        unfold loadEntry writeEntry writeStaged
        dsimp only
        rw [dif_pos hi, if_neg hp]
        rfl
      rw [e]
      exact ⟨b.of rfl rfl rfl rfl rfl h rfl, rfl⟩

/-- What the default of a lamp entry does to the settings. -/
def lampStep (i : Nat) (d : Desk × Vector HeadRecord 4 × Vector (Option Colour) 6 × Vector (Vector Behaviour 4) 5) :
    Desk × Vector HeadRecord 4 × Vector (Option Colour) 6 × Vector (Vector Behaviour 4) 5 :=
  if h : i < 5 then (d.1, d.2.1, d.2.2.1, d.2.2.2.set i (defaultLamp ⟨i, h⟩)) else d

/-- The DESK area's defaults, loaded into a bare state. -/
theorem deskArea_default {s : State} (b : Bare s) :
    Bare (loadEntries deskOrder (contents deskOrder) s) ∧ preset (loadEntries deskOrder (contents deskOrder) s) =
      (deskDefault, Vector.ofFn defaultHead, defaultPalette, Vector.ofFn defaultLamp) := by
  unfold deskOrder
  rw [loadEntries_append, loadEntries_append, loadEntries_append, loadEntries_append]
  obtain ⟨b1, e1⟩ := indices_load .desk deskStep 23 b fun i hi u hu he => by
    refine loadDesk_default i hi hu fun h j e hj => ?_
    have e2 : u.cp.heads = ((List.range i).foldl (fun d j => deskStep j d) (preset s)).2.1 := by rw [← he]; rfl
    rw [e2, e]
    obtain ⟨h, hh⟩ := h
    obtain ⟨j, hj'⟩ := j
    have hj : j < h := hj
    obtain rfl | rfl | rfl | rfl : h = 0 ∨ h = 1 ∨ h = 2 ∨ h = 3 := by omega
    · omega
    · obtain rfl : j = 0 := by omega
      simp [List.range_succ, deskStep, preset]
    · obtain rfl | rfl : j = 0 ∨ j = 1 := by omega
      all_goals simp [List.range_succ, deskStep, preset]
    · obtain rfl | rfl | rfl : j = 0 ∨ j = 1 ∨ j = 2 := by omega
      all_goals simp [List.range_succ, deskStep, preset]
  generalize loadEntries (indices .desk 23) _ s = s1 at b1 e1 ⊢
  obtain ⟨b2, e2⟩ := indices_same .sources 16 b1 fun i hi u hu => entry_same .sources i (by simp) hi u hu
  generalize loadEntries (indices .sources 16) _ s1 = s2 at b2 e2 ⊢
  obtain ⟨b3, e3⟩ := indices_same .streams 32 b2 fun i hi u hu => entry_same .streams i (by simp) hi u hu
  generalize loadEntries (indices .streams 32) _ s2 = s3 at b3 e3 ⊢
  obtain ⟨b4, e4⟩ := indices_same .hotkeys 16 b3 fun i hi u hu => entry_same .hotkeys i (by simp) hi u hu
  generalize loadEntries (indices .hotkeys 16) _ s3 = s4 at b4 e4 ⊢
  obtain ⟨b5, e5⟩ := indices_load .lamps lampStep 5 b4 fun i hi u hu _ => by
    have e : loadEntry .lamps i (some (defaultContent .lamps i)) u = u.setPu { u.pu with lamps := u.pu.lamps.set i (defaultLamp ⟨i, hi⟩) } := by
      show (match writeEntry true 0 .lamps i (defaultContent .lamps i) u with
        | (none, t) => t | (some _, t) => fallbackEntry .lamps i (raise .loadFault t)) = _
      rw [defaultLamp_accepted ⟨i, hi⟩ u]
    unfold LoadsAs
    dsimp only
    rw [e]
    refine ⟨hu.of rfl rfl rfl rfl rfl rfl rfl, ?_⟩
    unfold lampStep
    rw [dif_pos hi]
    rfl
  refine ⟨b5, ?_⟩
  rw [e5, e4, e3, e2, e1]
  generalize preset s = d
  obtain ⟨d, hs, ps, ls⟩ := d
  simp only [List.range_succ, List.range_zero, List.nil_append, List.foldl_append, List.foldl_cons, List.foldl_nil, deskStep, lampStep,
    Nat.reduceLT, dite_true]
  refine Prod.ext rfl (Prod.ext ?_ (Prod.ext ?_ ?_))
  · ext i hi
    obtain rfl | rfl | rfl | rfl : i = 0 ∨ i = 1 ∨ i = 2 ∨ i = 3 := by omega
    all_goals simp
  · ext i hi
    obtain rfl | rfl | rfl | rfl | rfl | rfl : i = 0 ∨ i = 1 ∨ i = 2 ∨ i = 3 ∨ i = 4 ∨ i = 5 := by omega
    all_goals simp [defaultPalette]
  · ext i hi
    obtain rfl | rfl | rfl | rfl | rfl : i = 0 ∨ i = 1 ∨ i = 2 ∨ i = 3 ∨ i = 4 := by omega
    all_goals simp

theorem layoutArea_default {s : State} (b : Bare s) :
    Bare (loadEntries layoutOrder (contents layoutOrder) s) ∧ preset (loadEntries layoutOrder (contents layoutOrder) s) = preset s := by
  unfold layoutOrder
  rw [loadEntries_append]
  obtain ⟨b1, e1⟩ := indices_same .presets 32 b fun i hi u hu => entry_same .presets i (by simp) hi u hu
  generalize loadEntries (indices .presets 32) _ s = s1 at b1 e1 ⊢
  obtain ⟨b2, e2⟩ := indices_same .staged 4 b1 fun i hi u hu => entry_same .staged i (by simp) hi u hu
  exact ⟨b2, e2.trans e1⟩

/-- The lists of a load leave the protection levels alone. -/
theorem lists_levels (o : List (Space × Nat)) (ho : ∀ e ∈ o, e.1 = .presets ∨ e.1 = .staged) (cs : List (Option (List Byte)))
    (s : State) : (loadEntries o cs s).mu.configLevel = s.mu.configLevel := by
  have r : ∀ u : State, (raise .loadFault u).mu.configLevel = u.mu.configLevel := fun u => (raise_posts _ u).configLevel
  induction o generalizing cs s with
  | nil => rfl
  | cons e o ih =>
    cases cs with
    | nil => rfl
    | cons c cs =>
      refine (ih (fun x hx => ho x (List.mem_cons_of_mem _ hx)) cs _).trans ?_
      have w : ∀ bs, (writeEntry true 0 e.1 e.2 bs s).2.mu = s.mu := by
        intro bs
        unfold writeEntry
        rcases ho e (by simp) with h | h <;> rw [h] <;> dsimp only <;> split
        · unfold writePreset; (repeat' split) <;> rfl
        · rfl
        · unfold writeStaged; (repeat' split) <;> rfl
        · rfl
      have f : ∀ u, fallbackEntry e.1 e.2 u = u := by
        intro u
        rcases ho e (by simp) with h | h <;> rw [h] <;> rfl
      unfold loadEntry
      cases c with
      | none => rw [f]; exact r s
      | some bs =>
        dsimp only
        have w := w bs
        split <;> rename_i t ht <;> rw [ht] at w
        · rw [w]
        · rw [f, r, w]

theorem layoutOrder_lists : ∀ e ∈ layoutOrder, e.1 = .presets ∨ e.1 = .staged := by
  intro e he
  unfold layoutOrder indices at he
  rcases List.mem_append.1 he with he | he <;> obtain ⟨_, -, rfl⟩ := List.mem_map.1 he
  · exact .inl rfl
  · exact .inr rfl

/-- A level loaded keeps a bare state bare, with its settings, and stands. -/
theorem loadLevel_bare (a : Area) (u : State) (b : Bare u) : Bare (loadLevel a (some .open) u) ∧
    preset (loadLevel a (some .open) u) = preset u ∧
    (match a with | .config => (loadLevel a (some .open) u).mu.configLevel = .open
                  | .layout => (loadLevel a (some .open) u).mu.configLevel = u.mu.configLevel ∧
                      (loadLevel a (some .open) u).mu.layoutLevel = .open) := by
  cases a
  · exact ⟨b.of rfl rfl rfl rfl rfl rfl rfl, rfl, rfl⟩
  · exact ⟨b.of rfl rfl rfl rfl rfl rfl rfl, rfl, rfl, rfl⟩

/-- The defaults of both areas, loaded into a bare state. -/
theorem bothAreas_default (v : Cp → Cp) (hv : ∀ c, (v c).heads = c.heads ∧ (v c).palette = c.palette ∧ (v c).staged = c.staged ∧
    (v c).presets = c.presets) {s s1 s2 s3 s4 : State} (b : Bare s) (h1 : loadEntries deskOrder (contents deskOrder) s = s1)
    (h2 : loadLevel .config (some .open) s1 = s2) (h3 : loadEntries layoutOrder (contents layoutOrder) s2 = s3)
    (h4 : loadLevel .layout (some .open) s3 = s4) : Defaults (s4.setCp (v s4.cp)) := by
  obtain ⟨b1, e1⟩ := deskArea_default b
  rw [h1] at b1 e1
  obtain ⟨b2, e2, l2⟩ := loadLevel_bare .config s1 b1
  rw [h2] at b2 e2
  obtain ⟨b3, e3⟩ := layoutArea_default b2
  have l3 := lists_levels layoutOrder layoutOrder_lists (contents layoutOrder) s2
  rw [h3] at b3 e3 l3
  obtain ⟨b4, e4, l4, l5⟩ := loadLevel_bare .layout s3 b3
  rw [h4] at b4 e4 l4 l5
  dsimp only at l2
  rw [h2] at l2
  have p := ((e4.trans e3).trans e2).trans e1
  obtain ⟨p1, p⟩ := Prod.mk.inj p
  obtain ⟨p2, p⟩ := Prod.mk.inj p
  obtain ⟨p3, p4⟩ := Prod.mk.inj p
  obtain ⟨v1, v2, v3, v4⟩ := hv s4.cp
  exact ⟨p1, v1.trans p2, v2.trans p3, p4, b4.tables.slots, b4.tables.entries, b4.tables.hotkeys, v3.trans b4.tables.staged,
    v4.trans b4.tables.presets, (l4.trans l3).trans l2, l5⟩

/-- A load into a bare state from no good area ends with the built-in defaults. -/
theorem loadAreas_default (a : SerialAnswers) {s : State} (b : Bare s)
    (h : s.cl.loadSel = false ∨ deskGood a s = false ∧ layoutGood a s = false) : Defaults (loadAreas a s) := by
  have hd : (s.cl.loadSel && deskGood a s) = false := by rcases h with h | h <;> simp [h]
  have hl : (s.cl.loadSel && layoutGood a s) = false := by rcases h with h | h <;> simp [h]
  unfold loadAreas
  dsimp only
  rw [hd, hl, if_neg Bool.false_ne_true, if_neg Bool.false_ne_true]
  have hc : ∀ o, (defaultImage o).entries = contents o := fun _ => rfl
  have hv : ∀ o, (defaultImage o).level = some .open := fun _ => rfl
  rw [hc, hc, hv, hv]
  have c : ∀ (d l : Validity) (p : Prop) [Decidable p], Bare (if p then raise .loadFault (s.setCl { s.cl with deskFlag := d, layoutFlag := l })
      else s.setCl { s.cl with deskFlag := d, layoutFlag := l }) := by
    intro d l p _
    have k : Bare (s.setCl { s.cl with deskFlag := d, layoutFlag := l }) := b.of rfl rfl rfl rfl rfl rfl rfl
    split
    · exact (k.posts (raise_posts _ _)).1
    · exact k
  exact bothAreas_default (fun c => { c with pending := Vector.replicate 4 true }) (fun _ => ⟨rfl, rfl, rfl, rfl⟩) (c _ _ _) rfl rfl rfl rfl

/-! ## The entry to RUNNING (R192) -/

/-- What the entry to RUNNING keeps of what the load brought. -/
structure Runs (s t : State) : Prop where
  desk : t.desk = s.desk
  cu : t.cu = s.cu
  hotkeys : t.iu.hotkeys = s.iu.hotkeys
  heads : t.cp.heads = s.cp.heads
  palette : t.cp.palette = s.cp.palette
  staged : t.cp.staged = s.cp.staged
  presets : t.cp.presets = s.cp.presets
  lamps : t.pu.lamps = s.pu.lamps
  entries : ∀ i : Fin 32, t.sr.entries[i].map (·.content) = s.sr.entries[i].map (·.content)
  levels : t.mu.configLevel = s.mu.configLevel ∧ t.mu.layoutLevel = s.mu.layoutLevel
  events : ∀ m : EventSet, s.mu.events &&& m ≠ 0 → t.mu.events &&& m ≠ 0
  flags : t.cl.deskFlag = s.cl.deskFlag ∧ t.cl.layoutFlag = s.cl.layoutFlag
  serial : t.serial = s.serial

theorem Runs.refl (s : State) : Runs s s := ⟨rfl, rfl, rfl, rfl, rfl, rfl, rfl, rfl, fun _ => rfl, ⟨rfl, rfl⟩, fun _ => id, ⟨rfl, rfl⟩, rfl⟩

theorem Runs.trans {s t u : State} (h : Runs s t) (k : Runs t u) : Runs s u :=
  ⟨k.desk.trans h.desk, k.cu.trans h.cu, k.hotkeys.trans h.hotkeys, k.heads.trans h.heads, k.palette.trans h.palette,
    k.staged.trans h.staged, k.presets.trans h.presets, k.lamps.trans h.lamps, fun i => (k.entries i).trans (h.entries i),
    ⟨k.levels.1.trans h.levels.1, k.levels.2.trans h.levels.2⟩, fun m x => k.events m (h.events m x),
    ⟨k.flags.1.trans h.flags.1, k.flags.2.trans h.flags.2⟩, k.serial.trans h.serial⟩

/-- A part that moves nothing but a link port, the ring forwarder, the line's symbols and what these do not speak of. -/
theorem Runs.plain {s t : State} (c : Calm s t) (hm : t.mu = s.mu) (hl : t.cl = s.cl) (hs : t.serial = s.serial) : Runs s t :=
  ⟨c.desk, c.cu, by rw [c.iu], by rw [c.cp], by rw [c.cp], by rw [c.cp], by rw [c.cp], by rw [c.pu], fun i => by rw [c.sr],
    by rw [hm]; exact ⟨rfl, rfl⟩, by rw [hm]; exact fun _ => id, by rw [hl]; exact ⟨rfl, rfl⟩, hs⟩

theorem Posts.runs {s t : State} (k : Posts s t) (ev : ∀ m : EventSet, s.mu.events &&& m ≠ 0 → t.mu.events &&& m ≠ 0) : Runs s t :=
  ⟨k.desk, k.cu, by rw [k.iu], by rw [k.cp], by rw [k.cp], by rw [k.cp], by rw [k.cp], by rw [k.pu], fun i => by rw [k.sr],
    ⟨k.configLevel, k.layoutLevel⟩, ev, by rw [k.cl]; exact ⟨rfl, rfl⟩, k.serial⟩

theorem raise_runs (e : EventKind) (s : State) : Runs s (raise e s) :=
  (raise_posts e s).runs fun m x => by rw [raise_events]; exact pending_or _ _ _ x

theorem endClosure_runs (s : State) : Runs s (endClosure s) :=
  .plain (endClosure_calm s) (by unfold endClosure; split <;> rfl) (by unfold endClosure; split <;> rfl) (by unfold endClosure; split <;> rfl)

theorem afterLeavingUp_runs (s : State) : Runs s (afterLeavingUp s) := by
  have k := ((endClosure_runs s).trans (.plain (setRf_calm (endClosure s) { (endClosure s).rf with ring := derivedRing (endClosure s) })
    rfl rfl rfl)).trans (raise_runs .linkDown _)
  unfold afterLeavingUp
  dsimp only
  split
  · exact k.trans (raise_runs _ _)
  · exact k

theorem elpLeft_runs (s : State) : Runs s (elpLeft s) := by
  have k : Runs s (egressLost (s.setElp { s.elp with linkDown := bump s.elp.linkDown })) := by
    unfold egressLost
    exact .plain ((setElp_calm s _ (.inl (by rfl))).trans (setRf_calm _ _)) rfl rfl rfl
  unfold elpLeft
  dsimp only
  refine .trans ?_ (afterLeavingUp_runs _)
  split
  · refine k.trans ?_
    exact ⟨rfl, rfl, rfl, rfl, rfl, rfl, rfl, rfl, fun _ => rfl, ⟨rfl, rfl⟩, fun _ => id, ⟨rfl, rfl⟩, rfl⟩
  · exact k

theorem wlpLeft_runs (rxMid : Bool) (s : State) : Runs s (wlpLeft rxMid s) :=
  (Runs.plain (setWlp_calm s { s.wlp with linkDown := bump s.wlp.linkDown, truncated := if rxMid then bump s.wlp.truncated else s.wlp.truncated })
    rfl rfl rfl).trans (afterLeavingUp_runs _)

theorem ownWordChange_runs (rxMid : Bool) (tag : Byte) (s : State) : Runs s (ownWordChange rxMid tag s) := by
  have sym : ∀ (p : Port) (l : List LineSymbol) (u : State), Runs u (sendSymbols p l u) := fun p l u =>
    .plain (sendSymbols_calm p l u) rfl rfl rfl
  have trial : ∀ u : State, Runs u (beginTrial u) := fun u => .plain (beginTrial_calm u) rfl rfl rfl
  have waits : ∀ u : State, Runs u (wlpWaits u) := fun u => .plain (wlpWaits_calm u) rfl rfl rfl
  have wmis : ∀ u : State, Runs u (wlpMismatch u) := fun u => .plain (wlpMismatch_calm u) rfl rfl rfl
  have emis : ∀ u : State, Runs u (elpMismatch u) := fun u => .plain (elpMismatch_calm u) rfl rfl rfl
  have w : ∀ u : State, Runs u (wlpOwnWord rxMid u) := by
    intro u
    unfold wlpOwnWord
    dsimp only
    split
    · exact .refl u
    · exact .refl u
    · exact .refl u
    · split
      · exact (sym _ _ u).trans (waits _)
      · exact ((sym _ _ u).trans (wmis _)).trans (raise_runs _ _)
    · split
      · exact ((sym _ _ u).trans (waits _)).trans (wlpLeft_runs _ _)
      · exact (((sym _ _ u).trans (wmis _)).trans (wlpLeft_runs _ _)).trans (raise_runs _ _)
    · split
      · exact (sym _ _ u).trans (waits _)
      · exact sym _ _ u
  have e : ∀ u : State, Runs u (elpOwnWord u) := by
    intro u
    unfold elpOwnWord
    dsimp only
    split
    · exact .refl u
    · exact .refl u
    · exact .refl u
    · split
      · exact (sym _ _ u).trans (trial _)
      · exact ((sym _ _ u).trans (emis _)).trans (raise_runs _ _)
    · split
      · exact ((sym _ _ u).trans (trial _)).trans (elpLeft_runs _)
      · exact (((sym _ _ u).trans (emis _)).trans (elpLeft_runs _)).trans (raise_runs _ _)
    · split
      · exact (sym _ _ u).trans (trial _)
      · exact sym _ _ u
  unfold ownWordChange
  split
  · exact .refl s
  · exact (w s).trans (e _)

theorem portsIntoService_runs (cold : Bool) (s : State) : Runs s (portsIntoService cold s) := by
  have k : ∀ (p : Port) (u : State), Runs u (enterService p u) := by
    intro p u
    refine .plain (enterService_calm p u) ?_ ?_ ?_ <;> unfold enterService <;> cases p <;> dsimp only <;> split <;> rfl
  unfold portsIntoService
  split
  · exact (k _ s).trans (k _ _)
  · exact .refl s

theorem startBeacons_runs (s : State) : Runs s (startBeacons s) := by
  refine (startBeacons_posts s).runs fun m x => ?_
  have : (startBeacons s).mu.events = s.mu.events := by
    unfold startBeacons beaconTick generateBeacon
    split
    · have k := offerInsertion_events ⟨beaconFrame s, false⟩ s
      dsimp only
      split <;> rename_i u hu <;> rw [hu] at k <;> exact k
    · rfl
  rw [this]; exact x

theorem makeDue_runs (s : State) : Runs s (makeDue s) := by
  unfold makeDue
  split
  · have k : Posts s (tryNotice (s.setMu { s.mu with due := true })) := .trans (by constructor <;> rfl) (tryNotice_posts _)
    exact k.runs fun m x => by rw [tryNotice_events]; exact x
  · exact .refl s

/-- A delivery of input that is a part of the operator's side. -/
theorem Delivers.runs {s t : State} (d : Delivers s t) (k : Keeps s t) : Runs s t :=
  ⟨k.same.desk, d.cu, d.hands.hotkeys, by rw [d.cp], by rw [d.cp], by rw [d.cp], by rw [d.cp], by rw [d.pu], fun i => by rw [k.same.sr],
    k.same.levels, k.events, by rw [k.same.cl]; exact ⟨rfl, rfl⟩, k.same.serial⟩

theorem swapEntry_runs (i : Fin 32) (s : State) : Runs s (swapEntry i s) := by
  have k : ∀ e e' : StreamEntry, s.sr.entries[i] = some e → e'.content = e.content → Runs s (setEntry i (some e') s) := by
    intro e e' he hc
    refine ⟨rfl, rfl, rfl, rfl, rfl, rfl, rfl, rfl, fun j => ?_, ⟨rfl, rfl⟩, fun _ => id, ⟨rfl, rfl⟩, rfl⟩
    show (s.sr.entries.set i (some e'))[j].map _ = _
    by_cases hj : j = i
    · subst hj
      rw [he]; simp [hc]
    · have : (i : Nat) ≠ j := fun h => hj (Fin.ext h.symm)
      simp [Vector.getElem_set_ne, this]
  unfold swapEntry
  split
  · rename_i e he
    split
    · dsimp only
      split
      · exact (k e { e with state := .live, buffers := e.buffers.map swapRoles, front := e.ready, ready := none, timer := some 0 } he
          rfl).trans (raise_runs _ _)
      · exact k e { e with buffers := e.buffers.map swapRoles, front := e.ready, ready := none } he rfl
    · exact .refl s
  · exact .refl s

theorem swapAll_runs (s : State) : Runs s (swapAll s) := by
  unfold swapAll
  generalize List.finRange 32 = l
  induction l generalizing s with
  | nil => exact .refl s
  | cons i l ih => exact (swapEntry_runs i s).trans (ih _)

/-- A part that moves of the compositor only the active lists, the pending flags, the raster and the picture. -/
theorem setCp_runs (s : State) (v : Cp) (h : v.heads = s.cp.heads) (p : v.palette = s.cp.palette) (a : v.staged = s.cp.staged)
    (b : v.presets = s.cp.presets) : Runs s (s.setCp v) :=
  ⟨rfl, rfl, rfl, h, p, a, b, rfl, fun _ => rfl, ⟨rfl, rfl⟩, fun _ => id, ⟨rfl, rfl⟩, rfl⟩

theorem boundary_runs (s : State) : Runs s (boundary s) := by
  have l : ∀ u : State, Runs u (latchAll u) := fun u => setCp_runs u _ rfl rfl rfl rfl
  have k : Runs s (latchAll (swapAll s)) := (swapAll_runs s).trans (l _)
  unfold boundary
  dsimp only
  generalize latchAll (swapAll s) = u at k ⊢
  have k := k.trans (setCp_runs u { u.cp with raster := nextPeriod u, picture := some (takePicture u) } rfl rfl rfl rfl)
  split
  · exact k.trans ((fuReevaluate_delivers (.refl _)).runs (fuReevaluate_keeps (.refl _)))
  · exact k

theorem startBlocks_runs (waits : Bool) (s : State) : Runs s (startBlocks waits s) := by
  have k := startBeacons_runs s
  unfold startBlocks
  dsimp only
  generalize startBeacons s = u at k ⊢
  have k := k.trans ((setCp_runs u { u.cp with raster := ⟨true, u.desk.rate, 0⟩ } rfl rfl rfl rfl).trans (boundary_runs _))
  generalize boundary (u.setCp { u.cp with raster := ⟨true, u.desk.rate, 0⟩ }) = v at k ⊢
  have p : Runs v (placePointer v) := by
    unfold placePointer
    split
    · exact .refl v
    · exact ⟨rfl, rfl, rfl, rfl, rfl, rfl, rfl, rfl, fun _ => rfl, ⟨rfl, rfl⟩, fun _ => id, ⟨rfl, rfl⟩, rfl⟩
  have r : ∀ w : State, Runs w (restartIdle w) := by
    intro w
    unfold restartIdle
    split <;> exact ⟨rfl, rfl, rfl, rfl, rfl, rfl, rfl, rfl, fun _ => rfl, ⟨rfl, rfl⟩, fun _ => id, ⟨rfl, rfl⟩, rfl⟩
  have k := (k.trans p).trans (r _)
  generalize restartIdle (placePointer v) = w at k ⊢
  have q : Runs w (w.setPu { w.pu with filter := none, run := 0, blink := some ⟨0, 0⟩ }) :=
    ⟨rfl, rfl, rfl, rfl, rfl, rfl, rfl, rfl, fun _ => rfl, ⟨rfl, rfl⟩, fun _ => id, ⟨rfl, rfl⟩, rfl⟩
  have k := k.trans q
  split
  · exact k.trans (makeDue_runs _)
  · exact k

/-- What a completed load keeps of what it brought. -/
theorem completeLoad_runs (a : SerialAnswers) (rxMid : Bool) (s : State) : Runs (loadAreas a s) (completeLoad a rxMid s) := by
  unfold completeLoad
  generalize loadAreas a s = u
  have c : Runs u ((u.setCl { u.cl with loader := .running, cold := false, seed := u.desk.seed }).setRf
      { u.rf with sol := 1, restart := true }) :=
    ⟨rfl, rfl, rfl, rfl, rfl, rfl, rfl, rfl, fun _ => rfl, ⟨rfl, rfl⟩, fun _ => id, ⟨rfl, rfl⟩, rfl⟩
  have k : Runs u (enterRunning rxMid u) := by
    unfold enterRunning
    dsimp only
    exact ((c.trans (ownWordChange_runs _ _ _)).trans (portsIntoService_runs _ _)).trans (startBlocks_runs _ _)
  exact k.trans ⟨rfl, rfl, rfl, rfl, rfl, rfl, rfl, rfl, fun _ => rfl, ⟨rfl, rfl⟩, fun _ => id, ⟨rfl, rfl⟩, rfl⟩

end Sys2Proof.Machine
end

