-- ==== Sys2Proof/Laws/LoadParts.lean ====
section
/-! SUPPORT. What a load leaves alone: the transmit side, the pending events, the power state, and the ports' states and energy. -/

namespace Sys2Proof.Machine

open Sys2Proof

/-- The power state, and the ports' states and energy, are as they were. -/
structure Rests (s t : State) : Prop where
  power : t.pu.power = s.pu.power
  west : t.wlp.state = s.wlp.state ∧ t.wlp.energy = s.wlp.energy
  east : t.elp.state = s.elp.state ∧ t.elp.energy = s.elp.energy

theorem Rests.refl (s : State) : Rests s s := ⟨rfl, ⟨rfl, rfl⟩, ⟨rfl, rfl⟩⟩

theorem Rests.trans {s t u : State} (h : Rests s t) (k : Rests t u) : Rests s u :=
  ⟨k.power.trans h.power, ⟨k.west.1.trans h.west.1, k.west.2.trans h.west.2⟩, ⟨k.east.1.trans h.east.1, k.east.2.trans h.east.2⟩⟩

theorem Rests.same {s t : State} (hp : t.pu = s.pu) (hw : t.wlp = s.wlp) (he : t.elp = s.elp) : Rests s t :=
  ⟨by rw [hp], by rw [hw]; exact ⟨rfl, rfl⟩, by rw [he]; exact ⟨rfl, rfl⟩⟩

theorem Posts.rests {s t : State} (h : Posts s t) : Rests s t := .same h.pu h.wlp h.elp

/-- A part of the operator's side that leaves the panel unit alone. -/
theorem Keeps.rests {s t : State} (h : Keeps s t) (hp : t.pu = s.pu) : Rests s t := .same hp h.same.wlp h.same.elp

theorem raise_rests (k : EventKind) (t : State) : Rests t (raise k t) := (raise_posts k t).rests

theorem fuReevaluate_rests (t : State) : Rests t (fuReevaluate t) :=
  (fuReevaluate_keeps (.refl t)).rests (fuReevaluate_delivers (.refl t)).pu

theorem claimReport_rests (x : Option (Fin 16)) (t : State) : Rests t (claimReport x t) :=
  (claimReport_keeps x (.refl t)).rests (claimReport_delivers x (.refl t)).pu

theorem beforeReplaced_pu (i : Fin 16) (k : Slot) (t : State) : (beforeReplaced i k t).pu = t.pu := by
  unfold beforeReplaced
  split
  · exact (queueRelease_iu _ _ _ _).2.2.1
  · rfl

theorem nodeIsAbsent_rests (a : Byte) (t : State) : Rests t (nodeIsAbsent a t) := by
  refine (nodeIsAbsent_keeps a (.refl t)).rests ?_
  cases hn : nodeIndex a with
  | none => unfold nodeIsAbsent; rw [hn]
  | some n => exact (nodeIsAbsent_view hn t).2

/-- A write of a directory slot leaves the panel unit alone. -/
theorem writeSlot_pu (i : Fin 16) (c : Option SlotContent) (t : State) : (writeSlot i c t).2.pu = t.pu := by
  have r : ∀ (p : Prop) [Decidable p] (u : State), (if p then raise .claimChange u else u).pu = u.pu := by
    intro p _ u
    split
    · exact (raise_posts _ _).pu
    · rfl
  have clear (k : Slot) : (clearSlot i k t).pu = t.pu := by
    rw [clearSlot_eq]
    exact (r _ _).trans (beforeReplaced_pu _ _ _)
  have move (k : Slot) (c : SlotContent) : (moveSlot i k c t).pu = t.pu := by
    rw [moveSlot_eq, (autoShare_pu _ _).1, (claimReport_delivers none (.refl _)).pu, (addressChangeReport_spec i _).2.1, r]
    exact beforeReplaced_pu _ _ _
  unfold writeSlot
  split
  · rfl
  · split
    · rfl
    · exact clear _
  · split
    · rfl
    · split
      · rfl
      · split
        · exact (autoShare_pu _ _).1
        · split
          · rfl
          · exact move _ _

theorem allocate_rests (n : Nat) (t : State) : Rests t (allocate n t) := by
  induction n generalizing t with
  | zero => exact .refl t
  | succ n ih =>
    unfold allocate
    split
    · dsimp only
      split
      · refine Rests.trans ?_ (ih _)
        exact .same rfl rfl rfl
      · exact .refl t
    · exact .refl t

theorem loadStream_rests (i : Fin 32) (c : StreamContent) (t : State) : Rests t (loadStream i c t) := by
  have k : Rests t (allocate allocBound (setEntry i (some (freshEntry c)) t)) :=
    (show Rests t (setEntry i (some (freshEntry c)) t) from .same rfl rfl rfl).trans (allocate_rests _ _)
  unfold loadStream
  dsimp only
  split
  · exact k.trans (raise_rests _ _)
  · exact k

theorem removeStream_rests (i : Fin 32) (e : StreamEntry) (t : State) : Rests t (removeStream i e t) := by
  have r : ∀ (b : Bool) (u : State), Rests u (removalReport b u) := by
    intro b u
    unfold removalReport
    split
    · exact fuReevaluate_rests u
    · exact .refl u
  have k : ∀ f : List Nat, Rests t ((setEntry i none t).setSr { (setEntry i none t).sr with free := f }) := fun _ => .same rfl rfl rfl
  unfold removeStream
  dsimp only
  split
  · exact ((k _).trans (r _ _)).trans (allocate_rests _ _)
  · exact (k _).trans (r _ _)

theorem staleExpired_rests (i : Fin 32) (t : State) : Rests t (staleExpired i t) := by
  unfold staleExpired
  split
  · split
    · exact (show Rests t (setEntry i _ t) from .same rfl rfl rfl).trans (raise_rests _ _)
    · exact .refl t
  · exact .refl t

theorem writeStream_rests (i : Fin 32) (bs : List Byte) (t : State) : Rests t (writeStream i bs t).2 := by
  unfold writeStream
  split
  · split
    · exact removeStream_rests _ _ _
    · exact .refl t
  · split
    · split
      · exact .refl t
      · split
        · unfold rewriteStream
          split
          · exact .refl t
          · split
            · exact (show Rests t (setEntry i _ t) from .same rfl rfl rfl).trans (staleExpired_rests _ _)
            · exact (removeStream_rests _ _ _).trans (loadStream_rests _ _ _)
        · exact loadStream_rests _ _ _
    · exact .refl t

/-! ## DESK entries -/

theorem foldl_rests {α : Type} (f : State → α → State) (hf : ∀ a t, Rests t (f t a)) (l : List α) (t : State) :
    Rests t (l.foldl f t) := by
  induction l generalizing t with
  | nil => exact .refl t
  | cons a l ih => exact (hf a t).trans (ih _)

theorem applyAbsence_rests (t : State) : Rests t (applyAbsence t) := by
  unfold applyAbsence
  refine foldl_rests _ (fun n u => ?_) _ t
  split
  · exact (show Rests u (u.setRf { u.rf with presence := u.rf.presence.set n { u.rf.presence[n] with present := false } }) from
      .same rfl rfl rfl).trans (nodeIsAbsent_rests _ _)
  · exact .refl u

theorem silenceExpired_rests (p : Port) (t : State) : Rests t (silenceExpired p t) := by
  unfold silenceExpired
  cases p <;> dsimp only <;> split <;> first | exact .refl t | exact ⟨rfl, ⟨rfl, rfl⟩, ⟨rfl, rfl⟩⟩

theorem applyEnergyReset_rests (t : State) : Rests t (applyEnergyReset t) := by
  have w (u : State) (p : Prop) [Decidable p] (x : Port) : Rests u (if p then silenceExpired x u else u) := by
    split
    · exact silenceExpired_rests _ _
    · exact .refl u
  exact (w t _ .west).trans (w _ _ .east)

theorem makeDue_rests (t : State) : Rests t (makeDue t) := by
  unfold makeDue
  split
  · exact (show Rests t (t.setMu { t.mu with due := true }) from .same rfl rfl rfl).trans (tryNotice_posts _).rests
  · exact .refl t

theorem applyNoticeInterval_rests (t : State) : Rests t (applyNoticeInterval t) := by
  have n : Rests t (noticeExpired t) := by
    unfold noticeExpired
    exact (show Rests t (t.setMu { t.mu with interval := none }) from .same rfl rfl rfl).trans (tryNotice_posts _).rests
  unfold applyNoticeInterval
  split
  · split
    · exact n
    · exact .refl t
  · exact .refl t

theorem settle_rests (ok : Bool) (f : State → State) (t : State) (h : Rests t (f t)) : Rests t (settle ok f t).2 := by
  unfold settle
  split
  · exact h
  · exact .refl t

theorem numberSetting_rests (w lo hi : Nat) (bs : List Byte) (f : Nat → State → State) (t : State) (h : ∀ n, Rests t (f n t)) :
    Rests t (numberSetting w lo hi bs f t).2 := by
  unfold numberSetting
  split
  · exact settle_rests _ _ _ (h _)
  · exact .refl t

theorem headReport_rests (t : State) : Rests t (headReport t) := by
  have c : Rests t (clampPointer t) := by
    unfold clampPointer
    (repeat' split) <;> exact .same rfl rfl rfl
  unfold headReport
  split
  · exact c.trans (fuReevaluate_rests _)
  · exact .refl t

theorem storeHead_rests (h : Fin 4) (r : HeadRecord) (t : State) : Rests t (storeHead h r t) := by
  have k : Rests t (t.setCp { t.cp with heads := t.cp.heads.set h r }) := .same rfl rfl rfl
  unfold storeHead
  dsimp only
  split
  · exact k.trans (headReport_rests _)
  · exact k

/-- In LOADING a standby delay moves no timer and no power state (R160). -/
theorem writeStandby_rests (n : Nat) (t : State) (h : t.cl.loader = .loading) : Rests t (writeStandby n t) := by
  have nr : running (t.setDesk { t.desk with standby := n }) = false := by simp [running, h]
  unfold writeStandby
  dsimp only
  (repeat' split) <;> first
    | exact .same rfl rfl rfl
    | exact ⟨rfl, ⟨rfl, rfl⟩, ⟨rfl, rfl⟩⟩
    | (exfalso; simp_all)

theorem writeDesk_rests (o : Byte) (i : Nat) (bs : List Byte) (t : State) (h : t.cl.loader = .loading) :
    Rests t (writeDesk true o i bs t).2 := by
  have desk (d : Desk) : Rests t (t.setDesk d) := .same rfl rfl rfl
  have head (k : Fin 4) : Rests t (writeHeadEntry true k bs t).2 := by
    unfold writeHeadEntry
    split
    · unfold writeHead
      split
      · exact .refl t
      · split
        · exact .refl t
        · exact storeHead_rests _ _ _
    · exact .refl t
  have pal (k : Fin 6) : Rests t (writePalette k bs t).2 := by
    unfold writePalette
    split
    · exact .same rfl rfl rfl
    · exact settle_rests _ _ _ (.same rfl rfl rfl)
  unfold writeDesk
  split
  · unfold writeRate
    (repeat' split) <;> exact .same rfl rfl rfl
  · exact head 0
  · exact head 1
  · exact head 2
  · exact head 3
  · exact pal 0
  · exact pal 1
  · exact pal 2
  · exact pal 3
  · exact pal 4
  · exact pal 5
  · exact numberSetting_rests _ _ _ _ _ _ fun n => .same rfl rfl rfl
  · exact numberSetting_rests _ _ _ _ _ _ fun n => writeStandby_rests n t h
  · exact numberSetting_rests _ _ _ _ _ _ fun n => desk _
  · refine numberSetting_rests _ _ _ _ _ _ fun n => ?_
    unfold writeEnergyReset
    split
    · exact .refl t
    · exact (desk _).trans (applyEnergyReset_rests _)
  · exact numberSetting_rests _ _ _ _ _ _ fun n => desk _
  · refine numberSetting_rests _ _ _ _ _ _ fun n => ?_
    unfold writeAbsence
    split
    · exact .refl t
    · exact (desk _).trans (applyAbsence_rests _)
  · exact numberSetting_rests _ _ _ _ _ _ fun n => desk _
  · exact numberSetting_rests _ _ _ _ _ _ fun n => desk _
  · refine numberSetting_rests _ _ _ _ _ _ fun n => ?_
    unfold writeNoticeInterval
    split
    · exact .refl t
    · exact (desk _).trans (applyNoticeInterval_rests _)
  · split
    · refine settle_rests _ _ _ ?_
      unfold writeNoticeTarget
      dsimp only
      split <;> exact .same rfl rfl rfl
    · exact .refl t
  · unfold writeAuthority
    split
    · exact .refl t
    · split
      · exact settle_rests _ _ _ (desk _)
      · exact .refl t
  · exact settle_rests _ _ _ (desk _)
  · exact .refl t

/-! ## The areas -/

theorem writeEntry_rests (o : Byte) (sp : Space) (i : Nat) (bs : List Byte) (t : State) (h : t.cl.loader = .loading) :
    Rests t (writeEntry true o sp i bs t).2 := by
  have list (v : Cp) : Rests t (t.setCp v) := .same rfl rfl rfl
  unfold writeEntry
  split
  · exact writeDesk_rests _ _ _ _ h
  · split
    · unfold writeSlotEntry
      split
      · exact (writeSlot_keeps _ _ (.refl _)).rests (writeSlot_pu _ _ _)
      · split
        · exact (writeSlot_keeps _ _ (.refl _)).rests (writeSlot_pu _ _ _)
        · exact .refl t
    · exact .refl t
  · split
    · exact writeStream_rests _ _ _
    · exact .refl t
  · split
    · unfold writePreset
      (repeat' split) <;> exact list _
    · exact .refl t
  · split
    · unfold writeStaged
      (repeat' split) <;> exact list _
    · exact .refl t
  · split
    · unfold writeHotKey
      (repeat' split) <;> exact .same rfl rfl rfl
    · exact .refl t
  · split
    · unfold writeLamp
      (repeat' split) <;> exact ⟨rfl, ⟨rfl, rfl⟩, ⟨rfl, rfl⟩⟩
    · exact .refl t
  · unfold writeEvents
    split
    · refine settle_rests _ _ _ ?_
      unfold writeMask
      dsimp only
      split
      · refine Rests.trans ?_ (makeDue_rests _)
        exact .same rfl rfl rfl
      · exact .same rfl rfl rfl
    · exact .refl t
  all_goals exact .refl t

theorem storeHead_writes (h : Fin 4) (r : HeadRecord) {s t : State} (k : Writes s t) : Writes s (storeHead h r t) := by
  have k : Writes s (t.setCp { t.cp with heads := t.cp.heads.set h r }) := k.away rfl rfl rfl
  unfold storeHead
  dsimp only
  split
  · exact k.keeps (headReport_keeps (.refl _))
  · exact k

/-- What the load of one entry, of an area and of the levels keeps. -/
structure Brought (s t : State) : Prop extends Writes s t, Rests s t

theorem Brought.refl (s : State) : Brought s s := ⟨.refl s, .refl s⟩

theorem Brought.trans {s t u : State} (h : Brought s t) (k : Brought t u) : Brought s u :=
  ⟨h.toWrites.trans k.toWrites, h.toRests.trans k.toRests⟩

theorem raise_brought (k : EventKind) (s : State) : Brought s (raise k s) := ⟨raise_writes k (.refl s), raise_rests k s⟩

theorem fallbackEntry_brought (sp : Space) (i : Nat) (s : State) (h : s.cl.loader = .loading) : Brought s (fallbackEntry sp i s) := by
  have w (b : List Byte) : Brought s (writeEntry true 0 sp i b s).2 := ⟨writeEntry_writes _ _ _ _ _ (.refl s), writeEntry_rests _ _ _ _ _ h⟩
  unfold fallbackEntry
  split
  · split
    · exact ⟨storeHead_writes _ _ (.refl s), storeHead_rests _ _ _⟩
    · exact w _
  · exact w _
  all_goals exact .refl s

theorem loadEntry_brought (sp : Space) (i : Nat) (c : Option (List Byte)) (s : State) (h : s.cl.loader = .loading) :
    Brought s (loadEntry sp i c s) := by
  have f (t : State) (k : Brought s t) : Brought s (fallbackEntry sp i (raise .loadFault t)) := by
    have r := k.trans (raise_brought .loadFault t)
    exact r.trans (fallbackEntry_brought _ _ _ (by rw [r.outside.1]; exact h))
  unfold loadEntry
  split
  · exact f s (.refl s)
  · have w (b : List Byte) : Brought s (writeEntry true 0 sp i b s).2 := ⟨writeEntry_writes _ _ _ _ _ (.refl s), writeEntry_rests _ _ _ _ _ h⟩
    rename_i bs
    have w := w bs
    split <;> rename_i u hu <;> rw [hu] at w
    · exact w
    · exact f _ w

theorem loadEntries_brought (o : List (Space × Nat)) (cs : List (Option (List Byte))) (s : State) (h : s.cl.loader = .loading) :
    Brought s (loadEntries o cs s) := by
  induction o generalizing cs s with
  | nil => exact .refl s
  | cons e o ih =>
    cases cs with
    | nil => exact .refl s
    | cons c cs =>
      have k := loadEntry_brought e.1 e.2 c s h
      exact k.trans (ih cs _ (by rw [k.outside.1]; exact h))

theorem loadLevel_brought (a : Area) (l : Option ProtLevel) (s : State) : Brought s (loadLevel a l s) := by
  have k : Brought s (if l.isNone then raise .loadFault s else s) := by
    split
    · exact raise_brought _ s
    · exact .refl s
  unfold loadLevel
  dsimp only
  generalize (if l.isNone then raise .loadFault s else s) = u at k ⊢
  cases a <;> exact k.trans ⟨(Writes.refl u).same rfl rfl rfl rfl rfl (fun q => ⟨q.due, q.work, q.offer, q.waiting⟩) rfl, .same rfl rfl rfl⟩

/-- Both areas brought, LOAD_FAULT being raised before them where `p` says so. -/
theorem areas_brought (o o' : List (Space × Nat)) (d l : Image) (p : Prop) [Decidable p] (v : Cp → Cp) (u : State)
    (h : u.cl.loader = .loading) :
    ∀ t, t = loadLevel .layout l.level (loadEntries o' l.entries (loadLevel .config d.level
        (loadEntries o d.entries (if p then raise .loadFault u else u)))) →
      Brought u (t.setCp (v t.cp)) ∧ (p → (t.setCp (v t.cp)).mu.events &&& EventKind.bit .loadFault ≠ 0) := by
  intro t ht
  have kr : Brought u (if p then raise .loadFault u else u) := by
    split
    · exact raise_brought _ u
    · exact .refl u
  have ev : p → (if p then raise .loadFault u else u).mu.events &&& EventKind.bit .loadFault ≠ 0 := by
    intro hp
    rw [if_pos hp]
    exact raise_pending _ _
  generalize (if p then raise .loadFault u else u) = w at kr ev ht
  have wl : w.cl.loader = .loading := by rw [kr.outside.1]; exact h
  have k := (loadEntries_brought o d.entries w wl).trans (loadLevel_brought .config d.level _)
  generalize loadLevel .config d.level (loadEntries o d.entries w) = x at k ht
  have k := (k.trans (loadEntries_brought o' l.entries x (by rw [k.outside.1]; exact wl))).trans (loadLevel_brought .layout l.level _)
  rw [← ht] at k
  have k : Brought w (t.setCp (v t.cp)) := k.trans ⟨(Writes.refl t).away rfl rfl rfl, .same rfl rfl rfl⟩
  exact ⟨kr.trans k, fun hp => k.events _ (ev hp)⟩

/-- The same in the words of the load. -/
theorem bring_brought (s : State) (h : s.cl.loader = .loading) (dg lg : Bool) (f g : Validity) (d l : Image) (o o' : List (Space × Nat)) :
    let u := s.setCl { s.cl with
      deskFlag := f
      layoutFlag := g }
    let v := if u.cl.loadSel = true ∧ ¬ (dg = true ∧ lg = true) then raise .loadFault u else u
    let w := loadLevel .layout l.level (loadEntries o' l.entries (loadLevel .config d.level (loadEntries o d.entries v)))
    let t := w.setCp { w.cp with pending := Vector.replicate 4 true }
    Brought u t ∧ (s.cl.loadSel = true → ¬ (dg = true ∧ lg = true) → t.mu.events &&& EventKind.bit .loadFault ≠ 0) := by
  intro u v w t
  obtain ⟨k1, k2⟩ := areas_brought o o' d l (u.cl.loadSel = true ∧ ¬ (dg = true ∧ lg = true))
    (fun c => { c with pending := Vector.replicate 4 true }) u h w rfl
  exact ⟨k1, fun hs hb => k2 ⟨hs, hb⟩⟩

/-- What a load leaves as it was, up to RUNNING: the flags alone change with the settings and tables, and where an area read was bad
LOAD_FAULT is pending. -/
theorem loadAreas_brought (a : SerialAnswers) (s : State) (h : s.cl.loader = .loading) :
    ∃ d l, Brought (s.setCl { s.cl with deskFlag := d, layoutFlag := l }) (loadAreas a s) ∧
      (s.cl.loadSel = false → d = .notRead ∧ l = .notRead) ∧
      (s.cl.loadSel = true → ¬ (deskGood a s = true ∧ layoutGood a s = true) →
        (loadAreas a s).mu.events &&& EventKind.bit .loadFault ≠ 0) := by
  have gs : s.cl.loadSel = true → ((s.cl.loadSel && deskGood a s) = true ∧ (s.cl.loadSel && layoutGood a s) = true) →
      deskGood a s = true ∧ layoutGood a s = true := by
    intro hs x
    rw [hs, Bool.true_and, Bool.true_and] at x
    exact x
  have fl : ∀ b c : Bool, s.cl.loadSel = false → loadFlag s.cl.loadSel b = .notRead ∧ loadFlag s.cl.loadSel c = .notRead := by
    intro b c hs
    rw [hs]
    exact ⟨rfl, rfl⟩
  unfold loadAreas
  dsimp only
  generalize deskGood a s = dg at gs ⊢
  generalize layoutGood a s = lg at gs ⊢
  generalize (s.cl.loadSel && dg) = dg at gs ⊢
  generalize (s.cl.loadSel && lg) = lg at gs ⊢
  generalize (if dg = true then storedImage deskBase deskLen deskOrder.length s else defaultImage deskOrder) = d
  generalize (if lg = true then storedImage layoutBase layoutLen layoutOrder.length s else defaultImage layoutOrder) = l
  have k := bring_brought s h dg lg (loadFlag s.cl.loadSel dg) (loadFlag s.cl.loadSel lg) d l deskOrder layoutOrder
  exact ⟨_, _, k.1, fl dg lg, fun hs hb => k.2 hs fun x => hb (gs hs x)⟩

end Sys2Proof.Machine
end

