-- ==== Sys2Proof/Laws/LoadStarts.lean ====
section
/-! SUPPORT. The entry to RUNNING (R3, R18, R33, R34, R88, R192): what the blocks that start leave alone, the ports at a new seed tag, the
first beacon, and the pointer. -/

namespace Sys2Proof.Machine

open Sys2Proof

/-! ## What the starting blocks leave alone -/

/-- The ports, the line's symbols, the loader, the waiting commands, the power state and the beacon generator are as they were. -/
structure Starts (s t : State) : Prop where
  quiet : NoReset s → NoReset t
  wlp : t.wlp = s.wlp
  elp : t.elp = s.elp
  lineOut : t.lineOut = s.lineOut
  pending : t.pending = s.pending
  cl : t.cl = s.cl
  desk : t.desk = s.desk
  power : t.pu.power = s.pu.power
  sol : t.rf.sol = s.rf.sol
  restart : t.rf.restart = s.rf.restart
  beaconTimer : t.rf.beaconTimer = s.rf.beaconTimer

theorem Starts.refl (s : State) : Starts s s := ⟨id, rfl, rfl, rfl, rfl, rfl, rfl, rfl, rfl, rfl, rfl⟩

theorem Starts.trans {s t u : State} (h : Starts s t) (k : Starts t u) : Starts s u :=
  ⟨k.quiet ∘ h.quiet, k.wlp.trans h.wlp, k.elp.trans h.elp, k.lineOut.trans h.lineOut, k.pending.trans h.pending, k.cl.trans h.cl,
    k.desk.trans h.desk, k.power.trans h.power, k.sol.trans h.sol, k.restart.trans h.restart, k.beaconTimer.trans h.beaconTimer⟩

theorem Keeps.starts {s t : State} (k : Keeps s t) (p : t.pu.power = s.pu.power) : Starts s t :=
  ⟨k.quiet, k.same.wlp, k.same.elp, k.same.lineOut, k.same.pending, k.same.cl, k.same.desk, p, k.same.sol, k.same.restart,
    k.same.beaconTimer⟩

theorem raise_starts (k : EventKind) (s : State) : Starts s (raise k s) := (raise_keeps (.refl s) k).starts (by rw [(raise_posts k s).pu])

theorem swapAll_starts (s : State) : Starts s (swapAll s) ∧ (swapAll s).cp = s.cp ∧ (swapAll s).pu = s.pu := by
  have one (i : Fin 32) (u : State) : Starts u (swapEntry i u) ∧ (swapEntry i u).cp = u.cp ∧ (swapEntry i u).pu = u.pu := by
    have set (e : Option StreamEntry) : Starts u (setEntry i e u) := ⟨fun n => n.congr rfl rfl, rfl, rfl, rfl, rfl, rfl, rfl, rfl, rfl, rfl, rfl⟩
    unfold swapEntry
    split
    · split
      · dsimp only
        split
        · exact ⟨(set _).trans (raise_starts _ _), (raise_posts _ _).cp, (raise_posts _ _).pu⟩
        · exact ⟨set _, rfl, rfl⟩
      · exact ⟨.refl u, rfl, rfl⟩
    · exact ⟨.refl u, rfl, rfl⟩
  unfold swapAll
  generalize List.finRange 32 = l
  induction l generalizing s with
  | nil => exact ⟨.refl s, rfl, rfl⟩
  | cons i l ih =>
    obtain ⟨a, b, c⟩ := one i s
    obtain ⟨a', b', c'⟩ := ih (swapEntry i s)
    exact ⟨a.trans a', b'.trans b, c'.trans c⟩

theorem swapAll_fu (s : State) : (swapAll s).fu = s.fu := by
  have one (i : Fin 32) (u : State) : (swapEntry i u).fu = u.fu := by
    unfold swapEntry
    split
    · split
      · dsimp only
        split
        · exact (raise_posts _ _).fu
        · rfl
      · rfl
    · rfl
  unfold swapAll
  generalize List.finRange 32 = l
  induction l generalizing s with
  | nil => rfl
  | cons i l ih => exact (ih _).trans (one i s)

/-- With no head enabled a re-evaluation leaves the pointer where it is (R102). -/
theorem fuReevaluate_headless {s : State} (h : ∀ k : Fin 4, s.cp.heads[k].enabled = false) :
    (fuReevaluate s).fu.x = s.fu.x ∧ (fuReevaluate s).fu.y = s.fu.y := by
  have nh (u : State) (hu : u.cp.heads = s.cp.heads) (f : Focus) : focusHolds u f = false := by
    unfold focusHolds
    rw [hu, h f.head]
    rfl
  cases hf : s.fu.focus with
  | some f =>
    have r := (focusReevaluated s).lost f hf (nh s rfl f)
    exact ⟨r.2.2.2.1, r.2.2.2.2⟩
  | none =>
    have rq (u : State) (hu : u.fu.focus = none) : requestPosition u = u := by
      unfold requestPosition positionRequest requestedPoint
      rw [hu]
      rfl
    have tp : targetAtPointer s = none := by
      have ha : headAt s s.fu.x s.fu.y = none := by
        unfold headAt findIndex
        apply List.find?_eq_none.2
        intro k _
        have hk : s.cp.heads[k.val].enabled = false := h k
        simp [hk]
      unfold targetAtPointer hitTest
      rw [ha]
      rfl
    unfold fuReevaluate reevaluate
    rw [hf, tp]
    simp only [Option.map_none, Option.getD_none, if_true]
    have cf : confine s.fu.x s.fu.y s = s := by
      unfold confine
      rw [hf]
    have ch : changeFocus none s = s := by
      unfold changeFocus
      rw [hf]
    have e := rq s hf
    unfold requestPosition at e
    rw [cf, ch, e]
    (repeat' split) <;> exact ⟨rfl, rfl⟩

/-- The compositor after a desk frame boundary, but for its picture (R64, R76). -/
theorem boundary_starts (s : State) : Starts s (boundary s) ∧ (boundary s).cp.raster = nextPeriod s ∧
    (boundary s).cp.pending = Vector.replicate 4 false ∧
    (boundary s).cp.active = Vector.ofFn (fun h => if s.cp.pending[h] then s.cp.staged[h] else s.cp.active[h]) ∧
    (boundary s).cp.staged = s.cp.staged ∧ (boundary s).cp.heads = s.cp.heads ∧ (boundary s).pu = s.pu := by
  obtain ⟨z, c, p⟩ := swapAll_starts s
  unfold boundary
  dsimp only
  generalize swapAll s = v at z c p
  obtain ⟨t, ht⟩ : ∃ t, t = (latchAll v).setCp { (latchAll v).cp with
    raster := nextPeriod (latchAll v), picture := some (takePicture (latchAll v)) } := ⟨_, rfl⟩
  have zt : Starts v t := by rw [ht]; exact ⟨fun n => n.congr rfl rfl, rfl, rfl, rfl, rfl, rfl, rfl, rfl, rfl, rfl, rfl⟩
  have tc : t.cp.raster = nextPeriod s ∧ t.cp.pending = Vector.replicate 4 false ∧
      t.cp.active = Vector.ofFn (fun h => if s.cp.pending[h] then s.cp.staged[h] else s.cp.active[h]) ∧ t.cp.staged = s.cp.staged ∧
      t.cp.heads = s.cp.heads ∧ t.pu = s.pu := by
    have np : nextPeriod (latchAll v) = nextPeriod s := by
      unfold nextPeriod
      show (⟨true, v.desk.rate, v.cp.raster.phase - rasterPeriod v.cp.raster.rate⟩ : Raster) = _
      rw [c, z.desk]
    have av : (latchAll v).cp = { s.cp with
        active := Vector.ofFn fun h => if s.cp.pending[h] then s.cp.staged[h] else s.cp.active[h],
        pending := Vector.replicate 4 false } := by
      unfold latchAll
      rw [State.setCp_cp, c]
    rw [ht, State.setCp_cp, np, av]
    exact ⟨rfl, rfl, rfl, rfl, rfl, p⟩
  rw [← ht]
  split
  · have d := fuReevaluate_delivers (.refl t)
    have k := fuReevaluate_keeps (.refl t)
    rw [d.cp, d.pu]
    exact ⟨(z.trans zt).trans (k.starts (by rw [d.pu])), tc⟩
  · exact ⟨z.trans zt, tc⟩

/-- With no head enabled a boundary leaves the pointer where it is (R88, R102). -/
theorem boundary_pointer (s : State) (h : ∀ k : Fin 4, s.cp.heads[k].enabled = false) :
    (boundary s).fu.x = s.fu.x ∧ (boundary s).fu.y = s.fu.y := by
  obtain ⟨-, c, -⟩ := swapAll_starts s
  have sf := swapAll_fu s
  unfold boundary
  dsimp only
  generalize swapAll s = v at c sf
  obtain ⟨t, ht⟩ : ∃ t, t = (latchAll v).setCp { (latchAll v).cp with
    raster := nextPeriod (latchAll v), picture := some (takePicture (latchAll v)) } := ⟨_, rfl⟩
  have th : t.cp.heads = s.cp.heads ∧ t.fu = s.fu := by
    rw [ht]
    exact ⟨show v.cp.heads = _ by rw [c], sf⟩
  rw [← ht, ← th.2]
  split
  · exact fuReevaluate_headless (by rw [th.1]; exact h)
  · exact ⟨rfl, rfl⟩

/-! ## The first beacon (R33, R34, R35) -/

/-- The beacon generator at its start. -/
theorem startBeacons_forms {s : State} (n : NoReset s) :
    (s.elp.state ≠ .up ∨ s.cl.loader = .loading → startBeacons s = s) ∧
    (s.elp.state = .up → s.cl.loader = .running →
      (s.rf.insQ.length < 12 → startBeacons s = s.setRf { takeIn s ⟨beaconFrame s, false⟩ with
        sol := nextSol (takeIn s ⟨beaconFrame s, false⟩).sol, restart := false, beaconTimer := some ⟨0, s.desk.beaconPeriod⟩ }) ∧
      (12 ≤ s.rf.insQ.length → startBeacons s = s.setRf { s.rf with
        beaconTimer := some ⟨0, s.desk.beaconPeriod⟩,
        c := { s.rf.c with insFull := bump s.rf.c.insFull, beaconsSkipped := bump s.rf.c.beaconsSkipped } })) := by
  refine ⟨fun h => ?_, fun hu hr => ⟨fun h => ?_, fun h => ?_⟩⟩
  · unfold startBeacons
    rw [if_neg]
    rintro ⟨h1, h2⟩
    rcases h with h | h
    · exact h h1
    · rw [running, h] at h2; exact absurd h2 (by decide)
  all_goals
    unfold startBeacons
    rw [if_pos ⟨hu, by simp [running, hr]⟩]
    unfold beaconTick generateBeacon
  · rw [offerInsertion_accepted n _ rfl h]
    rfl
  · rw [offerInsertion_refused _ _ (by omega)]
    rfl

theorem takeIn_keeps (s : State) (e : InsEntry) : (takeIn s e).sol = s.rf.sol ∧ (takeIn s e).restart = s.rf.restart := by
  have at' (r : Rf) : (arbiterTable r).sol = r.sol ∧ (arbiterTable r).restart = r.restart := by
    unfold arbiterTable
    (repeat' split) <;> exact ⟨rfl, rfl⟩
  unfold takeIn
  dsimp only
  split
  · exact at' _
  · exact ⟨rfl, rfl⟩

/-! ## The blocks that start (R192) -/

/-- What the start of the blocks comes to, but for the beacon generator. -/
theorem startBlocks_starts (w : Bool) (s : State) : Starts (startBeacons s) (startBlocks w s) ∧
    (startBlocks w s).cp.raster = ⟨true, s.desk.rate, 0⟩ ∧ (startBlocks w s).cp.pending = Vector.replicate 4 false ∧
    (startBlocks w s).cp.active = Vector.ofFn (fun h => if s.cp.pending[h] then s.cp.staged[h] else s.cp.active[h]) ∧
    (startBlocks w s).pu.filter = none ∧ (startBlocks w s).pu.run = 0 ∧ (startBlocks w s).pu.blink = some ⟨0, 0⟩ ∧
    (startBlocks w s).pu.idle = (if s.pu.power = .active ∧ running s = true ∧ s.desk.standby ≠ 0 then some 0 else none) ∧
    (∀ h : Fin 4, s.cp.heads[h].enabled = true → (∀ k : Fin 4, k < h → s.cp.heads[k].enabled = false) →
      (startBlocks w s).fu.x = s.cp.heads[h].ox + s.cp.heads[h].width / 2 ∧
      (startBlocks w s).fu.y = s.cp.heads[h].oy + s.cp.heads[h].height / 2) ∧
    ((∀ h : Fin 4, s.cp.heads[h].enabled = false) → (startBlocks w s).fu.x = s.fu.x ∧ (startBlocks w s).fu.y = s.fu.y) := by
  have p0 := startBeacons_posts s
  unfold startBlocks
  dsimp only
  generalize startBeacons s = t at p0
  obtain ⟨t', ht'⟩ : ∃ t', t' = t.setCp { t.cp with raster := ⟨true, t.desk.rate, 0⟩ } := ⟨_, rfl⟩
  have z0 : Starts t t' := by rw [ht']; exact ⟨fun n => n.congr rfl rfl, rfl, rfl, rfl, rfl, rfl, rfl, rfl, rfl, rfl, rfl⟩
  have tp : t'.cp.pending = s.cp.pending ∧ t'.cp.staged = s.cp.staged ∧ t'.cp.active = s.cp.active ∧ t'.cp.heads = s.cp.heads ∧
      t'.pu = s.pu ∧ t'.desk = s.desk ∧ t'.cl = s.cl ∧ t'.fu = s.fu := by
    rw [ht']
    exact ⟨show t.cp.pending = _ by rw [p0.cp], show t.cp.staged = _ by rw [p0.cp], show t.cp.active = _ by rw [p0.cp],
      show t.cp.heads = _ by rw [p0.cp], p0.pu, p0.desk, p0.cl, p0.fu⟩
  obtain ⟨b1, b2, b3, b4, -, b6, b7⟩ := boundary_starts t'
  have fx : (∀ h : Fin 4, t'.cp.heads[h].enabled = false) → (boundary t').fu.x = t'.fu.x ∧ (boundary t').fu.y = t'.fu.y :=
    boundary_pointer t'
  rw [← ht']
  have b2 : (boundary t').cp.raster = ⟨true, s.desk.rate, 0⟩ := by
    rw [b2, ht']
    unfold nextPeriod
    show (⟨true, t.desk.rate, 0 - rasterPeriod t.desk.rate⟩ : Raster) = _
    rw [p0.desk, Nat.zero_sub]
  rw [tp.1, tp.2.1, tp.2.2.1] at b4
  generalize boundary t' = v at b1 b2 b3 b4 b6 b7 fx
  have vh : v.cp.heads = s.cp.heads := b6.trans tp.2.2.2.1
  have vp : v.pu = s.pu := b7.trans tp.2.2.2.2.1
  have pp : ∀ u, u = placePointer v → Starts v u ∧ u.cp = v.cp ∧ u.pu = v.pu ∧
      (∀ h : Fin 4, s.cp.heads[h].enabled = true → (∀ k : Fin 4, k < h → s.cp.heads[k].enabled = false) →
        u.fu.x = s.cp.heads[h].ox + s.cp.heads[h].width / 2 ∧ u.fu.y = s.cp.heads[h].oy + s.cp.heads[h].height / 2) ∧
      ((∀ h : Fin 4, s.cp.heads[h].enabled = false) → u.fu.x = s.fu.x ∧ u.fu.y = s.fu.y) := by
    rintro u rfl
    unfold placePointer
    rw [vh]
    cases hf : findIndex (fun r => r.enabled) s.cp.heads with
    | none =>
      have none' : ∀ h : Fin 4, s.cp.heads[h].enabled = false := by
        intro h
        unfold findIndex at hf
        simpa using List.find?_eq_none.1 hf h (List.mem_finRange h)
      refine ⟨.refl v, rfl, rfl, fun h he => ?_, fun h => ?_⟩
      · rw [none' h] at he; cases he
      · have := fx (by rw [tp.2.2.2.1]; exact h)
        rw [this.1, this.2, tp.2.2.2.2.2.2.2]
        exact ⟨rfl, rfl⟩
    | some i =>
      have hi := findIndex_least hf
      refine ⟨⟨fun n => n.congr rfl rfl, rfl, rfl, rfl, rfl, rfl, rfl, rfl, rfl, rfl, rfl⟩, rfl, rfl, fun h he hk => ?_, fun h => ?_⟩
      · have : h = i := by
          rcases lt_trichotomy h i with x | x | x
          · have := hi.2 h x
            rw [he] at this; cases this
          · exact x
          · have := hk i x
            rw [hi.1] at this; cases this
        subst this
        exact ⟨rfl, rfl⟩
      · rw [h i] at hi; cases hi.1
  obtain ⟨c1, c2, c3, c4, c5⟩ := pp _ rfl
  generalize placePointer v = u at c1 c2 c3 c4 c5
  have rr : ∀ x, x = restartIdle u → Starts u x ∧ x.cp = u.cp ∧ x.fu = u.fu ∧
      x.pu.idle = (if u.pu.power = .active ∧ running u = true ∧ u.desk.standby ≠ 0 then some 0 else none) := by
    rintro x rfl
    unfold restartIdle
    split <;> exact ⟨⟨fun n => n.congr rfl rfl, rfl, rfl, rfl, rfl, rfl, rfl, rfl, rfl, rfl, rfl⟩, rfl, rfl, rfl⟩
  obtain ⟨d1, d2, d3, d4⟩ := rr _ rfl
  generalize restartIdle u = x at d1 d2 d3 d4
  have zx : Starts t x := ((z0.trans b1).trans c1).trans d1
  have ru : running u = running s := by
    unfold running
    rw [c1.cl, b1.cl, tp.2.2.2.2.2.2.1]
  rw [c3, vp, ru, c1.desk, b1.desk, tp.2.2.2.2.2.1] at d4
  obtain ⟨y, hy⟩ : ∃ y, y = x.setPu { x.pu with filter := none, run := 0, blink := some ⟨0, 0⟩ } := ⟨_, rfl⟩
  have zy : Starts t y := zx.trans (by rw [hy]; exact ⟨fun n => n.congr rfl rfl, rfl, rfl, rfl, rfl, rfl, rfl, rfl, rfl, rfl, rfl⟩)
  have yc : y.cp = v.cp ∧ y.fu = u.fu := by rw [hy]; exact ⟨d2.trans c2, d3⟩
  have yp : y.pu.filter = none ∧ y.pu.run = 0 ∧ y.pu.blink = some ⟨0, 0⟩ ∧ y.pu.idle = x.pu.idle := by rw [hy]; exact ⟨rfl, rfl, rfl, rfl⟩
  have fin : ∀ r, Starts y r → r.cp = y.cp → r.pu = y.pu → r.fu = y.fu → Starts t r ∧
      r.cp.raster = ⟨true, s.desk.rate, 0⟩ ∧ r.cp.pending = Vector.replicate 4 false ∧
      r.cp.active = Vector.ofFn (fun h => if s.cp.pending[h] then s.cp.staged[h] else s.cp.active[h]) ∧ r.pu.filter = none ∧
      r.pu.run = 0 ∧ r.pu.blink = some ⟨0, 0⟩ ∧
      r.pu.idle = (if s.pu.power = .active ∧ running s = true ∧ s.desk.standby ≠ 0 then some 0 else none) ∧
      (∀ h : Fin 4, s.cp.heads[h].enabled = true → (∀ k : Fin 4, k < h → s.cp.heads[k].enabled = false) →
        r.fu.x = s.cp.heads[h].ox + s.cp.heads[h].width / 2 ∧ r.fu.y = s.cp.heads[h].oy + s.cp.heads[h].height / 2) ∧
      ((∀ h : Fin 4, s.cp.heads[h].enabled = false) → r.fu.x = s.fu.x ∧ r.fu.y = s.fu.y) := by
    intro r k1 k2 k3 k4
    rw [k2, k3, k4, yc.1, yc.2]
    exact ⟨zy.trans k1, b2, b3, b4, yp.1, yp.2.1, yp.2.2.1, yp.2.2.2.trans d4, c4, c5⟩
  rw [← hy]
  split
  · have k := makeDue_keeps (.refl y)
    have pm : (makeDue y).cp = y.cp ∧ (makeDue y).pu = y.pu ∧ (makeDue y).fu = y.fu := by
      unfold makeDue
      split
      · have := tryNotice_posts (y.setMu { y.mu with due := true })
        exact ⟨this.cp, this.pu, this.fu⟩
      · exact ⟨rfl, rfl, rfl⟩
    exact fin _ (k.starts (by rw [pm.2.1])) pm.1 pm.2.1 pm.2.2
  · exact fin _ (.refl y) rfl rfl rfl

/-! ## The ports at a new seed tag (R18) -/

/-- What the other blocks see of a port's change: nothing but events. -/
structure Judging (s t : State) : Prop where
  quiet : NoReset s → NoReset t
  pending : t.pending = s.pending
  cl : t.cl = s.cl
  events : ∀ m : EventSet, s.mu.events &&& m ≠ 0 → t.mu.events &&& m ≠ 0
  sol : t.rf.sol = s.rf.sol
  restart : t.rf.restart = s.rf.restart

theorem Judging.refl (s : State) : Judging s s := ⟨id, rfl, rfl, fun _ => id, rfl, rfl⟩

theorem Judging.trans {s t u : State} (h : Judging s t) (k : Judging t u) : Judging s u :=
  ⟨k.quiet ∘ h.quiet, k.pending.trans h.pending, k.cl.trans h.cl, fun m x => k.events m (h.events m x), k.sol.trans h.sol,
    k.restart.trans h.restart⟩

theorem Keeps.judging {s t : State} (k : Keeps s t) : Judging s t :=
  ⟨k.quiet, k.same.pending, k.same.cl, k.events, k.same.sol, k.same.restart⟩

theorem raise_judging (k : EventKind) (s : State) : Judging s (raise k s) := (raise_keeps (.refl s) k).judging

theorem afterLeavingUp_judging (s : State) : Judging s (afterLeavingUp s) := by
  have e : Judging s (endClosure s) := by
    unfold endClosure
    split <;> exact ⟨fun n => n.congr rfl rfl, rfl, rfl, fun _ => id, rfl, rfl⟩
  have r : Judging s ((endClosure s).setRf { (endClosure s).rf with ring := derivedRing (endClosure s) }) :=
    e.trans ⟨fun n => n.congr rfl rfl, rfl, rfl, fun _ => id, rfl, rfl⟩
  unfold afterLeavingUp
  dsimp only
  split
  · exact (r.trans (raise_judging _ _)).trans (raise_judging _ _)
  · exact r.trans (raise_judging _ _)

theorem elpLeft_judging {s : State} (n : NoReset s) : Judging s (elpLeft s) := by
  have e : elpLeft s = afterLeavingUp (egressLost (s.setElp { s.elp with linkDown := bump s.elp.linkDown })) := by
    have w : ((egressLost (s.setElp { s.elp with linkDown := bump s.elp.linkDown })).mu.work.map (·.resetQueued)).getD false = false := by
      show (s.mu.work.map (·.resetQueued)).getD false = false
      cases x : s.mu.work with
      | none => rfl
      | some w => exact n.mu.work w x
    unfold elpLeft
    simp [w]
  rw [e]
  exact Judging.trans (t := egressLost (s.setElp { s.elp with linkDown := bump s.elp.linkDown }))
    ⟨fun n => n.congr rfl rfl, rfl, rfl, fun _ => id, rfl, rfl⟩ (afterLeavingUp_judging _)

/-- The follower judges its record against the new word. -/
theorem wlpOwnWord_judged (rxMid : Bool) {s : State} (n : NoReset s) : Judging s (wlpOwnWord rxMid s) ∧
    (wlpOwnWord rxMid s).wlp.state = judged s.wlp.state (recordAccepted s s.wlp.partner) ∧
    (wlpOwnWord rxMid s).wlp.partner = s.wlp.partner ∧
    (wlpOwnWord rxMid s).wlp.linkDown = (if s.wlp.state = .up then bump s.wlp.linkDown else s.wlp.linkDown) ∧
    (wlpOwnWord rxMid s).elp = s.elp ∧
    (wlpOwnWord rxMid s).lineOut = s.lineOut ++ judgedSends .west s.wlp.state (ownWord s) [] ∧
    ((s.wlp.state = .train ∨ s.wlp.state = .up) → recordAccepted s s.wlp.partner = false →
      (wlpOwnWord rxMid s).mu.events &&& EventKind.bit .linkMismatch ≠ 0) ∧
    (s.wlp.state = .up → (wlpOwnWord rxMid s).mu.events &&& EventKind.bit .linkDown ≠ 0) := by
  have nil (l : List (Port × LineSymbol)) : l = l ++ [] := (List.append_nil l).symm
  obtain ⟨v, hv⟩ : ∃ v, v = sendSymbols .west [.cap (ownWord s)] s := ⟨_, rfl⟩
  have jv : Judging s v := by rw [hv]; exact ⟨fun n => n.congr rfl rfl, rfl, rfl, fun _ => id, rfl, rfl⟩
  have vw : v.wlp = s.wlp ∧ v.elp = s.elp ∧ v.lineOut = s.lineOut ++ [(.west, .cap (ownWord s))] := by rw [hv]; exact ⟨rfl, rfl, rfl⟩
  have jw : Judging s (wlpWaits v) := jv.trans ⟨fun n => n.congr rfl rfl, rfl, rfl, fun _ => id, rfl, rfl⟩
  have jm : Judging s (wlpMismatch v) := jv.trans ⟨fun n => n.congr rfl rfl, rfl, rfl, fun _ => id, rfl, rfl⟩
  have left (u : State) (ju : Judging s u) : Judging s (wlpLeft rxMid u) :=
    ju.trans (Judging.trans (t := u.setWlp { u.wlp with
      linkDown := bump u.wlp.linkDown, truncated := if rxMid then bump u.wlp.truncated else u.wlp.truncated })
      ⟨fun n => n.congr rfl rfl, rfl, rfl, fun _ => id, rfl, rfl⟩ (afterLeavingUp_judging _))
  have vs : (wlpWaits v).wlp.partner = s.wlp.partner ∧ (wlpWaits v).wlp.linkDown = s.wlp.linkDown ∧
      (wlpMismatch v).wlp.partner = s.wlp.partner ∧ (wlpMismatch v).wlp.linkDown = s.wlp.linkDown := by
    unfold wlpWaits wlpMismatch
    rw [State.setWlp_wlp, State.setWlp_wlp, vw.1]
    exact ⟨rfl, rfl, rfl, rfl⟩
  unfold wlpOwnWord
  dsimp only
  rw [← hv]
  have idle (h : s.wlp.state = .disabled ∨ s.wlp.state = .silent ∨ s.wlp.state = .advertise) : Judging s s ∧
      s.wlp.state = judged s.wlp.state (recordAccepted s s.wlp.partner) ∧ s.wlp.partner = s.wlp.partner ∧
      s.wlp.linkDown = (if s.wlp.state = .up then bump s.wlp.linkDown else s.wlp.linkDown) ∧ s.elp = s.elp ∧
      s.lineOut = s.lineOut ++ judgedSends .west s.wlp.state (ownWord s) [] ∧
      ((s.wlp.state = .train ∨ s.wlp.state = .up) → recordAccepted s s.wlp.partner = false →
        s.mu.events &&& EventKind.bit .linkMismatch ≠ 0) ∧
      (s.wlp.state = .up → s.mu.events &&& EventKind.bit .linkDown ≠ 0) := by
    rcases h with h | h | h <;> rw [h] <;>
      exact ⟨.refl s, rfl, rfl, rfl, rfl, nil _, (by rintro (x | x) <;> cases x), nofun⟩
  cases hs : s.wlp.state with
  | disabled => have := idle (.inl hs); simp only [hs] at this ⊢; exact this
  | silent => have := idle (.inr (.inl hs)); simp only [hs] at this ⊢; exact this
  | advertise => have := idle (.inr (.inr hs)); simp only [hs] at this ⊢; exact this
  | train =>
    dsimp only
    cases ok : recordAccepted s s.wlp.partner with
    | true =>
      rw [if_pos rfl]
      exact ⟨jw, rfl, vs.1, vs.2.1, vw.2.1, vw.2.2, nofun, nofun⟩
    | false =>
      rw [if_neg Bool.false_ne_true]
      have p := raise_posts .linkMismatch (wlpMismatch v)
      rw [p.wlp, p.elp, p.lineOut]
      exact ⟨jm.trans (raise_judging _ _), rfl, vs.2.2.1, vs.2.2.2, vw.2.1, vw.2.2, fun _ _ => raise_pending _ _, nofun⟩
  | up =>
    dsimp only
    cases ok : recordAccepted s s.wlp.partner with
    | true =>
      rw [if_pos rfl]
      obtain ⟨-, l1, l2, l3, -, -, -, l7⟩ := wlpLeft_spec rxMid (jw.quiet n)
      rw [l1, l2, l7]
      exact ⟨left _ jw, rfl, vs.1, congrArg bump vs.2.1, vw.2.1, vw.2.2, nofun, fun _ => l3⟩
    | false =>
      rw [if_neg Bool.false_ne_true]
      obtain ⟨-, l1, l2, l3, -, -, -, l7⟩ := wlpLeft_spec rxMid (jm.quiet n)
      have p := raise_posts .linkMismatch (wlpLeft rxMid (wlpMismatch v))
      rw [p.wlp, p.elp, p.lineOut, l1, l2, l7]
      exact ⟨(left _ jm).trans (raise_judging _ _), rfl, vs.2.2.1, congrArg bump vs.2.2.2, vw.2.1, vw.2.2, fun _ _ => raise_pending _ _,
        fun _ => (raise_judging _ _).events _ l3⟩
  | mismatch =>
    dsimp only
    cases ok : recordAccepted s s.wlp.partner with
    | true =>
      rw [if_pos rfl]
      exact ⟨jw, rfl, vs.1, vs.2.1, vw.2.1, vw.2.2, nofun, nofun⟩
    | false =>
      rw [if_neg Bool.false_ne_true, vw.1, vw.2.1, vw.2.2]
      exact ⟨jv, hs, rfl, rfl, rfl, rfl, (by rintro (x | x) <;> cases x), nofun⟩

/-- The leader judges its record against the new word. -/
theorem elpOwnWord_judged {s : State} (n : NoReset s) : Judging s (elpOwnWord s) ∧
    (elpOwnWord s).elp.state = judged s.elp.state (recordAccepted s s.elp.partner) ∧
    (elpOwnWord s).elp.partner = s.elp.partner ∧
    (elpOwnWord s).elp.linkDown = (if s.elp.state = .up then bump s.elp.linkDown else s.elp.linkDown) ∧
    (elpOwnWord s).elp.attempts = s.elp.attempts ∧ (elpOwnWord s).elp.ceiling = s.elp.ceiling ∧
    (s.elp.state = .train ∨ s.elp.state = .up ∨ s.elp.state = .mismatch → recordAccepted s s.elp.partner = true →
      (elpOwnWord s).elp.trial = some ⟨trialRate (partnerRates s.elp.partner) s.elp.ceiling, 0⟩) ∧
    (elpOwnWord s).wlp = s.wlp ∧
    (elpOwnWord s).lineOut = s.lineOut ++ judgedSends .east s.elp.state (ownWord s) (if recordAccepted s s.elp.partner
      then [.cap (ownWord s), .trial (trialRate (partnerRates s.elp.partner) s.elp.ceiling)] else []) ∧
    ((s.elp.state = .train ∨ s.elp.state = .up) → recordAccepted s s.elp.partner = false →
      (elpOwnWord s).mu.events &&& EventKind.bit .linkMismatch ≠ 0) ∧
    (s.elp.state = .up → (elpOwnWord s).mu.events &&& EventKind.bit .linkDown ≠ 0) := by
  have nil (l : List (Port × LineSymbol)) : l = l ++ [] := (List.append_nil l).symm
  obtain ⟨v, hv⟩ : ∃ v, v = sendSymbols .east [.cap (ownWord s)] s := ⟨_, rfl⟩
  have jv : Judging s v := by rw [hv]; exact ⟨fun n => n.congr rfl rfl, rfl, rfl, fun _ => id, rfl, rfl⟩
  have jt : Judging s (beginTrial v) := jv.trans ⟨fun n => n.congr rfl rfl, rfl, rfl, fun _ => id, rfl, rfl⟩
  have jm : Judging s (elpMismatch v) := jv.trans ⟨fun n => n.congr rfl rfl, rfl, rfl, fun _ => id, rfl, rfl⟩
  have bt : (beginTrial v).elp = { s.elp with
        state := .train, trial := some ⟨trialRate (partnerRates s.elp.partner) s.elp.ceiling, 0⟩ } ∧ (beginTrial v).wlp = s.wlp ∧
      (beginTrial v).lineOut = s.lineOut ++ ((.east, .cap (ownWord s)) ::
        [LineSymbol.cap (ownWord s), .trial (trialRate (partnerRates s.elp.partner) s.elp.ceiling)].map fun x => (Port.east, x)) := by
    rw [hv]
    refine ⟨rfl, rfl, ?_⟩
    show (s.lineOut ++ [(.east, .cap (ownWord s))]) ++ _ = _
    rw [List.append_assoc]
    rfl
  have mm : (elpMismatch v).elp = { s.elp with state := .mismatch, trial := none } ∧ (elpMismatch v).wlp = s.wlp ∧
      (elpMismatch v).lineOut = s.lineOut ++ [(.east, .cap (ownWord s))] := by
    rw [hv]
    exact ⟨rfl, rfl, rfl⟩
  unfold elpOwnWord
  dsimp only
  rw [← hv]
  have idle (h : s.elp.state = .disabled ∨ s.elp.state = .silent ∨ s.elp.state = .advertise) : Judging s s ∧
      s.elp.state = judged s.elp.state (recordAccepted s s.elp.partner) ∧ s.elp.partner = s.elp.partner ∧
      s.elp.linkDown = (if s.elp.state = .up then bump s.elp.linkDown else s.elp.linkDown) ∧ s.elp.attempts = s.elp.attempts ∧
      s.elp.ceiling = s.elp.ceiling ∧
      (s.elp.state = .train ∨ s.elp.state = .up ∨ s.elp.state = .mismatch → recordAccepted s s.elp.partner = true →
        s.elp.trial = some ⟨trialRate (partnerRates s.elp.partner) s.elp.ceiling, 0⟩) ∧ s.wlp = s.wlp ∧
      s.lineOut = s.lineOut ++ judgedSends .east s.elp.state (ownWord s) (if recordAccepted s s.elp.partner
        then [.cap (ownWord s), .trial (trialRate (partnerRates s.elp.partner) s.elp.ceiling)] else []) ∧
      ((s.elp.state = .train ∨ s.elp.state = .up) → recordAccepted s s.elp.partner = false →
        s.mu.events &&& EventKind.bit .linkMismatch ≠ 0) ∧
      (s.elp.state = .up → s.mu.events &&& EventKind.bit .linkDown ≠ 0) := by
    rcases h with h | h | h <;> rw [h] <;>
      exact ⟨.refl s, rfl, rfl, rfl, rfl, rfl, (by rintro (x | x | x) <;> cases x), rfl, nil _, (by rintro (x | x) <;> cases x), nofun⟩
  cases hs : s.elp.state with
  | disabled => have := idle (.inl hs); simp only [hs] at this ⊢; exact this
  | silent => have := idle (.inr (.inl hs)); simp only [hs] at this ⊢; exact this
  | advertise => have := idle (.inr (.inr hs)); simp only [hs] at this ⊢; exact this
  | train =>
    dsimp only
    cases ok : recordAccepted s s.elp.partner with
    | true =>
      rw [if_pos rfl, bt.1, bt.2.1, bt.2.2]
      exact ⟨jt, rfl, rfl, rfl, rfl, rfl, fun _ _ => rfl, rfl, rfl, nofun, nofun⟩
    | false =>
      rw [if_neg Bool.false_ne_true]
      have p := raise_posts .linkMismatch (elpMismatch v)
      rw [p.wlp, p.elp, p.lineOut, mm.1, mm.2.1, mm.2.2]
      exact ⟨jm.trans (raise_judging _ _), rfl, rfl, rfl, rfl, rfl, nofun, rfl, rfl, fun _ _ => raise_pending _ _, nofun⟩
  | up =>
    dsimp only
    cases ok : recordAccepted s s.elp.partner with
    | true =>
      rw [if_pos rfl]
      obtain ⟨-, l1, l2, -, -, -, -, l7, -, -, -, l11, -⟩ := elpLeft_spec (jt.quiet n) (by rw [bt.1]; nofun)
      rw [l1, l2, l11, bt.1, bt.2.1, bt.2.2]
      exact ⟨jt.trans (elpLeft_judging (jt.quiet n)), rfl, rfl, rfl, rfl, rfl, fun _ _ => rfl, rfl, rfl, nofun, fun _ => l7⟩
    | false =>
      rw [if_neg Bool.false_ne_true]
      obtain ⟨-, l1, l2, -, -, -, -, l7, -, -, -, l11, -⟩ := elpLeft_spec (jm.quiet n) (by rw [mm.1]; nofun)
      have p := raise_posts .linkMismatch (elpLeft (elpMismatch v))
      rw [p.wlp, p.elp, p.lineOut, l1, l2, l11, mm.1, mm.2.1, mm.2.2]
      exact ⟨(jm.trans (elpLeft_judging (jm.quiet n))).trans (raise_judging _ _), rfl, rfl, rfl, rfl, rfl, nofun, rfl, rfl,
        fun _ _ => raise_pending _ _, fun _ => (raise_judging _ _).events _ l7⟩
  | mismatch =>
    dsimp only
    cases ok : recordAccepted s s.elp.partner with
    | true =>
      rw [if_pos rfl, bt.1, bt.2.1, bt.2.2]
      exact ⟨jt, rfl, rfl, rfl, rfl, rfl, fun _ _ => rfl, rfl, rfl, nofun, nofun⟩
    | false =>
      rw [if_neg Bool.false_ne_true, hv]
      exact ⟨hv ▸ jv, hs, rfl, rfl, rfl, rfl, nofun, rfl, rfl, (by rintro (x | x) <;> cases x), nofun⟩

/-- Both ports at a new seed tag (R18). -/
theorem ownWordChange_judged (rxMid : Bool) (tag : Byte) {s : State} (n : NoReset s) (h : seedTag s.cl.seed ≠ tag) :
    Judging s (ownWordChange rxMid tag s) ∧ PortsJudged s (ownWordChange rxMid tag s) := by
  obtain ⟨w0, w1, w2, w3, w4, w5, w6, w7⟩ := wlpOwnWord_judged rxMid n
  have e : ownWordChange rxMid tag s = elpOwnWord (wlpOwnWord rxMid s) := if_neg h
  rw [e]
  generalize wlpOwnWord rxMid s = v at w0 w1 w2 w3 w4 w5 w6 w7
  obtain ⟨e0, e1, e2, e3, e4, e5, e6, e7, e8, e9, e10⟩ := elpOwnWord_judged (w0.quiet n)
  generalize elpOwnWord v = t at e0 e1 e2 e3 e4 e5 e6 e7 e8 e9 e10
  have acc : ∀ (x y : State) (p : Option CapWord), x.cl = y.cl → recordAccepted x p = recordAccepted y p := by
    intro x y p hc
    unfold recordAccepted accepts own
    rw [hc]
  have ow : ∀ x y : State, x.cl = y.cl → ownWord x = ownWord y := by
    intro x y hc
    unfold ownWord own
    rw [hc]
  rw [w4] at e1 e2 e3 e4 e5 e6 e8 e9 e10
  rw [acc v t _ e0.cl.symm] at e1 e6 e8 e9
  rw [ow v t e0.cl.symm] at e8
  rw [acc s t _ (w0.trans e0).cl.symm] at w1 w6
  rw [ow s t (w0.trans e0).cl.symm] at w5
  refine ⟨w0.trans e0, ⟨by rw [e7]; exact ⟨w1, w2, w3⟩, ⟨e1, e2, e3, e4, e5⟩, e6, ?_, ?_, ?_⟩⟩
  · rintro (⟨x, y⟩ | ⟨x, y⟩)
    · exact e0.events _ (w6 x y)
    · exact e9 x y
  · rintro (x | x)
    · exact e0.events _ (w7 x)
    · exact e10 x
  · rw [e8, w5]

end Sys2Proof.Machine
end

