-- ==== Sys2Proof/Laws/PresenceActs.lean ====
section
/-! SUPPORT. The report of a present node at the claim unit, with the absence before it where a node has restarted (R37, R150, R151). -/

namespace Sys2Proof.Machine

open Sys2Proof

theorem claimAppended_absences (m : ClaimMsg) (t : State) : (claimAppended m t).cu.c.absences = t.cu.c.absences := by
  unfold claimAppended
  dsimp only
  split
  · rfl
  · split
    · split
      · split <;> rfl
      · rfl
    · rfl

theorem pumpOutbox_absences (n : Nat) (t : State) : (pumpOutbox n t).cu.c.absences = t.cu.c.absences := by
  induction n generalizing t with
  | zero => rfl
  | succ n ih =>
    unfold pumpOutbox
    split
    · rfl
    · split
      · rfl
      · rename_i m ms _
        have p := (offerInsertion_posts ⟨claimFrame m t, false⟩ (t.setCu { t.cu with outbox := ms })).cu
        dsimp only
        split <;> rename_i u hu <;> rw [hu] at p
        · exact (ih _).trans ((claimAppended_absences m u).trans (by rw [p]; rfl))
        · show u.cu.c.absences = _
          rw [p]
          rfl

theorem autoShare_absences (i : Fin 16) {t : State} (h : t.pu.power = .active ∨ t.pu.power = .standby) :
    (autoShare i t).cu.c.absences = t.cu.c.absences := by
  rcases h with h | h
  · cases hk : t.cu.slots[i] with
    | none => rw [(autoShare_cases i h).1 hk]
    | some k =>
      by_cases hw : wantsShare t k
      · rw [((autoShare_cases i h).2 k hk).1 hw]
        exact pumpOutbox_absences _ _
      · rw [((autoShare_cases i h).2 k hk).2 hw]
  · unfold autoShare
    split
    · rfl
    · rw [if_neg (by rintro ⟨-, -, x, -⟩; rw [h] at x; cases x)]

/-- The slot that an address names has that address. -/
theorem slotOfAddr_addr {t : State} {a : Byte} {i : Fin 16} {k : Slot} (h : slotOfAddr t a = some i) (hk : t.cu.slots[i] = some k) :
    k.content.addr = a := by
  have := (findIndex_least h).1
  rw [hk] at this
  simpa using this

/-- The slot of an address depends on what the directory holds alone. -/
theorem slotOfAddr_set {t : State} {i : Fin 16} {k r : Slot} (hk : t.cu.slots[i] = some k) (hr : r.content = k.content) (a : Byte) {u : State}
    (hu : u.cu.slots = t.cu.slots.set i (some r)) : slotOfAddr u a = slotOfAddr t a := by
  unfold slotOfAddr findIndex
  congr 1
  funext j
  rw [hu]
  by_cases h : j = i
  · subst h
    simp only [Fin.getElem_fin, Vector.getElem_set_self]
    have hk : t.cu.slots[j.val] = some k := hk
    rw [hk]
    simp only [hr]
  · have ne : (i : Nat) ≠ j := fun x => h (Fin.ext x.symm)
    simp [Vector.getElem_set_ne, ne]

/-- The auto-share request of a slot whose node is present (R151). -/
theorem autoShare_present (i : Fin 16) {u : State} {r : Slot} (hr : u.cu.slots[i] = some r) (hp : nodePresent u r.content.addr = true) :
    (autoShare i u).cu.view = u.cu.view ∧
    (r.content.autoShare = true ∧ u.pu.power = .active ∧ r.held = .view ∧ r.request = none → ∀ j : Fin 16,
      claimOf (autoShare i u).cu.slots[j] =
        if j = i then some (r.content, .view, r.holder, r.outcome, some .shared) else claimOf u.cu.slots[j]) ∧
    (¬ (r.content.autoShare = true ∧ u.pu.power = .active ∧ r.held = .view ∧ r.request = none) → autoShare i u = u) := by
  have no : ¬ (r.content.autoShare = true ∧ u.pu.power = .active ∧ r.held = .view ∧ r.request = none) → autoShare i u = u := by
    intro h
    unfold autoShare
    rw [hr]
    dsimp only
    exact if_neg (by rintro ⟨h1, -, h3, h4, h5⟩; exact h ⟨h1, h3, h4, h5⟩)
  by_cases h : r.content.autoShare = true ∧ u.pu.power = .active ∧ r.held = .view ∧ r.request = none
  · obtain ⟨c1, c2, -, c4⟩ := autoShare_claims i h.2.1
    refine ⟨c1, fun _ j => ?_, fun x => absurd h x⟩
    split
    · rename_i hj
      subst hj
      exact (c4 r hr).1 ⟨h.1, hp, h.2.2.1, h.2.2.2⟩
    · rename_i hj
      exact c2 j hj
  · rw [no h]
    exact ⟨rfl, fun x => absurd x h, fun _ => rfl⟩

theorem nodePresent_set {u : State} {a : Byte} {n : Fin 62} {v : Vector Bool 62} (hn : nodeIndex a = some n) (hv : u.cu.view = v.set n true) :
    nodePresent u a = true := by
  unfold nodePresent
  rw [hn, hv]
  simp

theorem nodeIsPresent_unnamed {a : Byte} {n : Fin 62} (hn : nodeIndex a = some n) {t : State} (hi : slotOfAddr t a = none) :
    nodeIsPresent a t = t.setCu { t.cu with view := t.cu.view.set n true } := by
  have hi' : slotOfAddr (t.setCu { t.cu with view := t.cu.view.set n true }) a = none := hi
  unfold nodeIsPresent
  rw [hn]
  dsimp only
  rw [hi']

theorem nodeIsPresent_named {a : Byte} {n : Fin 62} (hn : nodeIndex a = some n) {t : State} {i : Fin 16} (hi : slotOfAddr t a = some i) :
    nodeIsPresent a t = autoShare i (claimReport none (t.setCu { t.cu with view := t.cu.view.set n true })) := by
  have hi' : slotOfAddr (t.setCu { t.cu with view := t.cu.view.set n true }) a = some i := hi
  unfold nodeIsPresent
  rw [hn]
  dsimp only
  rw [hi']

/-- The presence report, from a state in which the named slot has a record. -/
theorem nodeIsPresent_record {a : Byte} {n : Fin 62} (hn : nodeIndex a = some n) {t : State} {i : Fin 16} {r : Slot}
    (hi : slotOfAddr t a = some i) (hr : t.cu.slots[i] = some r) :
    (nodeIsPresent a t).cu.view = t.cu.view.set n true ∧ (nodeIsPresent a t).cu.c.absences = t.cu.c.absences ∧
    (r.content.autoShare = true ∧ t.pu.power = .active ∧ r.held = .view ∧ r.request = none → ∀ j : Fin 16,
      claimOf (nodeIsPresent a t).cu.slots[j] =
        if j = i then some (r.content, .view, r.holder, r.outcome, some .shared) else claimOf t.cu.slots[j]) ∧
    (¬ (r.content.autoShare = true ∧ t.pu.power = .active ∧ r.held = .view ∧ r.request = none) →
      (nodeIsPresent a t).cu.slots = t.cu.slots) := by
  rw [nodeIsPresent_named hn hi]
  have d := claimReport_delivers none (.refl (t.setCu { t.cu with view := t.cu.view.set n true }))
  generalize claimReport none (t.setCu { t.cu with view := t.cu.view.set n true }) = u at d
  have uc : u.cu = { t.cu with view := t.cu.view.set n true } := d.cu
  have up : u.pu = t.pu := d.pu
  have ur : u.cu.slots[i] = some r := by rw [uc]; exact hr
  obtain ⟨s1, s2, s3⟩ := autoShare_present i ur (by rw [slotOfAddr_addr hi hr]; exact nodePresent_set hn (by rw [uc]))
  rw [up] at s2 s3
  refine ⟨by rw [s1, uc], ?_, fun h j => ?_, fun h => by rw [s3 h, uc]⟩
  · rw [autoShare_absences i (by cases u.pu.power <;> simp), uc]
  · rw [s2 h j, uc]

/-- The first report of a node (R151). -/
theorem presenceReported {a : Byte} {n : Fin 62} (hn : nodeIndex a = some n) (t : State) :
    PresenceReported a n false t (nodeIsPresent a t) := by
  cases hi : slotOfAddr t a with
  | none =>
    refine ⟨by rw [nodeIsPresent_unnamed hn hi]; rfl, fun _ => by rw [nodeIsPresent_unnamed hn hi]; rfl, ?_⟩
    intro i k r h
    cases hi.symm.trans h
  | some i =>
    have hs : ∃ k, t.cu.slots[i] = some k := by
      have := (findIndex_least hi).1
      cases hk : t.cu.slots[i] with
      | none => rw [hk] at this; simp at this
      | some k => exact ⟨k, rfl⟩
    obtain ⟨k', hk'⟩ := hs
    refine ⟨(nodeIsPresent_record hn hi hk').1, (fun h => nomatch hi.symm.trans h), ?_⟩
    rintro j k r h hk rfl
    cases hi.symm.trans h
    obtain ⟨-, -, r3, r4⟩ := nodeIsPresent_record hn hi hk
    refine ⟨r3, fun h => (r4 h).trans ?_, nofun⟩
    have : t.cu.slots.set i t.cu.slots[i] = t.cu.slots := Vector.set_getElem_self ..
    exact (this.symm.trans (by rw [hk]))

/-- The report of a node that has restarted (R37, R150, R151). -/
theorem presenceReported_again {a : Byte} {n : Fin 62} (hn : nodeIndex a = some n) (t : State) :
    PresenceReported a n true t (nodeIsPresent a (nodeIsAbsent a t)) := by
  have view : (t.cu.view.set n false).set n true = t.cu.view.set n true := Vector.set_set ..
  cases hi : slotOfAddr t a with
  | none =>
    rw [nodeIsAbsent_none hn hi, nodeIsPresent_unnamed hn (by exact hi)]
    refine ⟨view, fun _ => rfl, ?_⟩
    intro i k r h
    cases hi.symm.trans h
  | some i =>
    have hs : ∃ k, t.cu.slots[i] = some k := by
      have := (findIndex_least hi).1
      cases hk : t.cu.slots[i] with
      | none => rw [hk] at this; simp at this
      | some k => exact ⟨k, rfl⟩
    obtain ⟨k, hk⟩ := hs
    rw [nodeIsAbsent_some hn hi hk]
    have hv : (t.setCu { t.cu with view := t.cu.view.set n false }).cu = { t.cu with view := t.cu.view.set n false } := rfl
    have ac := absentSlot_cu i k (t.setCu { t.cu with view := t.cu.view.set n false })
    have ap := absentSlot_pu i k (t.setCu { t.cu with view := t.cu.view.set n false })
    have ae := absentSlot_events i k (t.setCu { t.cu with view := t.cu.view.set n false })
    generalize absentSlot i k (t.setCu { t.cu with view := t.cu.view.set n false }) = u at ac ap ae
    rw [hv] at ac
    have d := claimReport_delivers none (.refl u)
    have ke := claimReport_keeps none (.refl u)
    generalize claimReport none u = w at d ke
    have ws : w.cu.slots = t.cu.slots.set i (some { k with request := none, held := .view, holder := none }) := by rw [d.cu, ac]
    have wi : slotOfAddr w a = some i := (slotOfAddr_set hk (r := { k with request := none, held := .view, holder := none }) rfl a ws).trans hi
    have wr : w.cu.slots[i] = some { k with request := none, held := .view, holder := none } := by rw [ws]; simp
    obtain ⟨r1, r2, r3, r4⟩ := nodeIsPresent_record hn wi wr
    have wp : w.pu = t.pu := d.pu.trans ap
    have ev := (nodeIsPresent_keeps a (.refl w)).events
    rw [wp] at r3 r4
    refine ⟨?_, (fun h => nomatch hi.symm.trans h), ?_⟩
    · rw [r1, d.cu, ac]
      exact view
    · rintro j k' r h hk' rfl
      cases hi.symm.trans h
      cases hk.symm.trans hk'
      refine ⟨fun h j => ?_, fun h => (r4 h).trans ws, fun _ => ⟨?_, ?_, fun hh => ?_⟩⟩
      · rw [r3 h j]
        split
        · rfl
        · rename_i hj
          have ne : (i : Nat) ≠ j := fun x => hj (Fin.ext x.symm)
          rw [ws]
          simp [Vector.getElem_set_ne, ne]
      · rw [r2, d.cu, ac]
      · exact ev _ (ke.events _ ae.1)
      · exact ev _ (ke.events _ (ae.2 hh))

end Sys2Proof.Machine
end

