-- ==== Sys2Proof/Laws/SourceAnswers.lean ====
section
/-! SUPPORT. A report of the claim unit at the focus unit, and what a GRANT, a DENY and a REVOKE do to the record of their slot (R105,
R145 to R148). -/

namespace Sys2Proof.Machine

open Sys2Proof

/-! ## The report of a changed claim (R105) -/

/-- What a re-evaluation comes to depends on the state only through what it reads. -/
theorem FocusReevaluated.congr {s s' t : State} (h : FocusReevaluated s t) (v : SameView s' s) (hf : s.fu = s'.fu) (hi : s.iu = s'.iu) :
    FocusReevaluated s' t := by
  have ht : targetAtPointer s = targetAtPointer s' := v.target (by rw [hf]) (by rw [hf])
  refine ⟨fun f a b => ?_, fun f w a b c d => ?_, fun a b => ?_, fun f a b c d e => ?_, fun k p a b => ?_⟩
  · have r := h.lost f (by rw [hf]; exact a) (by rw [v.holds]; exact b)
    rwa [ht, hf] at r
  · have r := h.locked f w (by rw [hf]; exact a) (by rw [hf]; exact b) (by rw [v.window]; exact c) (by rw [v.holds]; exact d)
    rwa [v.cp, hf] at r
  · have r := h.clear (by rw [hf]; exact a) (by rw [hi]; exact b)
    rwa [ht, hf] at r
  · have r := h.drag f (by rw [hf]; exact a) (by rw [hf]; exact b) (by rw [v.holds]; exact c) (by rw [hi]; exact d) (by rw [hi]; exact e)
    rwa [hf] at r
  · refine h.reported k p (by rw [hi]; exact a) ?_
    have sv : SameView (s'.setFu t.fu) (s.setFu t.fu) := ⟨v.sr, v.cp, v.cu, v.power⟩
    exact (sv.point rfl rfl rfl).trans b

/-- What the report comes to, with and without the lock that a GRANT of EXCLUSIVE may set. -/
theorem claimReported (c : Option (Fin 16)) (s : State) : ClaimReported c s (claimReport c s) := by
  have vw : SameView s (fuReevaluate s) := .of (fuReevaluate_delivers (.refl s)) (fuReevaluate_keeps (.refl s))
  refine ⟨fuReevaluate s, focusReevaluated s, fun h => ?_, fun f w hf hc hw hh => ?_⟩
  · unfold claimReport
    dsimp only
    split
    · rename_i k f hf
      rw [if_neg fun e => h f hf (by rw [e])]
    · rfl
  · have e : claimReport c s = requestPosition ((fuReevaluate s).setFu { (fuReevaluate s).fu with
        lock := true, accum := 0, x := (limitTo s.cp.heads[f.head] w (fuReevaluate s).fu.x (fuReevaluate s).fu.y).1,
        y := (limitTo s.cp.heads[f.head] w (fuReevaluate s).fu.x (fuReevaluate s).fu.y).2 }) := by
      unfold claimReport
      dsimp only
      rw [hc, hf]
      dsimp only
      rw [if_pos rfl]
      refine congrArg requestPosition ((confine_fu _ _ (f := f) (w := w) rfl ?_).trans ?_)
      · exact (vw.window f).trans hw
      · rw [← vw.cp]
        rfl
    obtain ⟨x1, x2, x3, x4⟩ := confined_locked (s := fuReevaluate s) (fuReevaluate s).fu.x (fuReevaluate s).fu.y
      { (fuReevaluate s).fu with
        lock := true, accum := 0, x := (limitTo s.cp.heads[f.head] w (fuReevaluate s).fu.x (fuReevaluate s).fu.y).1,
        y := (limitTo s.cp.heads[f.head] w (fuReevaluate s).fu.x (fuReevaluate s).fu.y).2 }
      ((vw.window f).trans hw) ((vw.holds f).trans hh) hf rfl (by rw [vw.cp]) (by rw [vw.cp])
    rw [e]
    refine ⟨x1, x2, x4 rfl, by rw [x3, vw.cp], fun k p ho hp => ?_⟩
    have hn : anyOwned (fuReevaluate s) = false := by
      obtain ⟨u, hu, -, hn⟩ := fuReevaluate_ends s
      rw [hu]
      exact anyOwned_mono (requestPosition_hands (hn (anyOwned_false.2 ho))).owners (hn (anyOwned_false.2 ho))
    obtain ⟨v, hv⟩ : ∃ v : Fu, v = { (fuReevaluate s).fu with
        lock := true, accum := 0, x := (limitTo s.cp.heads[f.head] w (fuReevaluate s).fu.x (fuReevaluate s).fu.y).1,
        y := (limitTo s.cp.heads[f.head] w (fuReevaluate s).fu.x (fuReevaluate s).fu.y).2 } := ⟨_, rfl⟩
    rw [← hv] at hp ⊢
    have r := requestPosition_fu (s := (fuReevaluate s).setFu v) (.inl hn)
    have sv : SameView (s.setFu (requestPosition ((fuReevaluate s).setFu v)).fu) ((fuReevaluate s).setFu v) :=
      ⟨vw.sr, vw.cp, vw.cu, vw.power⟩
    rw [← sv.point (by show v.focus = (requestPosition _).fu.focus; rw [r]; rfl)
      (by show v.x = (requestPosition _).fu.x; rw [r]; rfl) (by show v.y = (requestPosition _).fu.y; rw [r]; rfl)] at hp
    rw [r, hp]
    rfl

/-! ## The outbox (R141) -/

/-- A RELEASE queued, in the words of the statements. -/
theorem queueRelease_releasing (i : Fin 16) (l : Level) (a : Byte) (s : State) : queueRelease i l a s = releasing i l a s := by
  have hm : inOutbox .release i (removeRequest i s) = true ↔ ∃ m ∈ s.cu.outbox, m.kind = .release ∧ m.slot = i := by
    rw [inOutbox_iff]
    show (∃ m ∈ s.cu.outbox.filter _, _) ↔ _
    constructor
    · rintro ⟨m, h, k⟩
      exact ⟨m, (List.mem_filter.1 h).1, k⟩
    · rintro ⟨m, h, k⟩
      exact ⟨m, List.mem_filter.2 ⟨h, by simp [k.1]⟩, k⟩
  unfold queueRelease releasing withRelease
  dsimp only
  by_cases h : inOutbox .release i (removeRequest i s) = true
  · rw [if_pos h, if_pos (hm.1 h), if_pos (show ∃ m ∈ s.cu.outbox.filter _, _ from (inOutbox_iff _ _ _).1 h)]
    rfl
  · rw [if_neg h, if_neg (fun x => h (hm.2 x)), if_neg (fun x : ∃ m ∈ s.cu.outbox.filter _, _ => h ((inOutbox_iff _ _ _).2 x))]
    rfl

theorem releasing_quiet (i : Fin 16) (l : Level) (a : Byte) {s : State} (h : NoReset s) : NoReset (releasing i l a s) := by
  rw [← queueRelease_releasing]
  exact (queueRelease_keeps i l a (.refl s)).quiet h

/-! ## The answers (R145 to R148) -/

theorem answers_iff (k : Slot) (l : Level) : answers k l = true ↔ ∃ d, k.request = some ⟨l, some d⟩ := by
  unfold answers
  rcases k.request with _ | ⟨r, _ | d⟩ <;> simp

/-- The holder after a frame's holder field is taken (R140). -/
theorem holderTaken_field (s : State) (l : Level) (b : Byte) (old : Option Byte) : holderTaken s l (holderField b) old =
    if l = .exclusive then old else if nodeInRange b = true ∧ b ≠ own s then some b else none := by
  unfold holderTaken holderField
  by_cases h : nodeInRange b = true
  · by_cases k : b = own s
    · subst k
      by_cases e : l = .exclusive <;> simp [e]
    · simp [h, k]
  · simp [h]

theorem lower_lt {l m : Level} (h : Level.rank l < Level.rank m) : Level.lower l m = l ∧ l ≠ .exclusive := by
  cases l <;> cases m <;> first | exact absurd h (by decide) | exact ⟨rfl, by decide⟩

theorem lower_le {l m : Level} (h : Level.rank m ≤ Level.rank l) : Level.lower l m = m := by
  cases l <;> cases m <;> first | rfl | exact absurd h (by decide)

/-- A change of the claim unit alone, its event raised, is reported: the focus is re-evaluated, and the claim unit keeps what it holds. -/
theorem changeReported (c : Option (Fin 16)) {u v : State} (kv : Keeps u v) (po : Posts (u.setCu v.cu) v)
    (ev : v.mu.events &&& EventKind.bit .claimChange ≠ 0) :
    (claimReport c v).cu = v.cu ∧ (claimReport c v).mu.events &&& EventKind.bit .claimChange ≠ 0 ∧ Keeps u (claimReport c v) ∧
      ClaimReported c (u.setCu (claimReport c v).cu) (claimReport c v) := by
  have ct := (claimReport_delivers c (.refl v)).cu
  refine ⟨ct, (claimReport_keeps c (.refl v)).events _ ev, claimReport_keeps c kv, ?_⟩
  have vw : SameView (u.setCu (claimReport c v).cu) v := ⟨po.sr, po.cp, ct.symm, congrArg Pu.power po.pu⟩
  obtain ⟨x, x1, x2, x3⟩ := claimReported c v
  refine ⟨x, x1.congr vw po.fu po.iu, x2, fun f w a b d e => ?_⟩
  obtain ⟨y1, y2, y3, y4, y5⟩ := x3 f w a b (by rw [vw.window]; exact d) (by rw [vw.holds]; exact e)
  refine ⟨y1, y2, y3, by rw [y4, vw.cp], fun k p ho hp => y5 k p (by rw [po.iu]; exact ho) ?_⟩
  have sv : SameView ((u.setCu (claimReport c v).cu).setFu (claimReport c v).fu) (v.setFu (claimReport c v).fu) :=
    ⟨vw.sr, vw.cp, vw.cu, vw.power⟩
  exact (sv.point rfl rfl rfl).trans hp

/-- What a GRANT, a DENY and a REVOKE come to. -/
theorem answer_acts {i : Fin 16} {k : Slot} (kind : Byte) (l : Level) (b : Byte) {u : State} (n : NoReset u) (hk : u.cu.slots[i] = some k) :
    AnswerActs i k kind l b u (completed
      (if kind = 3 then grant i k l u else if kind = 4 then deny i k l (holderField b) u else revoke i k l (holderField b) u)) := by
  have na (h : ∀ d, k.request ≠ some ⟨l, some d⟩) : ¬ answers k l = true := fun a => by
    obtain ⟨d, hd⟩ := (answers_iff k l).1 a
    exact h d hd
  have q (x : Cu) : NoReset (u.setCu x) := n.congr rfl rfl
  refine ⟨fun e h => ?_, fun e h r => ?_, fun e h r => ?_, fun e h => ?_, fun e h => ?_, fun e r => ?_, fun e r => ?_⟩ <;> subst e
  · obtain ⟨r, hr⟩ : ∃ r : Slot, r = { k with
        held := l, request := none, holder := if l = .exclusive then some (own u) else k.holder, outcome := .granted } := ⟨_, rfl⟩
    have po := raise_posts .claimChange (setSlot i (some r) u)
    obtain ⟨v, hv⟩ : ∃ v, v = countCu (fun c => { c with grants := bump c.grants }) (raise .claimChange (setSlot i (some r) u)) := ⟨_, rfl⟩
    have cu : v.cu = { u.cu with slots := u.cu.slots.set i (some r), c := { u.cu.c with grants := bump u.cu.c.grants } } := by
      rw [hv]
      unfold countCu
      rw [State.setCu_cu, po.cu]
      rfl
    obtain ⟨x1, x2, x3, x4⟩ := changeReported (if l = .exclusive ∧ k.content.confine = true then some i else none) (u := u) (v := v)
      (by rw [hv]; exact countCu_keeps _ (raise_keeps (setSlot_keeps i _ (.refl u)) .claimChange))
      (by
        subst hv
        exact { po with cu := rfl })
      (by rw [hv]; exact raise_pending _ _)
    have e : grant i k l u = claimReport (if l = .exclusive ∧ k.content.confine = true then some i else none) v := by
      unfold grant
      rw [if_pos ((answers_iff k l).2 h), hv, hr]
    rw [if_pos rfl, e]
    exact ⟨r, _, hr, completed_next (x3.quiet n), x1.trans cu, x2, x3.same, x4⟩
  · rw [if_pos rfl]
    unfold grant
    rw [if_neg (na h)]
    dsimp only
    rw [if_neg (by omega)]
    exact completed_next (q _)
  · rw [if_pos rfl]
    unfold grant
    rw [if_neg (na h)]
    dsimp only
    rw [if_pos r, queueRelease_releasing]
    have qr {x : State} (h : NoReset x) : completed (releasing i k.held k.content.addr x) =
        .next (releasing i k.held k.content.addr x) := completed_next (releasing_quiet i _ _ h)
    by_cases w : inOutbox .request i (countCu (fun c => { c with unsolicited := bump c.unsolicited }) u) = true
    · have w' : ∃ m ∈ u.cu.outbox, m.kind = .request ∧ m.slot = i := (inOutbox_iff _ _ _).1 w
      rw [if_pos w, if_pos w']
      exact qr (q _)
    · rw [if_neg w, if_neg (show ¬ ∃ m ∈ u.cu.outbox, _ from fun x => w ((inOutbox_iff _ _ _).2 x))]
      exact qr (q _)
  · rw [if_neg (by decide), if_pos rfl]
    unfold deny
    rw [if_pos ((answers_iff k l).2 h), holderTaken_field]
    exact completed_next (q _)
  · rw [if_neg (by decide), if_pos rfl]
    unfold deny
    rw [if_neg (na h)]
    exact completed_next (q _)
  · obtain ⟨r', hr⟩ : ∃ r' : Slot, r' = { k with
        held := l, outcome := .revoked, holder := if nodeInRange b = true ∧ b ≠ own u then some b else none } := ⟨_, rfl⟩
    have po := raise_posts .claimChange (countCu (fun c => { c with revokes := bump c.revokes }) (setSlot i (some r') u))
    obtain ⟨v, hv⟩ : ∃ v, v = raise .claimChange (countCu (fun c => { c with revokes := bump c.revokes }) (setSlot i (some r') u)) := ⟨_, rfl⟩
    have cu : v.cu = { u.cu with slots := u.cu.slots.set i (some r'), c := { u.cu.c with revokes := bump u.cu.c.revokes } } := by
      rw [hv, po.cu]
      rfl
    obtain ⟨x1, x2, x3, x4⟩ := changeReported none (u := u) (v := v)
      (by rw [hv]; exact raise_keeps (countCu_keeps _ (setSlot_keeps i _ (.refl u))) .claimChange)
      (by
        subst hv
        exact { po with cu := rfl })
      (by rw [hv]; exact raise_pending _ _)
    obtain ⟨lo, ne⟩ := lower_lt r
    have e : revoke i k l (holderField b) u = claimReport none v := by
      unfold revoke
      dsimp only
      rw [if_pos r, if_pos r, lo, holderTaken_field, if_neg ne, hv, hr]
    rw [if_neg (show ¬ (5 : Byte) = 3 by decide), if_neg (show ¬ (5 : Byte) = 4 by decide), e]
    exact ⟨r', _, hr, completed_next (x3.quiet n), x1.trans cu, x2, x3.same, x4⟩
  · rw [if_neg (by decide), if_neg (by decide)]
    unfold revoke
    dsimp only
    rw [if_neg (by omega), if_neg (by omega), lower_le r, holderTaken_field]
    exact completed_next (q _)

end Sys2Proof.Machine
end

