-- ==== Sys2Proof/Laws/StreamForms.lean ====
section
/-! SUPPORT. What an operation of the stream receiver comes to: a new stream table, and at most one event. It depends on the table
alone. -/

namespace Sys2Proof.Machine

open Sys2Proof

/-- One event raised, or none. -/
def raiseOpt (k : Option EventKind) (s : State) : State :=
  match k with
  | some k => raise k s
  | none => s

/-- Two states with one stream table, after the same operation of the stream receiver: the same new table, the same event. -/
def SrForm (t u t' u' : State) : Prop := ∃ v k, t' = raiseOpt k (t.setSr v) ∧ u' = raiseOpt k (u.setSr v)

theorem setEntry_form (i : Fin 32) (e : Option StreamEntry) {t u : State} (h : t.sr = u.sr) :
    SrForm t u (setEntry i e t) (setEntry i e u) :=
  ⟨_, none, rfl, by unfold setEntry; rw [h]; rfl⟩

theorem storeStrip_form (i : Fin 32) (e : StreamEntry) (a : Assembly) (n : Nat) (px : List Colour) {t u : State}
    (h : t.sr = u.sr) : SrForm t u (storeStrip i e a n px t) (storeStrip i e a n px u) := by
  unfold storeStrip complete setEntry
  dsimp only
  repeat' split
  all_goals first
    | exact ⟨_, some .streamLive, rfl, by rw [h]; rfl⟩
    | exact ⟨_, none, rfl, by rw [h]; rfl⟩

theorem stripAt_form (i : Fin 32) (e : StreamEntry) (st : Strip) {t u : State} (h : t.sr = u.sr) :
    SrForm t u (stripAt i e st t) (stripAt i e st u) := by
  unfold stripAt beginAssembly
  dsimp only
  split
  · exact setEntry_form _ _ h
  · split
    · split
      · exact ⟨_, some .geometryMismatch, rfl, by unfold setEntry; rw [h]; rfl⟩
      · exact setEntry_form _ _ h
    · split
      · exact setEntry_form _ _ h
      · split
        · exact setEntry_form _ _ h
        · split
          · split
            · split
              · exact setEntry_form _ _ h
              · exact storeStrip_form _ _ _ _ _ h
            · exact storeStrip_form _ _ _ _ _ h
          · exact storeStrip_form _ _ _ _ _ h

/-- An offered STRIP. -/
theorem offerStrip_form (p : List Byte) {t u : State} (h : t.sr = u.sr) : SrForm t u (offerStrip p t) (offerStrip p u) := by
  have idx (id : Nat) : streamIndex u id = streamIndex t id := by unfold streamIndex; rw [h]
  have same : SrForm t u t u := ⟨t.sr, none, rfl, by rw [h]; rfl⟩
  unfold offerStrip
  split
  · exact same
  · rw [idx]
    split
    · exact same
    · rw [h]
      split
      · exact stripAt_form _ _ _ h
      · exact same

/-- What such an operation leaves alone: every block but the stream receiver, the ring forwarder and the management unit. -/
theorem raiseOpt_keeps (k : Option EventKind) (t : State) : Keeps t (raiseOpt k t) := by
  unfold raiseOpt
  split
  · exact raise_keeps (.refl t) _
  · exact .refl t

theorem raiseOpt_posts (k : Option EventKind) (t : State) : Posts t (raiseOpt k t) := by
  unfold raiseOpt
  split
  · exact raise_posts _ t
  · exact .refl t

end Sys2Proof.Machine
end

