-- ==== Sys2Proof/Tests/Slice0.lean ====
section
/-! SUPPORT. The tests: the ill-formed commands that the checks refuse, a state that meets the hypotheses of every statement, and
worked steps. -/

namespace Sys2Proof.Tests

open Sys2Proof Sys2Proof.Machine

/-! The tests are elaborated one after the other: many small theorems at once take a thread and its stack each. -/
set_option Elab.async false

/-! ## Well-formed commands -/

theorem test_cap_needs_a_rate :
    (Instr.capTaken .west ⟨⟨false, false, false⟩, 9, .source, 0⟩ false).wellFormed = false ∧
      (Instr.capTaken .west ⟨⟨false, false, true⟩, 9, .source, 0⟩ false).wellFormed = true := by decide

theorem test_absence_address : (Instr.absenceTimerExpires 0).wellFormed = false ∧
    (Instr.absenceTimerExpires 63).wellFormed = false ∧ (Instr.absenceTimerExpires 62).wellFormed = true := by decide

theorem test_key_usage : (Instr.deskKeyDown 0).wellFormed = false ∧ (Instr.deskKeyUp 0).wellFormed = false ∧
    (Instr.deskKeyDown 1).wellFormed = true ∧ (Instr.deskKeyUp 255).wellFormed = true := by decide

theorem test_button_number : (Instr.deskButtonPress 0).wellFormed = false ∧ (Instr.deskButtonRelease 6).wellFormed = false ∧
    (Instr.deskButtonPress 5).wellFormed = true ∧ (Instr.deskButtonRelease 1).wellFormed = true := by decide

theorem test_motion_range : (Instr.deskMotion 2048 0).wellFormed = false ∧ (Instr.deskMotion 0 (-2049)).wellFormed = false ∧
    (Instr.deskMotion 2047 (-2048)).wellFormed = true := by decide

theorem test_wheel_range : (Instr.deskWheel 0x80 0).wellFormed = false ∧ (Instr.deskWheel 0 0x80).wellFormed = false ∧
    (Instr.deskWheel 0x81 0x7F).wellFormed = true := by decide

/-! ## Small states -/

/-- A desk in RUNNING and ACTIVE at address 5, its links out of service. -/
def base : State :=
  { State.reset with cl := { State.reset.cl with ownAddress := 5, loader := .running, cold := false } }

/-- A partner's word that `base` accepts, and one that it does not. -/
def word : CapWord := ⟨⟨false, true, true⟩, 9, .source, 0x11⟩
def alien : CapWord := ⟨⟨true, true, true⟩, 9, .source, 0x12⟩

/-- `base` with both ports in a state and a partner record. -/
def ports (st : PortState) (p : Option CapWord) : State :=
  { base with wlp := { base.wlp with state := st, partner := p }, elp := { base.elp with state := st, partner := p } }

/-- `base` with both ports UP at HALF. -/
def linked : State :=
  { base with
    wlp := { base.wlp with state := .up, partner := some word, agreed := some .half },
    elp := { base.elp with state := .up, partner := some word, agreed := some .half }, rf := { base.rf with ring := .open } }

/-- `linked` with the ring forwarder changed. -/
def ringed (f : Rf → Rf) : State := { linked with rf := f linked.rf }

/-- A frame of node 9 to node 7, and one to this node. -/
def passing : Frame := ⟨kindInput, 7, 9, 3, []⟩
def stripFrame : Frame := ⟨kindStrip, allNodes, 9, 3, []⟩

theorem quiet {s : State} (m : s.mu = muStart) (q : s.rf.insQ = []) : NoReset s :=
  ⟨by rw [m]; exact ⟨rfl, nofun, nofun, nofun⟩, by rw [q]; exact nofun⟩

theorem quiet_full {s : State} (m : s.mu = muStart) {n : Nat} {f : Frame} (q : s.rf.insQ = List.replicate n ⟨f, false⟩) :
    NoReset s :=
  ⟨by rw [m]; exact ⟨rfl, nofun, nofun, nofun⟩, by
    rw [q]; intro e he; rw [(List.mem_replicate.1 he).2]⟩

theorem heard (s : State) (f : Frame) (h : s.wlp.state = .up ∧ s.wlp.badFrames = 0 ∧ f.payload.length ≤ 65535) : Heard s f :=
  ⟨h.1, by rw [h.2.1]; decide, h.2.2⟩

theorem arrives (s : State) (f : Frame)
    (h : (s.wlp.state = .up ∧ s.wlp.badFrames = 0 ∧ f.payload.length ≤ 65535) ∧ f.origin ≠ own s ∧ f.hop ≠ 0) : Arrives s f :=
  ⟨heard s f h.1, h.2.1, h.2.2⟩

/-! ## Witnesses: links -/

theorem test_witness_step : (base.setPending [.lossTaken, .goTaken .west]).pending = [.lossTaken, .goTaken .west] := by decide

theorem test_witness_idle : base.pending = [] ∧ owed base = [] ∧
    owed { linked with wlp := { linked.wlp with badFrames := 16 } } ≠ [] := by decide

theorem test_witness_soft_reset : linked.cl.loader = .running ∧ State.reset.cl.loader = .loading ∧ State.reset.mu.resetDue = false ∧
    (∀ st ∈ [SaveState.idle, .writingLayout, .writingDesk],
      { linked with cl := { linked.cl with save := st } }.cl.loader = .running) := by decide

theorem test_witness_energy : base.mu.resetDue = false ∧ (ports .silent none).wlp.state = .silent ∧
    (ports .advertise none).elp.state ≠ .silent := by decide

theorem test_witness_energy_lost : NoReset linked ∧ linked.wlp.state = .up ∧ linked.elp.state = .up ∧
    (ports .advertise none).wlp.state = .advertise ∧ (ports .mismatch (some alien)).elp.state = .mismatch :=
  ⟨quiet rfl rfl, by decide⟩

/-- `base` in SILENT with both energy-loss timers running. -/
def silentPorts : State :=
  { base with
    wlp := { base.wlp with state := .silent, silence := some 0, agreed := some .full },
    elp := { base.elp with state := .silent, silence := some 0, agreed := some .full, ceiling := .quarter, attempts := 3 } }

theorem test_witness_silence : silentPorts.mu.resetDue = false ∧ silentPorts.wlp.state = .silent ∧
    silentPorts.wlp.silence.isSome = true ∧ silentPorts.elp.state = .silent ∧ silentPorts.elp.silence.isSome = true ∧
    base.wlp.silence = none ∧ base.elp.silence = none := by decide

theorem test_witness_word : accepts base word = true ∧ accepts base alien = false ∧
    accepts base { word with address := 62 } = true ∧ accepts base { word with address := 63 } = false ∧
    accepts base { word with address := 0 } = false ∧ accepts base { word with address := 5 } = false := by decide

theorem test_witness_trial_rate : word.rates.nonempty = true ∧ trialRate word.rates .full = .half ∧
    trialRate word.rates .quarter = .quarter ∧ trialRate ⟨true, false, false⟩ .quarter = .full := by decide

theorem test_witness_cap : NoReset linked ∧ capStored (ports .advertise none).wlp.state false = true ∧
    accepts (ports .advertise none) word = true ∧ accepts (ports .advertise none) alien = false ∧
    linked.wlp.partner ≠ some alien ∧ (ports .mismatch (some alien)).elp.state = .mismatch := ⟨quiet rfl rfl, by decide⟩

theorem test_witness_follower : ∃ s : State, NoReset s ∧ s.wlp.state = .train ∧ s.wlp.target = some .half ∧ s.wlp.locked = true ∧
    linked.wlp.state = .up ∧ base.wlp.locked = false :=
  ⟨{ base with wlp := { base.wlp with state := .train, partner := some word, target := some .half, locked := true } },
    quiet rfl rfl, by decide⟩

/-- `base` with the ELP in a trial at HALF, the attempt counter at `n`. -/
def trying (n : Nat) : State :=
  { base with elp := { base.elp with state := .train, partner := some word, trial := some ⟨.half, 0⟩, attempts := n } }

theorem test_witness_lock : NoReset (trying 0) ∧ (trying 0).elp.state = .train ∧
    (trying 0).elp.trial.map (·.rate) = some .half ∧ (trying 0).elp.trial.map (·.rate) ≠ some .full ∧
    (trying 0).cl.loader = .running := ⟨quiet rfl rfl, by decide⟩

theorem test_witness_leader : NoReset linked ∧ linked.elp.state = .up ∧ linked.elp.agreed = some .half ∧ base.elp.state ≠ .up :=
  ⟨quiet rfl rfl, by decide⟩

theorem test_witness_follower_leaves : ∃ s : State, NoReset s ∧ s.wlp.state = .up ∧ s.wlp.badFrames = 16 ∧ base.wlp.state ≠ .up :=
  ⟨{ linked with wlp := { linked.wlp with badFrames := 16 } }, quiet rfl rfl, by decide⟩

theorem test_witness_failed_trial : NoReset (trying 3) ∧ (trying 3).elp.state = .train ∧ (trying 3).elp.trial = some ⟨.half, 0⟩ ∧
    ¬ (trying 3).elp.attempts + 1 < (trying 3).desk.downshift ∧ (trying 2).elp.attempts + 1 < (trying 2).desk.downshift :=
  ⟨quiet rfl rfl, by decide⟩

/-! ## Witnesses: frames -/

/-- A frame with a payload of no bytes whose CRC field is `c`. -/
def rawFrame (c : List Byte) : List Byte := [2, 7, 9, 3, 0, 0] ++ c

theorem test_witness_sent_frame : passing.payload.length ≤ 65535 := by decide

theorem test_witness_damaged_frame : linked.mu.resetDue = false ∧ linked.wlp.state = .up ∧ linked.wlp.badFrames ≠ 16 ∧
    (rawFrame []).length ≠ at16 (rawFrame []) 4 + 10 ∧ (rawFrame [0, 0, 0, 0]).length = at16 (rawFrame [0, 0, 0, 0]) 4 + 10 ∧
    be32 (crc linked.cl.seed ((rawFrame [0, 0, 0, 0]).take 6)) ≠ (rawFrame [0, 0, 0, 0]).drop 6 ∧ base.wlp.state ≠ .up := by
  decide +kernel

/-- The fifteenth and the sixteenth bad frame in a row, and the frame after it. -/
theorem test_witness_error_burst : ∀ n ∈ [14, 15, 16], ∃ s : State, s.mu.resetDue = false ∧ s.wlp.state = .up ∧ s.wlp.badFrames = n ∧
    ∃ t, exec (.frameReceived []) s = .next t ∧ t.wlp.badFrames = (if n = 16 then 0 else n + 1) ∧
      t.wlp.state = (if n = 16 then .train else .up) := by
  intro n hn
  refine ⟨{ linked with wlp := { linked.wlp with badFrames := n } }, ?_⟩
  revert n
  exact List.forall_mem_cons.2 ⟨⟨rfl, rfl, rfl, _, rfl, by decide +kernel⟩, List.forall_mem_cons.2 ⟨⟨rfl, rfl, rfl, _, rfl, by decide +kernel⟩,
    List.forall_mem_cons.2 ⟨⟨rfl, rfl, rfl, _, rfl, by decide +kernel⟩, nofun⟩⟩⟩

theorem test_witness_orphan : ∃ f : Frame, linked.mu.resetDue = false ∧ Heard linked f ∧ f.origin ≠ own linked ∧ f.hop = 0 :=
  ⟨{ passing with hop := 0 }, by decide, heard _ _ (by decide), by decide⟩

theorem test_witness_own_frame : NoReset linked ∧
    (∃ f, Heard linked f ∧ f.origin = own linked ∧ f.kind ≠ kindBeacon) ∧
    (∃ f, Heard linked f ∧ f.origin = own linked ∧ f.kind = kindBeacon ∧ linked.elp.state = .up ∧
      f.payload = [2, 1, 128, 0, 0x11] ∧ nodeIndex (own linked) = some 4) :=
  ⟨quiet rfl rfl, ⟨{ passing with origin := 5 }, heard _ _ (by decide), by decide⟩,
    ⟨⟨kindBeacon, allNodes, 5, 1, [2, 1, 128, 0, 0x11]⟩, heard _ _ (by decide), by decide⟩⟩

theorem test_witness_elsewhere : NoReset linked ∧ Arrives linked passing ∧ passing.kind ≠ kindStrip ∧
    passing.dest ≠ own linked ∧ passing.dest ≠ allNodes ∧ linked.elp.state = .up ∧ linked.rf.passQ.length < 8 ∧
    (∃ s, NoReset s ∧ Arrives s passing ∧ s.elp.state ≠ .up) :=
  ⟨quiet rfl rfl, arrives _ _ (by decide), by decide, by decide, by decide, by decide, by decide,
    { linked with elp := base.elp }, quiet rfl rfl, arrives _ _ (by decide), by decide⟩

/-- A frame of a kind to all nodes, to this node, and a STRIP: in RUNNING with a queue of seven, in LOADING, and in STANDBY. -/
theorem test_witness_every_route :
    (∃ s : State, NoReset s ∧ s.rf.passQ.length = 7 ∧ s.elp.state = .up ∧ s.cl.loader = .running ∧ s.pu.power = .active ∧
      Arrives s stripFrame ∧ (∀ d ∈ [allNodes, own s], ∀ k ∈ [kindInput, kindClaim, kindMgmtReq, kindBeacon], Arrives s ⟨k, d, 9, 3, []⟩) ∧
      own s ≠ allNodes) ∧
    (∃ s : State, NoReset s ∧ s.rf.passQ.length < 8 ∧ s.elp.state = .up ∧ s.cl.loader = .loading ∧ Arrives s stripFrame ∧
      Arrives s ⟨kindBeacon, allNodes, 9, 3, []⟩ ∧ Arrives s ⟨kindInput, own s, 9, 3, []⟩) ∧
    (∃ s : State, NoReset s ∧ s.elp.state ≠ .up ∧ s.pu.power = .standby ∧ Arrives s stripFrame) := by
  refine ⟨⟨ringed fun r => { r with passQ := List.replicate 7 passing }, quiet rfl rfl, by decide, by decide, by decide, by decide,
      arrives _ _ (by decide), fun d _ k _ => have a := arrives (ringed fun r => { r with passQ := List.replicate 7 passing }) passing (by decide)
        ⟨⟨a.up, a.burst, a.size⟩, a.foreign, a.hops⟩, by decide⟩,
    ⟨{ linked with cl := { linked.cl with loader := .loading } }, quiet rfl rfl, by decide, by decide, by decide, arrives _ _ (by decide),
      arrives _ _ (by decide), arrives _ _ (by decide)⟩,
    ⟨{ linked with elp := base.elp, pu := { base.pu with power := .standby } }, quiet rfl rfl, by decide, by decide, arrives _ _ (by decide)⟩⟩

theorem test_witness_full_pass_through :
    (∃ s a g b, NoReset s ∧ Arrives s passing ∧ s.elp.state = .up ∧ s.rf.passQ.length = 8 ∧ s.rf.passQ = a ++ g :: b ∧
      (∀ x ∈ a, x.kind ≠ kindStrip) ∧ g.kind = kindStrip) ∧
    (∃ s, NoReset s ∧ Arrives s passing ∧ s.elp.state = .up ∧ s.rf.passQ.length = 8 ∧ (∀ x ∈ s.rf.passQ, x.kind ≠ kindStrip)) ∧
    (∃ s, NoReset s ∧ Arrives s stripFrame ∧ s.elp.state = .up ∧ s.rf.passQ.length = 8 ∧ s.rf.sending.isSome = true) :=
  ⟨⟨ringed fun r => { r with passQ := passing :: stripFrame :: List.replicate 6 passing }, [passing], stripFrame,
      List.replicate 6 passing, quiet rfl rfl, arrives _ _ (by decide), by decide, by decide, by decide, by decide, by decide⟩,
    ⟨ringed fun r => { r with passQ := List.replicate 8 passing }, quiet rfl rfl, arrives _ _ (by decide), by decide, by decide,
      by decide⟩,
    ⟨ringed fun r => { r with passQ := List.replicate 8 passing, sending := some ⟨passing, .passThrough⟩ }, quiet rfl rfl,
      arrives _ _ (by decide), by decide, by decide, by decide⟩⟩

theorem test_witness_frame_end : ∃ s : State, NoReset s ∧ s.elp.state = .up ∧ s.rf.sending.isSome = true ∧
    linked.rf.sending = none :=
  ⟨ringed fun r => { r with sending := some ⟨passing, .passThrough⟩ }, quiet rfl rfl, by decide⟩

theorem test_witness_reset_response : ∃ s : State, s.elp.state = .up ∧ s.rf.sending.isSome = true ∧ s.rf.passQ = [] ∧
    s.rf.insQ = [⟨passing, true⟩] :=
  ⟨ringed fun r => { r with sending := some ⟨passing, .insertion⟩, insQ := [⟨passing, true⟩] }, by decide⟩

/-- A RESET response at share count 8 with a frame waiting in the other queue, and one that waits for its turn at an ELP that is UP. -/
theorem test_witness_reset_waits :
    (∃ s : State, s.elp.state = .up ∧ s.rf.sending.isSome = true ∧ s.rf.passQ = [passing] ∧ 8 ≤ s.rf.share ∧ s.rf.insQ = [⟨passing, true⟩]) ∧
    (∃ (s : State) (w : Work), s.elp.state = .up ∧ s.mu.work = some w ∧ w.resetQueued = true ∧ s.elp.partner ≠ some alien ∧
      s.elp.agreed = some .half) :=
  ⟨⟨ringed fun r => { r with sending := some ⟨passing, .passThrough⟩, passQ := [passing], share := 8, insQ := [⟨passing, true⟩] }, by decide⟩,
    ⟨{ (ringed fun r => { r with sending := some ⟨passing, .passThrough⟩, insQ := [⟨passing, true⟩] }) with
      mu := { linked.mu with work := some ⟨9, 0, true⟩ } }, ⟨9, 0, true⟩, by decide⟩⟩

theorem test_witness_kept_frame :
    (∃ s : State, NoReset s ∧ s.rf.insQ.length = 11 ∧ s.elp.state ≠ .up ∧ s.iu.held = some passing ∧
      s.cu.offered = some ⟨⟨.request, 0, .shared, 7⟩, passing⟩) ∧
    (∃ s : State, NoReset s ∧ s.rf.insQ.length < 12 ∧ s.elp.state ≠ .up ∧ s.mu.offer = some ⟨⟨passing, false⟩, true⟩) ∧
    (∃ s : State, NoReset s ∧ 12 ≤ s.rf.insQ.length) ∧ base.iu.held = none ∧ base.cu.offered = none ∧ base.mu.offer = none :=
  ⟨⟨{ base with
        rf := { base.rf with insQ := List.replicate 11 ⟨passing, false⟩ }, iu := { base.iu with held := some passing },
        cu := { base.cu with offered := some ⟨⟨.request, 0, .shared, 7⟩, passing⟩ } }, quiet_full rfl rfl, by decide⟩,
    ⟨{ base with mu := { base.mu with offer := some ⟨⟨passing, false⟩, true⟩ } },
      ⟨⟨rfl, nofun, fun o h => by cases h; rfl, nofun⟩, nofun⟩, by decide⟩,
    ⟨{ base with rf := { base.rf with insQ := List.replicate 12 ⟨passing, false⟩ } }, quiet_full rfl rfl, by decide⟩, by decide⟩

/-- What a producer may keep: a RELEASE, a REQUEST that its slot waits for and one that it does not; a response, and a notice with and
without a response behind it. -/
theorem test_witness_kept_forms :
    (∀ k ∈ [MsgKind.release, .request], ∃ (s : State) (o : Offered), NoReset s ∧ s.cu.offered = some o ∧ o.msg.kind = k ∧
      s.cu.slots[0] = some ⟨⟨9, false, false⟩, .view, some ⟨.shared, none⟩, none, .none⟩ ∧ s.cu.slots[1] = none ∧ o.msg.slot = 0 ∧
      s.cu.outbox = []) ∧
    (∀ n ∈ [false, true], ∃ (s : State) (o : MuOffer), NoReset s ∧ s.mu.offer = some o ∧ o.isNotice = n ∧ s.mu.waiting = none ∧
      s.rf.insQ.length < 12) ∧
    (∃ (s : State) (o : MuOffer), NoReset s ∧ s.mu.offer = some o ∧ o.isNotice = true ∧ s.mu.waiting = some ⟨passing, false⟩) := by
  refine ⟨fun k _ => ⟨{ base with cu := { base.cu with
      slots := base.cu.slots.set 0 (some ⟨⟨9, false, false⟩, .view, some ⟨.shared, none⟩, none, .none⟩),
      offered := some ⟨⟨k, 0, .shared, 9⟩, passing⟩ } }, ⟨⟨k, 0, .shared, 9⟩, passing⟩, quiet rfl rfl, rfl, rfl, rfl, rfl, rfl, rfl⟩,
    fun n _ => ⟨{ base with mu := { base.mu with offer := some ⟨⟨passing, false⟩, n⟩ } }, ⟨⟨passing, false⟩, n⟩,
      ⟨⟨rfl, nofun, fun o h => by cases h; rfl, nofun⟩, nofun⟩, rfl, rfl, rfl, by show 0 < 12; decide⟩,
    ⟨{ base with mu := { base.mu with offer := some ⟨⟨passing, false⟩, true⟩, waiting := some ⟨passing, false⟩ } }, ⟨⟨passing, false⟩, true⟩,
      ⟨⟨rfl, nofun, fun o h => by cases h; rfl, fun e h => by cases h; rfl⟩, nofun⟩, rfl, rfl, rfl⟩⟩

theorem test_witness_beacon_timer : ∃ s : State, NoReset s ∧ s.rf.beaconTimer.isSome = true ∧ s.elp.state = .up ∧
    s.cl.loader = .running ∧ s.rf.sol = 63 ∧ s.rf.insQ.length < 12 ∧ linked.rf.beaconTimer = none :=
  ⟨ringed fun r => { r with beaconTimer := some ⟨10, 10⟩, sol := 63 }, quiet rfl rfl, by decide⟩

/-! ## Witnesses: invariants, presence, streams -/

theorem test_witness_invariants : Capacities base ∧ LinkInv base ∧ SettingsInRange base ∧ MemoryOk base ∧ ∃ t, step base = .next t :=
  ⟨⟨⟨by decide, by decide, by decide⟩, ⟨by decide, by decide, by decide⟩, by decide⟩,
    ⟨⟨by unfold partnerWhen; decide, by unfold partnerWhen; decide, nofun, nofun, by decide, by decide⟩,
      ⟨nofun, nofun, by decide, by decide +kernel, by decide +kernel⟩, rfl⟩,
    ⟨by decide, by decide, by decide, by decide, by decide, by decide, by decide, by decide, Or.inl rfl, Or.inl rfl⟩,
    ⟨by unfold Memory.wf; decide, nofun, by unfold Lines.wf; decide⟩, ⟨_, rfl⟩⟩

/-- The tables of `base` are whole, its counts and head records in range, and its pool, owners and claims as the rules have them. -/
theorem test_witness_whole_tables : CountsInRange base ∧ ListsWhole base.cp ∧ HeadsInRange base.cp ∧ PoolWhole base.sr ∧
    OwnedByFocus base.iu base.fu.focus ∧ ClaimsWhole (own base) base.pu.power base.cu :=
  have ⟨l, h, p, o, c⟩ := start_whole
  ⟨⟨by decide, by decide, by decide, by decide⟩, l, h, p [], o _, c _ _⟩

/-- An entry of the presence table that is present, and a slot for address 9. -/
def present : PresenceEntry := { presenceStart with present := true, sol := some 63 }
def slot9 : Slot := ⟨⟨9, false, false⟩, .shared, none, none, .granted⟩
def known : State :=
  { linked with
    rf := { linked.rf with presence := linked.rf.presence.set 8 present, closure := some ⟨0, 40⟩ },
    cu := { linked.cu with slots := linked.cu.slots.set 0 (some slot9), view := linked.cu.view.set 8 true } }

theorem test_witness_absence_timer : NoReset known ∧ nodeIndex 9 = some 8 ∧ known.rf.presence[8].present = true ∧
    9#8 ≠ own known ∧ slotOfAddr known 9 = some 0 ∧ known.cu.slots[0] = some slot9 ∧ nodeIndex 1 = some 0 ∧
    nodeIndex 62 = some 61 ∧ known.rf.presence[61].present = false ∧ nodeIndex 63 = none ∧ nodeIndex 0 = none ∧
    slotOfAddr known 62 = none ∧ nodeIndex (own known) = some 4 := ⟨quiet rfl rfl, by decide⟩

/-- An absence timer at the timeout expires, and one a step below it does not. -/
theorem test_witness_absence_timeout : ∀ n ∈ [999, 1000], ∃ s : State, NoReset s ∧ s.desk.absence = 1000 ∧
    s.rf.presence[8] = { present with time := some n } ∧ ∃ t, exec (.absenceTimerExpires 9) s = .next t ∧
      t.rf.presence[8].present = decide (n = 999) := by
  intro n hn
  refine ⟨{ known with rf := { known.rf with presence := known.rf.presence.set 8 { present with time := some n } } }, quiet rfl rfl, rfl, ?_⟩
  revert n
  exact List.forall_mem_cons.2 ⟨⟨by decide, _, rfl, by decide +kernel⟩, List.forall_mem_cons.2 ⟨⟨by decide, _, rfl, by decide +kernel⟩, nofun⟩⟩

theorem test_witness_closure_timer : known.rf.closure.isSome = true ∧ base.rf.closure = none := by decide

def beacon (n g : Byte) : Frame := ⟨kindBeacon, allNodes, 9, 3, [1, n, 0, 0, g]⟩

theorem test_witness_beacon : NoReset known ∧ (∀ n ∈ [0#8, 1, 63, 64], Arrives known (beacon n (seedTag known.cl.seed))) ∧
    Arrives known (beacon 1 0) ∧ roleOf 1 = some .source ∧ roleOf 2 = some .desk ∧ roleOf 0xFF = none ∧
    (0#8 ≠ seedTag known.cl.seed) :=
  ⟨quiet rfl rfl, fun n h => arrives _ _ ⟨⟨rfl, rfl, by simp [beacon]⟩, by simp [beacon]; decide, by simp [beacon]⟩,
    arrives _ _ (by decide), by decide⟩

/-- A beacon with RESTART from a node that was present, whose slot has auto-share and holds EXCLUSIVE: the slot falls to VIEW, asks for
SHARED, and the absence counts. A node without a slot, and one that is not present, are there as well. -/
theorem test_witness_restart : ∃ s : State, NoReset s ∧ s.rf.presence[8].present = true ∧ s.rf.presence[61].present = false ∧
    slotOfAddr s 62 = none ∧ slotOfAddr s 9 = some 0 ∧ s.cu.slots[0] = some ⟨⟨9, true, false⟩, .exclusive, none, some 5, .granted⟩ ∧
    s.pu.power = .active ∧ Arrives s ⟨kindBeacon, allNodes, 9, 3, [1, 1, 0, 1, seedTag s.cl.seed]⟩ ∧
    ∃ t, exec (hear s ⟨kindBeacon, allNodes, 9, 3, [1, 1, 0, 1, seedTag s.cl.seed]⟩) s = .next t ∧
      claimOf t.cu.slots[0] = some (⟨9, true, false⟩, .view, none, .granted, some .shared) ∧ t.cu.c.absences = 1 :=
  ⟨{ known with cu := { known.cu with slots := known.cu.slots.set 0 (some ⟨⟨9, true, false⟩, .exclusive, none, some 5, .granted⟩) } },
    quiet rfl rfl, by decide, by decide, by decide, by decide, by decide, rfl, arrives _ _ (by decide), _, rfl, by decide +kernel⟩

/-- A LIVE stream entry of 1 × 8 pixels, which is two strips, and a strip of it. -/
def live : StreamEntry :=
  { content := ⟨1, 0, 1, 8, 4⟩, state := .live, buffers := some ⟨0, none, none, [1, 2]⟩, front := some 7, ready := none,
    assembly := none, timer := some 0, armed := true, c := streamCountersZero }
def streaming (e : StreamEntry) : State :=
  { linked with sr := { linked.sr with entries := linked.sr.entries.set 0 (some e) } }
def stripOf (frame index count : Byte) : Frame :=
  ⟨kindStrip, allNodes, 9, 3, [0, 1, frame, 0, index, 0, count] ++ List.replicate 12 0⟩

theorem test_witness_stale_timer : NoReset (streaming live) ∧ (streaming live).sr.entries[0] = some live ∧ live.state = .live ∧
    live.timer = some 0 ∧ 0 < live.content.stale ∧ (streaming live).sr.entries[31] = none := ⟨quiet rfl rfl, by decide⟩

/-- A stale timer at the timeout expires, and one a step below it does not. -/
theorem test_witness_stale_timeout : ∀ n ∈ [3, 4], live.content.stale = 4 ∧ NoReset (streaming { live with timer := some n }) ∧
    ∃ t, exec (.staleTimerExpires 0) (streaming { live with timer := some n }) = .next t ∧
      t.sr.entries[0].map (·.state) = some (if n = 4 then .stale else .live) := by
  intro n hn
  refine ⟨rfl, quiet rfl rfl, ?_⟩
  revert n
  exact List.forall_mem_cons.2 ⟨⟨_, rfl, by decide +kernel⟩, List.forall_mem_cons.2 ⟨⟨_, rfl, by decide +kernel⟩, nofun⟩⟩

theorem offers (s : State) (f : Frame) (st : Strip) (i : Fin 32) (e : StreamEntry)
    (h : (s.wlp.state = .up ∧ s.wlp.badFrames = 0 ∧ f.payload.length ≤ 65535) ∧ f.origin ≠ own s ∧ f.hop ≠ 0)
    (g : f.kind = kindStrip ∧ s.cl.loader = .running ∧ s.pu.power = .active ∧ parseStrip f.payload = some st ∧
      streamIndex s st.id = some i ∧ s.sr.entries[i] = some e) : Offers s f st i e :=
  ⟨arrives s f h, g.1, g.2.1, g.2.2.1, g.2.2.2.1, g.2.2.2.2.1, g.2.2.2.2.2⟩

theorem fits (e : StreamEntry) (st : Strip)
    (h : e.state ≠ .blocked ∧ st.count = e.content.height / 4 ∧ st.data.length = 12 * e.content.width ∧ st.frame ≠ 0 ∧
      st.index < e.content.height / 4 ∧ e.front ≠ some st.frame ∧ e.ready ≠ some st.frame) : Fits e st :=
  ⟨h.1, h.2.1, h.2.2.1, h.2.2.2.1, h.2.2.2.2.1, h.2.2.2.2.2⟩

def stripIn (frame index count : Nat) : Strip := ⟨1, frame, index, count, List.replicate 12 0⟩

theorem test_witness_discarded_strip : NoReset (streaming live) ∧
    (∃ e, e.state = .blocked ∧ Offers (streaming e) (stripOf 8 0 2) (stripIn 8 0 2) 0 e) ∧
    Offers (streaming live) (stripOf 8 0 3) (stripIn 8 0 3) 0 live ∧ Offers (streaming live) (stripOf 0 0 2) (stripIn 0 0 2) 0 live ∧
    Offers (streaming live) (stripOf 8 2 2) (stripIn 8 2 2) 0 live ∧ Offers (streaming live) (stripOf 7 1 2) (stripIn 7 1 2) 0 live ∧
    (∃ e a, e.assembly = some a ∧ a.frame = 8 ∧ 1 ∈ a.received ∧ Fits e (stripIn 8 1 2) ∧
      Offers (streaming e) (stripOf 8 1 2) (stripIn 8 1 2) 0 e) :=
  ⟨quiet rfl rfl, ⟨{ live with state := .blocked, buffers := none }, rfl, offers _ _ _ _ _ (by decide) (by decide)⟩,
    offers _ _ _ _ _ (by decide) (by decide), offers _ _ _ _ _ (by decide) (by decide),
    offers _ _ _ _ _ (by decide) (by decide), offers _ _ _ _ _ (by decide) (by decide),
    ⟨{ live with assembly := some ⟨8, [1]⟩, buffers := some ⟨0, none, some 1, [2]⟩ }, ⟨8, [1]⟩, rfl, rfl, by decide,
      fits _ _ (by decide), offers _ _ _ _ _ (by decide) (by decide)⟩⟩

/-- `live` at a height, with strip 1 of picture 8 received. -/
def begun (height : Nat) : StreamEntry :=
  { live with content := ⟨1, 0, 1, height, 4⟩, assembly := some ⟨8, [1]⟩, buffers := some ⟨0, none, some 1, [2]⟩ }

theorem test_witness_written_strip : NoReset (streaming (begun 12)) ∧
    Offers (streaming (begun 12)) (stripOf 8 0 3) (stripIn 8 0 3) 0 (begun 12) ∧ Fits (begun 12) (stripIn 8 0 3) ∧
    (insertRising 0 [1]).length < (begun 12).content.height / 4 ∧
    Offers (streaming (begun 8)) (stripOf 9 0 2) (stripIn 9 0 2) 0 (begun 8) ∧ Fits (begun 8) (stripIn 9 0 2) ∧
    Offers (streaming live) (stripOf 8 1 2) (stripIn 8 1 2) 0 live ∧ Fits live (stripIn 8 1 2) :=
  ⟨quiet rfl rfl, offers _ _ _ _ _ (by decide) (by decide), fits _ _ (by decide), by decide,
    offers _ _ _ _ _ (by decide) (by decide), fits _ _ (by decide), offers _ _ _ _ _ (by decide) (by decide), fits _ _ (by decide)⟩

theorem test_witness_strip_data : (List.replicate 12 (0#8)).length = 12 * 1 := by decide

theorem test_witness_last_strip : NoReset (streaming (begun 8)) ∧
    Offers (streaming (begun 8)) (stripOf 8 0 2) (stripIn 8 0 2) 0 (begun 8) ∧ Fits (begun 8) (stripIn 8 0 2) ∧
    (begun 8).buffers = some ⟨0, none, some 1, [2]⟩ ∧ (begun 8).assembly = some ⟨8, [1]⟩ ∧
    (begun 8).content.height / 4 ≤ (insertRising 0 [1]).length :=
  ⟨quiet rfl rfl, offers _ _ _ _ _ (by decide) (by decide), fits _ _ (by decide), by decide⟩

/-! ## Witnesses: the picture and start-up -/

theorem test_witness_boundary : base.cp.raster.running = false ∧
    ∃ s : State, NoReset s ∧ s.cp.raster.running = true ∧ s.sr.entries[0] = some { live with
      buffers := some ⟨0, some 1, none, [2]⟩, ready := some 8, state := .waiting } ∧ s.sr.entries[1] = some live ∧
      s.sr.entries[2] = none ∧ ∀ h : Fin 4, s.cp.pending[h] = false :=
  ⟨rfl, { base with
      cp := { base.cp with raster := ⟨true, .hz60, 0⟩ },
      sr := { base.sr with entries := (base.sr.entries.set 0 (some { live with
        buffers := some ⟨0, some 1, none, [2]⟩, ready := some 8, state := .waiting })).set 1 (some live) } },
    quiet rfl rfl, by decide⟩

/-- A boundary with a head that latches, and a held level that the picture takes. -/
theorem test_witness_latch : ∃ s : State, NoReset s ∧ s.cp.raster.running = true ∧ s.cp.pending[3] = true ∧ s.cp.pending[0] = false ∧
    s.cp.staged[3] ≠ s.cp.active[3] ∧ s.cu.slots[0].map (·.held) = some .shared ∧ s.cu.slots[15].map (·.held) = none :=
  ⟨{ base with
      cp := { base.cp with
        raster := ⟨true, .hz60, 0⟩, pending := base.cp.pending.set 3 true, staged := base.cp.staged.set 3 [⟨1, none, 0, 0, 1, 0, 0, 8, 8, 0, true, true⟩] },
      cu := { base.cu with slots := base.cu.slots.set 0 (some ⟨⟨9, false, false⟩, .shared, none, none, .granted⟩) } }, quiet rfl rfl, by decide⟩

def window (id stream x : Nat) : Window := ⟨id, some stream, 0, 0, 1, x, 0, 100, 100, 0, true, true⟩

/-- A picture with one window on head 0, of a stream in a given state whose slot is held at a level. -/
def pictured (st : StreamState) (l : Level) (f : Option (Fin 4 × Nat)) : Picture :=
  { shown := true, heads := base.cp.heads, lists := base.cp.active.set 0 [window 1 1 0],
    streams := (Vector.replicate 32 none).set 0 (some ⟨live.content, st, true, some 0⟩), palette := defaultPalette,
    focusWindow := f, held := (Vector.replicate 16 none).set 0 (some l) }

theorem test_witness_border_class :
    [(.stale, .shared, none), (.live, .exclusive, some (0, 1)), (.live, .shared, some (0, 1)), (.live, .exclusive, none),
      (.live, .view, none), (.live, .shared, none)].map (fun c : StreamState × Level × Option (Fin 4 × Nat) =>
        borderClass (pictured c.1 c.2.1 c.2.2) 0 (window 1 1 0)) =
      [.stale, .focusExclusive, .focus, .exclusive, .viewOnly, .plain] ∧
    inBand (window 1 1 0) 1 50 = true ∧ inBand (window 1 1 0) 98 50 = true ∧ inBand (window 1 1 0) 2 97 = false := by decide

theorem test_witness_head_pixel :
    ∃ s p, s.cp.picture = some p ∧ p.shown = true ∧ p.heads[0].enabled = true ∧ 1919 < p.heads[0].width ∧
      1079 < p.heads[0].height ∧ p.lists[0] = [] ++ window 1 1 0 :: [] ∧ winContains (window 1 1 0) 99 99 = true ∧
      winContains (window 1 1 0) 100 99 = false ∧ pictureStream p (window 1 1 0) = some ⟨live.content, .live, true, some 0⟩ ∧
      Lines.pixel s.sr.lines 0 0 = some 5 ∧ pictureStream p (window 2 9 0) = none ∧ headPixel s 1 0 0 = some 0 ∧
      headPixel s 0 1920 0 = none :=
  ⟨{ base with
      cp := { base.cp with picture := some (pictured .live .shared none) }, sr := { base.sr with lines := [(0, [5])] } },
    pictured .live .shared none, rfl, by decide +kernel⟩

theorem test_witness_no_picture : base.cp.picture = none := by decide

theorem test_witness_load_complete : ∃ s : State, s.cl.loader = .loading ∧ NoReset s ∧ s.cl.cold = true ∧ s.wlp.state = .disabled ∧
    s.elp.state = .disabled ∧ 1 ≤ (own s).toNat ∧ (own s).toNat ≤ 62 ∧ base.cl.loader = .running ∧ TablesEmpty s ∧ s.cl.loadSel = false :=
  ⟨{ State.reset with cl := { State.reset.cl with ownAddress := 62 } }, rfl, quiet rfl rfl, by decide, by decide, by decide, by decide,
    by decide, by decide, ⟨rfl, rfl, rfl, rfl, rfl, rfl⟩, rfl⟩

/-- A load after a soft reset: at the same seed tag the ports stay UP and the first beacon takes number 1; at a new one they judge their
partners again. -/
theorem test_witness_load_again : ∀ d ∈ [0#32, 1], ∃ s : State, s.cl.loader = .loading ∧ NoReset s ∧ s.cl.cold = false ∧
    s.wlp.state = .up ∧ s.elp.state = .up ∧ ∃ t, exec (.loadComplete ⟨true, true, true⟩ false) s = .next t ∧
      (seedTag t.cl.seed = seedTag s.cl.seed ↔ d = 0) ∧ (d = 0 → t.elp.state = .up ∧ t.rf.sol = 2 ∧ t.rf.restart = false) ∧
      (d ≠ 0 → t.elp.state ≠ .up ∧ t.wlp.state ≠ .up ∧ t.rf.sol = 1 ∧ t.rf.restart = true) := by
  intro d hd
  refine ⟨{ linked with cl := { linked.cl with loader := .loading, seed := linked.desk.seed + d } }, rfl, quiet rfl rfl, rfl, rfl, rfl, ?_⟩
  revert d
  exact List.forall_mem_cons.2 ⟨⟨_, rfl, by decide +kernel⟩, List.forall_mem_cons.2 ⟨⟨_, rfl, by decide +kernel⟩, nofun⟩⟩

/-- A load that finds a full insertion queue. -/
theorem test_witness_load_full : ∃ s : State, s.cl.loader = .loading ∧ NoReset s ∧ s.elp.state = .up ∧ s.rf.insQ.length = 12 ∧
    ∃ t, exec (.loadComplete ⟨true, true, true⟩ false) s = .next t ∧ t.elp.state = .up ∧ t.rf.sol = 1 ∧ t.rf.restart = true :=
  ⟨{ linked with
      cl := { linked.cl with loader := .loading, seed := linked.desk.seed },
      rf := { linked.rf with sending := some ⟨passing, .passThrough⟩, insQ := List.replicate 12 ⟨passing, false⟩ } }, rfl, quiet_full (n := 12) (f := passing) rfl rfl, rfl, rfl, _, rfl,
    by decide +kernel⟩

/-- With LOAD_SEL set, a blank memory has no good header, so that neither area is good. -/
theorem test_witness_bad_image : ∃ s : State, s.cl.loader = .loading ∧ NoReset s ∧ s.cl.loadSel = true ∧ TablesEmpty s ∧
    ∀ b n bad ans, ¬ AreaGood ⟨true, true, true⟩ ans bad b n s :=
  ⟨{ State.reset with cl := { State.reset.cl with ownAddress := 62, loadSel := true } }, rfl, quiet rfl rfl, rfl, ⟨rfl, rfl, rfl, rfl, rfl, rfl⟩,
    fun _ _ _ _ h => absurd h.header.mark (by decide)⟩

/-- A stored header and DESK area that holds four head records, each disabled, and nothing else. -/
def headCells : List (Nat × Byte) :=
  [(0, 0x46), (1, 0x44), (2, 0x31), (3, 0x36), (4, 1)] ++ (List.range 4).flatMap fun h =>
    [(17 + 13 * h, 12), (19 + 13 * h, 7), (20 + 13 * h, 128), (21 + 13 * h, 4), (22 + 13 * h, 56)]

/-- A desk in LOADING with that area and its CRC in the memory. -/
def headless : State :=
  let c := be32 (crc 0xFFFFFFFF#32 (Memory.readRange headCells 16 1516))
  { State.reset with
    cl := { State.reset.cl with ownAddress := 62, loadSel := true }, fu := { State.reset.fu with x := 9, y := 8 },
    serial := { State.reset.serial with cells :=
      headCells ++ [(1532, c.getD 0 0), (1533, c.getD 1 0), (1534, c.getD 2 0), (1535, c.getD 3 0)] } }

theorem headless_good : deskGood ⟨true, true, false⟩ headless = true := by
  obtain ⟨c, hc⟩ : ∃ c, c = crc 0xFFFFFFFF#32 (Memory.readRange headCells 16 1516) := ⟨_, rfl⟩
  obtain ⟨m, hm⟩ : ∃ m : List (Nat × Byte), m = headCells ++ [(1532, (be32 c).getD 0 0), (1533, (be32 c).getD 1 0), (1534, (be32 c).getD 2 0),
    (1535, (be32 c).getD 3 0)] := ⟨_, rfl⟩
  have low : ∀ x ∈ headCells, x.1 < 1532 := by decide
  have before : ∀ a, a < 1532 → Memory.read m a = Memory.read headCells a := by
    intro a h
    unfold Memory.read
    rw [hm, List.find?_append]
    have : List.find? (fun x : Nat × Byte => decide (x.1 = a)) [(1532, (be32 c).getD 0 0), (1533, (be32 c).getD 1 0), (1534, (be32 c).getD 2 0),
        (1535, (be32 c).getD 3 0)] = none := by
      rw [List.find?_eq_none]
      intro x hx
      simp only [List.mem_cons, List.not_mem_nil, or_false] at hx
      rcases hx with rfl | rfl | rfl | rfl <;> simp <;> omega
    rw [this, Option.or_none]
  have at' : ∀ i, i < 4 → Memory.read m (1532 + i) = (be32 c).getD i 0 := by
    intro i h
    unfold Memory.read
    rw [hm, List.find?_append]
    have : List.find? (fun x : Nat × Byte => decide (x.1 = 1532 + i)) headCells = none := by
      rw [List.find?_eq_none]
      intro x hx
      have := low x hx
      simp
      omega
    rw [this, Option.none_or]
    match i, h with
    | 0, _ => rfl
    | 1, _ => rfl
    | 2, _ => rfl
    | 3, _ => rfl
  have same : ∀ a n, a + n ≤ 1532 → Memory.readRange m a n = Memory.readRange headCells a n := fun a n h => by
    unfold Memory.readRange
    refine List.map_congr_left fun i hi => before _ ?_
    have := List.mem_range.1 hi
    omega
  have e : headless.serial.cells = m := by rw [hm, hc]; rfl
  unfold deskGood headerGood crcGood deskBase deskLen
  rw [e, same 0 5 (by decide), same 16 1516 (by decide), ← hc]
  have : Memory.readRange m 1532 4 = be32 c := by
    show [Memory.read m (1532 + 0), Memory.read m (1532 + 1), Memory.read m (1532 + 2), Memory.read m (1532 + 3)] = _
    rw [at' 0 (by decide), at' 1 (by decide), at' 2 (by decide), at' 3 (by decide)]
    rfl
  rw [this]
  simp
  decide

/-- A good DESK area beside a LAYOUT area whose read is not answered. -/
theorem test_witness_good_area : headless.cl.loader = .loading ∧ NoReset headless ∧ headless.cl.loadSel = true ∧
    AreaGood ⟨true, true, false⟩ true headless.serial.deskBad 16 1516 headless ∧
    ¬ AreaGood ⟨true, true, false⟩ false headless.serial.layoutBad 1536 6652 headless :=
  ⟨rfl, quiet rfl rfl, rfl, (areaGood_iff _ _ _ _ _ _).1 headless_good, fun h => absurd h.answers (by decide)⟩

/-- A load that brings four disabled heads. -/
theorem test_witness_headless_load : headless.cl.loader = .loading ∧
    ∀ h : Fin 4, (loadAreas ⟨true, true, false⟩ headless).cp.heads[h].enabled = false := by
  refine ⟨rfl, ?_⟩
  unfold loadAreas
  rw [headless_good]
  decide +kernel

/-! ## Witnesses: the operator -/

def wide (id : Nat) (slot : Fin 16) : StreamEntry := { live with content := ⟨id, slot, 100, 100, 4⟩ }

/-- `base` with two windows side by side on head 0, their slots held at SHARED, the pointer and the focus in the first. -/
def desk : State :=
  { base with
    cp := { base.cp with active := base.cp.active.set 0 [window 1 1 0, window 2 2 100] },
    sr := { base.sr with entries := (base.sr.entries.set 0 (some (wide 1 0))).set 1 (some (wide 2 1)) },
    cu := { base.cu with
      slots := (base.cu.slots.set 0 (some slot9)).set 1 (some { slot9 with content := ⟨10, false, false⟩ }),
      view := (base.cu.view.set 8 true).set 9 true },
    fu := { base.fu with x := 90, y := 50, focus := some ⟨0, 0, 1⟩, last := some 0, reported := some ⟨1, 90, 50⟩ } }

/-- `desk` with the input unit changed, and with the focus slot's queue full. -/
def typed (f : Iu → Iu) : State := { desk with iu := f desk.iu }
def full : State := typed fun u => { u with queues := u.queues.set 0 (List.replicate 24 (.wheel 1 1)) }

theorem awake (s : State) (h : s.cl.loader = .running ∧ s.pu.power = .active) (m : s.mu = muStart) (q : s.rf.insQ = []) : Awake s :=
  ⟨h.1, h.2, quiet m q⟩

theorem test_witness_desk_record_rejected : deskRecordValid 1 0 0 0 0 = false ∧ deskRecordValid 0xFF 0 0 0 0 = false ∧
    deskRecordValid 1 1 1 0 0 = true ∧ base.cl.loader = .running ∧ base.mu.resetDue = false ∧
    (Instr.deskKeyDown 0).wellFormed = false ∧ State.reset.cl.loader = .loading := by decide

/-- The bytes of a desk record at the ends of each field's range. -/
theorem test_witness_desk_commands : deskCommand 1 1 0 0 0 = .deskKeyDown 1 ∧ deskCommand 1 255 1 0 0 = .deskKeyUp 255 ∧
    deskCommand 2 1 0 0 0 = .deskButtonPress 1 ∧ deskCommand 2 5 1 0 0 = .deskButtonRelease 5 ∧
    deskCommand 3 0xF8 0x00 0x07 0xFF = .deskMotion 0xF800 0x07FF ∧ deskCommand 4 0x81 0x7F 0 0 = .deskWheel 0x81 0x7F := by decide

def rejected (b0 b1 b2 b3 b4 : Byte) : Bool := decide (deskCommand b0 b1 b2 b3 b4 = .deskRecordRejected b0 b1 b2 b3 b4)

theorem test_witness_rejected_bytes : (rejected 0 1 0 0 0 && rejected 5 1 0 0 0 && rejected 1 0 0 0 0 && rejected 1 4 2 0 0) = true ∧
    (rejected 2 0 0 0 0 && rejected 2 6 0 0 0 && rejected 2 1 2 0 0 && rejected 4 0x80 0 0 0 && rejected 4 0 0x80 0 0) = true ∧
    (rejected 3 0x08 0 0 0 && rejected 3 0xF7 0xFF 0 0 && rejected 3 0 0 0x08 0 && rejected 3 0 0 0xF7 0xFF) = true := by decide

theorem test_witness_operator : NoReset desk ∧ operatorCommand .takeoverPress = true ∧ operatorCommand (.deskMotion 1 1) = true :=
  ⟨quiet rfl rfl, by decide⟩

def hot : HotKey := ⟨1, 4, .selectPreset, 7⟩

theorem test_witness_key_down : Awake desk ∧
    (∃ s, Awake s ∧ isModifier 224 = true ∧ s.iu.mods &&& modBit 224 ≠ 0) ∧
    (∃ s, Awake s ∧ 4#8 ∈ s.iu.consumed) ∧
    (∃ s, Awake s ∧ s.iu.hotkeys[15] = some hot ∧ hot.mods = s.iu.mods ∧ isModifier hot.usage = false ∧
      (∀ (j : Fin 16) (k : HotKey), j < 15 → s.iu.hotkeys[j] = some k → ¬ (k.usage = hot.usage ∧ k.mods = s.iu.mods)) ∧
      s.iu.consumed.length < 16) ∧
    base.fu.focus = none ∧ desk.fu.focus = some ⟨0, 0, 1⟩ ∧ desk.iu.keys.length < 16 ∧ desk.iu.queues[0].length < 24 ∧
    (∃ s, Awake s ∧ s.fu.focus = some ⟨0, 0, 1⟩ ∧ 16 ≤ s.iu.keys.length ∧ 4#8 ∉ s.iu.keys.map (·.1)) ∧
    Awake full ∧ 24 ≤ full.iu.queues[0].length :=
  ⟨awake _ (by decide) rfl rfl, ⟨typed fun u => { u with mods := 1 }, awake _ (by decide) rfl rfl, by decide⟩,
    ⟨typed fun u => { u with consumed := [4] }, awake _ (by decide) rfl rfl, by decide⟩,
    ⟨typed fun u => { u with mods := 1, hotkeys := u.hotkeys.set 15 (some hot) }, awake _ (by decide) rfl rfl, by decide, by decide,
      by decide, fun j k h => by
        have : (typed fun u => { u with mods := 1, hotkeys := u.hotkeys.set 15 (some hot) }).iu.hotkeys[j] = none := by
          revert j; decide
        rw [this]; nofun, by decide⟩,
    by decide, by decide, by decide, by decide,
    ⟨typed fun u => { u with keys := List.replicate 16 (5, 0) }, awake _ (by decide) rfl rfl, by decide⟩,
    awake _ (by decide) rfl rfl, by decide⟩

/-- `desk` with a hot key of an action, and with a focus and a last focus slot. -/
def pressing (a : HotAction) (g : Byte) (f : Option Focus) (l : Option (Fin 16)) : State :=
  { (typed fun u => { u with hotkeys := u.hotkeys.set 15 (some ⟨0, 4, a, g⟩) }) with fu := { desk.fu with focus := f, last := l } }

theorem desk_hotkeys : ∀ j : Fin 16, desk.iu.hotkeys[j] = none := by decide

theorem pressing_first (a : HotAction) (g : Byte) (f : Option Focus) (l : Option (Fin 16)) (j : Fin 16) (k : HotKey) (h : j < 15)
    (e : (pressing a g f l).iu.hotkeys[j] = some k) : False := by
  have at15 : (pressing a g f l).iu.hotkeys[j] = desk.iu.hotkeys[j] := by
    show (desk.iu.hotkeys.set 15 (some ⟨0, 4, a, g⟩))[j] = _
    rw [Fin.getElem_fin, Vector.getElem_set_ne _ _ (by omega)]
    rfl
  rw [at15, desk_hotkeys] at e
  cases e

/-- Every action at its key: with a focus slot, with the last one, and with neither; and with the consumed-key set full. -/
theorem test_witness_hot_actions :
    (∀ a g f l, Awake (pressing a g f l) ∧ (pressing a g f l).iu.hotkeys[15] = some ⟨0, 4, a, g⟩ ∧ (pressing a g f l).iu.mods = 0 ∧
      4#8 ∉ (pressing a g f l).iu.consumed ∧ 4#8 ∉ (pressing a g f l).iu.keys.map (·.1) ∧ (pressing a g f l).fu.focus = f ∧
      (pressing a g f l).fu.last = l) ∧ isModifier 4 = false ∧
    (∃ s : State, Awake s ∧ s.iu.hotkeys[15] = some hot ∧ 16 ≤ s.iu.consumed.length ∧ 4#8 ∉ s.iu.consumed) :=
  ⟨fun _ _ _ _ => ⟨⟨rfl, rfl, quiet rfl rfl⟩, by simp [pressing, typed], rfl, by show 4#8 ∉ []; simp, by show 4#8 ∉ []; simp, rfl, rfl⟩, by decide,
    ⟨typed fun u => { u with mods := 1, hotkeys := u.hotkeys.set 15 (some hot), consumed := List.replicate 16 5 },
      awake _ (by decide) rfl rfl, by decide⟩⟩

/-- `desk` with its second window at a column, and a focus. -/
def windows (x : Nat) (f : Option Focus) : State :=
  { desk with cp := { desk.cp with active := desk.cp.active.set 0 [window 1 1 0, window 2 2 x] }, fu := { desk.fu with focus := f } }

theorem windows_at {x : Nat} {f : Option Focus} {h : Fin 4} {k : Nat} {w : Window} (l : Listed (windows x f) h k w) :
    h = 0 ∧ ((k = 0 ∧ w = window 1 1 0) ∨ (k = 1 ∧ w = window 2 2 x)) := by
  have p := l.place
  have e : ∀ h : Fin 4, (windows x f).cp.active[h] = if h = 0 then [window 1 1 0, window 2 2 x] else [] := by
    intro h
    fin_cases h <;> rfl
  rw [e h] at p
  split at p
  · refine ⟨by assumption, ?_⟩
    match k, p with
    | 0, p => exact .inl ⟨rfl, (Option.some.inj p).symm⟩
    | 1, p => exact .inr ⟨rfl, (Option.some.inj p).symm⟩
  · simp at p

theorem windows_listed (x : Nat) (hx : 0 < x) (f : Option Focus) : Listed (windows x f) 0 0 (window 1 1 0) ∧
    Listed (windows x f) 0 1 (window 2 2 x) :=
  ⟨⟨rfl, rfl, rfl, 0, 0, _, rfl, rfl, fun v hv => by
      rw [List.mem_singleton.1 (show v ∈ [window 2 2 x] from hv)]
      simp [winContains, within, window]
      omega⟩,
    ⟨rfl, rfl, rfl, x, 0, _, rfl, by simp [winContains, within, window], nofun⟩⟩

/-- NEXT_WINDOW goes on to the second window and its centre, back to the first, whose centre the second covers, and to the first where
focus is none; with no window listed it goes nowhere. -/
theorem test_witness_next_window :
    (NextWindow (windows 100 (some ⟨0, 0, 1⟩)) 0 1 (window 2 2 100) ∧ NextPixel (windows 100 (some ⟨0, 0, 1⟩)) 0 1 (window 2 2 100) (150, 50) ∧
      focusable (windows 100 (some ⟨0, 0, 1⟩)) (window 2 2 100) = some 1) ∧
    (NextWindow (windows 50 (some ⟨1, 0, 2⟩)) 0 0 (window 1 1 0) ∧ NextPixel (windows 50 (some ⟨1, 0, 2⟩)) 0 0 (window 1 1 0) (0, 0) ∧
      focusable (windows 50 (some ⟨1, 0, 2⟩)) (window 1 1 0) = some 0) ∧
    NextWindow (windows 100 none) 0 0 (window 1 1 0) ∧ (∀ h n x, ¬ Listed base h n x) := by
  have bare : ∀ h : Fin 4, base.cp.active[h] = [] := by decide
  have l := windows_listed 100 (by decide) (some ⟨0, 0, 1⟩)
  have m := windows_listed 50 (by decide) (some ⟨1, 0, 2⟩)
  refine ⟨⟨⟨l.2, fun h => absurd ⟨_, rfl, rfl, rfl⟩ (h _ _ _ l.1), fun h k w a b => .inl ?_⟩,
      ⟨fun _ => rfl, fun h => absurd ⟨_, rfl, by decide, nofun⟩ h⟩, by decide +kernel⟩,
    ⟨⟨m.1, fun h => absurd ⟨_, rfl, rfl, rfl⟩ (h _ _ _ m.2), fun h k w a b => .inr ?_⟩,
      ⟨fun ⟨_, _, _, h⟩ => absurd (h (window 2 2 50) (by decide)) (by decide),
        fun _ => ⟨m.1.seen.elim fun _ _ => ⟨_, rfl, by decide, fun v hv => by
          rw [List.mem_singleton.1 (show v ∈ [window 2 2 50] from hv)]; decide⟩, fun px py _ => by omega⟩⟩, by decide +kernel⟩,
    ⟨(windows_listed 100 (by decide) none).1, fun _ h k w a b => ?_, fun h k w _ b => ?_⟩, fun h n x l => ?_⟩
  · obtain ⟨rfl, ⟨rfl, rfl⟩ | ⟨rfl, rfl⟩⟩ := windows_at a
    · refine ⟨.inr ⟨rfl, by decide⟩, fun h k w c d => ?_⟩
      obtain ⟨rfl, ⟨rfl, rfl⟩ | ⟨rfl, rfl⟩⟩ := windows_at c <;> simp [before] at d
    · obtain ⟨_, e, _, h⟩ := b
      cases Option.some.inj e
      exact absurd h (by decide)
  · obtain ⟨rfl, ⟨rfl, rfl⟩ | ⟨rfl, rfl⟩⟩ := windows_at a
    · obtain ⟨_, e, _, h⟩ := b
      cases Option.some.inj e
      exact absurd h (by decide)
    · intro h k w c
      obtain ⟨rfl, ⟨rfl, rfl⟩ | ⟨rfl, rfl⟩⟩ := windows_at c <;> simp [before]
  · obtain ⟨rfl, _⟩ := windows_at a
    rcases b with b | ⟨_, b⟩
    · exact absurd b (by decide)
    · omega
  · obtain ⟨_, e, _⟩ := b
    cases e
  · have p := l.place
    rw [bare h] at p
    cases p

theorem test_witness_key_up :
    (∃ s : State, NoReset s ∧ s.cl.loader = .running ∧ 4#8 ∈ s.iu.consumed) ∧ 4#8 ∉ desk.iu.keys.map (·.1) ∧
    (∃ s : State, NoReset s ∧ s.cl.loader = .running ∧ s.iu.keys = [(5, 1)] ++ (4, 0) :: [] ∧ 4#8 ∉ s.iu.consumed ∧
      s.iu.queues[0].length < 24) ∧
    (∃ s : State, NoReset s ∧ s.cl.loader = .running ∧ s.iu.keys = [] ++ (4, 0) :: [] ∧ 24 ≤ s.iu.queues[0].length) :=
  ⟨⟨typed fun u => { u with consumed := [4] }, quiet rfl rfl, by decide⟩, by decide,
    ⟨typed fun u => { u with keys := [(5, 1), (4, 0)] }, quiet rfl rfl, by decide⟩,
    ⟨{ full with iu := { full.iu with keys := [(4, 0)] } }, quiet rfl rfl, by decide⟩⟩

theorem test_witness_button_press : Awake desk ∧ (1#8).toNat = (0 : Fin 5).val + 1 ∧ (5#8).toNat = (4 : Fin 5).val + 1 ∧
    desk.iu.buttons.getLsbD 4 = false ∧ desk.fu.reported = some ⟨1, 90, 50⟩ ∧ base.fu.focus = none ∧ Awake full ∧
    full.iu.queues[0].length = 24 ∧ 24 < (queued full.iu.queues[0] (.position ⟨1, 90, 50⟩ 1)).length ∧
    (queued desk.iu.queues[0] (.position ⟨1, 90, 50⟩ 1)).length ≤ 24 ∧
    (∃ s : State, Awake s ∧ s.iu.buttons.getLsbD 4 = true) ∧
    (∃ s : State, Awake s ∧ s.fu.focus = some ⟨0, 0, 1⟩ ∧ s.fu.reported = none) :=
  ⟨awake _ (by decide) rfl rfl, by decide, by decide, by decide, by decide, by decide, awake _ (by decide) rfl rfl, by decide,
    by decide, by decide, ⟨typed fun u => { u with buttons := 16 }, awake _ (by decide) rfl rfl, by decide⟩,
    ⟨{ desk with fu := { desk.fu with reported := none } }, awake _ (by decide) rfl rfl, by decide⟩⟩

/-- An input unit in which slot 0 owns the buttons of a list. -/
def dragging (l : List (Fin 5)) (u : Iu) : Iu := { u with owners := Vector.ofFn fun j => if j ∈ l then some 0 else none }

theorem test_witness_button_release : NoReset desk ∧ desk.iu.owners[4] = none ∧
    (∀ l ∈ [[(0 : Fin 5)], [0, 4]], (typed (dragging l)).iu.owners[0] = some 0) ∧
    (∀ j : Fin 5, j ≠ 0 → (typed (dragging [0])).iu.owners[j] = none) ∧ (typed (dragging [0, 4])).iu.owners[4] ≠ none ∧
    (queued (typed (dragging [0, 4])).iu.queues[0] (.position ⟨1, 90, 50⟩ 16)).length ≤ 24 ∧
    { desk.fu with reported := none }.reported = none ∧
    (∃ s : State, NoReset s ∧ s.iu.owners[0] = some 0 ∧ s.iu.owners[4] = some 0 ∧ s.iu.queues[0].length = 24 ∧
      24 < (queued s.iu.queues[0] (.position ⟨1, 90, 50⟩ 16)).length) :=
  ⟨quiet rfl rfl, by decide, by decide, by decide, by decide, by decide, rfl,
    { full with iu := dragging [0, 4] full.iu }, quiet rfl rfl, by decide⟩

/-- The last owned button: with and without a reported position, at a full queue, and with the lock set on a window that holds and on
one that does not. -/
theorem test_witness_last_button : ∀ l ∈ [false, true], ∃ s : State, NoReset s ∧ s.cl.loader = .running ∧ s.iu.owners[0] = some 0 ∧
    (∀ j : Fin 5, j ≠ 0 → s.iu.owners[j] = none) ∧ s.fu.lock = l ∧ s.fu.focus = some ⟨0, 0, 1⟩ ∧
    windowOf s ⟨0, 0, 1⟩ = some (window 1 1 0) ∧ focusHolds s ⟨0, 0, 1⟩ = true ∧ s.fu.reported = some ⟨1, 90, 50⟩ ∧
    (queued s.iu.queues[0] (.position ⟨1, 90, 50⟩ 0)).length ≤ 24 ∧
    { s.fu with reported := none }.reported = none ∧
    (∃ f : State, f.iu.queues[0].length = 24 ∧ 24 < (queued f.iu.queues[0] (.position ⟨1, 90, 50⟩ 0)).length ∧ f.iu.owners[0] = some 0) ∧
    ∃ v : State, v.fu.lock = true ∧ v.fu.focus = some ⟨0, 0, 1⟩ ∧ focusHolds v ⟨0, 0, 1⟩ = false := by
  have o : ∀ j : Fin 5, j ≠ 0 → (typed (dragging [0])).iu.owners[j] = none := by decide
  intro l _
  exact ⟨{ (typed (dragging [0])) with fu := { desk.fu with lock := l } }, quiet rfl rfl, rfl, rfl, o, rfl, rfl, rfl, rfl, rfl,
    (by decide : (queued (typed (dragging [0])).iu.queues[0] (.position ⟨1, 90, 50⟩ 0)).length ≤ 24), rfl,
    ⟨{ full with iu := dragging [0] full.iu }, by decide⟩, ⟨{ base with fu := { desk.fu with lock := true } }, by decide⟩⟩

/-- A re-evaluation in each of its cases: a focus window that does not hold, the lock, neither lock nor drag, and drag capture. -/
theorem test_witness_reevaluation :
    (∃ s : State, s.fu.focus = some ⟨0, 0, 1⟩ ∧ focusHolds s ⟨0, 0, 1⟩ = false) ∧
    (∃ s : State, s.fu.lock = true ∧ s.fu.focus = some ⟨0, 0, 1⟩ ∧ windowOf s ⟨0, 0, 1⟩ = some (window 1 1 0) ∧ focusHolds s ⟨0, 0, 1⟩ = true) ∧
    (desk.fu.lock = false ∧ ∀ j : Fin 5, desk.iu.owners[j] = none) ∧
    (∃ s : State, s.fu.lock = false ∧ focusHolds s ⟨0, 0, 1⟩ = true ∧ (∃ j : Fin 5, s.iu.owners[j] ≠ none) ∧
      ∀ i : Fin 16, s.iu.queues[i].length < 24) ∧
    requestedPoint desk = some (0, ⟨1, 90, 50⟩) :=
  ⟨⟨{ base with fu := desk.fu }, by decide⟩, ⟨{ desk with fu := { desk.fu with lock := true } }, by decide⟩, by decide,
    ⟨typed (dragging [0]), by decide⟩, by decide +kernel⟩

/-- A pointer below every head goes to the nearest point of the nearest one, and of two equally near ones to the lower. -/
theorem test_witness_clamp :
    (∃ s : State, ¬ onDesk s s.fu.x s.fu.y ∧ (clampPointer s).fu.x = 90 ∧ (clampPointer s).fu.y = 1079 ∧
      headDistance s.cp.heads[0] s.fu.x s.fu.y = 3921 ∧ headDistance s.cp.heads[1] s.fu.x s.fu.y = 5751) ∧
    (∃ s : State, ∀ h : Fin 4, s.cp.heads[h].enabled = false) ∧ onDesk desk desk.fu.x desk.fu.y :=
  ⟨⟨{ desk with fu := { desk.fu with y := 5000 } }, by unfold onDesk; decide, by decide +kernel⟩,
    ⟨{ base with cp := { base.cp with heads := Vector.ofFn fun h => { defaultHead h with enabled := false } } }, by decide⟩,
    by unfold onDesk; decide⟩

theorem test_witness_motion : Awake desk ∧ Awake base ∧ desk.fu.lock = false ∧ desk.desk.guard = 0 ∧
    (Instr.deskMotion 1 (-1)).wellFormed = true ∧ MovesTo desk 1 1 (91, 51) ∧ MovesTo base 1 (-1) (1, 0) ∧
    MovesTo base (-1) 1 (0, 1) ∧ MovesTo base (-1) (-1) (0, 0) ∧ (∀ j : Fin 5, desk.iu.owners[j] = none) ∧
    targetAtPointer (pointerAt (91, 51) (reported desk)) = some ⟨0, 0, 1⟩ ∧
    requestedPoint (pointerAt (91, 51) (reported desk)) = some (0, ⟨1, 91, 51⟩) ∧
    (∃ j : Fin 5, (typed (dragging [0])).iu.owners[j] ≠ none) ∧
    ∀ i : Fin 16, (typed (dragging [0])).iu.queues[i].length < 24 :=
  ⟨awake _ (by decide) rfl rfl, awake _ (by decide) rfl rfl, by decide, by decide, by decide, by unfold MovesTo onDesk; decide,
    by unfold MovesTo onDesk; decide, by unfold MovesTo onDesk; decide, by unfold MovesTo onDesk; decide, by decide,
    by decide +kernel, by decide +kernel, by decide, by decide⟩

/-- A motion within the window of the focus slot is no blocked crossing, whatever the guard distance. -/
theorem test_witness_no_crossing : ∃ s : State, Awake s ∧ s.fu.lock = false ∧ s.desk.guard = 255 ∧ MovesTo s 1 1 (91, 51) ∧
    ¬ BlockedCrossing s (91, 51) := by
  refine ⟨{ desk with desk := { desk.desk with guard := 255 } }, awake _ (by decide) rfl rfl, rfl, rfl, by unfold MovesTo onDesk; decide, ?_⟩
  rintro ⟨-, -, f, h, w, g, hf, -, -, hg, hn⟩
  cases Option.some.inj hf
  have : asTarget { desk with desk := { desk.desk with guard := 255 } } (hitTest { desk with desk := { desk.desk with guard := 255 } } 91 51) =
      some ⟨0, 0, 1⟩ := by decide +kernel
  rw [this] at hg
  cases hg
  exact hn rfl

/-- The lock with a button owned, on a focus window that holds. -/
theorem test_witness_locked_drag : ∃ s : State, Awake s ∧ s.fu.lock = true ∧ s.fu.focus = some ⟨0, 0, 1⟩ ∧
    windowOf s ⟨0, 0, 1⟩ = some (window 1 1 0) ∧ focusHolds s ⟨0, 0, 1⟩ = true ∧ ∃ j : Fin 5, s.iu.owners[j] ≠ none :=
  ⟨{ (typed (dragging [0])) with fu := { desk.fu with lock := true } }, awake _ (by decide) rfl rfl, by decide⟩

theorem test_witness_lock_and_guard : windowOf desk ⟨0, 0, 1⟩ = some (window 1 1 0) ∧
    (∃ s : State, Awake s ∧ s.fu.lock = true ∧ s.fu.focus = some ⟨0, 0, 1⟩ ∧ windowOf s ⟨0, 0, 1⟩ = some (window 1 1 0)) ∧
    (∃ s : State, Awake s ∧ s.fu.lock = false ∧ s.fu.focus = some ⟨0, 0, 1⟩ ∧ s.desk.guard = 20 ∧ MovesTo s 20 0 (110, 50) ∧
      MovesTo s 19 0 (109, 50) ∧ hitTest s s.fu.x s.fu.y = some (0, window 1 1 0) ∧ windowSlot s (window 1 1 0) = some 0 ∧
      asTarget s (hitTest s 110 50) = some ⟨1, 0, 2⟩ ∧ asTarget s (hitTest s 109 50) = some ⟨1, 0, 2⟩ ∧
      (hitTest s (limitTo s.cp.heads[0] (window 1 1 0) 109 50).1 50).bind (fun hw => windowSlot s hw.2) = some 0) :=
  ⟨by decide, ⟨{ desk with fu := { desk.fu with lock := true } }, awake _ (by decide) rfl rfl, by decide⟩,
    ⟨{ desk with desk := { desk.desk with guard := 20 } }, awake _ (by decide) rfl rfl, by decide, by decide, by decide,
      by unfold MovesTo onDesk; decide, by unfold MovesTo onDesk; decide, by decide +kernel, by decide +kernel, by decide +kernel,
      by decide +kernel, by decide +kernel⟩⟩

/-- A crossing held back at a point that another slot's window owns, one that reaches the distance with a key to release, and FOCUS_LOCK
with and without a lock, a focus and a drag. -/
theorem test_witness_guard_ends :
    (∃ s : State, Awake s ∧ s.fu.lock = false ∧ s.fu.focus = some ⟨0, 0, 1⟩ ∧ s.desk.guard = 255 ∧ MovesTo s 20 0 (110, 50) ∧
      hitTest s s.fu.x s.fu.y = some (0, window 1 1 0) ∧ windowSlot s (window 1 1 0) = some 0 ∧
      asTarget s (hitTest s 110 50) = some ⟨1, 0, 2⟩ ∧
      (hitTest s (limitTo s.cp.heads[0] (window 1 1 0) 110 50).1 50).bind (fun hw => windowSlot s hw.2) = some 1) ∧
    (∃ s : State, Awake s ∧ s.iu.held.isSome = true ∧ (synthesised 0 s).length = 24) ∧
    (∀ l ∈ [false, true], ∃ v : State, v.fu.lock = l ∧ v.fu.focus = some ⟨0, 0, 1⟩ ∧ focusHolds v ⟨0, 0, 1⟩ = true ∧
      windowOf v ⟨0, 0, 1⟩ = some (window 1 1 0) ∧ (∃ j : Fin 5, v.iu.owners[j] ≠ none) ∧ ∀ i : Fin 16, v.iu.queues[i].length < 24) ∧
    (∀ j : Fin 5, base.iu.owners[j] = none) ∧ base.fu.focus = none ∧ base.fu.lock = false := by
  have o : ∃ j : Fin 5, (typed (dragging [0])).iu.owners[j] ≠ none := by decide
  have q : ∀ i : Fin 16, (typed (dragging [0])).iu.queues[i].length < 24 := by decide
  refine ⟨⟨{ (windows 95 (some ⟨0, 0, 1⟩)) with desk := { desk.desk with guard := 255 } }, awake _ (by decide) rfl rfl, by decide, by decide,
      by decide, by unfold MovesTo onDesk; decide, by decide +kernel, by decide +kernel, by decide +kernel, by decide +kernel⟩,
    ⟨typed fun u => { u with
      held := some passing, keys := [(4, 0)], queues := u.queues.set 0 (List.replicate 23 (.wheel 1 1)) }, awake _ (by decide) rfl rfl, by decide,
      by decide +kernel⟩, fun l _ => ⟨{ (typed (dragging [0])) with fu := { desk.fu with lock := l } }, rfl, rfl, rfl, rfl, o, q⟩, by decide,
    by decide, by decide⟩

theorem test_witness_wheel : Awake base ∧ (Instr.deskWheel 0x81 0x7F).wellFormed = true ∧ base.fu.focus = none ∧
    (∃ s, Awake s ∧ s.fu.focus = some ⟨0, 0, 1⟩ ∧ s.iu.queues[0].length = 23) ∧
    (∃ s, Awake s ∧ s.fu.focus = some ⟨0, 0, 1⟩ ∧ s.iu.queues[0].length = 24 ∧ s.iu.held.isSome = true ∧
      ∀ j : Fin 5, s.iu.owners[j] = none) :=
  ⟨awake _ (by decide) rfl rfl, by decide, rfl,
    ⟨typed fun u => { u with queues := u.queues.set 0 (List.replicate 23 (.wheel 1 1)) }, awake _ (by decide) rfl rfl, by decide⟩,
    ⟨{ full with iu := { full.iu with held := some passing } }, awake _ (by decide) rfl rfl, by decide⟩⟩

theorem test_witness_builder : NoReset full ∧ full.iu.held = none ∧ full.cu.slots[0] = some slot9 ∧ full.iu.queues[0] ≠ [] ∧
    (∀ j : Fin 16, (j - full.iu.rr - 1).val < ((0 : Fin 16) - full.iu.rr - 1).val → full.cu.slots[j] = none ∨ full.iu.queues[j] = []) ∧
    full.rf.insQ.length < 12 ∧ (∀ (i : Fin 16), desk.iu.queues[i] = []) ∧
    (∃ s : State, NoReset s ∧ s.iu.held = none ∧ s.iu.queues[0] ≠ [] ∧ 12 ≤ s.rf.insQ.length) :=
  ⟨quiet rfl rfl, by decide, by decide, by decide, by decide, by decide, by decide,
    { full with rf := { full.rf with insQ := List.replicate 12 ⟨passing, false⟩ } }, quiet_full rfl rfl, by decide⟩

def standby : State := { desk with pu := { desk.pu with power := .standby } }

theorem test_witness_wake : NoReset standby ∧ standby.cl.loader = .running ∧ standby.pu.power = .standby ∧
    (∀ i ∈ [Instr.deskKeyDown 4, .deskKeyUp 4, .deskButtonPress 5, .deskButtonRelease 1, .deskMotion 1 1, .deskWheel 1 1],
      deskRecord i = true ∧ i.wellFormed = true) ∧ wakes (.deskKeyUp 4) = none ∧ wakes (.deskWheel 1 1) = some .wheel ∧
    ∀ j : Fin 16, standby.iu.hotkeys[j] = none := ⟨quiet rfl rfl, by decide⟩

/-- A wake with a slot whose auto-share is due, beside one whose is not; the key is no hot key, or one that only moves the focus. -/
theorem test_witness_auto_share : ∃ s : State, NoReset s ∧ s.pu.power = .standby ∧ s.iu.hotkeys[15] = some ⟨0, 4, .nextWindow, 0⟩ ∧
    s.cu.slots[0] = some ⟨⟨9, true, false⟩, .view, none, none, .none⟩ ∧ wantsShare s ⟨⟨9, true, false⟩, .view, none, none, .none⟩ ∧
    s.cu.slots[1] = some { slot9 with content := ⟨10, false, false⟩ } ∧ ¬ wantsShare s { slot9 with content := ⟨10, false, false⟩ } ∧
    ∃ t, exec (.deskKeyDown 4) s = .next t ∧ claimOf t.cu.slots[0] = some (⟨9, true, false⟩, .view, none, .none, some .shared) :=
  ⟨{ standby with
      iu := { desk.iu with hotkeys := desk.iu.hotkeys.set 15 (some ⟨0, 4, .nextWindow, 0⟩) },
      cu := { desk.cu with slots := desk.cu.slots.set 0 (some ⟨⟨9, true, false⟩, .view, none, none, .none⟩) } }, quiet rfl rfl, by decide, by decide,
    by decide, by unfold wantsShare; decide, by decide, by unfold wantsShare; decide, _, rfl, by decide +kernel⟩

theorem test_witness_idle_expiry : ∃ s : State, NoReset s ∧ s.pu.power = .active ∧ s.pu.idle = some 60000 ∧ s.desk.standby = 1 ∧
    s.fu.focus = some ⟨0, 0, 1⟩ ∧ s.iu.held.isSome = true ∧ (synthesised 0 s).length ≤ 24 ∧
    s.cu.slots[0] = some slot9 ∧ s.cu.slots[15] = none ∧ base.pu.idle = none ∧ base.desk.standby = 0 ∧ (59999 < 1 * 60000) :=
  ⟨{ (typed fun u => { u with held := some passing }) with
      pu := { desk.pu with idle := some 60000 }, desk := { desk.desk with standby := 1 } }, quiet rfl rfl, by decide⟩

/-- An idle timer a step below the standby delay does not expire. -/
theorem test_witness_idle_early : ∃ s : State, NoReset s ∧ s.pu.idle = some 59999 ∧ s.desk.standby = 1 ∧ s.pu.power = .active ∧
    exec .idleTimerExpires s = .next s :=
  ⟨{ base with pu := { base.pu with idle := some 59999 }, desk := { base.desk with standby := 1 } }, quiet rfl rfl, rfl, rfl, rfl, rfl⟩

/-- `desk` with the button filter at a level and a run of `n` samples. -/
def sampling (l : Option ButtonLevel) (n : Nat) : State := { desk with pu := { desk.pu with filter := l, run := n } }

theorem test_witness_takeover : NoReset (sampling none 0) ∧ (sampling none 0).pu.filter = none ∧
    (sampling (some .released) 2).pu.run < 3 ∧ 3 ≤ (sampling (some .released) 3).pu.run ∧
    3 ≤ (sampling (some .pressed) 3).pu.run ∧ nodePresent (sampling (some .released) 3) slot9.content.addr = true ∧
    (sampling (some .released) 3).fu.focus.map (·.slot) = some 0 ∧ (sampling (some .released) 3).cu.slots[0] = some slot9 ∧
    slot9.held ≠ .exclusive ∧ slot9.request = none ∧ base.fu.last = none ∧
    nodePresent base slot9.content.addr = false := ⟨quiet rfl rfl, by decide⟩

theorem test_witness_blink : ∃ s : State, s.pu.blink = some ⟨7, 125⟩ ∧ s.mu.resetDue = false ∧ base.pu.blink = none :=
  ⟨{ base with pu := { base.pu with blink := some ⟨7, 125⟩ } }, by decide⟩

/-- Every condition of a head lamp, and of the desk lamp, true. -/
theorem test_witness_lamp_conditions :
    (∃ s : State, lampConditions 0 s = [true, true, true, true]) ∧ lampConditions 3 desk = [false, false, false, false] ∧
    (∃ s : State, lampConditions 4 s = [true, true, true, true]) :=
  ⟨⟨{ desk with
      sr := { desk.sr with entries := desk.sr.entries.set 1 (some { wide 2 1 with state := .stale }) },
      cu := { desk.cu with
        slots := (desk.cu.slots.set 0 (some { slot9 with held := .exclusive })).set 1
          (some { slot9 with content := ⟨10, false, false⟩, request := some ⟨.exclusive, none⟩ }) } }, by decide +kernel⟩, by decide +kernel,
    ⟨{ desk with
      pu := { desk.pu with power := .standby },
      cu := { desk.cu with
        slots := (desk.cu.slots.set 0 (some { slot9 with held := .exclusive })).set 1
          (some { slot9 with content := ⟨10, false, false⟩, request := some ⟨.exclusive, none⟩ }) } }, by decide +kernel⟩⟩

/-! ## Witnesses: claims, management, saving -/

/-- `known` with the claim record of slot 0 changed, and an answer of node 9. -/
def claiming (k : Slot) : State := { known with cu := { known.cu with slots := known.cu.slots.set 0 (some k) } }
def answer (kind level : Byte) : Frame := ⟨kindClaim, 5, 9, 3, [kind, level, 0, 0]⟩

theorem taken (s : State) (f : Frame)
    (h : (s.wlp.state = .up ∧ s.wlp.badFrames = 0 ∧ f.payload.length ≤ 65535) ∧ f.origin ≠ own s ∧ f.hop ≠ 0)
    (g : nodeInRange (own s) = true ∧ f.dest = own s ∧ s.cl.loader = .running) : Taken s f :=
  ⟨arrives s f h, g.1, g.2.1, g.2.2⟩

def asking : Slot := { slot9 with request := some ⟨.exclusive, some 5⟩ }

theorem test_witness_source_answers :
    NoReset (claiming asking) ∧ (∀ k ∈ [3#8, 4, 5], ComesTo (claiming asking) (answer k 3) (goodSeen (claiming asking))) ∧
    slotOfAddr (claiming asking) 9 = some 0 ∧ (claiming asking).cu.slots[0] = some asking ∧ answers asking .exclusive = true ∧
    levelOf 3 = some .exclusive ∧ levelOf 2 = some .shared ∧ levelOf 0 = none ∧ levelOf 1 = some .view ∧
    Level.rank .shared ≤ Level.rank slot9.held ∧ Level.rank slot9.held < Level.rank .exclusive ∧
    (∀ (i : Fin 16) (k : Slot), base.cu.slots[i] = some k → k.content.addr ≠ (answer 3 3).origin) := by
  refine ⟨quiet rfl rfl, fun k _ => ?_, by decide, by decide, by decide, by decide, by decide, by decide, by decide, by decide, by decide,
    fun i k h => ?_⟩
  · have a := taken (claiming asking) (answer 3 3) (by decide) (by decide)
    exact .inl ⟨⟨⟨⟨a.up, a.burst, a.size⟩, a.foreign, a.hops⟩, a.node, rfl, a.loaded⟩, rfl⟩
  · have empty : ∀ i : Fin 16, base.cu.slots[i] = none := by decide
    rw [empty] at h
    cases h

/-- A REVOKE and a GRANT to all nodes, with and without an egress; a frame of another length; and a GRANT that answers nothing, with the
slot's REQUEST and a RELEASE in the outbox. -/
theorem test_witness_claim_frames :
    (∀ k ∈ [3#8, 5], ∃ u, ComesTo known { answer k 2 with dest := allNodes } u) ∧
    (∃ s u, NoReset s ∧ s.elp.state ≠ .up ∧ ComesTo s { answer 5 2 with dest := allNodes } u) ∧
    (∃ u, ComesTo known { answer 3 3 with payload := [3, 3, 0] } u) ∧
    (∃ s u, NoReset s ∧ ComesTo s (answer 3 3) u ∧ slotOfAddr s 9 = some 0 ∧
      s.cu.slots[0] = some { slot9 with request := some ⟨.exclusive, none⟩ } ∧ inOutbox .request 0 s = true ∧ inOutbox .release 0 s = true) :=
  ⟨List.forall_mem_cons.2 ⟨⟨_, .inr ⟨arrives _ _ (by decide), rfl, rfl, _, rfl, .inl ⟨rfl, by decide, rfl⟩⟩⟩,
      List.forall_mem_cons.2 ⟨⟨_, .inr ⟨arrives _ _ (by decide), rfl, rfl, _, rfl, .inl ⟨rfl, by decide, rfl⟩⟩⟩, nofun⟩⟩,
    ⟨{ known with elp := base.elp }, _, quiet rfl rfl, by decide, .inr ⟨arrives _ _ (by decide), rfl, rfl, _, rfl, .inr ⟨by decide, rfl⟩⟩⟩,
    ⟨_, .inl ⟨taken _ _ (by decide) (by decide), rfl⟩⟩,
    ⟨{ known with cu := { known.cu with
        slots := known.cu.slots.set 0 (some { slot9 with request := some ⟨.exclusive, none⟩ }), offered := some ⟨⟨.request, 1, .shared, 7⟩, passing⟩,
        outbox := [⟨.release, 0, .shared, 9⟩, ⟨.request, 0, .exclusive, 9⟩] } }, _, quiet rfl rfl,
      .inl ⟨taken _ _ (by decide) (by decide), rfl⟩, by decide⟩⟩

/-- An EXCLUSIVE grant of the focus slot whose confine-on-exclusive flag is set locks the focus. -/
theorem test_confined_grant : ∃ s : State, NoReset s ∧ s.fu.focus = some ⟨0, 0, 1⟩ ∧ s.fu.lock = false ∧ focusHolds s ⟨0, 0, 1⟩ = true ∧
    ∃ t, exec (hear s (answer 3 3)) s = .next t ∧ t.fu.lock = true ∧ t.fu.focus = some ⟨0, 0, 1⟩ ∧
      t.cu.slots[0].map (·.held) = some .exclusive :=
  ⟨{ desk with
      wlp := linked.wlp,
      cu := { desk.cu with slots := desk.cu.slots.set 0 (some { asking with content := ⟨9, false, true⟩ }) } }, quiet rfl rfl, rfl, rfl, by decide,
    _, rfl, by decide +kernel⟩

/-- `known` with a message at the head of the outbox, and `n` frames in the insertion queue. -/
def sendingClaims (k : Slot) (l : List ClaimMsg) (n : Nat) : State :=
  { (claiming k) with
    cu := { (claiming k).cu with outbox := l }, rf := { known.rf with insQ := List.replicate n ⟨passing, false⟩ } }

/-- The outbox's head: a REQUEST that its slot waits for, one whose slot asks no more, one before another of its slot, and a RELEASE, with
one place in the insertion queue and with none. -/
theorem test_witness_outbox : (∀ n ∈ [11, 12], ∀ l, NoReset (sendingClaims { slot9 with request := some ⟨.exclusive, none⟩ } l n)) ∧
    (sendingClaims { slot9 with request := some ⟨.exclusive, none⟩ } [⟨.request, 0, .exclusive, 9⟩] 11).cu.slots[0] =
      some { slot9 with request := some ⟨.exclusive, none⟩ } ∧
    (sendingClaims slot9 [⟨.request, 0, .exclusive, 9⟩] 11).cu.slots[0] = some slot9 ∧ slot9.request = none ∧
    (sendingClaims slot9 [⟨.request, 0, .shared, 9⟩, ⟨.request, 0, .exclusive, 9⟩] 11).cu.outbox ≠ [] ∧
    (sendingClaims slot9 [⟨.release, 0, .view, 9⟩] 12).cu.offered = none ∧ base.cu.outbox = [] ∧
    (∃ s : State, NoReset s ∧ s.cu.offered.isSome = true) := by
  have q : ∀ k l n, NoReset (sendingClaims k l n) := fun k l n => quiet_full (n := n) (f := passing) rfl rfl
  exact ⟨fun n _ l => q _ _ _, by decide, by decide, by decide, by decide, by decide, by decide,
    ⟨{ base with cu := { base.cu with offered := some ⟨⟨.request, 1, .shared, 7⟩, passing⟩ } }, quiet rfl rfl, by decide⟩⟩

/-- Each refusal of a local request, and one that is accepted. -/
theorem test_witness_local_requests :
    (localRequest none (some .shared) known).1 = some .invalid ∧ (localRequest (some 15) (some .shared) known).1 = some .invalid ∧
    (localRequest (some 0) none known).1 = some .invalid ∧ (localRequest (some 0) (some .exclusive) standby).1 = some .invalid ∧
    nodePresent base 9 = false ∧ (localRequest (some 0) (some .shared) known).1 = some .belowHeld ∧
    (localRequest (some 0) (some .exclusive) (claiming asking)).1 = some .inUse ∧
    (localRequest (some 0) (some .exclusive) known).1 = none := by decide +kernel

/-- Each refusal of a local release; one that lowers the level, one that ends a request, and one that finds nothing to do. -/
theorem test_witness_local_releases :
    (localRelease none (some .view) known).1 = some .invalid ∧ (localRelease (some 0) (some .exclusive) known).1 = some .invalid ∧
    (localRelease (some 0) none known).1 = some .invalid ∧ (localRelease (some 15) (some .view) known).1 = some .invalid ∧
    (localRelease (some 0) (some .view) known).1 = none ∧ Level.rank .view < Level.rank slot9.held ∧
    (localRelease (some 0) (some .shared) (claiming asking)).1 = none ∧ Level.rank asking.held ≤ Level.rank .shared ∧ asking.request ≠ none ∧
    inOutbox .request 0 known = false ∧ slot9.request = none := by decide +kernel

/-- Writes of a directory slot: EMPTY content over an EMPTY slot, a free one and one in use; each refusal; a load, new flags, and a move. -/
theorem test_witness_slot_writes :
    (writeEntry false 9 .sources 15 [] known).1 = none ∧ (writeEntry false 9 .sources 0 [] known).1 = none ∧
    (writeEntry false 9 .sources 0 [] desk).1 = some .inUse ∧ (writeEntry false 9 .sources 1 [9] known).1 = some .invalid ∧
    (writeEntry false 9 .sources 1 [0, 0] known).1 = some .invalid ∧ (writeEntry false 9 .sources 1 [63, 0] known).1 = some .invalid ∧
    (writeEntry false 9 .sources 1 [5, 0] known).1 = some .invalid ∧ own known = 5 ∧
    (writeEntry false 9 .sources 1 [9, 0] known).1 = some .inUse ∧ (writeEntry false 9 .sources 1 [62, 3] known).1 = none ∧
    (writeEntry false 9 .sources 0 [9, 3] known).1 = none ∧ (writeEntry false 9 .sources 0 [1, 1] known).1 = none ∧
    nodePresent known 9 = true ∧ nodePresent known 62 = false := by decide +kernel

theorem test_witness_timers : NoReset (claiming asking) ∧ asking.request = some ⟨.exclusive, some 5⟩ ∧ known.cu.slots[15] = none ∧
    base.mu.interval = none ∧
    (∃ s : State, NoReset s ∧ s.mu.interval.isSome = true ∧ s.mu.due = false) ∧
    (∃ s : State, NoReset s ∧ s.mu.interval.isSome = true ∧ s.mu.due = true ∧ s.mu.offer = none ∧ s.rf.insQ.length < 12) :=
  ⟨quiet rfl rfl, rfl, by decide, rfl,
    ⟨{ base with mu := { base.mu with interval := some 0 } }, ⟨⟨rfl, nofun, nofun, nofun⟩, nofun⟩, by decide⟩,
    ⟨{ base with mu := { base.mu with interval := some 0, due := true } }, ⟨⟨rfl, nofun, nofun, nofun⟩, nofun⟩, by decide⟩⟩

/-- An interval that runs out while the unit keeps a frame on offer, with a notice due. -/
theorem test_witness_notice_waits : ∃ s : State, NoReset s ∧ s.mu.interval.isSome = true ∧ s.mu.due = true ∧ s.mu.offer.isSome = true :=
  ⟨{ base with mu := { base.mu with interval := some 0, due := true, offer := some ⟨⟨passing, false⟩, true⟩ } },
    ⟨⟨rfl, nofun, fun o h => by cases h; rfl, nofun⟩, nofun⟩, by decide⟩

/-- A notice due at a full insertion queue, with the interval running and without. -/
theorem test_witness_notice_refused : ∀ n ∈ [none, some 0], ∃ s : State, NoReset s ∧ s.mu.interval = n ∧ s.mu.due = true ∧ s.mu.offer = none ∧
    12 ≤ s.rf.insQ.length :=
  fun n _ => ⟨{ base with mu := { base.mu with interval := n, due := true }, rf := { base.rf with insQ := List.replicate 12 ⟨passing, false⟩ } },
    ⟨⟨rfl, nofun, nofun, nofun⟩, (quiet_full (s := { base with rf := { base.rf with insQ := List.replicate 12 ⟨passing, false⟩ } }) (n := 12)
      (f := passing) rfl rfl).insQ⟩, rfl, rfl, rfl, by show 12 ≤ (List.replicate 12 _).length; simp⟩

def request (l : List Byte) : Frame := ⟨kindMgmtReq, 5, 9, 3, [1, 2] ++ l⟩

theorem test_witness_management :
    NoReset linked ∧ Taken linked (request [1, 1, 22, 1]) ∧ Taken linked (request [9]) ∧ Taken linked (request [2, 1, 0, 1, 0]) ∧
    nodeInRange (request []).origin = true ∧ linked.mu.work = none ∧ linked.mu.offer = none ∧ linked.mu.due = false ∧
    spaceOf 1 = some .desk ∧ 22 < spaceSize .desk ∧ readProtected .desk 9 linked = false ∧
    (entryBytes (readEntry .desk 22 linked)).length ≤ 1019 ∧ readOnlySpace .desk = false ∧
    (∃ s : State, NoReset s ∧ Taken s (request [2, 1, 0, 1, 0]) ∧ writeProtected .desk s = true) ∧
    (∃ s : State, NoReset s ∧ Taken s (request [9]) ∧ s.mu.work.isSome = true) :=
  ⟨quiet rfl rfl, taken _ _ (by decide) (by decide), taken _ _ (by decide) (by decide), taken _ _ (by decide) (by decide),
    by decide, by decide, by decide, by decide, by decide, by decide, by decide, by decide +kernel, by decide,
    ⟨{ linked with mu := { linked.mu with configLevel := .writeLocked } }, ⟨⟨rfl, nofun, nofun, nofun⟩, nofun⟩,
      taken _ _ (by decide) (by decide), by decide⟩,
    ⟨{ linked with mu := { linked.mu with work := some ⟨9, 0, false⟩ } }, ⟨⟨rfl, fun w h => by cases h; rfl, nofun, nofun⟩, nofun⟩,
      taken _ _ (by decide) (by decide), by decide⟩⟩

theorem passes (l : List Byte) (h : formValid (request l).payload = true) : FormPasses (request l).payload := (formValid_iff _).1 h

/-- A request of every kind that passes the form check, with its fields at the ends of their ranges and past them. -/
theorem test_witness_requests : ∀ l ∈ [[1, 1, 22, 1], [1, 1, 0, 0], [1, 1, 0, 255], [1, 1, 23, 1], [1, 0, 0, 1], [2, 1, 12, 1, 1, 240], [2, 0, 0, 0], [2, 1, 23, 0],
    [3, 0], [3, 1], [3, 15], [3, 16], [4, 0], [4, 7], [4, 8], [5, 0, 3], [5, 15, 2], [5, 16, 2], [5, 0, 0], [6, 0, 1], [6, 15, 1],
    [6, 16, 1], [7, 0], [7, 1], [7, 2], [8, 0, 1], [9], [10, 0, 0], [10, 1, 2], [10, 2, 0], [10, 0, 3], [11], [12]],
    Taken linked (request l) ∧ FormPasses (request l).payload := by
  intro l hl
  have a := taken linked (request []) (by decide) (by decide)
  have both : ∀ l ∈ [[1, 1, 22, 1], [1, 1, 0, 0], [1, 1, 0, 255], [1, 1, 23, 1], [1, 0, 0, 1], [2, 1, 12, 1, 1, 240], [2, 0, 0, 0], [2, 1, 23, 0],
      [3, 0], [3, 1], [3, 15], [3, 16], [4, 0], [4, 7], [4, 8], [5, 0, 3], [5, 15, 2], [5, 16, 2], [5, 0, 0], [6, 0, 1], [6, 15, 1],
      [6, 16, 1], [7, 0], [7, 1], [7, 2], [8, 0, 1], [9], [10, 0, 0], [10, 1, 2], [10, 2, 0], [10, 0, 3], [11], [12]],
      formValid (request l).payload = true ∧ (request l).payload.length ≤ 65535 := by decide +kernel
  have b := both l hl
  exact ⟨⟨⟨⟨a.up, a.burst, b.2⟩, a.foreign, a.hops⟩, a.node, a.here, a.loaded⟩, passes l b.1⟩

/-- Payloads that fail the form check: too short for a tag, for their kind, or for their fields; a kind that is none; entries that do not
fill the payload. -/
theorem test_witness_bad_forms : (∀ l ∈ [[], [0], [13], [1, 1, 0], [2, 1, 0, 1], [2, 1, 0, 1, 1], [2, 1, 0, 0, 0], [3], [10, 0]],
      ¬ FormPasses (request l).payload) ∧
    (∀ l ∈ [[], [7#8]], Taken linked ⟨kindMgmtReq, 5, 9, 3, l⟩ ∧ l.length < 2) ∧
    (∀ o ∈ [0#8, 63], Taken linked { request [9] with origin := o } ∧ nodeInRange o = false) ∧ nodeInRange 1 = true ∧ nodeInRange 62 = true := by
  have a := taken linked (request []) (by decide) (by decide)
  have bad : ∀ l ∈ [[], [0], [13], [1, 1, 0], [2, 1, 0, 1], [2, 1, 0, 1, 1], [2, 1, 0, 0, 0], [3], [10, 0]],
    formValid (request l).payload = false := by decide +kernel
  refine ⟨fun l hl h => Bool.noConfusion ((bad l hl).symm.trans ((formValid_iff _).2 h)), ?_, ?_, by decide, by decide⟩
  · exact List.forall_mem_cons.2 ⟨⟨taken _ _ (by decide) (by decide), by decide⟩,
      List.forall_mem_cons.2 ⟨⟨taken _ _ (by decide) (by decide), by decide⟩, nofun⟩⟩
  · exact List.forall_mem_cons.2 ⟨⟨taken _ _ (by decide) (by decide), by decide⟩,
      List.forall_mem_cons.2 ⟨⟨taken _ _ (by decide) (by decide), by decide⟩, nofun⟩⟩

/-- What stops a READ or a WRITE: a locked area for a node that is not the authority, a read-only space, a locked space at a write of two
entries, and a save. -/
theorem test_witness_stopped_requests :
    (∃ s : State, NoReset s ∧ Taken s (request [1, 1, 0, 1]) ∧ readProtected .desk 9 s = true ∧ readProtected .desk 7 s = false) ∧
    (∃ s : State, NoReset s ∧ Taken s (request [2, 1, 11, 2, 1, 9, 1, 9]) ∧ writeProtected .desk s = true) ∧
    (∃ s : State, NoReset s ∧ Taken s (request [2, 1, 11, 0]) ∧ s.cl.save ≠ .idle ∧ (spaceArea .desk).isSome = true ∧ writeProtected .desk s = false) ∧
    (∃ (b : Byte) (e : Space), spaceOf b = some e ∧ readOnlySpace e = true ∧ 0 < spaceSize e) ∧
    (∃ s : State, NoReset s ∧ Taken s (request [12]) ∧ s.desk.authority = 7) :=
  ⟨⟨{ linked with mu := { linked.mu with configLevel := .readWriteLocked }, desk := { linked.desk with authority := 7 } },
      ⟨⟨rfl, nofun, nofun, nofun⟩, nofun⟩, taken _ _ (by decide) (by decide), by decide⟩,
    ⟨{ linked with mu := { linked.mu with configLevel := .writeLocked } }, ⟨⟨rfl, nofun, nofun, nofun⟩, nofun⟩,
      taken _ _ (by decide) (by decide), by decide⟩,
    ⟨{ linked with cl := { linked.cl with save := .writingDesk } }, quiet rfl rfl, taken _ _ (by decide) (by decide), by decide⟩,
    ⟨0, _, rfl, by decide⟩,
    ⟨{ linked with desk := { linked.desk with authority := 7 } }, quiet rfl rfl, taken _ _ (by decide) (by decide), rfl⟩⟩

/-- Where a RESET's response goes: a line that sends, a line that is idle, a port out of service, a full queue, a frame kept on offer. -/
theorem test_witness_reset_request :
    (∃ s : State, NoReset s ∧ Taken s (request [12]) ∧ s.elp.state = .up ∧ s.rf.sending.isSome = true ∧ s.mu.offer = none ∧
      s.rf.insQ.length < 12 ∧ s.mu.due = false) ∧
    (NoReset linked ∧ linked.elp.state = .up ∧ linked.rf.sending = none ∧ linked.rf.passQ = [] ∧ linked.rf.insQ = [] ∧
      linked.desk.authority = 0) ∧
    (∃ s : State, NoReset s ∧ Taken s (request [12]) ∧ s.elp.state ≠ .up) ∧
    (∃ s : State, NoReset s ∧ Taken s (request [12]) ∧ 12 ≤ s.rf.insQ.length) ∧
    (∃ s : State, NoReset s ∧ Taken s (request [12]) ∧ s.mu.offer.isSome = true) :=
  ⟨⟨ringed fun r => { r with sending := some ⟨passing, .passThrough⟩ }, quiet rfl rfl, taken _ _ (by decide) (by decide), by decide⟩,
    ⟨quiet rfl rfl, by decide⟩, ⟨{ linked with elp := base.elp }, quiet rfl rfl, taken _ _ (by decide) (by decide), by decide⟩,
    ⟨ringed fun r => { r with insQ := List.replicate 12 ⟨passing, false⟩ }, quiet_full (n := 12) (f := passing) rfl rfl,
      taken _ _ (by decide) (by decide), by decide⟩,
    ⟨{ linked with mu := { linked.mu with offer := some ⟨⟨passing, false⟩, true⟩ } }, ⟨⟨rfl, nofun, fun o h => by cases h; rfl, nofun⟩, nofun⟩,
      taken _ _ (by decide) (by decide), by decide⟩⟩

/-- The bytes of a stream entry. -/
def streamOfBytes (id slot width height stale : Nat) : List Byte := be16 id ++ [byte slot] ++ be16 width ++ be16 height ++ be16 stale

def streamAnswer (i id slot width height stale : Nat) : Answer := (writeEntry false 9 .streams i (streamOfBytes id slot width height stale) desk).1

/-- Writes of a stream entry at the ends of each field's range and past them; each kind of rewrite. -/
theorem test_witness_stream_writes :
    streamAnswer 31 1023 0 64 64 16 = none ∧ streamAnswer 31 1023 1 3840 2160 4000 = none ∧ streamAnswer 31 3 0 64 64 0 = none ∧
    streamAnswer 31 0 0 64 64 16 = some .invalid ∧ streamAnswer 31 1024 0 64 64 16 = some .invalid ∧
    streamAnswer 31 3 2 64 64 16 = some .invalid ∧ streamAnswer 31 3 16 64 64 16 = some .invalid ∧
    streamAnswer 31 3 0 56 64 16 = some .invalid ∧ streamAnswer 31 3 0 3848 64 16 = some .invalid ∧
    streamAnswer 31 3 0 68 64 16 = some .invalid ∧ streamAnswer 31 3 0 64 60 16 = some .invalid ∧
    streamAnswer 31 3 0 64 2164 16 = some .invalid ∧ streamAnswer 31 3 0 64 66 16 = some .invalid ∧
    streamAnswer 31 3 0 64 64 15 = some .invalid ∧ streamAnswer 31 3 0 64 64 4001 = some .invalid ∧
    streamAnswer 31 1 0 64 64 16 = some .inUse ∧ streamAnswer 0 1 0 64 64 16 = none ∧
    (writeEntry false 9 .streams 0 [] desk).1 = none ∧ (writeEntry false 9 .streams 31 [] desk).1 = none ∧
    (writeEntry false 9 .streams 0 (List.replicate 8 0) desk).1 = some .invalid := by decide +kernel

/-- The pool: an allocation that finds three buffers, one that finds two, and a stale timeout that a running timer has reached. -/
theorem test_witness_stream_pool : (srStart []).free.length = 80 ∧
    (∃ s : State, s.sr.free = [78, 79] ∧ (writeEntry false 9 .streams 5 (streamOfBytes 9 0 64 64 16) s).2.sr.entries[5].map (·.state) =
      some .blocked ∧ (writeEntry false 9 .streams 5 (streamOfBytes 9 0 64 64 16) s).2.mu.events &&& EventKind.bit .poolExhausted ≠ 0) ∧
    (∃ s : Nat → State, (∀ n, (s n).sr.entries[0] = some { live with content := ⟨1, 0, 64, 64, 250⟩, timer := some n }) ∧
      (writeEntry false 9 .streams 0 (streamOfBytes 1 0 64 64 16) (s 16)).2.sr.entries[0].map (·.state) = some .stale ∧
      (writeEntry false 9 .streams 0 (streamOfBytes 1 0 64 64 16) (s 15)).2.sr.entries[0].map (·.state) = some .live) :=
  ⟨by decide, ⟨{ desk with sr := { desk.sr with free := [78, 79] } }, by decide +kernel⟩,
    ⟨fun n => desk.setSr (withEntry desk 0 { live with content := ⟨1, 0, 64, 64, 250⟩, timer := some n }), fun _ => rfl, by decide +kernel⟩⟩

/-- The bytes of a head record. -/
def headBytes (e width height ox oy : Nat) : List Byte := [byte e] ++ be16 width ++ be16 height ++ be16 ox ++ be16 oy ++ [0, 0, 0]

/-- Writes of a head record: the same record, a flag of no meaning, ranges, an overlap, a window that no longer fits, and a move. -/
theorem test_witness_head_writes :
    (writeEntry false 9 .desk 1 (headBytes 1 1920 1080 0 0) desk).1 = none ∧ (writeEntry false 9 .desk 1 (headBytes 2 1920 1080 0 0) desk).1 = some .invalid ∧
    (writeEntry false 9 .desk 1 (headBytes 1 0 1080 0 0) desk).1 = some .invalid ∧
    (writeEntry false 9 .desk 1 (headBytes 1 1920 1080 1920 0) desk).1 = some .overlap ∧
    (writeEntry false 9 .desk 4 (headBytes 1 1920 1080 5760 8) desk).1 = none ∧
    (writeEntry false 9 .desk 1 [0] desk).1 = some .invalid ∧ winFits 640 480 (window 2 2 600) = false := by decide +kernel

/-- Writes of lists: a valid one, six records, seven, one id twice, one past the head, a source past its stream, and a pending head. -/
theorem test_witness_list_writes :
    ListFits 0 [window 1 1 0] desk ∧ parseList (listBytes [window 1 1 0]) = some [window 1 1 0] ∧
    (writeEntry false 9 .staged 0 (listBytes [window 1 1 0]) desk).1 = none ∧
    (writeEntry false 9 .staged 0 (listBytes [window 1 1 0, window 1 2 0]) desk).1 = some .invalid ∧
    (writeEntry false 9 .staged 0 (listBytes [window 1 1 1821]) desk).1 = some .invalid ∧
    (writeEntry false 9 .staged 0 (listBytes [{ window 1 1 0 with sx := 1 }]) desk).1 = some .invalid ∧
    parseList [7] = none ∧ parseList [] = none ∧
    (writeEntry false 9 .staged 3 [] { desk with cp := { desk.cp with pending := desk.cp.pending.set 3 true } }).1 = some .latchPending ∧
    (writeEntry false 9 .presets 31 [0] desk).1 = none := by
  refine ⟨⟨⟨by decide, by decide⟩, ?_, ?_, ?_⟩, by decide +kernel, by decide +kernel, by decide +kernel, by decide +kernel, by decide +kernel,
    by decide, by decide, by decide +kernel, by decide +kernel⟩
  · intro w hw
    rw [List.mem_singleton.1 hw]
    have one : ∀ id, (window 1 1 0).stream = some id → 1 ≤ id ∧ id ≤ 1023 := fun id h => by cases h; exact ⟨by decide, by decide⟩
    exact ⟨by decide, one, by decide, by decide, .inl rfl, by decide, by decide, by decide, by decide, by decide, by decide⟩
  · intro w hw
    rw [List.mem_singleton.1 hw]
    decide
  · intro w hw id e h he
    rw [List.mem_singleton.1 hw] at h ⊢
    cases h
    have : streamOf desk 1 = some (wide 1 0) := by decide
    rw [this] at he
    cases he
    decide

/-- Every number setting at the ends of its range, one step past them, and at another width. -/
theorem test_witness_number_writes : ∀ e ∈ [(11, 1, 0, 255), (12, 1, 0, 240), (13, 1, 1, 15), (14, 1, 1, 255), (15, 1, 1, 255), (16, 2, 100, 5000),
      (17, 1, 0, 255), (18, 2, 20, 2000), (19, 2, 10, 1000)],
    (writeEntry false 9 .desk e.1 (if e.2.1 = 1 then [byte e.2.2.1] else be16 e.2.2.1) base).1 = none ∧
    (writeEntry false 9 .desk e.1 (if e.2.1 = 1 then [byte e.2.2.2] else be16 e.2.2.2) base).1 = none ∧
    (0 < e.2.2.1 → (writeEntry false 9 .desk e.1 (if e.2.1 = 1 then [byte (e.2.2.1 - 1)] else be16 (e.2.2.1 - 1)) base).1 = some .invalid) ∧
    (e.2.2.2 ≠ 255 → (writeEntry false 9 .desk e.1 (if e.2.1 = 1 then [byte (e.2.2.2 + 1)] else be16 (e.2.2.2 + 1)) base).1 = some .invalid) ∧
    (writeEntry false 9 .desk e.1 [1, 1, 1] base).1 = some .invalid := by decide +kernel

/-- The other settings: both frame rates and another, a colour and none, the targets at their ends, the authority's guard, the seed. -/
theorem test_witness_setting_writes : (writeEntry false 9 .desk 0 [50] base).1 = none ∧ (writeEntry false 9 .desk 0 [55] base).1 = some .invalid ∧
    (writeEntry false 9 .desk 10 [] base).1 = none ∧ (writeEntry false 9 .desk 5 [1, 2, 3] base).1 = none ∧
    (writeEntry false 9 .desk 5 [1, 2] base).1 = some .invalid ∧ (∀ b ∈ [0#8, 1, 62], (writeEntry false 9 .desk 20 [b] base).1 = none) ∧
    (∀ b ∈ [5#8, 63], (writeEntry false 9 .desk 21 [b] base).1 = some .invalid) ∧
    (writeEntry false 9 .desk 21 [0] { base with desk := { base.desk with authority := 7 } }).1 = some .notAuthority ∧
    (writeEntry false 9 .desk 22 [1, 2, 3, 4] base).1 = none ∧ (writeEntry false 9 .desk 22 [1] base).1 = some .invalid ∧
    (writeEntry false 9 .desk 23 [] base).1 = some .invalid := by decide +kernel

/-- Hot keys, lamps and the event mask at the ends of their fields, past them, and in use. -/
theorem test_witness_table_writes : (writeEntry false 9 .hotkeys 15 [0, 4, 0, 7] base).1 = none ∧
    (writeEntry false 9 .hotkeys 15 [0, 4, 0, 8] base).1 = some .invalid ∧ (writeEntry false 9 .hotkeys 0 [0, 4, 6, 8] base).1 = none ∧
    (writeEntry false 9 .hotkeys 0 [0, 4, 7, 0] base).1 = some .invalid ∧ (writeEntry false 9 .hotkeys 0 [0, 0, 1, 0] base).1 = some .invalid ∧
    (writeEntry false 9 .hotkeys 0 [0, 224, 1, 0] base).1 = some .invalid ∧ (writeEntry false 9 .hotkeys 0 [] base).1 = none ∧
    (writeEntry false 9 .hotkeys 0 [1, 4, 1, 0] (typed fun u => { u with hotkeys := u.hotkeys.set 15 (some hot) })).1 = some .inUse ∧
    (writeEntry false 9 .lamps 4 [0, 1, 2, 3] base).1 = none ∧ (writeEntry false 9 .lamps 4 [0, 1, 2, 4] base).1 = some .invalid ∧
    (writeEntry false 9 .events 1 [0, 1] base).1 = none ∧ (writeEntry false 9 .events 1 [1] base).1 = some .invalid ∧
    (writeEntry false 9 .events 0 [0, 1] base).1 = some .invalid := by decide +kernel

/-- `base` in a save. -/
def saving (st : SaveState) : State := { base with cl := { base.cl with save := st, snapshot := some ⟨[1], [2]⟩ } }

theorem test_witness_save : NoReset (saving .writingLayout) ∧ (saving .writingLayout).cl.snapshot = some ⟨[1], [2]⟩ ∧
    [2#8].length ≤ layoutLen ∧ (saving .writingDesk).cl.save = .writingDesk ∧ [1#8].length ≤ deskLen ∧ base.cl.save = .idle :=
  ⟨quiet rfl rfl, by decide⟩

/-! ## Worked steps -/

/-- After power-on and a load without LOAD_SEL the desk runs at its straps' address, with the pointer in the first head's middle. -/
theorem test_boot : ∃ t u, step (State.reset.setPending [.powerOnReset false 5, .loadComplete ⟨true, true, true⟩ false]) = .next t ∧
    step t = .next u ∧ u.cl.loader = .running ∧ own u = 5 ∧ u.fu.x = 960 ∧ u.fu.y = 540 ∧ u.wlp.state = .silent ∧ u.pending = [] :=
  ⟨_, _, rfl, rfl, by decide +kernel⟩

/-- A capability word and a TRIAL, a lock and a GO bring the follower UP at the trial's rate. -/
theorem test_follower_up : ∃ t, exec (.goTaken .west)
    { base with wlp := { base.wlp with state := .train, target := some .half, locked := true } } = .next t ∧
    t.wlp.state = .up ∧ t.wlp.agreed = some .half ∧ t.rf.ring = .open := ⟨_, rfl, by decide +kernel⟩

/-- A key pressed in the focus window leaves in an INPUT frame to its node. -/
theorem test_key_travels : ∃ t, exec (.deskKeyDown 4) desk = .next t ∧
    t.rf.insQ.map (·.frame) = [⟨kindInput, 9, 5, 63, inputPayload 1 [.key 4 false]⟩] ∧ t.iu.keys = [(4, 0)] :=
  ⟨_, rfl, by decide +kernel⟩

/-- The fourth pressed sample in a row is a press, which asks for EXCLUSIVE of the focus slot. -/
theorem test_fourth_sample : ∃ t, exec (.takeoverButtonSample .pressed) (sampling (some .released) 3) = .next t ∧
    t.pu.filter = some .pressed ∧ t.cu.slots[0].bind (·.request) = some ⟨.exclusive, some 200⟩ := ⟨_, rfl, by decide +kernel⟩

end Sys2Proof.Tests
end

section
/-! What every step keeps (O6, O7): each command ends, as every step ends, in a state that is `Sound` and `Firm` after the one it began in. -/

namespace Sys2Proof.Machine

open Sys2Proof

/-! ## Commands without a lemma of their own -/

/-- A part that a condition on the state may leave out. -/
theorem ite_sound {p : Prop} [Decidable p] {s u : State} (h : Sound s u) : Sound s (if p then u else s) := by
  split
  · exact h
  · exact .refl s

theorem ite_firm {p : Prop} [Decidable p] {s u : State} (h : Firm s u) : Firm s (if p then u else s) := by
  split
  · exact h
  · exact .refl s

theorem rejectRecord_keeps {s t : State} (h : Keeps s t) : Keeps s (rejectRecord t) := countIu_keeps _ h

theorem rejectRecord_firm {s t : State} (h : Firm s t) : Firm s (rejectRecord t) := countIu_firm _ h

theorem atButton_keeps (b : Byte) {act : Fin 5 → State → State} (ha : ∀ k {s t : State}, Keeps s t → Keeps s (act k t))
    {s t : State} (h : Keeps s t) : Keeps s (atButton b act t) := by
  unfold atButton
  split
  · exact ha _ h
  · exact h

theorem atButton_firm (b : Byte) {act : Fin 5 → State → State} (ha : ∀ k {s t : State}, Firm s t → Firm s (act k t))
    {s t : State} (h : Firm s t) : Firm s (atButton b act t) := by
  unfold atButton
  split
  · exact ha _ h
  · exact h

/-! ## Every command -/

/-- The command completes, and what it did before the end of the step is a sound and firm part of it. -/
def CompletesSafely (i : Instr) (s : State) : Prop := ∃ u, exec i s = completed u ∧ Sound s u ∧ Firm s u

/-- A desk record whose handling is a part of the operator's side. -/
theorem takeRecord_safe (valid : Bool) (kind : Option WakeKind) {handle : State → State}
    (hk : ∀ {s t : State}, Keeps s t → Keeps s (handle t)) (hf : ∀ {s t : State}, Firm s t → Firm s (handle t)) (s : State) :
    Sound s (takeRecord valid kind handle s) ∧ Firm s (takeRecord valid kind handle s) :=
  ⟨(takeRecord_keeps valid kind hk (.refl s)).sound, takeRecord_firm valid kind hf (.refl s)⟩

theorem deskRecordRejected_completesSafely (b0 b1 b2 b3 b4 : Byte) (s : State) :
    CompletesSafely (.deskRecordRejected b0 b1 b2 b3 b4) s := by
  refine ⟨_, rfl, ?_⟩
  split
  · exact ⟨.refl s, .refl s⟩
  · exact ⟨(rejectRecord_keeps (.refl s)).sound, rejectRecord_firm (.refl s)⟩

theorem absenceTimerExpires_completesSafely (a : Byte) (s : State) : CompletesSafely (.absenceTimerExpires a) s := by
  unfold CompletesSafely
  show ∃ u, execAbsenceTimerExpires a s = completed u ∧ _
  unfold execAbsenceTimerExpires
  split
  · exact ⟨_, rfl, absenceDue_sound _ (.refl s), absenceDue_firm _ (.refl s)⟩
  · exact ⟨_, rfl, .refl s, .refl s⟩

/-- Each of the 41 commands completes, soundly and firmly. -/
theorem exec_completesSafely (i : Instr) (s : State) : CompletesSafely i s := by
  cases i with
  | powerOnReset l b => exact ⟨_, rfl, powerOn_sound l b (.refl s), powerOn_firm l b s s⟩
  | loadComplete a rxMid =>
    refine ⟨_, rfl, ?_⟩
    split
    · exact ⟨.refl s, .refl s⟩
    · exact ⟨completeLoad_sound a rxMid (.refl s), completeLoad_firm a rxMid (.refl s)⟩
  | softReset => exact ⟨_, rfl, ite_sound (softReset_sound (.refl s)), ite_firm (softReset_firm (.refl s))⟩
  | energyDetected p => exact ⟨_, rfl, energyFound_sound p (.refl s), (energyFound_calm p s).firm⟩
  | energyLost p rxMid => exact ⟨_, rfl, energyGone_sound p rxMid (.refl s), (energyGone_calm p rxMid s).firm⟩
  | energyLossTimerExpires p => exact ⟨_, rfl, silenceExpired_sound p (.refl s), (silenceExpired_calm p s).firm⟩
  | capTaken p w rxMid =>
    cases p with
    | west => exact ⟨_, rfl, wlpCap_sound w rxMid (.refl s), (wlpCap_calm w rxMid s).firm⟩
    | east => exact ⟨_, rfl, elpCap_sound w (.refl s), (elpCap_calm w s).firm⟩
  | trialTaken p r rxMid =>
    cases p with
    | west => exact ⟨_, rfl, wlpTrial_sound r rxMid (.refl s), (wlpTrial_calm r rxMid s).firm⟩
    | east => exact ⟨_, rfl, .refl s, .refl s⟩
  | goTaken p =>
    cases p with
    | west => exact ⟨_, rfl, wlpGo_sound (.refl s), (wlpGo_calm s).firm⟩
    | east => exact ⟨_, rfl, .refl s, .refl s⟩
  | lockTaken r => exact ⟨_, rfl, elpLock_sound r (.refl s), (elpLock_calm r s).firm⟩
  | lossTaken => exact ⟨_, rfl, lockLost_sound .east false (.refl s), (lockLost_calm .east false s).firm⟩
  | retrainTaken => exact ⟨_, rfl, elpRetrain_sound (.refl s), (elpRetrain_calm s).firm⟩
  | trialWindowExpires => exact ⟨_, rfl, windowExpires_sound (.refl s), windowExpires_firm (.refl s)⟩
  | receiverLocked => exact ⟨_, rfl, receiverLocks_sound (.refl s), (receiverLocks_calm s).firm⟩
  | receiverLockLost p rxMid => exact ⟨_, rfl, lockLost_sound p rxMid (.refl s), (lockLost_calm p rxMid s).firm⟩
  | frameReceived bytes => exact ⟨_, rfl, frameSeen_sound bytes (.refl s), frameSeen_firm bytes (.refl s)⟩
  | errorBurstRetrain rxMid => exact ⟨_, rfl, errorBurst_sound rxMid (.refl s), (errorBurst_calm rxMid s).firm⟩
  | frameTransmitEnd => exact ⟨_, rfl, frameSent_sound (.refl s), (frameSent_calm s).firm⟩
  | refusedFrameAppended p => exact ⟨_, rfl, placeFrees_sound p (.refl s), placeFrees_firm p (.refl s)⟩
  | beaconTimerExpires => exact ⟨_, rfl, beaconDue_sound (.refl s), (beaconDue_calm s).firm⟩
  | absenceTimerExpires a => exact absenceTimerExpires_completesSafely a s
  | closureTimerExpires => exact ⟨_, rfl, closureDue_sound (.refl s), (closureDue_calm s).firm⟩
  | staleTimerExpires e => exact ⟨_, rfl, staleExpired_sound e (.refl s), staleExpired_firm e (.refl s)⟩
  | deskFrameBoundary => exact ⟨_, rfl, ite_sound (boundary_sound (.refl s)), ite_firm (boundary_firm (.refl s))⟩
  | deskRecordRejected b0 b1 b2 b3 b4 => exact deskRecordRejected_completesSafely b0 b1 b2 b3 b4 s
  | deskKeyDown u => exact ⟨_, rfl, takeRecord_safe _ _ (keyDown_keeps u) (keyDown_firm u) s⟩
  | deskKeyUp u => exact ⟨_, rfl, takeRecord_safe _ _ (keyUp_keeps u) (keyUp_firm u) s⟩
  | deskButtonPress b =>
    exact ⟨_, rfl, takeRecord_safe _ _ (atButton_keeps b buttonPress_keeps) (atButton_firm b buttonPress_firm) s⟩
  | deskButtonRelease b =>
    exact ⟨_, rfl, takeRecord_safe _ _ (atButton_keeps b buttonRelease_keeps) (atButton_firm b buttonRelease_firm) s⟩
  | deskMotion dx dy => exact ⟨_, rfl, takeRecord_safe _ _ (fuMotion_keeps _ _) (fuMotion_firm _ _) s⟩
  | deskWheel v h => exact ⟨_, rfl, takeRecord_safe _ _ (wheelTurn_keeps v h) (wheelTurn_firm v h) s⟩
  | takeoverPress =>
    exact ⟨_, rfl, ite_sound (filterChanges_keeps .pressed (.refl s)).sound, ite_firm (filterChanges_firm .pressed (.refl s))⟩
  | takeoverButtonReleased =>
    exact ⟨_, rfl, ite_sound (filterChanges_keeps .released (.refl s)).sound, ite_firm (filterChanges_firm .released (.refl s))⟩
  | takeoverButtonSample l => exact ⟨_, rfl, (sample_keeps l (.refl s)).sound, sample_firm l (.refl s)⟩
  | idleTimerExpires => exact ⟨_, rfl, (idleExpired_keeps (.refl s)).sound, idleExpired_firm (.refl s)⟩
  | blinkPhaseAdvance => exact ⟨_, rfl, (blinkAdvance_keeps (.refl s)).sound, blinkAdvance_firm (.refl s)⟩
  | requestTimerExpires i => exact ⟨_, rfl, (requestExpired_keeps i (.refl s)).sound, requestExpired_firm i (.refl s)⟩
  | noticeIntervalExpires => exact ⟨_, rfl, intervalDue_sound (.refl s), (intervalDue_calm s).firm⟩
  | saveLayoutWritten => exact ⟨_, rfl, layoutWritten_sound (.refl s), (layoutWritten_calm s).firm⟩
  | saveCompletes => exact ⟨_, rfl, deskWritten_sound (.refl s), (deskWritten_calm s).firm⟩
  | serialMemoryFault d => exact ⟨_, rfl, saveFaults_sound d (.refl s), (saveFaults_calm d s).firm⟩

/-! ## Every step -/

/-- What a step can do: it lets time pass with no command waiting, or it runs the command at the front of the queue; either way the next
state is a sound and firm successor, and no soft reset is left over where a command has run. -/
theorem step_safe {s t : State} (h : step s = .next t) :
    Sound s t ∧ Firm s t ∧ (s.mu.resetDue = false → t.mu.resetDue = false) := by
  unfold step at h
  split at h
  · rename_i c rest _
    obtain ⟨u, hu, sound, firm⟩ := exec_completesSafely c (s.setPending rest)
    rw [hu] at h
    cases h
    exact ⟨(setPending_sound (.refl s) rest).trans (finish_sound sound), (setPending_firm rest (.refl s)).trans (finish_firm firm),
      fun _ => finish_settled u⟩
  · cases h
    refine ⟨idle_sound (.refl s), idle_firm (.refl s), fun due => ?_⟩
    unfold idle
    split <;> exact due

/-- Settles O6: every step is sound and firm, and an outbox of whole claim records has room for all 32 of its messages. -/
theorem stepKeepsCapacities : Obligations.StepKeepsCapacities := by
  intro s t h
  obtain ⟨sound, firm, -⟩ := step_safe h
  exact ⟨sound.caps, firm.counts, firm.lists, firm.pool, firm.owned, fun c => ⟨firm.claims c, (firm.claims c).room⟩⟩

/-- Settles O7: a sound step keeps the ports and the ring in agreement, and no step leaves a soft reset over. -/
theorem stepKeepsLinkInvariant : Obligations.StepKeepsLinkInvariant := by
  intro s t inv h
  obtain ⟨sound, -, settled⟩ := step_safe h
  obtain ⟨links, ring⟩ := sound.link ⟨inv.links, inv.ring⟩
  exact ⟨links, ring, settled inv.settled⟩

end Sys2Proof.Machine
end

section
/-! How the link commands end (O10 to O20): what stands at the two ports and in the record of the symbols sent, and that every other
block but the ring forwarder and the management unit is left alone. -/

namespace Sys2Proof.Machine

open Sys2Proof

/-! ## The end of a link command -/

theorem Posts.setWlp {u t : State} (h : Posts u t) (v : Wlp) : Posts (u.setWlp v) (t.setWlp v) :=
  ⟨h.iu, h.fu, h.cu, h.pu, h.cp, h.sr, rfl, h.elp, h.cl, h.desk, h.serial, h.lineOut, h.pending, h.work, h.mask, h.configLevel,
    h.layoutLevel⟩

theorem Posts.setElp {u t : State} (h : Posts u t) (v : Elp) : Posts (u.setElp v) (t.setElp v) :=
  ⟨h.iu, h.fu, h.cu, h.pu, h.cp, h.sr, h.wlp, rfl, h.cl, h.desk, h.serial, h.lineOut, h.pending, h.work, h.mask, h.configLevel,
    h.layoutLevel⟩

theorem Posts.setLineOut {u t : State} (h : Posts u t) (l : List (Port × LineSymbol)) : Posts (u.setLineOut l) (t.setLineOut l) :=
  ⟨h.iu, h.fu, h.cu, h.pu, h.cp, h.sr, h.wlp, h.elp, h.cl, h.desk, h.serial, rfl, h.pending, h.work, h.mask, h.configLevel,
    h.layoutLevel⟩

/-- After `s` the ports stand as `a` and `b`, the symbols sent as `l`, no RESET response is in hand, and otherwise only the ring forwarder
and the management unit's events and notices have changed. -/
structure LinksEnd (s : State) (a : Wlp) (b : Elp) (l : List (Port × LineSymbol)) (t : State) : Prop where
  quiet : NoReset t
  posts : Posts (((s.setWlp a).setElp b).setLineOut l) t

section
variable {s t : State} {a : Wlp} {b : Elp} {l : List (Port × LineSymbol)}

theorem LinksEnd.refl (n : NoReset s) : LinksEnd s s.wlp s.elp s.lineOut s := ⟨n, .refl s⟩

theorem LinksEnd.wlp (h : LinksEnd s a b l t) : t.wlp = a := h.posts.wlp
theorem LinksEnd.elp (h : LinksEnd s a b l t) : t.elp = b := h.posts.elp
theorem LinksEnd.lineOut (h : LinksEnd s a b l t) : t.lineOut = l := h.posts.lineOut

theorem LinksEnd.sameDesk (h : LinksEnd s a b l t) : SameDesk s t :=
  ⟨h.posts.sr, h.posts.cp, h.posts.fu, h.posts.iu, h.posts.cu, h.posts.pu, h.posts.cl, h.posts.desk, h.posts.serial, h.posts.pending⟩

/-- The own word is made of what a link command leaves alone (R3). -/
theorem LinksEnd.ownWord (h : LinksEnd s a b l t) : ownWord t = ownWord s := by
  unfold Machine.ownWord own
  rw [h.sameDesk.cl]

theorem LinksEnd.setWlp (h : LinksEnd s a b l t) (v : Wlp) : LinksEnd s v b l (t.setWlp v) :=
  ⟨h.quiet.congr rfl rfl, h.posts.setWlp v⟩

theorem LinksEnd.setElp (h : LinksEnd s a b l t) (v : Elp) : LinksEnd s a v l (t.setElp v) :=
  ⟨h.quiet.congr rfl rfl, h.posts.setElp v⟩

theorem LinksEnd.sends (h : LinksEnd s a b l t) (p : Port) (syms : List LineSymbol) :
    LinksEnd s a b (l ++ syms.map fun x => (p, x)) (sendSymbols p syms t) := by
  refine ⟨h.quiet.congr rfl rfl, ?_⟩
  rw [← h.lineOut]
  exact h.posts.setLineOut _

theorem LinksEnd.followed (h : LinksEnd s a b l t) {u : State} (q : NoReset t → NoReset u) (p : Posts t u) : LinksEnd s a b l u :=
  ⟨q h.quiet, h.posts.trans p⟩

theorem LinksEnd.raise (h : LinksEnd s a b l t) (k : EventKind) : LinksEnd s a b l (raise k t) :=
  h.followed (raise_quiet k) (raise_posts k t)

theorem LinksEnd.deriveRing (h : LinksEnd s a b l t) : LinksEnd s a b l (deriveRing t) :=
  h.followed deriveRing_quiet (deriveRing_posts t)

/-- A departure of the WLP from UP is counted, and so is a frame that it cuts off (R14, R16). -/
theorem LinksEnd.wlpLeft (h : LinksEnd s a b l t) (rxMid : Bool) : LinksEnd s { a with
    linkDown := bump a.linkDown, truncated := if rxMid then bump a.truncated else a.truncated } b l (wlpLeft rxMid t) := by
  rw [← h.wlp]
  exact (h.setWlp _).followed afterLeavingUp_quiet (afterLeavingUp_posts _)

/-- A departure of the ELP from UP posts events alone, once it has been counted (R16). -/
theorem elpLeft_posts (t : State) : Posts (t.setElp { t.elp with linkDown := bump t.elp.linkDown }) (elpLeft t) := by
  unfold elpLeft
  refine .trans ?_ (afterLeavingUp_posts _)
  dsimp only
  split <;> constructor <;> rfl

/-- A departure of the ELP from UP is counted (R16). -/
theorem LinksEnd.elpLeft (h : LinksEnd s a b l t) (up : b.state ≠ .up) :
    LinksEnd s a { b with linkDown := bump b.linkDown } l (elpLeft t) := by
  rw [← h.elp] at up ⊢
  exact ⟨(elpLeft_spec h.quiet up).1, ((h.setElp _).posts).trans (elpLeft_posts t)⟩

/-- The trial begun stands at the ELP, and its CAP and TRIAL are sent (R9). -/
theorem LinksEnd.beginTrialAt (h : LinksEnd s a b l t) (r : Rate) :
    LinksEnd s a { b with state := .train, trial := some ⟨r, 0⟩ } (l ++ [(.east, .cap (Machine.ownWord s)), (.east, .trial r)])
      (beginTrialAt r t) := by
  unfold Machine.beginTrialAt
  rw [h.elp, h.ownWord]
  exact (h.setElp { b with state := .train, trial := some ⟨r, 0⟩ }).sends .east [.cap (Machine.ownWord s), .trial r]

theorem LinksEnd.beginTrial (h : LinksEnd s a b l t) :
    LinksEnd s a { b with state := .train, trial := some ⟨trialRate (partnerRates b.partner) b.ceiling, 0⟩ }
      (l ++ [(.east, .cap (Machine.ownWord s)), (.east, .trial (trialRate (partnerRates b.partner) b.ceiling))])
      (beginTrial t) := by
  unfold Machine.beginTrial
  rw [h.elp]
  exact h.beginTrialAt _

theorem LinksEnd.wlpWaits (h : LinksEnd s a b l t) :
    LinksEnd s { a with state := .train, target := none, locked := false } b l (wlpWaits t) := by
  rw [← h.wlp]
  exact h.setWlp _

theorem LinksEnd.wlpMismatch (h : LinksEnd s a b l t) :
    LinksEnd s { a with state := .mismatch, target := none, locked := false } b l (wlpMismatch t) := by
  rw [← h.wlp]
  exact h.setWlp _

theorem LinksEnd.elpMismatch (h : LinksEnd s a b l t) :
    LinksEnd s a { b with state := .mismatch, trial := none } l (elpMismatch t) := by
  rw [← h.elp]
  exact h.setElp _

/-- The command that ends so answers with that state. -/
theorem LinksEnd.completed (h : LinksEnd s a b l t) : completed t = .next t := completed_next h.quiet

end

/-- The ring state stands as derived from the state it stands in (R40). -/
theorem deriveRing_derived (t : State) : (deriveRing t).rf.ring = derivedRing (deriveRing t) := by
  obtain ⟨ring, presence⟩ := deriveRing_ring t
  have p := deriveRing_posts t
  rw [ring]
  exact (derivedRing_congr (by rw [p.wlp]) (by rw [p.elp]) (ownPresent_congr (by rw [p.cl]) presence)).symm

theorem deriveRing_beaconTimer (t : State) : (deriveRing t).rf.beaconTimer = t.rf.beaconTimer := by
  unfold deriveRing
  split
  · rfl
  · exact (raise_keeps (.refl _) .ringState).same.beaconTimer

/-! ## Energy -/

/-- Settles O10: the WLP and the ELP alike, SILENT or not. -/
theorem energyDetectedEntersAdvertise : Obligations.EnergyDetectedEntersAdvertise := by
  intro s due
  constructor
  · show completed (if _ then _ else _) = _
    split <;> exact completed_settled due
  · show completed (if _ then _ else _) = _
    split <;> exact completed_settled due

/-- The WLP in a state that takes a loss of energy enters SILENT, and a departure from UP follows (R17). -/
theorem energyGone_west {s : State} (rxMid : Bool)
    (h : s.wlp.state = .advertise ∨ s.wlp.state = .train ∨ s.wlp.state = .up ∨ s.wlp.state = .mismatch) :
    energyGone .west rxMid s =
      let t := s.setWlp { s.wlp with
        energy := false, state := .silent, partner := none, silence := some 0, target := none, locked := false, badFrames := 0 }
      if s.wlp.state = .up then wlpLeft rxMid t else t := by
  unfold energyGone
  rcases h with h | h | h | h <;> rw [h] <;> rfl

/-- The ELP in a state that takes a loss of energy enters SILENT, and a departure from UP follows (R17). -/
theorem energyGone_east {s : State} (rxMid : Bool)
    (h : s.elp.state = .advertise ∨ s.elp.state = .train ∨ s.elp.state = .up ∨ s.elp.state = .mismatch) :
    energyGone .east rxMid s =
      let t := s.setElp { s.elp with energy := false, state := .silent, partner := none, silence := some 0, trial := none }
      if s.elp.state = .up then elpLeft t else t := by
  unfold energyGone
  rcases h with h | h | h | h <;> rw [h] <;> rfl

/-- Settles O11: a port that is not UP enters SILENT alone; one that is UP leaves it as `LinksEnd.wlpLeft` and `elpLeft_spec` say. -/
theorem energyLostEntersSilent : Obligations.EnergyLostEntersSilent := by
  intro rxMid s n
  constructor
  · intro h
    have e := (LinksEnd.refl n).setWlp { s.wlp with
      energy := false, state := .silent, partner := none, silence := some 0, target := none, locked := false, badFrames := 0 }
    refine ⟨energyGone .west rxMid s, ?_⟩
    show completed _ = _ ∧ _
    rw [energyGone_west rxMid h]
    dsimp only
    by_cases up : s.wlp.state = .up
    · have f := e.wlpLeft rxMid
      have event := (wlpLeft_spec rxMid e.quiet).2.2.2.1
      rw [if_pos up, f.wlp, f.elp]
      exact ⟨f.completed, rfl, rfl, rfl, rfl, rfl, rfl, by simp [up], by simp [up], fun _ => event, rfl, f.sameDesk⟩
    · rw [if_neg up, e.wlp, e.elp]
      exact ⟨e.completed, rfl, rfl, rfl, rfl, rfl, rfl, by simp [up], by simp [up], fun x => absurd x up, rfl, e.sameDesk⟩
  · intro h
    have e := (LinksEnd.refl n).setElp { s.elp with
      energy := false, state := .silent, partner := none, silence := some 0, trial := none }
    refine ⟨energyGone .east rxMid s, ?_⟩
    show completed _ = _ ∧ _
    rw [energyGone_east rxMid h]
    dsimp only
    by_cases up : s.elp.state = .up
    · have f := e.elpLeft nofun
      obtain ⟨-, -, -, sending, passQ, share, beacons, event, -⟩ := elpLeft_spec e.quiet (by rw [e.elp]; nofun)
      rw [if_pos up, f.wlp, f.elp]
      exact ⟨f.completed, rfl, rfl, rfl, rfl, rfl, rfl, rfl, by simp [up], fun _ => ⟨passQ, sending, share, beacons, event⟩, rfl,
        f.sameDesk⟩
    · rw [if_neg up, e.wlp, e.elp]
      exact ⟨e.completed, rfl, rfl, rfl, rfl, rfl, rfl, rfl, by simp [up], fun x => absurd x up, rfl, e.sameDesk⟩

/-- Settles O12: the timer of a SILENT port expires, and one that does not run does not. -/
theorem silenceExpiryForgetsTheRate : Obligations.SilenceExpiryForgetsTheRate := by
  intro s due
  refine ⟨fun h => ?_, fun h => ?_, fun h => ?_, fun h => ?_⟩
  · show completed (if _ then _ else _) = _
    rw [if_pos h]
    exact completed_settled due
  · show completed (if _ then _ else _) = _
    rw [if_pos h]
    exact completed_settled due
  · show completed (if _ then _ else _) = _
    rw [if_neg (by simp [h])]
    exact completed_settled due
  · show completed (if _ then _ else _) = _
    rw [if_neg (by simp [h])]
    exact completed_settled due

end Sys2Proof.Machine
end

section
/-! Capability words and training (O13 to O20). -/

namespace Sys2Proof.Machine

open Sys2Proof

/-! ## Capability words -/

/-- A rate set is not empty exactly when it holds a class. -/
theorem nonempty_iff_holds (p : RateSet) : p.nonempty = true ↔ ∃ r, rateIn p r = true := by
  constructor
  · intro h
    simp only [RateSet.nonempty, Bool.or_eq_true] at h
    obtain (h | h) | h := h
    · exact ⟨.full, h⟩
    · exact ⟨.half, h⟩
    · exact ⟨.quarter, h⟩
  · rintro ⟨r, h⟩
    cases r <;> simp only [rateIn] at h <;> simp [RateSet.nonempty, h]

/-- The own rate set holds every class (R3). -/
theorem rateIn_ownWord (s : State) (r : Rate) : rateIn (ownWord s).rates r = true := by cases r <;> rfl

/-- Settles O13: the four conditions of R4, of which none reads the role. -/
theorem capabilityWordIsAcceptedByRule : Obligations.CapabilityWordIsAcceptedByRule := by
  intro s w
  refine ⟨?_, fun _ => rfl⟩
  have range : nodeInRange w.address = true ↔ 1 ≤ w.address.toNat ∧ w.address.toNat ≤ 62 := by simp [nodeInRange]
  have accepted : accepts s w = true ↔ w.seedTag = (ownWord s).seedTag ∧ w.address ≠ (ownWord s).address ∧
      (1 ≤ w.address.toNat ∧ w.address.toNat ≤ 62) ∧ ∃ r, rateIn w.rates r = true ∧ rateIn (ownWord s).rates r = true := by
    simp only [rateIn_ownWord, and_true, ← range, ← nonempty_iff_holds]
    simp [accepts, ownWord, and_assoc]
  rw [← Bool.not_eq_true, accepted]
  simp only [not_and_or, ne_eq, not_not]

/-- What follows a CAP at the WLP: the port stands by `capNext`, `capStored` and a count of its departure, and an entry to MISMATCH has
raised its event. -/
theorem wlpCap_ends (w : CapWord) (rxMid : Bool) {s : State} (n : NoReset s) : ∃ a,
    LinksEnd s a s.elp s.lineOut (wlpCap w rxMid s) ∧
    a.state = capNext s.wlp.state (decide (s.wlp.partner = some w)) (accepts s w) ∧
    a.partner = (if capStored s.wlp.state (decide (s.wlp.partner = some w)) then some w else s.wlp.partner) ∧
    a.linkDown = (if s.wlp.state = .up ∧ s.wlp.partner ≠ some w then bump s.wlp.linkDown else s.wlp.linkDown) ∧
    a.agreed = s.wlp.agreed ∧
    (s.wlp.state ≠ .mismatch → a.state = .mismatch → (wlpCap w rxMid s).mu.events &&& EventKind.bit .linkMismatch ≠ 0) := by
  have stored := (LinksEnd.refl n).setWlp { s.wlp with partner := some w }
  have waits := stored.wlpWaits
  have mismatch := stored.wlpMismatch
  unfold wlpCap
  cases hs : s.wlp.state with
  | disabled => exact ⟨_, .refl n, hs, rfl, rfl, rfl, fun _ x => by simp [hs] at x⟩
  | silent => exact ⟨_, .refl n, hs, rfl, rfl, rfl, fun _ x => by simp [hs] at x⟩
  | advertise =>
    cases ok : accepts s w with
    | true => exact ⟨_, waits, rfl, rfl, rfl, rfl, nofun⟩
    | false => exact ⟨_, mismatch.raise _, rfl, rfl, rfl, rfl, fun _ _ => raise_pending _ _⟩
  | train =>
    by_cases same : s.wlp.partner = some w
    · simp only [same, if_true, decide_true]
      exact ⟨_, .refl n, hs, same, rfl, rfl, fun _ x => by simp [hs] at x⟩
    · simp only [same, if_false, decide_false]
      cases ok : accepts s w with
      | true => exact ⟨_, waits, rfl, rfl, rfl, rfl, nofun⟩
      | false => exact ⟨_, mismatch.raise _, rfl, rfl, rfl, rfl, fun _ _ => raise_pending _ _⟩
  | up =>
    by_cases same : s.wlp.partner = some w
    · simp only [same, if_true, decide_true]
      exact ⟨_, .refl n, hs, same, by simp, rfl, fun _ x => by simp [hs] at x⟩
    · simp only [same, if_false, decide_false]
      cases ok : accepts s w with
      | true => exact ⟨_, waits.wlpLeft rxMid, rfl, rfl, by simp [same], rfl, nofun⟩
      | false => exact ⟨_, (mismatch.wlpLeft rxMid).raise _, rfl, rfl, by simp [same], rfl, fun _ _ => raise_pending _ _⟩
  | mismatch =>
    by_cases same : s.wlp.partner = some w
    · simp only [same, if_true, decide_true]
      exact ⟨_, .refl n, hs, same, rfl, rfl, fun x => absurd rfl x⟩
    · simp only [same, if_false, decide_false]
      cases ok : accepts s w with
      | true => exact ⟨_, waits, rfl, rfl, rfl, rfl, nofun⟩
      | false => exact ⟨_, stored, hs, rfl, rfl, rfl, fun x => absurd rfl x⟩

/-- What follows a CAP at the ELP: as at the WLP, and a judged word that is accepted begins a trial with its rates. -/
theorem elpCap_ends (w : CapWord) {s : State} (n : NoReset s) : ∃ b l,
    LinksEnd s s.wlp b l (elpCap w s) ∧
    b.state = capNext s.elp.state (decide (s.elp.partner = some w)) (accepts s w) ∧
    b.partner = (if capStored s.elp.state (decide (s.elp.partner = some w)) then some w else s.elp.partner) ∧
    b.linkDown = (if s.elp.state = .up ∧ s.elp.partner ≠ some w then bump s.elp.linkDown else s.elp.linkDown) ∧
    (capStored s.elp.state (decide (s.elp.partner = some w)) = true →
      (accepts s w = true → b.trial = some ⟨trialRate w.rates s.elp.ceiling, 0⟩) ∧
      (accepts s w = false → s.elp.state ≠ .mismatch → b.trial = none)) ∧
    (s.elp.state ≠ .mismatch → b.state = .mismatch → (elpCap w s).mu.events &&& EventKind.bit .linkMismatch ≠ 0) ∧
    b.attempts = s.elp.attempts ∧ b.ceiling = s.elp.ceiling ∧ b.agreed = s.elp.agreed := by
  have stored := (LinksEnd.refl n).setElp { s.elp with partner := some w }
  have trial := stored.beginTrial
  have mismatch := stored.elpMismatch
  unfold elpCap
  cases hs : s.elp.state with
  | disabled => exact ⟨_, _, .refl n, hs, rfl, rfl, nofun, fun _ x => by simp [hs] at x, rfl, rfl, rfl⟩
  | silent => exact ⟨_, _, .refl n, hs, rfl, rfl, nofun, fun _ x => by simp [hs] at x, rfl, rfl, rfl⟩
  | advertise =>
    cases ok : accepts s w with
    | true => exact ⟨_, _, trial, rfl, rfl, rfl, fun _ => ⟨fun _ => rfl, nofun⟩, nofun, rfl, rfl, rfl⟩
    | false => exact ⟨_, _, mismatch.raise _, rfl, rfl, rfl, fun _ => ⟨nofun, fun _ _ => rfl⟩, fun _ _ => raise_pending _ _, rfl, rfl, rfl⟩
  | train =>
    by_cases same : s.elp.partner = some w
    · simp only [same, if_true, decide_true]
      exact ⟨_, _, .refl n, hs, same, rfl, nofun, fun _ x => by simp [hs] at x, rfl, rfl, rfl⟩
    · simp only [same, if_false, decide_false]
      cases ok : accepts s w with
      | true => exact ⟨_, _, trial, rfl, rfl, rfl, fun _ => ⟨fun _ => rfl, nofun⟩, nofun, rfl, rfl, rfl⟩
      | false => exact ⟨_, _, mismatch.raise _, rfl, rfl, rfl, fun _ => ⟨nofun, fun _ _ => rfl⟩, fun _ _ => raise_pending _ _, rfl, rfl, rfl⟩
  | up =>
    by_cases same : s.elp.partner = some w
    · simp only [same, if_true, decide_true]
      exact ⟨_, _, .refl n, hs, same, by simp, nofun, fun _ x => by simp [hs] at x, rfl, rfl, rfl⟩
    · simp only [same, if_false, decide_false]
      cases ok : accepts s w with
      | true => exact ⟨_, _, trial.elpLeft nofun, rfl, rfl, by simp [same], fun _ => ⟨fun _ => rfl, nofun⟩, nofun, rfl, rfl, rfl⟩
      | false =>
        exact ⟨_, _, (mismatch.elpLeft nofun).raise _, rfl, rfl, by simp [same], fun _ => ⟨nofun, fun _ _ => rfl⟩,
          fun _ _ => raise_pending _ _, rfl, rfl, rfl⟩
  | mismatch =>
    by_cases same : s.elp.partner = some w
    · simp only [same, if_true, decide_true]
      exact ⟨_, _, .refl n, hs, same, rfl, nofun, fun x => absurd rfl x, rfl, rfl, rfl⟩
    · simp only [same, if_false, decide_false]
      cases ok : accepts s w with
      | true => exact ⟨_, _, trial, rfl, rfl, rfl, fun _ => ⟨fun _ => rfl, nofun⟩, nofun, rfl, rfl, rfl⟩
      | false => exact ⟨_, _, stored, hs, rfl, rfl, fun _ => ⟨nofun, fun _ x => absurd rfl x⟩, fun x => absurd rfl x, rfl, rfl, rfl⟩

/-- Settles O15, from what follows a CAP at each port. -/
theorem capTakenMovesThePort : Obligations.CapTakenMovesThePort := by
  intro w rxMid s n
  constructor
  · obtain ⟨a, ends, state, partner, linkDown, agreed, event⟩ := wlpCap_ends w rxMid n
    refine ⟨wlpCap w rxMid s, ends.completed, ?_⟩
    rw [ends.wlp, ends.elp]
    exact ⟨state, partner, linkDown, event, agreed, rfl, ends.sameDesk⟩
  · obtain ⟨b, l, ends, state, partner, linkDown, trial, event, attempts, ceiling, agreed⟩ := elpCap_ends w n
    refine ⟨elpCap w s, ends.completed, ?_⟩
    rw [ends.wlp, ends.elp]
    exact ⟨state, partner, linkDown, trial, event, attempts, ceiling, agreed, rfl, ends.sameDesk⟩

/-! ## The trial rate -/

/-- In a falling list the first class at or below a ceiling is the highest such class. -/
theorem find_highest {l : List Rate} (falling : l.Pairwise fun a b => Rate.rank b < Rate.rank a) {ceiling t : Rate}
    (found : l.find? (fun r => Rate.rank r ≤ Rate.rank ceiling) = some t) {r : Rate} (hr : r ∈ l)
    (low : Rate.rank r ≤ Rate.rank ceiling) : Rate.rank r ≤ Rate.rank t := by
  obtain ⟨-, before, after, rfl, above⟩ := List.find?_eq_some_iff_append.1 found
  rcases List.mem_append.1 hr with h | h
  · simpa [low] using above r h
  · rcases List.mem_cons.1 h with rfl | h
    · exact le_rfl
    · exact ((List.pairwise_cons.1 (List.pairwise_append.1 falling).2.1).1 r h).le

/-- The last class of a falling list is its lowest. -/
theorem last_lowest {l : List Rate} (falling : l.Pairwise fun a b => Rate.rank b < Rate.rank a) (h : l ≠ []) {r : Rate} (hr : r ∈ l) :
    Rate.rank (l.getLast h) ≤ Rate.rank r := by
  rw [← List.dropLast_append_getLast h] at falling hr
  rcases List.mem_append.1 hr with x | x
  · exact ((List.pairwise_append.1 falling).2.2 r x _ (by simp)).le
  · rw [List.mem_singleton.1 x]

/-- The common classes, from the highest to the lowest: the own set holds all three (R9). -/
def commonRates (p : RateSet) : List Rate := [Rate.full, Rate.half, Rate.quarter].filter (rateIn p)

theorem trialRate_eq (p : RateSet) (ceiling : Rate) : trialRate p ceiling =
    match (commonRates p).find? fun r => Rate.rank r ≤ Rate.rank ceiling with
    | some r => r
    | none => (commonRates p).getLastD .quarter := rfl

theorem mem_commonRates (p : RateSet) (r : Rate) : r ∈ commonRates p ↔ rateIn p r = true := by
  cases r <;> simp [commonRates]

theorem commonRates_falling (p : RateSet) : (commonRates p).Pairwise fun a b => Rate.rank b < Rate.rank a :=
  List.Pairwise.filter _ (by simp [Rate.rank])

/-- Settles O14: the classes are looked through from the highest down; where none is at or below the ceiling the last is the lowest. -/
theorem trialRateIsTheHighestAllowed : Obligations.TrialRateIsTheHighestAllowed := by
  intro p ceiling nonempty
  rw [trialRate_eq]
  cases found : (commonRates p).find? fun r => Rate.rank r ≤ Rate.rank ceiling with
  | some t =>
    have low : Rate.rank t ≤ Rate.rank ceiling := by simpa using List.find?_some found
    have common := (mem_commonRates p t).1 (List.mem_of_find?_eq_some found)
    exact ⟨common, fun r hr h => ⟨low, find_highest (commonRates_falling p) found ((mem_commonRates p r).2 hr) h⟩,
      fun above => absurd (above t common) (by omega)⟩
  | none =>
    have above : ∀ r, rateIn p r = true → ¬ Rate.rank r ≤ Rate.rank ceiling := fun r hr => by
      simpa using List.find?_eq_none.1 found r ((mem_commonRates p r).2 hr)
    have some_common : commonRates p ≠ [] := by
      obtain ⟨r, hr⟩ := (nonempty_iff_holds p).1 nonempty
      exact List.ne_nil_of_mem ((mem_commonRates p r).2 hr)
    dsimp only
    rw [List.getLastD_eq_getLast?, List.getLast?_eq_some_getLast some_common, Option.getD_some]
    exact ⟨(mem_commonRates p _).1 (List.getLast_mem some_common), fun r hr h => absurd h (above r hr),
      fun _ r hr => last_lowest (commonRates_falling p) some_common ((mem_commonRates p r).2 hr)⟩

end Sys2Proof.Machine
end

section
/-! Training, and the departures of both ports from UP (O16 to O20). -/

namespace Sys2Proof.Machine

open Sys2Proof

/-! ## The follower's training -/

/-- Settles O16: TRIAL, lock and GO at the follower, and that the leader's arms for TRIAL and GO change nothing. -/
theorem followerTrainsByTrialAndGo : Obligations.FollowerTrainsByTrialAndGo := by
  intro r rxMid s n
  have unchanged : completed s = .next s := completed_next n
  have e := (LinksEnd.refl n).setWlp { s.wlp with state := .train, target := some r, locked := false }
  refine ⟨fun train => ?_, fun up => ?_, fun train target => ?_, fun train target locked => ?_, fun locked => ?_, unchanged, unchanged⟩
  · show completed (wlpTrial r rxMid s) = _
    unfold wlpTrial
    rw [train]
    exact e.completed
  · have f := e.wlpLeft rxMid
    have taken : wlpTrial r rxMid s =
        wlpLeft rxMid (s.setWlp { s.wlp with state := .train, target := some r, locked := false }) := by
      unfold wlpTrial
      rw [up]
    refine ⟨wlpTrial r rxMid s, ?_⟩
    show completed _ = _ ∧ _
    rw [taken, f.wlp, f.elp]
    exact ⟨f.completed, rfl, rfl, rfl, rfl, rfl, rfl, f.sameDesk⟩
  · show completed (if _ then _ else _) = _
    rw [if_pos ⟨train, target⟩]
    exact ((LinksEnd.refl n).setWlp { s.wlp with locked := true }).completed
  · have f := ((LinksEnd.refl n).setWlp { s.wlp with state := .up, agreed := some r, badFrames := 0 }).deriveRing
    have taken : wlpGo s = deriveRing (s.setWlp { s.wlp with state := .up, agreed := some r, badFrames := 0 }) := by
      unfold wlpGo
      rw [if_pos ⟨train, locked, by rw [target]; rfl⟩, target]
    refine ⟨wlpGo s, ?_⟩
    show completed _ = _ ∧ _
    rw [taken]
    exact ⟨f.completed, f.wlp, f.elp, deriveRing_derived _, f.sameDesk⟩
  · show completed (if _ then _ else _) = _
    rw [if_neg (by simp [locked])]
    exact unchanged

/-! ## The leader's training -/

/-- The beacon timer starts with the period in force (R33). -/
theorem startBeacons_beaconTimer {t : State} (up : t.elp.state = .up) (run : t.cl.loader = .running) :
    (startBeacons t).rf.beaconTimer = some ⟨0, t.desk.beaconPeriod⟩ := by
  have d : (generateBeacon t).desk = t.desk := (generateBeacon_posts t).desk
  unfold startBeacons beaconTick
  rw [if_pos ⟨up, by simp [running, run]⟩]
  exact congrArg (fun p => some (⟨0, p⟩ : Timer)) (by rw [d])

/-- Settles O17: the entry to UP sends GO and starts the beacons, and the ring state is derived last. -/
theorem lockEndsTheTrialInUp : Obligations.LockEndsTheTrialInUp := by
  intro r s n
  refine ⟨fun train rate => ?_, fun other => ?_⟩
  · have up := (((LinksEnd.refl n).setElp { s.elp with state := .up, trial := none, agreed := some r, attempts := 0 }).sends .east
      [.go]).followed arbitrate_quiet (arbitrate_posts _)
    have ends := (up.followed startBeacons_quiet (startBeacons_posts _)).deriveRing
    have taken : elpLock r s = deriveRing (startBeacons (arbitrate (sendSymbols .east [.go]
        (s.setElp { s.elp with state := .up, trial := none, agreed := some r, attempts := 0 })))) := by
      unfold elpLock
      rw [if_pos ⟨train, rate⟩]
    refine ⟨elpLock r s, ?_⟩
    show completed _ = _ ∧ _
    rw [taken]
    refine ⟨ends.completed, ends.elp, ends.lineOut, deriveRing_derived _, fun run => ?_, ends.wlp, ends.sameDesk⟩
    rw [deriveRing_beaconTimer, startBeacons_beaconTimer (by rw [up.elp]) (by rw [up.sameDesk.cl]; exact run), up.sameDesk.desk]
  · show completed (if _ then _ else _) = _
    rw [if_neg fun h => other h.2]
    exact completed_next n

/-! ## Departures from UP -/

/-- Settles O18: the three departures of the leader, and that out of UP it takes none of them. -/
theorem leaderLeavesUp : Obligations.LeaderLeavesUp := by
  intro rxMid s n
  have unchanged : completed s = .next s := completed_next n
  refine ⟨fun up => ?_, fun up => ⟨?_, ?_, ?_⟩⟩
  · have e := (LinksEnd.refl n).setElp { s.elp with state := .advertise, partner := none }
    have f := e.elpLeft nofun
    have lost (m : Bool) : lockLost .east m s = elpLeft (s.setElp { s.elp with state := .advertise, partner := none }) := by
      show (if _ then _ else _) = _
      rw [if_pos up]
    obtain ⟨-, -, -, sending, passQ, share, -, event, -⟩ := elpLeft_spec e.quiet nofun
    refine ⟨⟨lockLost .east false s, ?_⟩, ⟨lockLost .east rxMid s, ?_⟩, fun r agreed => ⟨elpRetrain s, ?_⟩⟩
    · show completed _ = _ ∧ _
      rw [lost]
      exact ⟨f.completed, f.elp, passQ, sending, share, f.wlp, f.sameDesk, event⟩
    · show completed _ = _ ∧ _
      rw [lost]
      exact ⟨f.completed, f.elp, f.wlp, f.sameDesk⟩
    · have trial := (LinksEnd.refl n).beginTrialAt r
      have left := trial.elpLeft nofun
      obtain ⟨-, -, -, -, passQ, -⟩ := elpLeft_spec trial.quiet (by rw [trial.elp]; nofun)
      have taken : elpRetrain s = elpLeft (beginTrialAt r s) := by
        unfold elpRetrain
        rw [if_pos up, agreed]
        rfl
      show completed _ = _ ∧ _
      rw [taken]
      exact ⟨left.completed, left.elp, left.lineOut, passQ, left.wlp, left.sameDesk⟩
  all_goals
    show completed (if _ then _ else _) = _
    rw [if_neg up]
    exact unchanged

/-- Settles O19: the follower's lost lock, in UP and elsewhere, and its error burst. -/
theorem followerLeavesUp : Obligations.FollowerLeavesUp := by
  intro rxMid s n
  refine ⟨fun up => ?_, fun up => ?_, fun up bad => ?_⟩
  · have f := (((LinksEnd.refl n).setWlp { s.wlp with state := .advertise, partner := none, target := none, locked := false }).sends
      .west [.loss]).wlpLeft rxMid
    have lost : lockLost .west rxMid s = wlpLeft rxMid (sendSymbols .west [.loss]
        (s.setWlp { s.wlp with state := .advertise, partner := none, target := none, locked := false })) := by
      show (if _ then _ else _) = _
      rw [if_pos up]
    refine ⟨lockLost .west rxMid s, ?_⟩
    show completed _ = _ ∧ _
    rw [lost, f.wlp]
    exact ⟨f.completed, rfl, rfl, rfl, f.lineOut, f.elp, f.sameDesk⟩
  · show completed (if _ then _ else _) = _
    rw [if_neg up]
    exact ((LinksEnd.refl n).setWlp _).completed
  · have waits := (((LinksEnd.refl n).setWlp { s.wlp with badFrames := 0 }).sends .west [.retrain]).wlpWaits
    have f := waits.wlpLeft rxMid
    have event := (wlpLeft_spec rxMid waits.quiet).2.2.2.1
    have burst : errorBurst rxMid s =
        wlpLeft rxMid (wlpWaits (sendSymbols .west [.retrain] (s.setWlp { s.wlp with badFrames := 0 }))) := by
      unfold errorBurst
      rw [if_pos ⟨up, bad⟩]
    refine ⟨errorBurst rxMid s, ?_⟩
    show completed _ = _ ∧ _
    rw [burst, f.wlp]
    exact ⟨f.completed, rfl, rfl, rfl, rfl, f.lineOut, f.elp, f.sameDesk, event⟩

/-! ## A failed trial -/

/-- The attempt counter after a failed trial (R11). -/
def failedAttempts (s : State) : Nat := if s.elp.attempts + 1 < s.desk.downshift then s.elp.attempts + 1 else 0

/-- The ceiling after a failed trial at a rate (R11). -/
def failedCeiling (r : Rate) (s : State) : Rate :=
  if s.elp.attempts + 1 < s.desk.downshift then s.elp.ceiling
  else
    match Rate.below r with
    | some b => if Rate.rank b < Rate.rank s.elp.ceiling then b else s.elp.ceiling
    | none => s.elp.ceiling

/-- A failed trial moves the attempt counter and the ceiling alone, and raises LINK_DOWNSHIFT exactly where the ceiling falls (R11). -/
theorem trialFailed_ends (r : Rate) {s : State} (n : NoReset s) :
    LinksEnd s s.wlp { s.elp with attempts := failedAttempts s, ceiling := failedCeiling r s } s.lineOut (trialFailed r s) ∧
    (failedCeiling r s ≠ s.elp.ceiling → (trialFailed r s).mu.events &&& EventKind.bit .linkDownshift ≠ 0) ∧
    (failedCeiling r s = s.elp.ceiling → (trialFailed r s).mu.events = s.mu.events) := by
  unfold trialFailed failedAttempts failedCeiling
  by_cases more : s.elp.attempts + 1 < s.desk.downshift
  · simp only [if_pos more]
    exact ⟨(LinksEnd.refl n).setElp _, fun x => absurd rfl x, fun _ => rfl⟩
  · simp only [if_neg more]
    cases Rate.below r with
    | none => exact ⟨(LinksEnd.refl n).setElp _, fun x => absurd rfl x, fun _ => rfl⟩
    | some b =>
      by_cases falls : Rate.rank b < Rate.rank s.elp.ceiling
      · simp only [if_pos falls]
        exact ⟨((LinksEnd.refl n).setElp _).raise _, fun _ => raise_pending _ _, fun same => by rw [same] at falls; omega⟩
      · simp only [if_neg falls]
        exact ⟨(LinksEnd.refl n).setElp _, fun x => absurd rfl x, fun _ => rfl⟩

/-- Settles O20: the failed trial is counted, and the next begins with the ceiling that stands then. -/
theorem failedTrialDownshifts : Obligations.FailedTrialDownshifts := by
  intro w s n train trial
  obtain ⟨failed, event, silent⟩ := trialFailed_ends w.rate n
  have next := failed.beginTrial
  have taken : windowExpires s = beginTrial (trialFailed w.rate s) := by
    unfold windowExpires
    rw [trial]
    exact if_pos train
  refine ⟨windowExpires s, ?_⟩
  show completed _ = _ ∧ _
  rw [taken, next.elp, next.lineOut, next.wlp]
  exact ⟨next.completed, rfl, rfl, event, silent, rfl, rfl, rfl, rfl, rfl, rfl, next.sameDesk⟩

end Sys2Proof.Machine
end

section
/-! Frames at the WLP (O21, O22) and the soft reset (O5). -/

namespace Sys2Proof.Machine

open Sys2Proof

/-! ## A frame on the line -/

theorem frameBody_length (f : Frame) : (frameBody f).length = f.payload.length + 6 := by
  simp [frameBody, be16]

theorem wireBytes_length (seed : Seed) (f : Frame) : (wireBytes seed f).length = f.payload.length + 10 := by
  simp [wireBytes, frameBody_length, be32]

/-- The header's length field reads back as the payload's length (R199). -/
theorem wireBytes_size (seed : Seed) {f : Frame} (h : f.payload.length ≤ 65535) : at16 (wireBytes seed f) 4 = f.payload.length :=
  be16_toNat (by omega)

/-- A frame is its body and the CRC over it (R3, R199). -/
theorem wireBytes_take (seed : Seed) (f : Frame) : (wireBytes seed f).take ((wireBytes seed f).length - 4) = frameBody f :=
  List.take_left' (by rw [wireBytes_length, frameBody_length]; omega)

theorem wireBytes_drop (seed : Seed) (f : Frame) :
    (wireBytes seed f).drop ((wireBytes seed f).length - 4) = be32 (crc seed (frameBody f)) :=
  List.drop_left' (by rw [wireBytes_length, frameBody_length]; omega)

theorem wireBytes_payload (seed : Seed) (f : Frame) : ((wireBytes seed f).drop 6).take f.payload.length = f.payload :=
  List.take_left' rfl

/-- Settles O21: the length field and the CRC agree with the bytes, and each field is read where it was put. -/
theorem sentFrameIsJudgedGood : Obligations.SentFrameIsJudgedGood := by
  intro seed f h
  unfold judgeFrame
  rw [wireBytes_size seed h, if_neg (by rw [wireBytes_length]; omega), wireBytes_take, wireBytes_drop, if_pos rfl, wireBytes_payload]
  rfl

/-- A frame whose end does not follow its stated length and CRC is truncated (R14). -/
theorem judgeFrame_truncated (seed : Seed) {bytes : List Byte} (h : bytes.length < 6 ∨ bytes.length ≠ at16 bytes 4 + 10) :
    judgeFrame seed bytes = (.truncated, none) := if_pos h

/-- A frame of the stated length whose CRC fails is a CRC error (R14). -/
theorem judgeFrame_crcError (seed : Seed) {bytes : List Byte} (long : 6 ≤ bytes.length) (size : bytes.length = at16 bytes 4 + 10)
    (h : be32 (crc seed (bytes.take (bytes.length - 4))) ≠ bytes.drop (bytes.length - 4)) :
    judgeFrame seed bytes = (.crcError, none) := by
  unfold judgeFrame
  rw [if_neg (not_or.2 ⟨not_lt.2 long, not_not_intro size⟩), if_neg h]

/-- Settles O22: what `frameSeen` does out of UP, at a count of 16, and by the verdict. -/
theorem damagedFrameIsCounted : Obligations.DamagedFrameIsCounted := by
  intro bytes s due
  refine ⟨fun up => ?_, fun up bad => ?_, fun up bad => ⟨fun h => ?_, fun long size h => ?_⟩⟩ <;>
    show completed (frameSeen bytes s) = _ <;> unfold frameSeen
  · rw [if_pos up]
    exact completed_settled due
  · rw [if_neg (not_not_intro up), if_pos bad]
    rfl
  · rw [if_neg (not_not_intro up), if_neg bad, judgeFrame_truncated _ h]
    exact completed_settled due
  · rw [if_neg (not_not_intro up), if_neg bad, judgeFrame_crcError _ long size h]
    exact completed_settled due

/-! ## The soft reset -/

/-- A reset cuts a save short (R196). -/
theorem abandonSave_cutShort (s : State) : CutShort s (abandonSave s) := by
  unfold abandonSave
  cases save : s.cl.save with
  | idle => exact ⟨fun _ => rfl, by simp [save], by simp [save], by simp [save]⟩
  | writingDesk => exact ⟨by simp [save], fun _ => rfl, by simp [save], by simp [save]⟩
  | writingLayout =>
    cases written : Config.headerRewritten s.free with
    | true => exact ⟨by simp [save], by simp [save], fun _ _ => rfl, by simp [written]⟩
    | false => exact ⟨by simp [save], by simp [save], by simp [written], fun _ _ => rfl⟩

/-- How a save was cut short shows in the serial memory alone. -/
theorem CutShort.congr {s t u : State} (h : CutShort s t) (e : u.serial = t.serial) : CutShort s u :=
  ⟨by rw [e]; exact h.idle, by rw [e]; exact h.desk, by rw [e]; exact h.header, by rw [e]; exact h.layout⟩

theorem softReset_cutShort (s : State) : CutShort s (softReset s) := (abandonSave_cutShort s).congr rfl

/-- The ring state that the ports give while the own entry is not present: no closure (R40). -/
theorem derivedRing_open {t : State} (h : ownPresent t = false) :
    derivedRing t = if t.wlp.state = .up ∨ t.elp.state = .up then .open else .isolated := by
  unfold derivedRing
  rw [if_neg (by simp [h])]

/-- The ring forwarder after a soft reset: the pass-through path stands, and the ring state is that of an empty presence table (R42). -/
theorem softReset_rf (s : State) : (softReset s).rf = { rfStart with
    passQ := s.rf.passQ, sending := s.rf.sending, share := s.rf.share,
    ring := if s.wlp.state = .up ∨ s.elp.state = .up then .open else .isolated } := by
  obtain ⟨wlp, elp, rf, -⟩ := abandonSave_blocks s
  unfold softReset
  dsimp only
  rw [State.setRf_rf, derivedRing_open (presenceStart_own rfl)]
  dsimp only
  rw [wlp, elp, rf]
  rfl

/-- The compositor, the panel unit and what stands outside the blocks after a soft reset (R87, R168, R193). -/
theorem softReset_keeps (s : State) : (softReset s).cp = { cpStart with heads := s.cp.heads, palette := s.cp.palette } ∧
    (softReset s).pu = { puStart with lamps := s.pu.lamps } ∧ (softReset s).lineOut = s.lineOut ∧
    (softReset s).pending = s.pending := by
  obtain ⟨-, -, -, -, cp, pu, -, -, lineOut, pending⟩ := abandonSave_blocks s
  refine ⟨?_, ?_, lineOut, pending⟩
  · show ({ cpStart with heads := (abandonSave s).cp.heads, palette := (abandonSave s).cp.palette } : Cp) = _
    rw [cp]
  · show ({ puStart with lamps := (abandonSave s).pu.lamps } : Pu) = _
    rw [pu]

/-- Settles O5: block by block, what a soft reset in RUNNING leaves; in LOADING the command does nothing. -/
theorem softResetKeepsLinksAndTraffic : Obligations.SoftResetKeepsLinksAndTraffic := by
  intro s
  refine ⟨fun run => ⟨softReset s, ?_, ?_⟩, fun load due => ?_⟩
  · show completed (if _ then _ else _) = _
    rw [if_pos (by simp [running, run])]
    exact completed_settled rfl
  · obtain ⟨begun, elp, -⟩ := softReset_begun s
    obtain ⟨cp, pu, lineOut, pending⟩ := softReset_keeps s
    exact ⟨begun.loading, begun.west, elp, softReset_rf s, begun.sr, cp, begun.fu, begun.iu, begun.cu, pu, begun.mu, begun.desk,
      softReset_cutShort s, lineOut, pending⟩
  · show completed (if _ then _ else _) = _
    rw [if_neg (by simp [running, load])]
    exact completed_settled due

end Sys2Proof.Machine
end

section
/-! A load completes (O42): the state it enters RUNNING with, the ports' part in it, and the blocks that start behind them. -/

namespace Sys2Proof.Machine

open Sys2Proof

/-! ## The entry to RUNNING in parts (R192) -/

/-- RUNNING is entered with the loaded seed in force and the first beacon's number and RESTART set (R34, R192). -/
def entered (u : State) : State :=
  (u.setCl { u.cl with loader := .running, cold := false, seed := u.desk.seed }).setRf { u.rf with sol := 1, restart := true }

/-- The ports have then judged a new seed tag or entered service (R5, R18). -/
def inService (rxMid : Bool) (u : State) : State :=
  portsIntoService u.cl.cold (ownWordChange rxMid (seedTag u.cl.seed) (entered u))

/-- The blocks behind the ports start last. -/
theorem completeLoad_eq (a : SerialAnswers) (rxMid : Bool) (s : State) :
    completeLoad a rxMid s =
      (startBlocks (unmaskedPending (loadAreas a s)) (inService rxMid (loadAreas a s))).setFree
        ((startBlocks (unmaskedPending (loadAreas a s)) (inService rxMid (loadAreas a s))).free + 1) := rfl

/-! ## The ports -/

theorem enterService_judging (p : Port) (s : State) : Judging s (enterService p s) := by
  unfold enterService
  cases p <;> dsimp only <;> split <;> exact ⟨fun n => n.congr rfl rfl, rfl, rfl, fun _ => id, rfl, rfl⟩

theorem portsIntoService_judging (cold : Bool) (s : State) : Judging s (portsIntoService cold s) := by
  unfold portsIntoService
  split
  · exact (enterService_judging _ _).trans (enterService_judging _ _)
  · exact .refl s

theorem portsIntoService_calm (cold : Bool) (s : State) : Calm s (portsIntoService cold s) := by
  unfold portsIntoService
  split
  · exact (enterService_calm _ _).trans (enterService_calm _ _)
  · exact .refl s

theorem ownWordChange_judging (rxMid : Bool) (tag : Byte) {s : State} (n : NoReset s) : Judging s (ownWordChange rxMid tag s) := by
  by_cases same : seedTag s.cl.seed = tag
  · rw [ownWordChange, if_pos same]
    exact .refl s
  · exact (ownWordChange_judged rxMid tag n same).1

theorem ownWordChange_calm (rxMid : Bool) (tag : Byte) (s : State) : Calm s (ownWordChange rxMid tag s) := by
  unfold ownWordChange
  split
  · exact .refl s
  · exact (wlpOwnWord_calm _ _).trans (elpOwnWord_calm _)

theorem entered_quiet {u : State} (n : NoReset u) : NoReset (entered u) := n.congr rfl rfl

theorem entered_calm (u : State) : Calm u (entered u) :=
  (setCl_calm u { u.cl with loader := .running, cold := false, seed := u.desk.seed } rfl).trans (setRf_calm _ _)

theorem inService_judging (rxMid : Bool) {u : State} (n : NoReset u) : Judging (entered u) (inService rxMid u) :=
  (ownWordChange_judging rxMid _ (entered_quiet n)).trans (portsIntoService_judging _ _)

theorem inService_calm (rxMid : Bool) (u : State) : Calm u (inService rxMid u) :=
  ((entered_calm u).trans (ownWordChange_calm rxMid _ _)).trans (portsIntoService_calm _ _)

/-- A port enters service in ADVERTISE where energy is present and in SILENT where none is (R5, R6). -/
theorem enterService_west (t : State) : (enterService .west t).elp = t.elp ∧
    (enterService .west t).wlp.state = (if t.wlp.energy then .advertise else .silent) := by
  unfold enterService
  dsimp only
  split <;> exact ⟨rfl, rfl⟩

theorem enterService_east (t : State) : (enterService .east t).wlp = t.wlp ∧
    (enterService .east t).elp.state = (if t.elp.energy then .advertise else .silent) := by
  unfold enterService
  dsimp only
  split <;> exact ⟨rfl, rfl⟩

/-- After power-on the ports leave DISABLED, each by the energy on its line (R5, R6). -/
theorem inService_cold (rxMid : Bool) {u : State} (cold : u.cl.cold = true) (west : u.wlp.state = .disabled)
    (east : u.elp.state = .disabled) (node : nodeInRange (own u) = true) :
    (inService rxMid u).wlp.state = (if u.wlp.energy then .advertise else .silent) ∧
      (inService rxMid u).elp.state = (if u.elp.energy then .advertise else .silent) := by
  unfold inService portsIntoService
  rw [ownWordChange_disabled rxMid _ (t := entered u) west east, if_pos ⟨cold, node⟩, (enterService_east _).1, (enterService_east _).2,
    (enterService_west _).1, (enterService_west _).2]
  exact ⟨rfl, rfl⟩

/-- After a soft reset the ports stay out of DISABLED and only judge a new seed tag (R18). -/
theorem inService_warm (rxMid : Bool) {u : State} (warm : u.cl.cold = false) :
    inService rxMid u = ownWordChange rxMid (seedTag u.cl.seed) (entered u) := by
  unfold inService portsIntoService
  rw [if_neg (by simp [warm])]

/-- At the same seed tag the ports stay as they are. -/
theorem ownWordChange_same (rxMid : Bool) {tag : Byte} {s : State} (h : seedTag s.cl.seed = tag) : ownWordChange rxMid tag s = s :=
  if_pos h

/-- A port that judges its record is not UP afterwards (R18). -/
theorem judged_ne_up (st : PortState) (ok : Bool) : judged st ok ≠ .up := by
  cases st <;> cases ok <;> exact PortState.noConfusion

/-- A load with a new seed tag has both ports judge it, after a soft reset (R18). -/
theorem inService_judged (rxMid : Bool) {u : State} (n : NoReset u) (warm : u.cl.cold = false)
    (other : seedTag u.desk.seed ≠ seedTag u.cl.seed) : PortsJudged (entered u) (inService rxMid u) := by
  rw [inService_warm rxMid warm]
  exact (ownWordChange_judged rxMid (seedTag u.cl.seed) (entered_quiet n) other).2

/-- A load without a new seed tag leaves the ports as they are, after a soft reset (R18). -/
theorem inService_same (rxMid : Bool) {u : State} (warm : u.cl.cold = false) (same : seedTag u.desk.seed = seedTag u.cl.seed) :
    inService rxMid u = entered u := by
  rw [inService_warm rxMid warm]
  exact ownWordChange_same rxMid same

/-- An ELP that is UP in service has been left as it was, and so has everything else. -/
theorem inService_up (rxMid : Bool) {u : State} (n : NoReset u) (up : (inService rxMid u).elp.state = .up) :
    inService rxMid u = entered u := by
  unfold inService portsIntoService at up ⊢
  split at up
  · rw [(enterService_east _).2] at up
    split at up <;> cases up
  · rename_i stays
    rw [if_neg stays]
    by_cases same : seedTag (entered u).cl.seed = seedTag u.cl.seed
    · exact ownWordChange_same rxMid same
    · rw [(ownWordChange_judged rxMid _ (entered_quiet n) same).2.east.1] at up
      exact absurd up (judged_ne_up _ _)

/-! ## The blocks that start -/

/-- The start of the blocks leaves the ports, the loader, the settings and the power state alone (R192). -/
theorem startBlocks_leaves (b : Bool) (w : State) : (startBlocks b w).wlp = w.wlp ∧ (startBlocks b w).elp = w.elp ∧
    (startBlocks b w).lineOut = w.lineOut ∧ (startBlocks b w).cl = w.cl ∧ (startBlocks b w).pending = w.pending ∧
    (startBlocks b w).desk = w.desk ∧ (startBlocks b w).pu.power = w.pu.power := by
  obtain ⟨z, -⟩ := startBlocks_starts b w
  have p := startBeacons_posts w
  exact ⟨z.wlp.trans p.wlp, z.elp.trans p.elp, z.lineOut.trans p.lineOut, z.cl.trans p.cl, z.pending.trans p.pending,
    z.desk.trans p.desk, z.power.trans (by rw [p.pu])⟩

/-- The first beacon takes number 1 and RESTART where the ELP is UP and the insertion queue has room (R33, R34). -/
theorem startBlocks_beacons (b : Bool) {w : State} (n : NoReset w) (run : w.cl.loader = .running) :
    (w.elp.state ≠ .up → (startBlocks b w).rf.sol = w.rf.sol ∧ (startBlocks b w).rf.restart = w.rf.restart) ∧
    (w.elp.state = .up → (startBlocks b w).rf.beaconTimer = some ⟨0, w.desk.beaconPeriod⟩ ∧
      (w.rf.insQ.length < 12 → (startBlocks b w).rf.sol = nextSol w.rf.sol ∧ (startBlocks b w).rf.restart = false) ∧
      (12 ≤ w.rf.insQ.length → (startBlocks b w).rf.sol = w.rf.sol ∧ (startBlocks b w).rf.restart = w.rf.restart)) := by
  obtain ⟨z, -⟩ := startBlocks_starts b w
  obtain ⟨down, up⟩ := startBeacons_forms n
  rw [z.sol, z.restart, z.beaconTimer]
  refine ⟨fun h => ?_, fun h => ?_⟩
  · rw [down (.inl h)]
    exact ⟨rfl, rfl⟩
  · obtain ⟨room, full⟩ := up h run
    refine ⟨startBeacons_beaconTimer h run, fun k => ?_, fun k => ?_⟩
    · rw [room k]
      exact ⟨congrArg nextSol (takeIn_keeps w _).1, rfl⟩
    · rw [full k]
      exact ⟨rfl, rfl⟩

/-- With every pending flag set, the boundary at the start of the raster latches every head (R76, R192). -/
theorem latched_all (staged active : Vector (List Window) 4) :
    (Vector.ofFn fun h : Fin 4 => if (Vector.replicate 4 true)[h] then staged[h] else active[h]) = staged := by
  ext i hi
  simp

/-! ## What the load brought -/

theorem loadAreas_pending (a : SerialAnswers) (s : State) : (loadAreas a s).cp.pending = Vector.replicate 4 true := rfl

/-- The built-in defaults stand where the entry to RUNNING keeps what a load brought. -/
theorem Defaults.runs {s t : State} (d : Defaults s) (k : Runs s t) : Defaults t := by
  refine ⟨k.desk.trans d.desk, k.heads.trans d.heads, k.palette.trans d.palette, k.lamps.trans d.lamps, by rw [k.cu]; exact d.slots, ?_,
    k.hotkeys.trans d.hotkeys, k.staged.trans d.staged, k.presets.trans d.presets, k.levels.1.trans d.levels.1,
    k.levels.2.trans d.levels.2⟩
  ext1 i hi
  have e := k.entries ⟨i, hi⟩
  rw [d.entries] at e
  simpa using e

/-- The ports judge what they were before RUNNING was entered. -/
theorem PortsJudged.from_entered {u w : State} (j : PortsJudged (entered u) w) : PortsJudged u w :=
  ⟨j.west, j.east, j.trial, j.mismatch, j.down, j.sends⟩

/-- Ports judged stand so after a part that moves neither them nor the word in force, and loses no event. -/
theorem PortsJudged.carried {u w t : State} (j : PortsJudged u w) (wlp : t.wlp = w.wlp) (elp : t.elp = w.elp)
    (lineOut : t.lineOut = w.lineOut) (cl : t.cl = w.cl)
    (events : ∀ m : EventSet, w.mu.events &&& m ≠ 0 → t.mu.events &&& m ≠ 0) : PortsJudged u t := by
  have acc (p : Option CapWord) : recordAccepted t p = recordAccepted w p := by
    unfold recordAccepted accepts own
    rw [cl]
  have word : ownWord t = ownWord w := by
    unfold ownWord own
    rw [cl]
  refine ⟨?_, ?_, ?_, ?_, fun h => events _ (j.down h), ?_⟩
  · rw [wlp, acc]; exact j.west
  · rw [elp, acc]; exact j.east
  · rw [elp, acc]; exact j.trial
  · rw [acc, acc]; exact fun h => events _ (j.mismatch h)
  · rw [lineOut, acc, word]; exact j.sends

/-! ## The load -/

/-- What a load brings into empty tables from no good area is the built-in defaults (R190). -/
theorem loadAreas_default_of_bad (a : SerialAnswers) {s : State} (load : s.cl.loader = .loading) (empty : TablesEmpty s)
    (h : s.cl.loadSel = false ∨ (¬ AreaGood a a.desk s.serial.deskBad 16 1516 s ∧
      ¬ AreaGood a a.layout s.serial.layoutBad 1536 6652 s)) : Defaults (loadAreas a s) := by
  refine loadAreas_default a ⟨load, empty⟩ (h.imp_right fun ⟨d, l⟩ => ⟨?_, ?_⟩)
  · exact Bool.eq_false_iff.2 fun x => d ((areaGood_iff _ _ _ _ _ _).1 x)
  · exact Bool.eq_false_iff.2 fun x => l ((areaGood_iff _ _ _ _ _ _).1 x)

/-- Settles O42. `u` is what the load brought, `w` the state with the ports in service, and `x` the one with the blocks started; `Runs`
carries what was brought from `u` to `x`, and the lemmas above say what each part adds. -/
theorem loadCompleteEntersRunning : Obligations.LoadCompleteEntersRunning := by
  intro a rxMid s
  refine ⟨fun load n => ?_, fun run due => ?_⟩
  swap
  · show completed (if _ then _ else _) = _
    rw [if_pos (by simp [running, run])]
    exact completed_settled due
  have brings := loadAreas_brings a s
  obtain ⟨df, lf, brought, notRead, fault⟩ := loadAreas_brought a s load
  have runs := completeLoad_runs a rxMid s
  have pending := loadAreas_pending a s
  have defaults := loadAreas_default_of_bad a load
  rw [completeLoad_eq] at runs
  have done : exec (.loadComplete a rxMid) s = completed (completeLoad a rxMid s) := by
    show completed (if _ then _ else _) = _
    rw [if_neg (by simp [running, load])]
  rw [completeLoad_eq] at done
  generalize loadAreas a s = u at *
  have quiet : NoReset u := brought.quiet (n.congr rfl rfl)
  have service := inService_judging rxMid quiet
  have calm := inService_calm rxMid u
  have upIn := inService_up rxMid quiet
  have cold := inService_cold rxMid (u := u)
  have stays := inService_same rxMid (u := u)
  have judges := inService_judged rxMid quiet
  generalize inService rxMid u = w at *
  have quietW : NoReset w := service.quiet (entered_quiet quiet)
  have runW : w.cl.loader = .running := by rw [service.cl]; rfl
  obtain ⟨starts, raster, latched, active, filter, run, blink, idle, pointer, headless⟩ := startBlocks_starts (unmaskedPending u) w
  obtain ⟨wlp, elp, lineOut, cl, queue, desk, power⟩ := startBlocks_leaves (unmaskedPending u) w
  obtain ⟨noBeacon, beacon⟩ := startBlocks_beacons (unmaskedPending u) quietW runW
  have events := (startBlocks_runs (unmaskedPending u) w).events
  have quietX := starts.quiet (startBeacons_quiet quietW)
  generalize startBlocks (unmaskedPending u) w = x at *
  have clU : u.cl = { s.cl with deskFlag := df, layoutFlag := lf } := brought.outside.1
  have clX : x.cl = { s.cl with
      deskFlag := df, layoutFlag := lf, loader := .running, cold := false, seed := u.desk.seed } := by
    rw [cl, service.cl]
    show ({ u.cl with loader := _, cold := _, seed := _ } : Cl) = _
    rw [clU]
  have headsX : w.cp.heads = x.cp.heads := .trans (by rw [calm.cp]) runs.heads.symm
  rw [headsX] at pointer headless
  have deskX : x.desk = u.desk := runs.desk
  refine ⟨u, x.setFree (x.free + 1), brings, ?_, runs.desk, runs.cu, runs.hotkeys, runs.heads, runs.palette, runs.staged, runs.presets,
    runs.lamps, runs.entries, runs.levels.1, runs.levels.2, runs.flags.1, runs.flags.2, fun sel bad => ?_, fun empty bad => ?_, ?_⟩
  · rw [done]
    exact completed_next (quietX.congr rfl rfl)
  · exact runs.events _ (fault sel fun good => bad ⟨(areaGood_iff _ _ _ _ _ _).1 good.1, (areaGood_iff _ _ _ _ _ _).1 good.2⟩)
  · exact (defaults empty bad).runs runs
  simp only [State.setFree_cl, State.setFree_desk, State.setFree_cp, State.setFree_pu, State.setFree_pending, State.setFree_wlp,
    State.setFree_elp, State.setFree_fu, State.setFree_rf, State.setFree_lineOut]
  refine ⟨?_, ?_, ?_, ?_, ?_, latched, ?_, filter, run, blink, ?_, ?_, fun sel => ?_, ?_, fun c west east low high => ?_,
    fun h on off => ?_, fun off => ?_, fun down => ?_, fun up => ?_, fun c => ⟨fun same => ?_, fun other => ?_⟩⟩
  · rw [clX]
  · rw [clX]
  · rw [clX, deskX]
  · rw [clX]
  · rw [raster, desk]
  · rw [active, calm.cp, pending, latched_all]
    exact runs.staged.symm
  · rw [power, calm.pu]
    exact brought.power
  · rw [idle, ← desk, calm.pu, brought.power]
    exact if_congr (by simp [running, runW]) rfl rfl
  · rw [clX]
    exact notRead sel
  · rw [queue, service.pending]
    exact brought.outside.2.2.2.2
  · have node : nodeInRange (own u) = true := by
      have : own u = own s := by unfold own; rw [clU]
      rw [this]
      simp [nodeInRange, low, high]
    have ports := cold (by rw [clU]; exact c) (brought.west.1.trans west) (brought.east.1.trans east) node
    rw [brought.west.2, brought.east.2] at ports
    rw [wlp, elp]
    exact ports
  · exact pointer h on off
  · rw [← calm.fu]
    exact headless off
  · rw [elp] at down
    rw [(noBeacon down).1, (noBeacon down).2, service.sol, service.restart]
    exact ⟨rfl, rfl⟩
  · rw [elp] at up
    have whole := upIn up
    obtain ⟨timer, room, full⟩ := beacon up
    rw [desk]
    rw [whole] at timer room full ⊢
    exact ⟨timer, room, full⟩
  · rw [clX] at same
    have whole := stays (by rw [clU]; exact c) (by rw [clU]; exact same)
    rw [wlp, elp, lineOut, whole]
    exact ⟨rfl, rfl, rfl⟩
  · rw [clX] at other
    have judged := (judges (by rw [clU]; exact c) (by rw [clU]; exact other)).from_entered
    exact judged.carried wlp elp lineOut cl events

end Sys2Proof.Machine
end

section
/-! Frames that the ring forwarder decides on (O23 to O26): what becomes of a frame judged good, and of one that is forwarded. -/

namespace Sys2Proof.Machine

open Sys2Proof

/-! ## From the line to the decision -/

/-- A frame sent with the seed in force comes to the receive decision once its goodness has been counted (R14, R15, R21). -/
theorem hear_decides {s : State} {f : Frame} (h : Heard s f) : exec (hear s f) s = completed (decideFrame f (goodSeen s)) :=
  frameReceived_good h (sentFrameIsJudgedGood s.cl.seed f h.size)

/-- One that arrives is routed with a hop less (R24). -/
theorem hear_routes {s : State} {f : Frame} (h : Arrives s f) : exec (hear s f) s = completed (routeFrame (hopped f) (goodSeen s)) := by
  rw [hear_decides h.toHeard, decideFrame_arrives h]

/-- Settles O23: check 3 of R21 comes before kind and destination are looked at. -/
theorem orphanIsDiscarded : Obligations.OrphanIsDiscarded := by
  intro f s due heard foreign hop
  have orphan : decideFrame f (goodSeen s) = countRf (fun c => { c with orphans := bump c.orphans }) (goodSeen s) := by
    unfold decideFrame
    rw [if_neg (show ¬ f.origin = own (goodSeen s) from foreign), if_pos hop]
  rw [hear_decides heard, orphan]
  exact completed_settled due

/-! ## Own frames -/

/-- Where the own entry is present, two UP ports close the ring (R40). -/
theorem derivedRing_closed {s : State} (west : s.wlp.state = .up) (east : s.elp.state = .up) (h : ownPresent s = true) :
    derivedRing s = .closed :=
  if_pos ⟨west, east, h⟩

/-- A derivation of the ring state leaves the closure timer alone, and of the forwarding counters all but that of refused offers. -/
theorem deriveRing_rf (t : State) : (deriveRing t).rf.closure = t.rf.closure ∧
    { (deriveRing t).rf.c with insFull := t.rf.c.insFull } = t.rf.c := by
  unfold deriveRing
  split
  · exact ⟨rfl, rfl⟩
  · have k := raise_keeps (.refl (t.setRf { t.rf with ring := derivedRing t })) .ringState
    exact ⟨k.same.closure, k.line.counts⟩

/-- A change of the ring state raises RING_STATE (R40). -/
theorem deriveRing_event {t : State} (h : derivedRing t ≠ t.rf.ring) :
    (deriveRing t).mu.events &&& EventKind.bit .ringState ≠ 0 := by
  unfold deriveRing
  rw [if_neg h]
  exact raise_pending _ _

/-- What an own BEACON with a payload leaves of the entry it is recorded at (R39). -/
def ownRecorded (p : List Byte) (e : PresenceEntry) : PresenceEntry :=
  recordBeacon (ownBeacon p) (notFollowing e.sol (ownBeacon p).sol) e

/-- What a refreshed closure comes to, the own entry being `i`: the beacon recorded there, the closure timer anew, a CLOSED ring with its
event, and nothing else but the management unit's notices (R39, R40). -/
structure ClosureRefreshed (p : List Byte) (i : Fin 62) (s t : State) : Prop where
  ring : t.rf.ring = .closed
  closure : t.rf.closure = some ⟨0, 4 * s.desk.beaconPeriod⟩
  presence : t.rf.presence = s.rf.presence.set i (ownRecorded p s.rf.presence[i])
  event : s.rf.ring ≠ .closed → t.mu.events &&& EventKind.bit .ringState ≠ 0
  counts : { t.rf.c with insFull := s.rf.c.insFull } = s.rf.c
  posts : Posts s t
  quiet : NoReset s → NoReset t

/-- An own BEACON at two UP ports refreshes the closure (R39). -/
theorem refreshClosure_up {s : State} {i : Fin 62} (f : Frame) (west : s.wlp.state = .up) (east : s.elp.state = .up)
    (index : nodeIndex (own s) = some i) : ClosureRefreshed f.payload i s (refreshClosure f s) := by
  obtain ⟨w, hw⟩ : ∃ w, w = s.setRf { s.rf with
      presence := s.rf.presence.set i (ownRecorded f.payload s.rf.presence[i]),
      closure := some ⟨0, 4 * s.desk.beaconPeriod⟩ } := ⟨_, rfl⟩
  have refreshed : refreshClosure f s = deriveRing w := by
    unfold refreshClosure
    rw [if_pos ⟨west, east⟩, index, hw]
    rfl
  have present : ownPresent w = true := by
    unfold ownPresent
    rw [show own w = own s by rw [hw]; rfl, index, hw]
    simp [ownRecorded, recordBeacon]
  have closed : derivedRing w = .closed := derivedRing_closed (by rw [hw]; exact west) (by rw [hw]; exact east) present
  obtain ⟨ring, presence⟩ := deriveRing_ring w
  obtain ⟨closure, counts⟩ := deriveRing_rf w
  have event := deriveRing_event (t := w)
  have posts := deriveRing_posts w
  have quiet := deriveRing_quiet (t := w)
  rw [closed] at ring event
  rw [refreshed]
  subst hw
  exact ⟨ring, closure, presence, fun h => event h.symm, counts, (setRf_posts s _).trans posts, fun n => quiet (n.congr rfl rfl)⟩

/-- The state once an own frame has been counted (R22). -/
def strippedSeen (s : State) : State :=
  (goodSeen s).setRf { s.rf with c := { s.rf.c with stripped := bump s.rf.c.stripped } }

theorem strippedSeen_quiet {s : State} (n : NoReset s) : NoReset (strippedSeen s) := n.congr rfl rfl

/-- An own frame is counted, and a BEACON goes on to the ring closure (R22, R39). -/
theorem decideFrame_own {s : State} {f : Frame} (h : f.origin = own s) :
    decideFrame f (goodSeen s) = if f.kind = kindBeacon then refreshClosure f (strippedSeen s) else strippedSeen s :=
  if_pos h

/-- Settles O24: the frame is stripped and counted, and where both ports are UP a BEACON refreshes the closure. -/
theorem ownFrameIsStripped : Obligations.OwnFrameIsStripped := by
  intro f s n heard origin
  rw [hear_decides heard, decideFrame_own origin]
  refine ⟨fun h => ?_, fun role num p x g i kind east payload index => ?_⟩
  · have counted : (if f.kind = kindBeacon then refreshClosure f (strippedSeen s) else strippedSeen s) = strippedSeen s := by
      split
      · rename_i kind
        exact if_neg fun up => (h.resolve_left (not_not_intro kind)) up.2
      · rfl
    rw [counted]
    exact completed_next (strippedSeen_quiet n)
  · rw [if_pos kind]
    have c := refreshClosure_up (s := strippedSeen s) f heard.up east index
    refine ⟨_, completed_next (c.quiet (strippedSeen_quiet n)), c.ring, c.closure, ?_, fun j other => ?_, c.event,
      congrArg RfCounters.stripped c.counts, c.posts.elp, c.posts.sr, c.posts.cu⟩
    · rw [c.presence, payload]
      show (s.rf.presence.set i (ownRecorded _ s.rf.presence[i]))[i] = _
      rw [Fin.getElem_fin, Vector.getElem_set_self]
      unfold ownRecorded recordBeacon notFollowing
      cases s.rf.presence[i].sol <;> simp [ownBeacon, at8, byteAt]
    · have ne : (i : Nat) ≠ j := fun x => other (Fin.ext x.symm)
      rw [c.presence]
      exact Vector.getElem_set_ne _ _ ne

/-! ## Forwarding -/

/-- The ring forwarder `r` with a frame forwarded: the pass-through queue has room, or there is no egress (R26, R28). -/
def Forwards (s : State) (f : Frame) (r : Rf) : Prop :=
  (s.elp.state = .up ∧ s.rf.passQ.length < 8 ∧ r = passOn s.rf (hopped f)) ∨
    (s.elp.state ≠ .up ∧ r = { s.rf with c := { s.rf.c with noEgress := bump s.rf.c.noEgress } })

/-- With a frame passing through the arbiter always begins one (R31). -/
theorem arbiterTable_sends {r : Rf} (h : r.passQ ≠ []) : (arbiterTable r).sending.isSome = true := by
  unfold arbiterTable
  split
  · rename_i empty _
    exact absurd empty h
  · rfl
  · rfl
  · split <;> rfl

/-- The line is busy once a frame has been appended to the pass-through queue of an UP ELP (R26, R31). -/
theorem passOn_sends (r : Rf) (f : Frame) : (passOn r f).sending.isSome = true := by
  unfold passOn
  dsimp only
  split
  · exact arbiterTable_sends (by simp)
  · rename_i busy
    exact Option.isSome_iff_ne_none.2 busy

/-- The insertion queue only shrinks where the arbiter chooses, and from its head. -/
theorem arbiterTable_insQ (r : Rf) : (arbiterTable r).insQ <:+ r.insQ := by
  unfold arbiterTable
  split
  · exact List.suffix_rfl
  · exact List.suffix_rfl
  · rename_i e es _ queue
    rw [queue]
    exact List.suffix_cons e es
  · rename_i e es _ queue
    split
    · exact List.suffix_rfl
    · rw [queue]
      exact List.suffix_cons e es

theorem forward_up {s : State} (n : NoReset s) {f : Frame} (up : s.elp.state = .up) (room : s.rf.passQ.length < 8) :
    forward f s = s.setRf (passOn s.rf f) := by
  have quiet : NoReset (s.setRf { s.rf with passQ := s.rf.passQ ++ [f] }) := n.congr rfl rfl
  unfold forward passOn
  rw [if_neg (not_not_intro up), if_pos room, arbitrate_table quiet]
  by_cases idle : s.rf.sending = none
  · exact (if_pos ⟨up, idle⟩).trans (congrArg s.setRf (if_pos idle).symm)
  · exact (if_neg fun h => idle h.2).trans (congrArg s.setRf (if_neg idle).symm)

/-- A frame is forwarded so (R26, R28, R31). -/
theorem forward_eq {s : State} {f : Frame} {r : Rf} (n : NoReset s) (h : Forwards s f r) :
    forward (hopped f) (goodSeen s) = (goodSeen s).setRf r := by
  rcases h with ⟨up, room, rfl⟩ | ⟨down, rfl⟩
  · exact forward_up (goodSeen_quiet n) up room
  · exact if_pos down

/-- The pass-through path of a frame that is forwarded brings no RESET response about. -/
theorem Forwards.quiet {s : State} {f : Frame} {r : Rf} (h : Forwards s f r) (n : NoReset s) : NoReset ((goodSeen s).setRf r) := by
  refine ⟨n.mu, fun e he => n.insQ e ?_⟩
  rcases h with ⟨-, -, rfl⟩ | ⟨-, rfl⟩
  · have he : e ∈ (passOn s.rf (hopped f)).insQ := he
    unfold passOn at he
    dsimp only at he
    split at he
    · exact (arbiterTable_insQ { s.rf with passQ := s.rf.passQ ++ [hopped f] }).subset he
    · exact he
  · exact he

/-- A forwarded frame leaves the line busy, or there is no egress. -/
theorem Forwards.busy {s : State} {f : Frame} {r : Rf} (h : Forwards s f r) : lineBusy ((goodSeen s).setRf r) := by
  rcases h with ⟨-, -, rfl⟩ | ⟨down, -⟩
  · exact .inr (passOn_sends _ _)
  · exact .inl down

/-! ## Where a frame goes (R24) -/

section
variable {s : State} {f : Frame}

theorem hear_strip (h : Arrives s f) (kind : f.kind = kindStrip) :
    exec (hear s f) s = completed (copyStrip (hopped f) (forward (hopped f) (goodSeen s))) :=
  (hear_routes h).trans (congrArg completed (if_pos kind))

theorem hear_all (h : Arrives s f) (kind : f.kind ≠ kindStrip) (dest : f.dest = allNodes) :
    exec (hear s f) s = completed (takeFrame (hopped f) (forward (hopped f) (goodSeen s))) :=
  (hear_routes h).trans (congrArg completed ((if_neg kind).trans (if_pos dest)))

theorem hear_own (h : Arrives s f) (kind : f.kind ≠ kindStrip) (dest : f.dest = own s) (all : f.dest ≠ allNodes) :
    exec (hear s f) s = completed (takeFrame (hopped f) (goodSeen s)) :=
  (hear_routes h).trans (congrArg completed ((if_neg kind).trans ((if_neg all).trans (if_pos dest))))

theorem hear_elsewhere (h : Arrives s f) (kind : f.kind ≠ kindStrip) (dest : f.dest ≠ own s) (all : f.dest ≠ allNodes) :
    exec (hear s f) s = completed (forward (hopped f) (goodSeen s)) :=
  (hear_routes h).trans (congrArg completed ((if_neg kind).trans ((if_neg all).trans (if_neg dest))))

end

/-- A STRIP is offered where the desk runs in ACTIVE (R24, R25). -/
theorem copyStrip_awake (f : Frame) {t : State} (run : t.cl.loader = .running) (active : t.pu.power = .active) :
    copyStrip f t = offerStrip f.payload t :=
  if_pos ⟨by simp [running, run], active⟩

theorem copyStrip_asleep (f : Frame) {t : State} (h : t.cl.loader = .loading ∨ t.pu.power = .standby) : copyStrip f t = t :=
  if_neg (by rcases h with h | h <;> simp [running, h])

/-- What would be taken in LOADING is discarded and counted (R25). -/
theorem takeFrame_loading (f : Frame) {t : State} (load : t.cl.loader = .loading) :
    takeFrame f t = t.setRf { t.rf with c := { t.rf.c with loading := bump t.rf.c.loading } } :=
  if_pos (by simp [running, load])

/-- A frame of a kind that no block consumes is counted (R24). -/
theorem takeFrame_unexpected {t : State} {f : Frame} (run : t.cl.loader = .running) (claim : f.kind ≠ kindClaim)
    (request : f.kind ≠ kindMgmtReq) (beacon : f.kind ≠ kindBeacon) :
    takeFrame f t = t.setRf { t.rf with c := { t.rf.c with unexpected := bump t.rf.c.unexpected } } := by
  unfold takeFrame
  rw [if_neg (by simp [running, run]), if_neg claim, if_neg request, if_neg beacon]
  rfl

/-- An offered STRIP brings no RESET response about. -/
theorem offerStrip_quiet (p : List Byte) {t : State} (n : NoReset t) : NoReset (offerStrip p t) := by
  obtain ⟨v, k, e, -⟩ := offerStrip_form p (rfl : t.sr = t.sr)
  rw [e]
  exact (raiseOpt_keeps k _).quiet (n.congr rfl rfl)

/-- Settles O25: where `Forwards` says how the frame is forwarded, what follows is what its kind and destination and the loader's state
give; a frame taken by a block finds a busy line. -/
theorem frameForElsewhereIsForwarded : Obligations.FrameForElsewhereIsForwarded := by
  intro f s n arrives
  refine ⟨fun r (h : Forwards s f r) => ?_, fun kind dest all => ⟨fun load => ?_, fun run claim request beacon => ?_⟩⟩
  · obtain ⟨u, hu⟩ : ∃ u, u = (goodSeen s).setRf r := ⟨_, rfl⟩
    have quiet : NoReset u := hu ▸ h.quiet n
    have busy : lineBusy u := hu ▸ h.busy
    have forwarded : forward (hopped f) (goodSeen s) = u := (forward_eq n h).trans hu.symm
    have cl : u.cl = s.cl := hu ▸ rfl
    have pu : u.pu = s.pu := hu ▸ rfl
    rw [← hu]
    refine ⟨fun kind dest all => ?_, fun kind => ?_, fun kind all => ?_⟩
    · rw [hear_elsewhere arrives kind dest all, forwarded]
      exact completed_next quiet
    · rw [hear_strip arrives kind, forwarded]
      refine ⟨fun asleep => ?_, fun run active => ?_⟩
      · rw [copyStrip_asleep _ (by rw [cl, pu]; exact asleep)]
        exact completed_next quiet
      · rw [copyStrip_awake _ (by rw [cl]; exact run) (by rw [pu]; exact active)]
        exact completed_next (offerStrip_quiet _ quiet)
    · rw [hear_all arrives kind all, forwarded]
      refine ⟨fun load => ?_, fun run => ?_⟩
      · rw [takeFrame_loading _ (by rw [cl]; exact load), hu]
        exact completed_settled n.mu.due
      · obtain ⟨passQ, sending, share, -⟩ := takeFrame_busy (hopped f) busy
        obtain ⟨passQ', sending', share'⟩ := finish_passes (takeFrame (hopped f) u)
        rw [hu] at passQ sending share
        subst hu
        refine ⟨_, rfl, passQ'.trans passQ, sending'.trans sending, share'.trans share, fun claim request beacon => ?_⟩
        rw [takeFrame_unexpected (f := hopped f) (by rw [cl]; exact run) claim request beacon]
        exact if_neg (ne_true_of_eq_false quiet.mu.due)
  · rw [hear_own arrives kind dest all, takeFrame_loading (t := goodSeen s) _ load]
    exact completed_settled n.mu.due
  · rw [hear_own arrives kind dest all, takeFrame_unexpected (t := goodSeen s) (f := hopped f) run claim request beacon]
    exact completed_settled n.mu.due

/-! ## A full pass-through queue -/

/-- The oldest STRIP of a queue is taken out from its place (R27). -/
theorem dropOldestStrip_oldest {a b : List Frame} {g : Frame} (before : ∀ x ∈ a, x.kind ≠ kindStrip) (strip : g.kind = kindStrip) :
    dropOldestStrip (a ++ g :: b) = some (a ++ b) := by
  induction a with
  | nil => exact if_pos strip
  | cons x a ih =>
    rw [List.cons_append, dropOldestStrip, if_neg (before x (by simp)), ih fun y hy => before y (by simp [hy])]
    rfl

theorem dropOldestStrip_none {q : List Frame} (h : ∀ x ∈ q, x.kind ≠ kindStrip) : dropOldestStrip q = none := by
  induction q with
  | nil => rfl
  | cons x q ih =>
    rw [dropOldestStrip, if_neg (h x (by simp)), ih fun y hy => h y (by simp [hy])]
    rfl

section
variable {t : State} {f : Frame}

/-- At a full queue an arriving STRIP is discarded (R27). -/
theorem forward_full_strip (up : t.elp.state = .up) (full : t.rf.passQ.length = 8) (kind : f.kind = kindStrip) :
    forward f t = t.setRf { t.rf with c := { t.rf.c with stripOverflow := bump t.rf.c.stripOverflow } } := by
  unfold forward
  rw [if_neg (not_not_intro up), if_neg (by omega), if_pos kind]

/-- At a full queue another frame displaces the oldest STRIP (R27). -/
theorem forward_full_displaces {q : List Frame} (up : t.elp.state = .up) (full : t.rf.passQ.length = 8) (kind : f.kind ≠ kindStrip)
    (oldest : dropOldestStrip t.rf.passQ = some q) : forward f t = t.setRf { t.rf with
      passQ := q ++ [f], c := { t.rf.c with stripDisplaced := bump t.rf.c.stripDisplaced } } := by
  unfold forward
  rw [if_neg (not_not_intro up), if_neg (by omega), if_neg kind, oldest]

/-- At a queue full of other frames it is lost (R27). -/
theorem forward_full_lost (up : t.elp.state = .up) (full : t.rf.passQ.length = 8) (kind : f.kind ≠ kindStrip)
    (noStrip : dropOldestStrip t.rf.passQ = none) :
    forward f t = t.setRf { t.rf with c := { t.rf.c with overflow := bump t.rf.c.overflow } } := by
  unfold forward
  rw [if_neg (not_not_intro up), if_neg (by omega), if_neg kind, noStrip]

end

/-- An offered STRIP at a busy line leaves the pass-through queue and all counters but that of refused offers alone, and the streams come
out as the offer to any state with the same streams has them. -/
theorem offerStrip_onLine (p : List Byte) {t u : State} (same : t.sr = u.sr) :
    OnLine t (offerStrip p t) ∧ (offerStrip p t).sr = (offerStrip p u).sr := by
  obtain ⟨v, k, e, e'⟩ := offerStrip_form p same
  rw [e, e', (raiseOpt_posts k _).sr, (raiseOpt_posts k _).sr]
  have line := (raiseOpt_keeps k (t.setSr v)).line
  exact ⟨⟨line.busy, line.counts⟩, rfl⟩

/-- Settles O26: R27's choice by the arriving frame's kind, and for a STRIP the offer that follows it. -/
theorem fullPassThroughQueue : Obligations.FullPassThroughQueue := by
  intro f s n arrives up full
  refine ⟨fun kind dest all => ?_, fun kind sending => ?_⟩
  · rw [hear_elsewhere arrives kind dest all]
    refine ⟨fun a g b queue before strip => ?_, fun others => ?_⟩
    · have oldest : dropOldestStrip s.rf.passQ = some (a ++ b) := by
        rw [queue]
        exact dropOldestStrip_oldest before strip
      rw [forward_full_displaces (t := goodSeen s) (f := hopped f) up full kind oldest]
      exact completed_settled n.mu.due
    · rw [forward_full_lost (t := goodSeen s) (f := hopped f) up full kind (dropOldestStrip_none others)]
      exact completed_settled n.mu.due
  · obtain ⟨u, hu⟩ : ∃ u, u = (goodSeen s).setRf { s.rf with c := { s.rf.c with stripOverflow := bump s.rf.c.stripOverflow } } := ⟨_, rfl⟩
    have quiet : NoReset u := hu ▸ n.congr rfl rfl
    have discarded : forward (hopped f) (goodSeen s) = u := (forward_full_strip (t := goodSeen s) (f := hopped f) up full kind).trans hu.symm
    rw [hear_strip arrives kind, discarded]
    by_cases awake : s.cl.loader = .running ∧ s.pu.power = .active
    · have offered : copyStrip (hopped f) u = offerStrip f.payload u := copyStrip_awake _ (hu ▸ awake.1) (hu ▸ awake.2)
      obtain ⟨line, sr⟩ := offerStrip_onLine f.payload (t := u) (u := s) (hu ▸ rfl)
      obtain ⟨-, passQ, -⟩ := line.busy (.inr (hu ▸ sending))
      rw [offered]
      refine ⟨_, completed_next (offerStrip_quiet _ quiet), ?_, ?_, fun _ _ => sr, fun asleep => ?_⟩
      · rw [passQ, hu]
        rfl
      · have c := congrArg RfCounters.stripOverflow line.counts
        rw [hu] at c ⊢
        exact c
      · simp [running, awake] at asleep
    · have asleep : s.cl.loader = .loading ∨ s.pu.power = .standby := by
        cases run : s.cl.loader <;> cases active : s.pu.power <;> simp [run, active] at awake ⊢
      have still : copyStrip (hopped f) u = u := copyStrip_asleep _ (hu ▸ asleep)
      rw [still]
      refine ⟨u, completed_next quiet, hu ▸ rfl, hu ▸ rfl, fun run active => ?_, fun _ => hu ▸ rfl⟩
      exact absurd ⟨by simpa [running] using run, active⟩ awake

end Sys2Proof.Machine
end

section
/-! The ring's transmit side (O27, O28): the arbiter's choice, and the soft reset that a RESET's response begins. -/

namespace Sys2Proof.Machine

open Sys2Proof

/-! ## The arbiter -/

/-- The state at the end of a frame, before the arbiter's choice (R31). -/
def sentSeen (s : State) : State := s.setRf { s.rf with sending := none, c := { s.rf.c with sent := bump s.rf.c.sent } }

/-- The end of a frame on the line is counted, and the arbiter chooses (R31). -/
theorem frameTransmitEnd_sends {s : State} (up : s.elp.state = .up) (sending : s.rf.sending.isSome = true) :
    exec .frameTransmitEnd s = completed (arbitrate (sentSeen s)) :=
  congrArg completed (if_pos ⟨up, sending⟩)

/-- Settles O27: the arbiter's choice in table form. -/
theorem arbiterChoosesAtFrameEnd : Obligations.ArbiterChoosesAtFrameEnd := by
  intro s n
  refine ⟨fun up sending => ?_, fun h => ?_⟩
  · have quiet : NoReset (sentSeen s) := n.congr rfl rfl
    rw [frameTransmitEnd_sends up sending, completed_next (arbitrate_quiet quiet), arbitrate_table quiet, if_pos ⟨up, rfl⟩]
    rfl
  · show completed (if _ then _ else _) = _
    rw [if_neg fun ⟨up, sending⟩ => h.elim (fun down => down up) fun idle => by simp [idle] at sending]
    exact completed_next n

/-! ## The soft reset of a RESET (R179) -/

/-- A soft reset that is due begins at the end of the command, and keeps of what the command did the ELP's record and the pass-through
path (R193). -/
theorem completed_resets {s t : State} (due : t.mu.resetDue = true) (cl : t.cl = s.cl) (wlp : t.wlp = s.wlp) (sr : t.sr = s.sr)
    (desk : t.desk = s.desk) : ∃ u, completed t = .next u ∧ ResetBegun s u ∧ u.elp = { t.elp with linkDown := 0 } ∧
      u.rf.sending = t.rf.sending ∧ u.rf.passQ = t.rf.passQ ∧ u.rf.share = t.rf.share := by
  obtain ⟨begun, elp, passQ, sending, share⟩ := softReset_begun t
  refine ⟨softReset t, congrArg _ (if_pos due), ?_, elp, sending, passQ, share⟩
  exact ⟨by rw [begun.loading, cl], by rw [begun.west, wlp], begun.insQ, begun.iu, begun.cu, begun.fu, begun.mu,
    by rw [begun.sr, sr], by rw [begun.desk, desk], begun.ring⟩

/-- With no frame passing through, or at share count 8, the head of the insertion queue begins to be sent (R31). -/
theorem arbitrate_insertion {t : State} {e : InsEntry} {es : List InsEntry} (up : t.elp.state = .up) (idle : t.rf.sending = none)
    (turn : t.rf.passQ = [] ∨ 8 ≤ t.rf.share) (queue : t.rf.insQ = e :: es) : arbitrate t = beginInsertion e es t := by
  unfold arbitrate
  rw [if_pos ⟨up, idle⟩, queue]
  cases passQ : t.rf.passQ with
  | nil => rfl
  | cons f fs => exact if_neg (not_lt.2 (turn.resolve_left (by simp [passQ])))

/-- A RESET's response that begins to be sent makes the soft reset due (R179). -/
theorem beginInsertion_resets {e : InsEntry} (es : List InsEntry) (t : State) (h : e.resetResponse = true) : beginInsertion e es t =
    (t.setRf { t.rf with insQ := es, sending := some ⟨e.frame, .insertion⟩, share := 0 }).setMu { t.mu with resetDue := true } :=
  if_pos h

/-- What a command comes to at whose end the soft reset has begun, the ELP having left UP for `b` (R28, R32, R179, R193). -/
def DepartureResets (s : State) (b : Elp) (o : Host.Outcome State Fault Refusal) : Prop :=
  ∃ t, o = .next t ∧ ResetBegun s t ∧ t.rf.sending = none ∧ t.rf.passQ = [] ∧ t.rf.share = 0 ∧ t.elp = { b with linkDown := 0 }

/-- Of what a departure of the ELP and the soft reset after it read, nothing has changed but the ELP's own record, which is `b`. -/
structure EastMoved (s : State) (b : Elp) (u : State) : Prop where
  elp : u.elp = b
  mu : u.mu = s.mu
  cl : u.cl = s.cl
  wlp : u.wlp = s.wlp
  sr : u.sr = s.sr
  desk : u.desk = s.desk

/-- The ELP has left UP while a RESET's response waits, and at most one more event is raised after it. -/
theorem elpLeft_resets (k : Option EventKind) {s u : State} {b : Elp} {w : Work} (work : s.mu.work = some w)
    (queued : w.resetQueued = true) (moved : EastMoved s b u) : DepartureResets s b (completed (raiseOpt k (elpLeft u))) := by
  obtain ⟨r, m, left, passQ, sending, share, due⟩ := elpLeft_due (t := u) (by rw [moved.mu]; exact work) queued
  obtain ⟨x, raised, due'⟩ : ∃ x, raiseOpt k (elpLeft u) =
      ((u.setElp { u.elp with linkDown := bump u.elp.linkDown }).setRf r).setMu x ∧ x.resetDue = true := by
    rw [left]
    cases k with
    | none => exact ⟨m, rfl, due⟩
    | some k => exact raise_due k (t := ((u.setElp { u.elp with linkDown := bump u.elp.linkDown }).setRf r).setMu m) due
  rw [raised]
  obtain ⟨t, next, begun, elp, sending', passQ', share'⟩ := completed_resets (s := s)
    (t := ((u.setElp { u.elp with linkDown := bump u.elp.linkDown }).setRf r).setMu x) due' moved.cl moved.wlp moved.sr moved.desk
  exact ⟨t, next, begun, sending'.trans sending, passQ'.trans passQ, share'.trans share, by rw [elp, ← moved.elp]; rfl⟩

section
variable {s : State} {w : Work} (up : s.elp.state = .up) (work : s.mu.work = some w) (queued : w.resetQueued = true)

include up work queued

theorem lockLost_resets (m : Bool) :
    DepartureResets s { s.elp with state := .advertise, partner := none } (completed (lockLost .east m s)) := by
  have lost : lockLost .east m s = elpLeft (s.setElp { s.elp with state := .advertise, partner := none }) := if_pos up
  rw [lost]
  exact elpLeft_resets none work queued ⟨rfl, rfl, rfl, rfl, rfl, rfl⟩

theorem retrain_resets : DepartureResets s { s.elp with state := .train, trial := some ⟨s.elp.agreed.getD .quarter, 0⟩ }
    (exec .retrainTaken s) := by
  have taken : elpRetrain s = elpLeft (beginTrialAt (s.elp.agreed.getD .quarter) s) := if_pos up
  show DepartureResets _ _ (completed (elpRetrain s))
  rw [taken]
  exact elpLeft_resets none work queued ⟨rfl, rfl, rfl, rfl, rfl, rfl⟩

theorem energyLost_resets (rxMid : Bool) : DepartureResets s
    { s.elp with energy := false, state := .silent, partner := none, silence := some 0, trial := none }
    (exec (.energyLost .east rxMid) s) := by
  show DepartureResets _ _ (completed (energyGone .east rxMid s))
  rw [energyGone_east rxMid (.inr (.inr (.inl up)))]
  dsimp only
  rw [if_pos up]
  exact elpLeft_resets none work queued ⟨rfl, rfl, rfl, rfl, rfl, rfl⟩

/-- Another word taken in UP: the ELP leaves for TRAIN or for MISMATCH with the word on record (R12, R16). -/
theorem capTaken_resets {x : CapWord} (rxMid : Bool) (other : s.elp.partner ≠ some x) : ∃ b : Elp,
    DepartureResets s b (exec (.capTaken .east x rxMid) s) ∧ b.state = (if accepts s x then .train else .mismatch) ∧
    b.partner = some x := by
  have taken : elpCap x s = if accepts s x then elpLeft (beginTrial (s.setElp { s.elp with partner := some x }))
      else raise .linkMismatch (elpLeft (elpMismatch (s.setElp { s.elp with partner := some x }))) := by
    unfold elpCap
    rw [up]
    exact if_neg other
  show ∃ b, DepartureResets s b (completed (elpCap x s)) ∧ _
  rw [taken]
  split
  · exact ⟨_, elpLeft_resets none work queued ⟨rfl, rfl, rfl, rfl, rfl, rfl⟩, rfl, rfl⟩
  · exact ⟨_, elpLeft_resets (some .linkMismatch) work queued ⟨rfl, rfl, rfl, rfl, rfl, rfl⟩, rfl, rfl⟩

end

/-- Settles O28: the response begins to be sent, or the ELP leaves UP by one of five commands; either makes the soft reset due. -/
theorem resetResponseBeginsTheSoftReset : Obligations.ResetResponseBeginsTheSoftReset := by
  intro s up
  refine ⟨fun e es sending turn queue reset => ?_, fun w c rxMid work queued command => ?_⟩
  · rw [frameTransmitEnd_sends up sending, arbitrate_insertion (t := sentSeen s) up rfl turn queue, beginInsertion_resets _ _ reset]
    obtain ⟨t, next, begun, elp, line, passQ, share⟩ := completed_resets (s := s) (t := ((sentSeen s).setRf
      { (sentSeen s).rf with insQ := es, sending := some ⟨e.frame, .insertion⟩, share := 0 }).setMu { s.mu with resetDue := true })
      rfl rfl rfl rfl rfl
    exact ⟨t, next, begun, elp, line, passQ, share⟩
  · rcases command with rfl | rfl | rfl | rfl | ⟨x, other, rfl⟩
    · obtain ⟨t, next, begun, sending, passQ, share, elp⟩ := lockLost_resets up work queued false
      exact ⟨t, next, begun, sending, passQ, share, fun _ => elp, nofun, nofun, nofun⟩
    · obtain ⟨t, next, begun, sending, passQ, share, elp⟩ := lockLost_resets up work queued rxMid
      exact ⟨t, next, begun, sending, passQ, share, fun _ => elp, nofun, nofun, nofun⟩
    · obtain ⟨t, next, begun, sending, passQ, share, elp⟩ := retrain_resets up work queued
      refine ⟨t, next, begun, sending, passQ, share, by simp, fun r _ agreed => ?_, nofun, nofun⟩
      rw [elp, show s.elp.agreed.getD .quarter = r by rw [agreed]; rfl]
    · obtain ⟨t, next, begun, sending, passQ, share, elp⟩ := energyLost_resets up work queued rxMid
      exact ⟨t, next, begun, sending, passQ, share, by simp, nofun, fun _ => elp, nofun⟩
    · obtain ⟨b, ⟨t, next, begun, sending, passQ, share, elp⟩, state, partner⟩ := capTaken_resets up work queued rxMid other
      refine ⟨t, next, begun, sending, passQ, share, by simp, nofun, nofun, fun y same => ?_⟩
      cases same
      rw [elp]
      exact ⟨state, partner⟩

end Sys2Proof.Machine
end

section
/-! The producers' kept frames and the beacons (O29, O30). -/

namespace Sys2Proof.Machine

open Sys2Proof

/-! ## Kept frames -/

/-- Without a place or a kept frame nothing happens (R29). -/
theorem refusedFrameAppended_idle {s : State} (n : NoReset s) {p : Producer} (h : 12 ≤ s.rf.insQ.length ∨ p ∉ waitingProducers s) :
    exec (.refusedFrameAppended p) s = .next s := by
  have still : placeFrees p s = s := if_neg fun ⟨room, waits⟩ => h.elim (fun full => absurd room (not_lt.2 full)) fun no => no waits
  show completed (placeFrees p s) = _
  rw [still]
  exact completed_next n

/-- A producer waits where it keeps a frame (R29). -/
theorem mem_waitingProducers (s : State) : (Producer.iu ∈ waitingProducers s ↔ s.iu.held.isSome = true) ∧
    (Producer.cu ∈ waitingProducers s ↔ s.cu.offered.isSome = true) ∧
    (Producer.mu ∈ waitingProducers s ↔ s.mu.offer.isSome = true) := by
  simp [waitingProducers]

/-- Settles O29: each producer's kept frame as `builtFrame_kept`, `claimFrame_kept` and `managementFrame_kept` say, a claim frame by the
cases of `claimAppended_forms`. -/
theorem keptFrameIsAppended : Obligations.KeptFrameIsAppended := by
  intro s n
  obtain ⟨iu, cu, mu⟩ := mem_waitingProducers s
  refine ⟨fun room => ⟨fun f held => builtFrame_kept n room held, fun o u m offered hu hm => ?_, fun o u m offer hu hm => ?_⟩,
    fun full p => refusedFrameAppended_idle n (.inl full), fun held => refusedFrameAppended_idle n (.inr ?_),
    fun offered => refusedFrameAppended_idle n (.inr ?_), fun offer => refusedFrameAppended_idle n (.inr ?_)⟩
  · obtain ⟨release, request, unasked⟩ := claimAppended_forms o.msg u
    have kept := claimFrame_kept n room offered
    rw [← hu, ← hm] at kept
    rw [kept]
    subst hu
    refine ⟨fun kind => ?_, fun k l kind slot waits last => ?_, fun kind other => ?_⟩
    · rw [release kind]
      rfl
    · rw [request k l kind slot waits last]
      rfl
    · rw [unasked kind other]
      rfl
  · rw [hm]
    exact managementFrame_kept n room offer hu
  · simp [iu, held]
  · simp [cu, offered]
  · simp [mu, offer]

/-! ## Beacons -/

/-- A running beacon timer that expires does what starts it (R33). -/
theorem beaconDue_eq (s : State) : beaconDue s = if s.rf.beaconTimer.isSome = true then startBeacons s else s := by
  unfold beaconDue startBeacons
  by_cases runs : s.rf.beaconTimer.isSome = true <;> simp [runs]

/-- Settles O30: the generator ticks as it does at its start, appended or skipped. -/
theorem beaconTimerGeneratesABeacon : Obligations.BeaconTimerGeneratesABeacon := by
  intro s n
  obtain ⟨stopped, ticks⟩ := startBeacons_forms n
  have expires : exec .beaconTimerExpires s = completed (beaconDue s) := rfl
  rw [expires, beaconDue_eq]
  refine ⟨fun runs up run => ?_, fun h => ?_⟩
  · rw [if_pos runs, completed_next (startBeacons_quiet n)]
    obtain ⟨appended, skipped⟩ := ticks up run
    by_cases room : s.rf.insQ.length < 12
    · rw [if_pos room, appended room, (takeIn_keeps s _).1]
      rfl
    · rw [if_neg room, skipped (not_lt.1 room)]
  · have still : (if s.rf.beaconTimer.isSome = true then startBeacons s else s) = s := by
      split
      · rename_i runs
        exact stopped (h.resolve_left fun none_ => by simp [none_] at runs)
      · rfl
    rw [still]
    exact completed_next n

end Sys2Proof.Machine
end

section
/-! Presence and closure (O31 to O33): an absence, the end of the ring closure, and a taken beacon. -/

namespace Sys2Proof.Machine

open Sys2Proof

/-! ## Absence -/

/-- What the report of an absent node `n`, at address `a`, comes to at the claim unit, with what it leaves alone (R150). -/
structure AbsenceReported (a : Byte) (n : Fin 62) (s t : State) : Prop where
  keeps : Keeps s t
  pu : t.pu = s.pu
  view : t.cu.view = s.cu.view.set n false
  unnamed : slotOfAddr s a = none → t.cu.slots = s.cu.slots
  slot : ∀ (i : Fin 16) (k : Slot), slotOfAddr s a = some i → s.cu.slots[i] = some k →
    t.cu.slots = s.cu.slots.set i (some { k with held := .view, request := none, holder := none }) ∧
    inOutbox .request i t = (inOutbox .request i s && k.request.isNone) ∧
    t.cu.c.absences = bump s.cu.c.absences ∧
    (k.held ≠ .view → t.mu.events &&& EventKind.bit .claimChange ≠ 0) ∧
    t.mu.events &&& EventKind.bit .sourceAbsent ≠ 0

/-- No REQUEST of a slot is left where the slot's are taken out (R141). -/
theorem inOutbox_withoutRequest (i : Fin 16) (q : List ClaimMsg) :
    ((q.filter fun m => ¬ (m.kind = .request ∧ m.slot = i)).any fun m => m.kind = .request && m.slot = i) = false := by
  rw [List.any_eq_false]
  intro m hm
  simpa [or_iff_not_imp_left] using (List.mem_filter.1 hm).2

theorem absenceReported {a : Byte} {n : Fin 62} (index : nodeIndex a = some n) (s : State) :
    AbsenceReported a n s (nodeIsAbsent a s) := by
  obtain ⟨view, pu⟩ := nodeIsAbsent_view index s
  refine ⟨nodeIsAbsent_keeps a (.refl s), pu, view, fun unnamed => ?_, fun i k named slot => ?_⟩
  · rw [nodeIsAbsent_none index unnamed]
    rfl
  · rw [nodeIsAbsent_some index named slot]
    obtain ⟨v, hv⟩ : ∃ v, v = s.setCu { s.cu with view := s.cu.view.set n false } := ⟨_, rfl⟩
    rw [← hv]
    have cu : (claimReport none (absentSlot i k v)).cu = _ :=
      (claimReport_delivers none (.refl _)).cu.trans (absentSlot_cu i k v)
    obtain ⟨absent, changed⟩ := absentSlot_events i k v
    have later := (claimReport_keeps none (.refl (absentSlot i k v))).events
    unfold inOutbox
    rw [cu]
    refine ⟨hv ▸ rfl, ?_, hv ▸ rfl, fun held => later _ (changed held), later _ absent⟩
    subst hv
    cases k.request with
    | none => simp
    | some r => exact (inOutbox_withoutRequest i s.cu.outbox).trans (Bool.and_false _).symm

/-- When the absence timer of an entry has run out (R38). -/
theorem absenceReached_iff {a : Byte} {n : Fin 62} (index : nodeIndex a = some n) (s : State) :
    absenceReached s.desk.absence n s = true ↔
      s.rf.presence[n].present = true ∧ a ≠ own s ∧ s.desk.absence ≤ s.rf.presence[n].time.getD 0 := by
  unfold absenceReached
  rw [entryAddress_index index]
  simp [and_assoc]

theorem absenceTimerExpires_eq {a : Byte} {n : Fin 62} (index : nodeIndex a = some n) (s : State) :
    exec (.absenceTimerExpires a) s = completed (absenceDue n s) := by
  show execAbsenceTimerExpires a s = _
  unfold execAbsenceTimerExpires
  rw [index]

/-- Settles O31: the entry is marked, and the claim unit hears of the absence. -/
theorem absenceTimerReportsTheNode : Obligations.AbsenceTimerReportsTheNode := by
  intro a s n
  refine ⟨fun i index present other reached => ?_, fun i index h => ?_, fun none_ => ?_⟩
  · have due : absenceDue i s = nodeIsAbsent a
        (s.setRf { s.rf with presence := s.rf.presence.set i { s.rf.presence[i] with present := false } }) := by
      unfold absenceDue absenceExpired
      rw [if_pos ((absenceReached_iff index s).2 ⟨present, other, reached⟩), entryAddress_index index]
    rw [absenceTimerExpires_eq index, due]
    have r := absenceReported index
      (s.setRf { s.rf with presence := s.rf.presence.set i { s.rf.presence[i] with present := false } })
    refine ⟨_, completed_next (r.keeps.quiet (n.congr rfl rfl)), ?_, fun m ne => ?_, r.view, r.slot, r.unnamed, r.keeps.same.wlp,
      r.keeps.same.elp, r.keeps.same.sr, r.pu, r.keeps.same.desk, r.keeps.same.ring⟩
    · rw [r.keeps.same.presence]
      exact Vector.getElem_set_self _
    · rw [r.keeps.same.presence]
      exact Vector.getElem_set_ne i.isLt m.isLt fun x => ne (Fin.ext x.symm)
  · have still : absenceDue i s = s := by
      refine if_neg fun reached => ?_
      obtain ⟨present, other, late⟩ := (absenceReached_iff index s).1 reached
      rcases h with h | h | h
      · exact absurd present (ne_true_of_eq_false h)
      · exact other h
      · omega
    rw [absenceTimerExpires_eq index, still]
    exact completed_next n
  · show execAbsenceTimerExpires a s = _
    unfold execAbsenceTimerExpires
    rw [none_]
    exact completed_next n

/-! ## The end of the closure -/

/-- The end of the closure in the ring forwarder (R39). -/
theorem endClosure_rf (s : State) : (endClosure s).rf.closure = none ∧ (endClosure s).rf.ring = s.rf.ring ∧
    ∀ n, nodeIndex (own s) = some n →
      (endClosure s).rf.presence = s.rf.presence.set n { s.rf.presence[n] with present := false } := by
  unfold endClosure
  split
  · rename_i i index
    refine ⟨rfl, rfl, fun n h => ?_⟩
    cases index.symm.trans h
    rfl
  · rename_i none_
    exact ⟨rfl, rfl, fun n h => by simp [none_] at h⟩

theorem Posts.sameDesk {s t : State} (h : Posts s t) : SameDesk s t :=
  ⟨h.sr, h.cp, h.fu, h.iu, h.cu, h.pu, h.cl, h.desk, h.serial, h.pending⟩

/-- Settles O32: the closure ends, and the ring state is derived with no own entry present. -/
theorem closureTimerOpensTheRing : Obligations.ClosureTimerOpensTheRing := by
  intro s n
  have expires : exec .closureTimerExpires s = completed (closureDue s) := rfl
  rw [expires]
  refine ⟨fun runs => ?_, fun stopped => ?_⟩
  · obtain ⟨closure, ringBefore, presence⟩ := endClosure_rf s
    obtain ⟨ring, table⟩ := deriveRing_ring (endClosure s)
    have posts := (endClosure_posts s).trans (deriveRing_posts (endClosure s))
    rw [show closureDue s = deriveRing (endClosure s) from if_pos runs]
    refine ⟨_, completed_next (deriveRing_quiet (endClosure_quiet n)), (deriveRing_rf _).1.trans closure,
      fun i index => table.trans (presence i index), ?_, fun changed => deriveRing_event ?_, posts.wlp, posts.elp, posts.sameDesk⟩
    · rw [ring, derivedRing_open (endClosure_ownPresent s), (endClosure_posts s).wlp, (endClosure_posts s).elp]
    · rwa [ringBefore, ← ring]
  · rw [show closureDue s = s from if_neg (by simp [stopped])]
    exact completed_next n

/-! ## A taken beacon -/

/-- What a forwarded frame leaves alone of what a beacon then meets: the presence table and the count of rejected beacons; and it adds
nothing to the insertion queue. -/
structure KeepsPresence (r r' : Rf) : Prop where
  presence : r'.presence = r.presence
  rejects : r'.c.beaconRejects = r.c.beaconRejects
  insQ : ∀ e ∈ r'.insQ, e ∈ r.insQ

theorem arbiterTable_keepsPresence (r : Rf) : KeepsPresence r (arbiterTable r) := by
  refine ⟨?_, ?_, fun _ he => (arbiterTable_insQ r).subset he⟩ <;> unfold arbiterTable <;> (repeat' split) <;> rfl

theorem forward_keepsPresence {s : State} (n : NoReset s) (f : Frame) : ∃ r, forward f s = s.setRf r ∧ KeepsPresence s.rf r := by
  unfold forward
  split
  · exact ⟨_, rfl, rfl, rfl, fun _ => id⟩
  · split
    · have k := arbiterTable_keepsPresence { s.rf with passQ := s.rf.passQ ++ [f] }
      rw [arbitrate_table (n.congr rfl rfl : NoReset (s.setRf { s.rf with passQ := s.rf.passQ ++ [f] }))]
      split
      · exact ⟨_, rfl, k.presence, k.rejects, k.insQ⟩
      · exact ⟨_, rfl, rfl, rfl, fun _ => id⟩
    · split
      · exact ⟨_, rfl, rfl, rfl, fun _ => id⟩
      · split <;> exact ⟨_, rfl, rfl, rfl, fun _ => id⟩

/-- A beacon that a frame brings to the desk in RUNNING is taken once it has been forwarded (R24, R36). -/
theorem hear_beacon {s : State} {f : Frame} (n : NoReset s) (h : Arrives s f) (run : s.cl.loader = .running)
    (kind : f.kind = kindBeacon) (dest : f.dest = allNodes) :
    ∃ r, exec (hear s f) s = completed (beaconTaken (hopped f) ((goodSeen s).setRf r)) ∧ KeepsPresence s.rf r ∧
      NoReset ((goodSeen s).setRf r) := by
  obtain ⟨r, forwarded, only⟩ := forward_keepsPresence (goodSeen_quiet n) (hopped f)
  refine ⟨r, ?_, only, n.mu, fun e he => n.insQ e (only.insQ e he)⟩
  rw [hear_all h (by rw [kind]; decide) dest, forwarded]
  refine congrArg completed ?_
  unfold takeFrame
  rw [if_neg (by simp [running, goodSeen, run]), if_neg (show ¬ (hopped f).kind = kindClaim by rw [hopped, kind]; decide),
    if_neg (show ¬ (hopped f).kind = kindMgmtReq by rw [hopped, kind]; decide), if_pos (show (hopped f).kind = kindBeacon from kind)]

/-- The beacon of a well-formed payload with the own seed tag (R36, R200). -/
theorem parseBeacon_formed {role n p x g : Byte} {r : Role} {s : State} (hr : roleOf role = some r) (low : 1 ≤ n.toNat)
    (high : n.toNat ≤ 63) (tag : g = seedTag s.cl.seed) :
    parseBeacon [role, n, p, x, g] s = some ⟨r, n.toNat, p, x.getLsbD 0⟩ := by
  unfold parseBeacon
  dsimp only
  rw [hr]
  exact if_pos ⟨low, high, tag⟩

/-- R36 and R200 reject any other payload of 5 bytes. -/
theorem parseBeacon_rejected {role n p x g : Byte} {s : State}
    (h : roleOf role = none ∨ n.toNat = 0 ∨ 63 < n.toNat ∨ g ≠ seedTag s.cl.seed) : parseBeacon [role, n, p, x, g] s = none := by
  unfold parseBeacon
  dsimp only
  cases hr : roleOf role with
  | none => rfl
  | some r =>
    refine if_neg ?_
    rintro ⟨low, high, tag⟩
    rcases h with h | h | h | h
    · simp [hr] at h
    · omega
    · omega
    · exact h tag

/-- What a presence report comes to depends on the claim unit and the power state alone. -/
theorem PresenceReported.congr {a : Byte} {n : Fin 62} {b : Bool} {s u t : State} (h : PresenceReported a n b u t) (cu : u.cu = s.cu)
    (pu : u.pu = s.pu) : PresenceReported a n b s t := by
  have named : slotOfAddr u a = slotOfAddr s a := by unfold slotOfAddr; rw [cu]
  obtain ⟨view, unnamed, slot⟩ := h
  rw [cu] at view unnamed
  rw [named] at unnamed slot
  rw [cu, pu] at slot
  exact ⟨view, unnamed, slot⟩

/-- An accepted beacon: recorded at its entry, and reported where the node was absent or has restarted (R36, R37, R150, R151). -/
structure BeaconRecorded (a : Byte) (i : Fin 62) (b : Beacon) (s t : State) : Prop where
  presence : t.rf.presence = s.rf.presence.set i (recordBeacon b
    (s.rf.presence[i].present && !b.restart && notFollowing s.rf.presence[i].sol b.sol) s.rf.presence[i])
  reported : s.rf.presence[i].present = false ∨ b.restart = true → PresenceReported a i s.rf.presence[i].present s t
  silent : s.rf.presence[i].present = true → b.restart = false → t.cu = s.cu
  elp : t.elp = s.elp
  sr : t.sr = s.sr
  desk : t.desk = s.desk
  quiet : NoReset s → NoReset t

theorem updatePresence_records {a : Byte} {i : Fin 62} (index : nodeIndex a = some i) (b : Beacon) (s : State) :
    BeaconRecorded a i b s (updatePresence i b s) := by
  obtain ⟨u, hu⟩ : ∃ u, u = s.setRf { s.rf with presence := s.rf.presence.set i (recordBeacon b
      (s.rf.presence[i].present && !b.restart && notFollowing s.rf.presence[i].sol b.sol) s.rf.presence[i]) } := ⟨_, rfl⟩
  have updates : updatePresence i b s =
      if ¬ s.rf.presence[i].present then nodeIsPresent a u
      else if b.restart then nodeIsPresent a (nodeIsAbsent a u) else u := by
    rw [hu, ← entryAddress_index index]
    rfl
  have keeps : Keeps u (updatePresence i b s) := by
    rw [updates]
    split
    · exact nodeIsPresent_keeps a (.refl u)
    · split
      · exact nodeIsPresent_keeps a (nodeIsAbsent_keeps a (.refl u))
      · exact .refl u
  have cu : u.cu = s.cu := hu ▸ rfl
  have pu : u.pu = s.pu := hu ▸ rfl
  refine ⟨keeps.same.presence.trans (hu ▸ rfl), fun h => ?_, fun present fresh => ?_, keeps.same.elp.trans (hu ▸ rfl),
    keeps.same.sr.trans (hu ▸ rfl), keeps.same.desk.trans (hu ▸ rfl), fun n => keeps.quiet (hu ▸ n.congr rfl rfl)⟩
  · rw [updates]
    cases present : s.rf.presence[i].present with
    | false =>
      rw [if_pos (by simp)]
      exact (presenceReported index u).congr cu pu
    | true =>
      rw [if_neg (by simp), if_pos (h.resolve_left (ne_false_of_eq_true present))]
      exact (presenceReported_again index u).congr cu pu
  · rw [updates, if_neg (not_not_intro present), if_neg (ne_true_of_eq_false fresh)]
    exact cu

/-- Settles O33: the frame is forwarded, and its beacon accepted or rejected. -/
theorem beaconUpdatesThePresenceTable : Obligations.BeaconUpdatesThePresenceTable := by
  intro f role num p x g s n arrives run kind dest payload
  obtain ⟨r, heard, only, quiet⟩ := hear_beacon n arrives run kind dest
  obtain ⟨u, hu⟩ : ∃ u, u = (goodSeen s).setRf r := ⟨_, rfl⟩
  rw [← hu] at heard quiet
  have table : u.rf.presence = s.rf.presence := hu ▸ only.presence
  have cu : u.cu = s.cu := hu ▸ rfl
  have pu : u.pu = s.pu := hu ▸ rfl
  have cl : u.cl = s.cl := hu ▸ rfl
  rw [heard]
  refine ⟨fun i role' index hr low high tag => ?_, fun h => ?_⟩
  · have taken : beaconTaken (hopped f) u = updatePresence i ⟨role', num.toNat, p, x.getLsbD 0⟩ u := by
      unfold beaconTaken
      rw [show nodeIndex (hopped f).origin = some i from index, show (hopped f).payload = _ from payload,
        parseBeacon_formed hr low high (by rw [cl]; exact tag)]
    have b := updatePresence_records index ⟨role', num.toNat, p, x.getLsbD 0⟩ u
    rw [taken]
    obtain ⟨presence, reported, silent, elp, sr, desk, stays⟩ := b
    rw [table] at presence reported silent
    refine ⟨_, completed_next (stays quiet), ?_, fun h => (reported h).congr cu pu, fun present fresh => (silent present fresh).trans cu,
      elp.trans (hu ▸ rfl), sr.trans (hu ▸ rfl), desk.trans (hu ▸ rfl)⟩
    rw [presence]
    unfold recordBeacon notFollowing
    cases s.rf.presence[i].sol <;> simp [and_assoc]
  · have taken : beaconTaken (hopped f) u = countRf (fun c => { c with beaconRejects := bump c.beaconRejects }) u := by
      unfold beaconTaken
      rw [show nodeIndex (hopped f).origin = nodeIndex f.origin from rfl, show (hopped f).payload = _ from payload]
      rcases h with h | h
      · rw [h]
      · rw [parseBeacon_rejected (by rw [cl]; exact h)]
        cases nodeIndex f.origin <;> rfl
    rw [taken]
    refine ⟨_, completed_next (quiet.congr rfl rfl), table, cu, ?_⟩
    show bump u.rf.c.beaconRejects = _
    rw [hu]
    exact congrArg bump only.rejects

end Sys2Proof.Machine
end

section
/-! Stream reception (O34 to O38): the stale timer, the checks on a STRIP, and the picture it is written into. -/

namespace Sys2Proof.Machine

open Sys2Proof

/-! ## The stale timer -/

theorem staleReached_iff (e : StreamEntry) : staleReached e = true ↔ ∃ n, e.timer = some n ∧ e.content.stale ≤ n := by
  unfold staleReached reached
  cases e.timer <;> simp

section
variable {i : Fin 32} {e : StreamEntry} {s : State}

theorem staleExpired_reached (entry : s.sr.entries[i] = some e) (live : e.state = .live) (reached : staleReached e = true) :
    staleExpired i s = raise .streamStale (s.setSr (withEntry s i { e with state := .stale, timer := none })) := by
  unfold staleExpired
  rw [entry]
  exact if_pos ⟨live, reached⟩

theorem staleExpired_empty (entry : s.sr.entries[i] = none) : staleExpired i s = s := by
  unfold staleExpired
  rw [entry]

theorem staleExpired_early (entry : s.sr.entries[i] = some e) (early : ¬ (e.state = .live ∧ staleReached e = true)) :
    staleExpired i s = s := by
  unfold staleExpired
  rw [entry]
  exact if_neg early

end

/-- Settles O34: the expiry has its effect exactly where the entry is LIVE and its timer has reached the timeout. -/
theorem staleTimerTurnsTheEntryStale : Obligations.StaleTimerTurnsTheEntryStale := by
  intro i s quiet
  have expires : exec (.staleTimerExpires i) s = completed (staleExpired i s) := rfl
  rw [expires]
  refine ⟨fun e n entry live timer late => ?_, fun entry => ?_, fun e entry h => ?_⟩
  · rw [staleExpired_reached entry live ((staleReached_iff e).2 ⟨n, timer, late⟩)]
    obtain ⟨u, hu⟩ : ∃ u, u = s.setSr (withEntry s i { e with state := .stale, timer := none }) := ⟨_, rfl⟩
    have posts := raise_posts .streamStale u
    have before : NoReset u := hu ▸ quiet.congr rfl rfl
    rw [← hu]
    exact ⟨_, completed_next (raise_quiet _ before), posts.sr.trans (hu ▸ rfl), raise_pending _ _, posts.cp.trans (hu ▸ rfl),
      posts.fu.trans (hu ▸ rfl), posts.iu.trans (hu ▸ rfl), posts.cu.trans (hu ▸ rfl), posts.pu.trans (hu ▸ rfl),
      posts.wlp.trans (hu ▸ rfl), posts.elp.trans (hu ▸ rfl)⟩
  · rw [staleExpired_empty entry]
    exact completed_next quiet
  · have early : ¬ (e.state = .live ∧ staleReached e = true) := by
      rintro ⟨live, reached⟩
      obtain ⟨n, timer, late⟩ := (staleReached_iff e).1 reached
      rcases h with h | h | ⟨m, h, before⟩
      · exact h live
      · cases timer.symm.trans h
      · cases timer.symm.trans h
        omega
    rw [staleExpired_early entry early]
    exact completed_next quiet

/-! ## From the line to the entry -/

/-- A STRIP offered to a loaded entry is checked there, with the streams as they were before the frame was forwarded (R24, R50). -/
theorem hear_stripAt {f : Frame} {st : Strip} {i : Fin 32} {e : StreamEntry} {s : State} (quiet : NoReset s)
    (offers : Offers s f st i e) : ∃ u, exec (hear s f) s = .next (stripAt i e st u) ∧ u.sr = s.sr := by
  obtain ⟨r, forwarded, only⟩ := forward_keepsPresence (goodSeen_quiet quiet) (hopped f)
  obtain ⟨u, hu⟩ : ∃ u, u = (goodSeen s).setRf r := ⟨_, rfl⟩
  have sr : u.sr = s.sr := hu ▸ rfl
  have before : NoReset u := hu ▸ ⟨quiet.mu, fun x hx => quiet.insQ x (only.insQ x hx)⟩
  have offered : offerStrip f.payload u = stripAt i e st u := by
    have index : streamIndex u st.id = some i := by
      rw [← offers.index]
      unfold streamIndex
      rw [sr]
    have entry : u.sr.entries[i] = some e := by rw [sr]; exact offers.entry
    unfold offerStrip
    rw [offers.reads]
    dsimp only
    rw [index]
    dsimp only
    rw [entry]
  have copied : copyStrip (hopped f) u = offerStrip f.payload u := copyStrip_awake _ (hu ▸ offers.loaded) (hu ▸ offers.awake)
  refine ⟨u, ?_, sr⟩
  rw [hear_strip offers.toArrives offers.strip, forwarded, ← hu, copied, ← offered]
  exact completed_next (offerStrip_quiet _ before)

/-! ## The checks of R50 -/

theorem raiseOpt_pending {k : EventKind} {o : Option EventKind} (h : o = some k) (t : State) :
    (raiseOpt o t).mu.events &&& EventKind.bit k ≠ 0 := by
  rw [h]
  exact raise_pending k t

/-- The stream receiver once an entry has been replaced, in a state with the streams of another. -/
theorem setEntry_sr (i : Fin 32) (e : StreamEntry) {s u : State} (same : u.sr = s.sr) : (setEntry i (some e) u).sr = withEntry s i e := by
  unfold withEntry
  rw [← same]
  rfl

section
variable {i : Fin 32} {e : StreamEntry} {st : Strip} {u : State}

theorem stripAt_noBuffer (blocked : e.state = .blocked) :
    stripAt i e st u = setEntry i (some { e with c := { e.c with noBuffer := bump e.c.noBuffer } }) u :=
  if_pos blocked

theorem stripAt_mismatch (held : e.state ≠ .blocked)
    (geometry : st.count ≠ stripCount e ∨ st.data.length ≠ 12 * e.content.width) :
    stripAt i e st u = raiseOpt (if e.armed then some .geometryMismatch else none)
      (setEntry i (some { e with armed := false, c := { e.c with mismatches := bump e.c.mismatches } }) u) := by
  unfold stripAt
  rw [if_neg held, if_pos geometry]
  cases e.armed <;> rfl

section
variable (held : e.state ≠ .blocked) (geometry : ¬ (st.count ≠ stripCount e ∨ st.data.length ≠ 12 * e.content.width))
include held geometry

theorem stripAt_malformed (malformed : st.frame = 0 ∨ stripCount e ≤ st.index) :
    stripAt i e st u = setEntry i (some { e with c := { e.c with malformed := bump e.c.malformed } }) u := by
  unfold stripAt
  rw [if_neg held, if_neg geometry, if_pos malformed]
  rfl

theorem stripAt_late (formed : ¬ (st.frame = 0 ∨ stripCount e ≤ st.index)) (late : e.front = some st.frame ∨ e.ready = some st.frame) :
    stripAt i e st u = setEntry i (some { e with c := { e.c with late := bump e.c.late } }) u := by
  unfold stripAt
  rw [if_neg held, if_neg geometry, if_neg formed, if_pos late]
  rfl

end

/-! ## A STRIP that fits (R53 to R55) -/

theorem Fits.geometry (h : Fits e st) : ¬ (st.count ≠ stripCount e ∨ st.data.length ≠ 12 * e.content.width) :=
  not_or.2 ⟨not_not_intro h.strips, not_not_intro h.data⟩

theorem Fits.formed (h : Fits e st) : ¬ (st.frame = 0 ∨ stripCount e ≤ st.index) := not_or.2 ⟨h.frame, Nat.not_le.2 h.index⟩

section
variable {a : Assembly} (fits : Fits e st)
include fits

theorem stripAt_duplicate (assembly : e.assembly = some a) (same : a.frame = st.frame) (again : st.index ∈ a.received) :
    stripAt i e st u = setEntry i (some { e with c := { e.c with duplicates := bump e.c.duplicates } }) u := by
  unfold stripAt
  rw [if_neg fits.buffers, if_neg fits.geometry, if_neg fits.formed, if_neg (not_or.2 fits.fresh)]
  conv_lhs => rw [assembly]
  exact (if_pos same).trans (if_pos again)

theorem stripAt_continues (assembly : e.assembly = some a) (same : a.frame = st.frame) (new : st.index ∉ a.received) :
    stripAt i e st u = storeStrip i e a st.index (pixelsOf st.data) u := by
  unfold stripAt
  rw [if_neg fits.buffers, if_neg fits.geometry, if_neg fits.formed, if_neg (not_or.2 fits.fresh)]
  conv_lhs => rw [assembly]
  exact (if_pos same).trans (if_neg new)

theorem stripAt_abandons (assembly : e.assembly = some a) (other : a.frame ≠ st.frame) :
    stripAt i e st u = storeStrip i { e with c := { e.c with abandoned := bump e.c.abandoned } } ⟨st.frame, []⟩ st.index
      (pixelsOf st.data) u := by
  unfold stripAt
  rw [if_neg fits.buffers, if_neg fits.geometry, if_neg fits.formed, if_neg (not_or.2 fits.fresh)]
  conv_lhs => rw [assembly]
  exact if_neg other

theorem stripAt_begins {b : Buffers} {n : Nat} {rest : List Nat} (assembly : e.assembly = none) (buffers : e.buffers = some b)
    (spare : b.spare = n :: rest) :
    stripAt i e st u = storeStrip i { e with buffers := some { b with assembling := some n, spare := rest } } ⟨st.frame, []⟩ st.index
      (pixelsOf st.data) u := by
  unfold stripAt beginAssembly assemblingRoles
  rw [if_neg fits.buffers, if_neg fits.geometry, if_neg fits.formed, if_neg (not_or.2 fits.fresh), assembly, buffers, Option.map_some, spare]

end

/-! ## The strip's place in its picture (R53, R56) -/

/-- The state with a strip's pixels in the buffer that an entry assembles in. -/
def stripWritten (n index width : Nat) (px : List Colour) (s : State) : State :=
  s.setSr { s.sr with lines := writeStrip n index width px s.sr.lines }

section
variable {a : Assembly} {n index : Nat} {px : List Colour} (assembling : e.buffers.bind (·.assembling) = some n)
include assembling

theorem storeStrip_incomplete (short : (insertRising index a.received).length < stripCount e) :
    storeStrip i e a index px u =
      setEntry i (some { e with assembly := some ⟨a.frame, insertRising index a.received⟩ }) (stripWritten n index e.content.width px u) := by
  unfold storeStrip
  dsimp only
  rw [assembling]
  exact if_neg (Nat.not_le.2 short)

/-- The entry completes, and a STALE one raises STREAM_LIVE (R56, R59). -/
theorem storeStrip_completes (full : stripCount e ≤ (insertRising index a.received).length) :
    storeStrip i e a index px u = raiseOpt (if e.state = .stale then some .streamLive else none)
      (setEntry i (some (completedEntry ⟨a.frame, insertRising index a.received⟩ e)) (stripWritten n index e.content.width px u)) := by
  unfold storeStrip
  dsimp only
  rw [assembling]
  refine (if_pos full).trans ?_
  unfold complete
  dsimp only
  split <;> rfl

end

end

/-- The completed entry, its roles spelt out (R56, R59). -/
theorem completedEntry_eq {e : StreamEntry} {b : Buffers} {n : Nat} (a : Assembly) (buffers : e.buffers = some b)
    (assembling : b.assembling = some n) : completedEntry a e = { e with
      buffers := some ⟨b.front, some n, none, match b.ready with | some r => insertRising r b.spare | none => b.spare⟩,
      ready := some a.frame, assembly := none, armed := true,
      state := if e.state = .stale then .live else e.state,
      timer := if e.state = .live ∨ e.state = .stale then some 0 else e.timer,
      c := { e.c with
        completed := bump e.c.completed,
        superseded := if b.ready.isSome then bump e.c.superseded else e.c.superseded } } := by
  have timer : (if e.state = .waiting ∨ e.state = .blocked then e.timer else some 0) =
      if e.state = .live ∨ e.state = .stale then some 0 else e.timer := by
    cases e.state <;> simp
  unfold completedEntry
  rw [timer, buffers]
  obtain ⟨front, ready, assembling', spare⟩ := b
  cases assembling
  rfl

/-- The stream receiver once a strip has been written and its entry replaced, in a state with the streams of another. -/
theorem setEntry_stripWritten_sr (i : Fin 32) (e : StreamEntry) (n index width : Nat) (px : List Colour) {s u : State}
    (same : u.sr = s.sr) : (setEntry i (some e) (stripWritten n index width px u)).sr =
      { withEntry s i e with lines := writeStrip n index width px s.sr.lines } := by
  unfold withEntry
  rw [← same]
  rfl

/-! ## The statements about an offered STRIP -/

/-- Settles O35: each check that fails, and a repeated strip, comes to one counter of the entry. -/
theorem discardedStripIsCounted : Obligations.DiscardedStripIsCounted := by
  intro f st i e s quiet offers
  obtain ⟨u, heard, same⟩ := hear_stripAt quiet offers
  refine ⟨_, heard, fun blocked => ?_, fun held geometry => ⟨?_, fun armed => ?_⟩,
    fun held count data => ⟨fun malformed => ?_, fun frame index late => ?_⟩, fun a fits assembly frame again => ?_⟩
  · rw [stripAt_noBuffer blocked]
    exact setEntry_sr i _ same
  · rw [stripAt_mismatch held geometry]
    exact (raiseOpt_posts _ _).sr.trans (setEntry_sr i _ same)
  · rw [stripAt_mismatch held geometry]
    exact raiseOpt_pending (if_pos armed) _
  · rw [stripAt_malformed held (not_or.2 ⟨not_not_intro count, not_not_intro data⟩) malformed]
    exact setEntry_sr i _ same
  · rw [stripAt_late held (not_or.2 ⟨not_not_intro count, not_not_intro data⟩) (not_or.2 ⟨frame, Nat.not_le.2 index⟩) late]
    exact setEntry_sr i _ same
  · rw [stripAt_duplicate fits assembly frame again]
    exact setEntry_sr i _ same

/-- Settles O36: the three ways into a picture all come to `storeStrip`, here with strips still missing. -/
theorem stripIsWrittenIntoItsPicture : Obligations.StripIsWrittenIntoItsPicture := by
  intro f st i e b s quiet offers fits buffers
  obtain ⟨u, heard, same⟩ := hear_stripAt quiet offers
  refine ⟨fun a n assembly frame new assembling short => ?_, fun a n assembly frame assembling more => ?_,
    fun n rest assembly spare more => ?_⟩
  · rw [heard, stripAt_continues fits assembly frame new, storeStrip_incomplete (by rw [buffers]; exact assembling) short, frame]
    exact ⟨_, rfl, setEntry_stripWritten_sr i _ n _ _ _ same⟩
  · rw [heard, stripAt_abandons fits assembly frame, storeStrip_incomplete (n := n) ?assembling ?more]
    · exact ⟨_, rfl, setEntry_stripWritten_sr i _ n _ _ _ same⟩
    case assembling => show e.buffers.bind (·.assembling) = some n; rw [buffers]; exact assembling
    case more => exact more
  · rw [heard, stripAt_begins fits assembly buffers spare, storeStrip_incomplete (n := n) ?assembling ?more]
    · exact ⟨_, rfl, setEntry_stripWritten_sr i _ n _ _ _ same⟩
    case assembling => rfl
    case more => exact more

/-- Settles O38: the strip goes on with its picture, and `storeStrip` completes it. -/
theorem lastStripCompletesThePicture : Obligations.LastStripCompletesThePicture := by
  intro f st i e b a n s quiet offers fits buffers assembly frame new assembling full
  obtain ⟨u, heard, same⟩ := hear_stripAt quiet offers
  rw [heard, stripAt_continues fits assembly frame new, storeStrip_completes (by rw [buffers]; exact assembling) full,
    completedEntry_eq _ buffers assembling, frame]
  exact ⟨_, rfl, (raiseOpt_posts _ _).sr.trans (setEntry_stripWritten_sr i _ n _ _ _ same), fun stale => raiseOpt_pending (if_pos stale) _⟩

/-! ## The pixels of a written strip -/

/-- Three bytes of a run are one of its pixels (R200). -/
theorem pixelsOf_getElem? (l : List Byte) (j : Nat) (h : 3 * j + 2 < l.length) : (pixelsOf l)[j]? = some (colourAt l (3 * j)) := by
  induction l using pixelsOf.induct generalizing j with
  | case1 r g b rest ih =>
    cases j with
    | zero => rfl
    | succ j =>
      have later : 3 * j + 2 < rest.length := by
        simp only [List.length_cons] at h
        omega
      exact ih j later
  | case2 l short =>
    match l, short with
    | [], _ => simp at h
    | [_], _ => simp at h
    | [_, _], _ => simp at h
    | r :: g :: b :: rest, short => exact absurd rfl (short r g b rest)

/-- Rows written one after the other, from a key on. -/
def writeRows (base : Nat) (row : Nat → List Colour) (n : Nat) (m : List (Nat × List Colour)) : List (Nat × List Colour) :=
  (List.range n).foldl (fun m k => Lines.write (base + k) (row k) m) m

theorem writeRows_succ (base : Nat) (row : Nat → List Colour) (n : Nat) (m : List (Nat × List Colour)) :
    writeRows base row (n + 1) m = Lines.write (base + n) (row n) (writeRows base row n m) := by
  unfold writeRows
  rw [List.range_succ, List.foldl_append]
  rfl

theorem pixel_writeRows_other {base key : Nat} (row : Nat → List Colour) {n : Nat} (m : List (Nat × List Colour)) (x : Nat)
    (h : ∀ k, k < n → key ≠ base + k) : Lines.pixel (writeRows base row n m) key x = Lines.pixel m key x := by
  induction n with
  | zero => rfl
  | succ n ih =>
    rw [writeRows_succ, Lines.pixel_write_other _ _ _ _ _ (h n n.lt_succ_self)]
    exact ih fun k hk => h k (Nat.lt_succ_of_lt hk)

/-- A row's pixel reads back, as no later row has its key. -/
theorem pixel_writeRows {base : Nat} (row : Nat → List Colour) {n k : Nat} (m : List (Nat × List Colour)) {x : Nat} {c : Colour}
    (hk : k < n) (hx : (row k)[x]? = some c) : Lines.pixel (writeRows base row n m) (base + k) x = some c := by
  induction n with
  | zero => cases hk
  | succ n ih =>
    rw [writeRows_succ]
    obtain ⟨inside, rfl⟩ := List.getElem?_eq_some_iff.1 hx
    by_cases last : k = n
    · subst last
      exact Lines.pixel_write _ _ _ _ inside
    · rw [Lines.pixel_write_other _ _ _ _ _ (by omega)]
      exact ih (by omega)

/-- The rows of a strip: four runs of its pixels (R53). -/
theorem writeStrip_rows (buffer index width : Nat) (px : List Colour) (m : List (Nat × List Colour)) :
    writeStrip buffer index width px m =
      writeRows (buffer * 2160 + 4 * index) (fun k => (px.drop (k * width)).take width) 4 m := rfl

/-- Settles O37: the four rows have keys of their own, and row k holds the pixels from k × width on. -/
theorem writtenStripReadsBack : Obligations.WrittenStripReadsBack := by
  intro buffer index width data m length
  rw [writeStrip_rows]
  refine ⟨fun k x hk hx => ?_, fun key x h => pixel_writeRows_other _ m x h⟩
  refine pixel_writeRows _ m hk ?_
  have within : k * width ≤ 3 * width := Nat.mul_le_mul_right width (by omega)
  rw [List.getElem?_take_of_lt hx, List.getElem?_drop]
  exact pixelsOf_getElem? data (k * width + x) (by omega)

end Sys2Proof.Machine
end

section
/-! The desk frame boundary (O39): the swap of every entry, the latch of the pending heads, and the picture that begins. -/

namespace Sys2Proof.Machine

open Sys2Proof

/-! ## The swap of one entry (R57) -/

/-- An entry after the swap. -/
def swapped (e : StreamEntry) : StreamEntry :=
  if (e.buffers.bind (·.ready)).isSome then
    { e with
      buffers := e.buffers.map swapRoles, front := e.ready, ready := none,
      state := if e.state = .waiting then .live else e.state,
      timer := if e.state = .waiting then some 0 else e.timer }
  else e

/-- The event that the swap of an entry raises. -/
def swapEvent (e : StreamEntry) : Option EventKind :=
  if (e.buffers.bind (·.ready)).isSome ∧ e.state = .waiting then some .streamLive else none

section
variable {e : StreamEntry}

theorem swapped_ready {b : Buffers} {r : Nat} (buffers : e.buffers = some b) (ready : b.ready = some r) : swapped e = { e with
    buffers := some ⟨r, none, b.assembling, insertRising b.front b.spare⟩, front := e.ready, ready := none,
    state := if e.state = .waiting then .live else e.state,
    timer := if e.state = .waiting then some 0 else e.timer } := by
  unfold swapped swapRoles
  rw [buffers, Option.bind_some, Option.map_some, ready]
  rfl

theorem swapEvent_waiting {b : Buffers} {r : Nat} (buffers : e.buffers = some b) (ready : b.ready = some r) (waiting : e.state = .waiting) :
    swapEvent e = some .streamLive :=
  if_pos ⟨by rw [buffers, Option.bind_some, ready]; rfl, waiting⟩

section
variable (unready : e.buffers.bind (·.ready) = none)
include unready

theorem swapped_unready : swapped e = e := if_neg (by simp [unready])

theorem swapEvent_unready : swapEvent e = none := if_neg (by simp [unready])

end
end

theorem setEntry_self (i : Fin 32) (s : State) : setEntry i s.sr.entries[i] s = s := by
  unfold setEntry
  rw [Fin.getElem_fin, Vector.set_getElem_self]
  rfl

/-- The swap of one entry, in every case. -/
theorem swapEntry_eq (i : Fin 32) (s : State) :
    swapEntry i s = raiseOpt (s.sr.entries[i].bind swapEvent) (setEntry i (s.sr.entries[i].map swapped) s) := by
  cases entry : s.sr.entries[i] with
  | none =>
    have same := setEntry_self i s
    rw [entry] at same
    unfold swapEntry
    rw [entry]
    exact same.symm
  | some e =>
    unfold swapEntry
    rw [entry, Option.bind_some, Option.map_some]
    dsimp only
    by_cases ready : (e.buffers.bind (·.ready)).isSome
    · unfold swapped swapEvent
      rw [if_pos ready, if_pos ready]
      by_cases waiting : e.state = .waiting
      · rw [if_pos waiting, if_pos waiting, if_pos waiting, if_pos ⟨ready, waiting⟩]
        rfl
      · rw [if_neg waiting, if_neg waiting, if_neg waiting, if_neg fun h => waiting h.2]
        rfl
    · have unready : e.buffers.bind (·.ready) = none := by simpa using ready
      have same := setEntry_self i s
      rw [entry] at same
      rw [if_neg ready, swapped_unready unready, swapEvent_unready unready]
      exact same.symm

/-! ## Every entry -/

/-- The streams replaced on both sides of a part that touches the ring forwarder and the management unit alone. -/
theorem Posts.setSr {s t : State} (h : Posts s t) (v : Sr) : Posts (s.setSr v) (t.setSr v) :=
  ⟨h.iu, h.fu, h.cu, h.pu, h.cp, rfl, h.wlp, h.elp, h.cl, h.desk, h.serial, h.lineOut, h.pending, h.work, h.mask, h.configLevel,
    h.layoutLevel⟩

theorem Posts.setCp {s t : State} (h : Posts s t) (v : Cp) : Posts (s.setCp v) (t.setCp v) :=
  ⟨h.iu, h.fu, h.cu, h.pu, rfl, h.sr, h.wlp, h.elp, h.cl, h.desk, h.serial, h.lineOut, h.pending, h.work, h.mask, h.configLevel,
    h.layoutLevel⟩

/-- The entries of a list have been swapped, with their events, and nothing else of the streams has changed. -/
structure Swaps (l : List (Fin 32)) (s t : State) : Prop where
  posts : Posts (s.setSr t.sr) t
  entries : ∀ j : Fin 32, t.sr.entries[j] = if j ∈ l then s.sr.entries[j].map swapped else s.sr.entries[j]
  free : t.sr.free = s.sr.free
  lines : t.sr.lines = s.sr.lines
  events : ∀ m : EventSet, s.mu.events &&& m ≠ 0 → t.mu.events &&& m ≠ 0
  raised : ∀ j ∈ l, ∀ k, s.sr.entries[j].bind swapEvent = some k → t.mu.events &&& EventKind.bit k ≠ 0

theorem swapEntry_swaps (i : Fin 32) (s : State) : Swaps [i] s (swapEntry i s) := by
  rw [swapEntry_eq]
  obtain ⟨u, hu⟩ : ∃ u, u = setEntry i (s.sr.entries[i].map swapped) s := ⟨_, rfl⟩
  have posts := raiseOpt_posts (s.sr.entries[i].bind swapEvent) u
  have set : s.setSr u.sr = u := hu ▸ rfl
  rw [← hu]
  refine ⟨by rw [posts.sr, set]; exact posts, fun j => ?_, by rw [posts.sr, hu]; rfl, by rw [posts.sr, hu]; rfl, fun m h => ?_,
    fun j hj k h => ?_⟩
  · rw [posts.sr, hu]
    show (s.sr.entries.set i _)[j] = _
    by_cases hj : j = i
    · subst hj
      rw [if_pos (List.mem_singleton.2 rfl), Fin.getElem_fin, Vector.getElem_set_self, Fin.getElem_fin]
    · rw [if_neg fun h => hj (List.mem_singleton.1 h), Fin.getElem_fin, Fin.getElem_fin,
        Vector.getElem_set_ne i.isLt j.isLt fun h => hj (Fin.ext h.symm), Fin.getElem_fin]
  · exact (raiseOpt_keeps _ u).events m (hu ▸ h)
  · rw [List.mem_singleton.1 hj] at h
    exact raiseOpt_pending h u

theorem Swaps.trans {l l' : List (Fin 32)} {s t u : State} (h : Swaps l s t) (k : Swaps l' t u) (disjoint : l.Disjoint l') :
    Swaps (l ++ l') s u := by
  have untouched (j : Fin 32) (hj : j ∈ l') : t.sr.entries[j] = s.sr.entries[j] :=
    (h.entries j).trans (if_neg fun hl => disjoint hl hj)
  refine ⟨(h.posts.setSr u.sr).trans k.posts, fun j => ?_, k.free.trans h.free, k.lines.trans h.lines,
    fun m p => k.events m (h.events m p), fun j hj e p => ?_⟩
  · rw [k.entries]
    by_cases hj : j ∈ l'
    · rw [if_pos hj, if_pos (List.mem_append_right l hj), untouched j hj]
    · rw [if_neg hj, h.entries]
      simp [hj]
  · rcases List.mem_append.1 hj with hj | hj
    · exact k.events _ (h.raised j hj e p)
    · exact k.raised j hj e (by rw [untouched j hj]; exact p)

theorem swapAll_swaps (s : State) : Swaps (List.finRange 32) s (swapAll s) := by
  unfold swapAll
  have once := List.nodup_finRange 32
  generalize List.finRange 32 = l at once
  induction l generalizing s with
  | nil => exact ⟨.refl s, fun _ => rfl, rfl, rfl, fun _ => id, nofun⟩
  | cons i l ih =>
    obtain ⟨new, once⟩ := List.nodup_cons.1 once
    exact (swapEntry_swaps i s).trans (ih (swapEntry i s) once) (List.singleton_disjoint.2 new)

/-! ## The picture that begins -/

/-- The pending heads latched and the picture begun, before the report of the latched heads. -/
def beginPicture (u : State) : State :=
  (latchAll u).setCp { (latchAll u).cp with raster := nextPeriod (latchAll u), picture := some (takePicture (latchAll u)) }

/-- What the boundary has brought before that report: every entry swapped, and the compositor with the latched lists, the new period and
the picture of the state as it now is (R57, R65, R76, R78). -/
structure PictureBegun (s u : State) : Prop where
  swaps : Swaps (List.finRange 32) s (u.setCp s.cp)
  cp : u.cp = { s.cp with
    active := Vector.ofFn fun h => if s.cp.pending[h] then s.cp.staged[h] else s.cp.active[h],
    pending := Vector.replicate 4 false, raster := nextPeriod s, picture := some (takePicture u) }

theorem beginPicture_begun {s v : State} (swaps : Swaps (List.finRange 32) s v) : PictureBegun s (beginPicture v) := by
  have cp : v.cp = s.cp := swaps.posts.cp
  have back : (beginPicture v).setCp s.cp = v := by
    rw [← cp]
    rfl
  have latched : (latchAll v).cp = { s.cp with
      active := Vector.ofFn fun h => if s.cp.pending[h] then s.cp.staged[h] else s.cp.active[h],
      pending := Vector.replicate 4 false } := by
    unfold latchAll
    rw [State.setCp_cp, cp]
  have period : nextPeriod (latchAll v) = nextPeriod s := by
    unfold nextPeriod
    rw [latched, show (latchAll v).desk = s.desk from swaps.posts.desk]
  refine ⟨by rw [back]; exact swaps, ?_⟩
  show ({ (latchAll v).cp with raster := nextPeriod (latchAll v), picture := some (takePicture (beginPicture v)) } : Cp) = _
  rw [period, latched]

theorem anyPending_iff (s : State) : anyPending s = true ↔ ∃ h : Fin 4, s.cp.pending[h] = true := by
  unfold anyPending
  rw [List.any_eq_true]
  constructor
  · rintro ⟨b, mem, hb⟩
    obtain ⟨i, hi, rfl⟩ := List.mem_iff_getElem.1 mem
    exact ⟨⟨i, by simpa using hi⟩, by simpa using hb⟩
  · rintro ⟨h, hb⟩
    exact ⟨_, by simp, hb⟩

/-- A re-evaluation that a condition may leave out delivers input, or does nothing. -/
theorem ite_fuReevaluate (p : Prop) [Decidable p] (u : State) :
    Delivers u (if p then fuReevaluate u else u) ∧ Keeps u (if p then fuReevaluate u else u) := by
  split
  · exact ⟨fuReevaluate_delivers (.refl u), fuReevaluate_keeps (.refl u)⟩
  · exact ⟨.refl u, .refl u⟩

/-- The boundary, and the report of the latched heads that ends it where there is one (R104). -/
theorem boundary_begins (s : State) : ∃ u, PictureBegun s u ∧ boundary s = if anyPending s then fuReevaluate u else u := by
  have swaps := swapAll_swaps s
  unfold boundary
  dsimp only
  generalize swapAll s = v at swaps
  have pending : anyPending v = anyPending s := congrArg (fun c : Cp => c.pending.toList.any id) swaps.posts.cp
  refine ⟨_, beginPicture_begun swaps, ?_⟩
  rw [pending]
  rfl

section
variable {s u : State} (begun : PictureBegun s u)
include begun

/-- Up to here only streams and compositor have changed, and what raised events change. -/
theorem PictureBegun.posts : Posts ((s.setSr u.sr).setCp u.cp) u := begun.swaps.posts.setCp u.cp

theorem PictureBegun.entry (i : Fin 32) : u.sr.entries[i] = s.sr.entries[i].map swapped :=
  (begun.swaps.entries i).trans (if_pos (List.mem_finRange i))

theorem PictureBegun.event {i : Fin 32} {k : EventKind} (h : s.sr.entries[i].bind swapEvent = some k) :
    u.mu.events &&& EventKind.bit k ≠ 0 :=
  begun.swaps.raised i (List.mem_finRange i) k h

/-- What the new picture takes (R78). -/
theorem PictureBegun.takes :
    (takePicture u).shown = decide (s.pu.power = .active) ∧ (takePicture u).heads = s.cp.heads ∧ (takePicture u).palette = s.cp.palette ∧
    (takePicture u).focusWindow = s.fu.focus.map (fun f => (f.head, f.win)) ∧
    (∀ i : Fin 16, (takePicture u).held[i] = s.cu.slots[i].map (·.held)) ∧
    ∀ j : Fin 32, (takePicture u).streams[j] = u.sr.entries[j].map viewOf := by
  have pu : u.pu = s.pu := begun.posts.pu
  have fu : u.fu = s.fu := begun.posts.fu
  have cu : u.cu = s.cu := begun.posts.cu
  unfold takePicture mapTable
  rw [pu, fu, cu, begun.cp]
  simp

end

/-- Settles O39: the swap entry by entry, the compositor and the picture as `PictureBegun` has them, and the focus by whether a head
latched. -/
theorem boundarySwapsAndLatches : Obligations.BoundarySwapsAndLatches := by
  intro s quiet
  refine ⟨fun stopped => ?_, fun runs => ?_⟩
  · have still : exec .deskFrameBoundary s = completed s := congrArg completed (if_neg (ne_true_of_eq_false stopped))
    rw [still]
    exact completed_next quiet
  · have taken : exec .deskFrameBoundary s = completed (boundary s) := congrArg completed (if_pos runs)
    have calm := (boundary_starts s).1.quiet quiet
    obtain ⟨u, begun, ends⟩ := boundary_begins s
    obtain ⟨delivers, keeps⟩ := ite_fuReevaluate (anyPending s = true) u
    rw [← ends] at delivers keeps
    rw [taken]
    generalize boundary s = t at calm ends delivers keeps
    have posts := begun.posts
    have sr : t.sr = u.sr := keeps.same.sr
    have cp := delivers.cp.trans begun.cp
    refine ⟨t, completed_next calm, fun h => ?_, by rw [cp], by rw [cp], by rw [cp], by rw [cp], by rw [cp], by rw [cp],
      by rw [cp]; rfl, by rw [cp]; rfl, fun i e b r entry buffers ready => ⟨?_, fun waiting => ?_⟩, fun i e entry unready => ?_,
      fun i entry => ?_, (congrArg Sr.free sr).trans begun.swaps.free, (congrArg Sr.lines sr).trans begun.swaps.lines,
      ⟨takePicture u, by rw [cp], ?_⟩, fun noneLatches => ?_, fun oneLatches => ?_, keeps.same.wlp.trans posts.wlp,
      keeps.same.elp.trans posts.elp, delivers.cu.trans posts.cu, delivers.pu.trans posts.pu, keeps.same.desk.trans posts.desk⟩
    · rw [cp]
      simp
    · rw [sr, begun.entry, entry, Option.map_some, swapped_ready buffers ready]
    · exact keeps.events _ (begun.event (i := i) (by rw [entry]; exact swapEvent_waiting buffers ready waiting))
    · rw [sr, begun.entry, entry, Option.map_some, swapped_unready unready]
    · rw [sr, begun.entry, entry, Option.map_none]
    · obtain ⟨shown, heads, palette, focus, held, streams⟩ := begun.takes
      exact ⟨shown, heads, congrArg Cp.active delivers.cp.symm, palette, focus, held, by rw [sr]; exact streams⟩
    · have unlatched : ¬ anyPending s = true := by
        rw [anyPending_iff]
        rintro ⟨k, pending⟩
        exact ne_true_of_eq_false (noneLatches k) pending
      rw [ends, if_neg unlatched]
      exact ⟨posts.fu, posts.iu⟩
    · have evaluated := focusReevaluated u
      have view : SameView ((s.setCp t.cp).setSr t.sr) u := ⟨sr.symm, delivers.cp.symm, posts.cu, congrArg Pu.power posts.pu⟩
      rw [← ends.trans (if_pos ((anyPending_iff s).2 oneLatches))] at evaluated
      exact evaluated.congr view posts.fu posts.iu

end Sys2Proof.Machine
end

section
/-! What the heads show (O40, O41), and that every step keeps the settings (O8). -/

namespace Sys2Proof.Machine

open Sys2Proof

/-! ## Settings -/

/-- Settles O8: every step is sound, which keeps the settings, and firm, which keeps the head records. -/
theorem stepKeepsSettingsInRange : Obligations.StepKeepsSettingsInRange := by
  intro s t h
  obtain ⟨sound, firm, -⟩ := step_safe h
  exact ⟨sound.settings, firm.heads⟩

/-! ## Border classes (R84) -/

section
variable {p : Picture} {w : Window}

/-- A window whose stream is not loaded has a class by the focus alone. -/
theorem borderClass_unloaded (h : Fin 4) (e : pictureStream p w = none) :
    borderClass p h w = if p.focusWindow = some (h, w.id) then .focus else .plain := by
  simp [borderClass, isFocusWindow, e]

/-- The table of R84 for a window whose stream is loaded. -/
theorem borderClass_loaded (h : Fin 4) {v : StreamView} (e : pictureStream p w = some v) :
    borderClass p h w =
      if v.state = .stale ∨ v.state = .waiting then .stale
      else if p.focusWindow = some (h, w.id) ∧ p.held[v.content.slot] = some .exclusive then .focusExclusive
      else if p.focusWindow = some (h, w.id) then .focus
      else if p.held[v.content.slot] = some .exclusive then .exclusive
      else if p.held[v.content.slot] = some .view ∨ w.input = false then .viewOnly
      else .plain := by
  simp [borderClass, isFocusWindow, e]

/-- What is so of a loaded stream is not so where none is loaded. -/
theorem unloaded_false {P : StreamView → Prop} (e : pictureStream p w = none) : ¬ ∃ v, pictureStream p w = some v ∧ P v := by
  rintro ⟨v, loaded, -⟩
  rw [e] at loaded
  cases loaded

/-- What is so of the loaded stream is so of the one that is loaded. -/
theorem loaded_iff {P : StreamView → Prop} {v : StreamView} (e : pictureStream p w = some v) :
    (∃ u, pictureStream p w = some u ∧ P u) ↔ P v := by
  constructor
  · rintro ⟨u, loaded, holds⟩
    cases e.symm.trans loaded
    exact holds
  · exact fun holds => ⟨v, e, holds⟩

/-- The first class of R84's table whose condition holds. -/
theorem borderClass_first (h : Fin 4) {stale excl view focus : Prop}
    (hs : stale ↔ ∃ v, pictureStream p w = some v ∧ (v.state = .stale ∨ v.state = .waiting))
    (he : excl ↔ ∃ v, pictureStream p w = some v ∧ p.held[v.content.slot] = some .exclusive)
    (hv : view ↔ ∃ v, pictureStream p w = some v ∧ (p.held[v.content.slot] = some .view ∨ w.input = false))
    (hf : focus ↔ p.focusWindow = some (h, w.id)) :
    (stale → borderClass p h w = .stale) ∧
    (¬ stale → focus → excl → borderClass p h w = .focusExclusive) ∧
    (¬ stale → focus → ¬ excl → borderClass p h w = .focus) ∧
    (¬ stale → ¬ focus → excl → borderClass p h w = .exclusive) ∧
    (¬ stale → ¬ focus → ¬ excl → view → borderClass p h w = .viewOnly) ∧
    (¬ stale → ¬ focus → ¬ excl → ¬ view → borderClass p h w = .plain) := by
  cases e : pictureStream p w with
  | none =>
    have notStale : ¬ stale := fun x => unloaded_false e (hs.1 x)
    have notExcl : ¬ excl := fun x => unloaded_false e (he.1 x)
    have notView : ¬ view := fun x => unloaded_false e (hv.1 x)
    rw [borderClass_unloaded h e]
    exact ⟨fun x => absurd x notStale, fun _ _ x => absurd x notExcl, fun _ x _ => if_pos (hf.1 x),
      fun _ _ x => absurd x notExcl, fun _ _ _ x => absurd x notView, fun _ x _ _ => if_neg (mt hf.2 x)⟩
  | some v =>
    rw [loaded_iff e] at hs he hv
    rw [borderClass_loaded h e]
    refine ⟨fun x => if_pos (hs.1 x), fun notStale x y => ?_, fun notStale x notExcl => ?_, fun notStale notFocus x => ?_,
      fun notStale notFocus notExcl x => ?_, fun notStale notFocus notExcl notView => ?_⟩ <;> rw [if_neg (mt hs.2 notStale)]
    · exact if_pos ⟨hf.1 x, he.1 y⟩
    · rw [if_neg (fun both => notExcl (he.2 both.2)), if_pos (hf.1 x)]
    all_goals rw [if_neg (fun both => notFocus (hf.2 both.1)), if_neg (mt hf.2 notFocus)]
    · exact if_pos (he.1 x)
    · rw [if_neg (mt he.2 notExcl), if_pos (hv.1 x)]
    · rw [if_neg (mt he.2 notExcl), if_neg (mt hv.2 notView)]

end

/-- In the band a window shows its class's colour, or its content where the palette has none; elsewhere its content (R82, R84). -/
theorem windowPixel_eq (s : State) (p : Picture) (h : Fin 4) (w : Window) (px py : Nat) :
    windowPixel s p h w px py =
      if inBand w px py then (p.palette[(borderClass p h w).entry]).getD (content s p w px py) else content s p w px py := by
  unfold windowPixel
  cases p.palette[(borderClass p h w).entry] <;> rfl

/-- Settles O40: the class by the table, loaded stream or not, and the pixel by the band. -/
theorem borderClassFollowsItsTable : Obligations.BorderClassFollowsItsTable := by
  intro s p h w px py stale excl view focus hs he hv hf
  obtain ⟨c1, c2, c3, c4, c5, c6⟩ := borderClass_first h hs he hv hf
  refine ⟨c1, c2, c3, c4, c5, c6, fun band => ?_, fun band => ?_⟩
  · rw [windowPixel_eq, if_pos band]
  · rw [windowPixel_eq, if_neg (by simp [band])]

/-! ## The pixel that a head drives (R79 to R81) -/

/-- A pixel that no window contains has no owner (R79). -/
theorem ownerAt_none {ws : List Window} {px py : Int} (h : ∀ v ∈ ws, winContains v px py = false) : ownerAt ws px py = none := by
  refine List.find?_eq_none.2 fun v hv => ?_
  simp [h v (List.mem_reverse.1 hv)]

/-- The last window that contains a pixel owns it (R79). -/
theorem ownerAt_last {below above : List Window} {w : Window} {px py : Int} (hw : winContains w px py = true)
    (h : ∀ v ∈ above, winContains v px py = false) : ownerAt (below ++ w :: above) px py = some w := by
  refine List.find?_eq_some_iff_append.2 ⟨hw, above.reverse, below.reverse, by simp, fun v hv => ?_⟩
  simp [h v (List.mem_reverse.1 hv)]

/-- A head drives a pixel within its size while it draws a picture, and none otherwise (R79, R81). -/
theorem headPixel_eq {s : State} {p : Picture} (picture : s.cp.picture = some p) (h : Fin 4) (px py : Nat) :
    headPixel s h px py =
      if p.shown ∧ p.heads[h].enabled ∧ px < p.heads[h].width ∧ py < p.heads[h].height then
        some (((ownerAt p.lists[h] px py).map fun w => windowPixel s p h w px py).getD p.heads[h].background)
      else none := by
  unfold headPixel
  rw [picture]
  dsimp only
  congr 1
  cases ownerAt p.lists[h] px py <;> rfl

section
variable {s : State} {p : Picture} {w : Window} {px py : Nat}

theorem content_unloaded (e : pictureStream p w = none) : content s p w px py = w.fill := by
  simp [content, e]

/-- Without a front picture, or past its edge, a window shows its fill colour (R80). -/
theorem content_fill {v : StreamView} (e : pictureStream p w = some v) (h : v.frontPresent = false ∨ v.frontBuffer = none ∨
    v.content.width ≤ w.sx + (px - w.x) * w.d ∨ v.content.height ≤ w.sy + (py - w.y) * w.d) : content s p w px py = w.fill := by
  simp only [content, e]
  split
  · rename_i present buffer
    rcases h with absent | absent | past
    · exact nomatch absent.symm.trans present
    · exact nomatch absent.symm.trans buffer
    · exact if_pos past
  · rfl

/-- Otherwise it shows the front buffer's pixel (R80). -/
theorem content_front {v : StreamView} (e : pictureStream p w = some v) {b : Nat} (present : v.frontPresent = true)
    (buffer : v.frontBuffer = some b) (width : w.sx + (px - w.x) * w.d < v.content.width)
    (height : w.sy + (py - w.y) * w.d < v.content.height) :
    content s p w px py = bufferPixel s b (w.sx + (px - w.x) * w.d) (w.sy + (py - w.y) * w.d) := by
  simp only [content, e, present, buffer]
  exact if_neg (by omega)

end

/-- Settles O41: whether the head draws, then the owner of the pixel, then the owner's content. -/
theorem headPixelComesFromItsOwner : Obligations.HeadPixelComesFromItsOwner := by
  intro s h px py
  refine ⟨fun dark => by simp [headPixel, dark], fun p picture => ⟨fun dark => ?_, fun shown enabled width height => ⟨?_, ?_⟩⟩⟩
  · rw [headPixel_eq picture, if_neg]
    rintro ⟨shown, enabled, width, height⟩
    rcases dark with off | off | out | out
    · exact Bool.false_ne_true (off.symm.trans shown)
    · exact Bool.false_ne_true (off.symm.trans enabled)
    · omega
    · omega
  · intro bare
    rw [headPixel_eq picture, if_pos ⟨shown, enabled, width, height⟩, ownerAt_none bare]
    rfl
  · intro below w above list owns clear
    refine ⟨?_, content_unloaded, fun v stream => ⟨content_fill stream, fun b c present buffer inWidth inHeight pixel => ?_⟩⟩
    · rw [headPixel_eq picture, if_pos ⟨shown, enabled, width, height⟩, list, ownerAt_last owns clear]
      rfl
    · rw [content_front stream present buffer inWidth inHeight, bufferPixel, pixel]
      rfl

end Sys2Proof.Machine
end

section
/-! Management requests (O59): how a frame comes to the management unit, a request too short for its tag, and the two requests whose
response is stated as it is appended. -/

namespace Sys2Proof.Machine

open Sys2Proof

/-! ## The frame at the management unit -/

section
variable {s : State} {f : Frame} {t1 t2 : Byte} {rest : List Byte}

theorem Taken.judged (h : Taken s f) : judgeFrame s.cl.seed (wireBytes s.cl.seed f) = (.good, some f) :=
  sentFrameIsJudgedGood s.cl.seed f h.size

/-- A request's frame comes to the management unit once its goodness has been counted (R24, R169). -/
theorem hear_request (h : Taken s f) (kind : f.kind = kindMgmtReq) :
    exec (hear s f) s = completed (requestTaken (hopped f) (goodSeen s)) := by
  have other : (hopped f).kind ≠ kindClaim := by rw [show (hopped f).kind = kindMgmtReq from kind]; decide
  rw [hear_own h.toArrives (by rw [kind]; decide) h.here h.not_all]
  unfold takeFrame
  rw [if_neg (by simp [running, goodSeen, h.loaded]), if_neg other, if_pos (by exact kind)]

/-- A request from outside 1..62 is counted as malformed (R169). -/
theorem request_malformed (n : NoReset s) (h : Taken s f) (kind : f.kind = kindMgmtReq) (origin : nodeInRange f.origin = false) :
    exec (hear s f) s = .next ((goodSeen s).setMu { s.mu with c := { s.mu.c with malformed := bump s.mu.c.malformed } }) := by
  rw [hear_request h kind, requestTaken, if_pos (by simp [hopped, origin])]
  exact completed_settled n.mu.due

/-- A request that finds one in work is counted as an overrun (R169). -/
theorem request_overruns (n : NoReset s) (h : Taken s f) (kind : f.kind = kindMgmtReq) (origin : nodeInRange f.origin = true)
    (busy : s.mu.work.isSome = true) :
    exec (hear s f) s = .next ((goodSeen s).setMu { s.mu with c := { s.mu.c with overruns := bump s.mu.c.overruns } }) := by
  rw [hear_request h kind, requestTaken, if_neg (by simp [hopped, origin]), if_pos (by exact busy)]
  exact completed_settled n.mu.due

/-- A request that finds none in work is served (R169). -/
theorem request_served (h : Taken s f) (kind : f.kind = kindMgmtReq) (origin : nodeInRange f.origin = true) (idle : s.mu.work = none) :
    exec (hear s f) s = completed (serveRequest (hopped f) (goodSeen s)) := by
  rw [hear_request h kind, requestTaken, if_neg (by simp [hopped, origin]), if_neg (by simp [goodSeen, idle])]

/-- A counter bears on no RESET. -/
theorem MuQuiet.counts {m : Mu} (q : MuQuiet m) (c : MuCounters) : MuQuiet { m with c := c } := ⟨q.due, q.work, q.offer, q.waiting⟩

/-! ## A request too short for its tag (R169) -/

/-- The tag bytes that a payload does not carry are free values (notes/assumptions/22.md). -/
theorem tagOf_short {p : List Byte} (short : p.length < 2) (s : State) :
    ∃ (t1 t2 : Byte) (n : Nat), p <+: [t1, t2] ∧ tagOf p s = (t1 ++ t2, s.setFree n) := by
  match p, short with
  | [], _ => exact ⟨_, _, _, List.nil_prefix, rfl⟩
  | [a], _ => exact ⟨a, _, _, ⟨[_], rfl⟩, rfl⟩

theorem not_formPasses_short {p : List Byte} (short : p.length < 2) : ¬ FormPasses p := by
  rintro ⟨-, t1, t2, kind, more, rfl, -⟩
  simp at short

/-- A request too short for its tag is counted as malformed and refused as INVALID under the tag it has. -/
theorem request_short (n : NoReset s) (h : Taken s f) (kind : f.kind = kindMgmtReq) (origin : nodeInRange f.origin = true)
    (idle : s.mu.work = none) (short : f.payload.length < 2) : ∃ t1 t2 n, f.payload <+: [t1, t2] ∧
      Answered f t1 t2 s (.refused .invalid) 0 (((atWork f (t1 ++ t2) s).setMu { (atWork f (t1 ++ t2) s).mu with
        c := { (atWork f (t1 ++ t2) s).mu.c with malformed := bump (atWork f (t1 ++ t2) s).mu.c.malformed } }).setFree n) := by
  obtain ⟨t1, t2, free, carried, tag⟩ := tagOf_short short (goodSeen s)
  refine ⟨t1, t2, free, carried, ?_⟩
  have invalid : ¬ formValid (hopped f).payload = true := fun x => not_formPasses_short short ((formValid_iff _).1 x)
  have entry (u : State) (same : own u = own s) :
      responseEntry f.origin (t1 ++ t2) (.plain (.refused .invalid)) u = ⟨response f t1 t2 (.refused .invalid) 0 s, false⟩ := by
    unfold responseEntry responsePayload response
    rw [tag_bytes, same]
    rfl
  unfold Answered
  rw [request_served h kind origin idle, serveRequest, show tagOf (hopped f).payload (goodSeen s) = _ from tag]
  dsimp only
  rw [if_neg invalid]
  refine (congrArg (fun e => completed (offerResponse e _)) (entry _ rfl)).trans ?_
  exact completed_next (offerResponse_quiet _ rfl ⟨(atWork_quiet f (t1 ++ t2) n).mu.counts _, n.insQ⟩)

/-! ## Responses appended at once (R170) -/

/-- A frame appended changes neither the presence table nor a counter (R29, R31). -/
theorem takeIn_counts (s : State) (e : InsEntry) : (takeIn s e).presence = s.rf.presence ∧ (takeIn s e).c = s.rf.c := by
  have chosen (r : Rf) : (arbiterTable r).presence = r.presence ∧ (arbiterTable r).c = r.c := by
    unfold arbiterTable
    (repeat' split) <;> exact ⟨rfl, rfl⟩
  unfold takeIn
  dsimp only
  split
  · exact chosen _
  · exact ⟨rfl, rfl⟩

/-- The response to a request that leaves the part as it is. -/
theorem offerResponse_atWork {e : InsEntry} (tag : BitVec 16) (n : NoReset s) (origin : e.frame.origin = own s) (hop : e.frame.hop = 63)
    (plain : e.resetResponse = false) (idle : s.mu.work = none) (offer : s.mu.offer = none) (due : s.mu.due = false)
    (room : s.rf.insQ.length < 12) :
    offerResponse e (atWork f tag s) = ((goodSeen s).setMu { s.mu with
      c := { s.mu.c with taken := bump s.mu.c.taken, responses := bump s.mu.c.responses } }).setRf (takeIn s e) := by
  have work : ({ s.mu with work := none } : Mu) = s.mu := by rw [← idle]
  rw [(responsesOffered e _ (atWork_quiet f tag n) origin hop).1 plain offer room due, ← work]
  rfl

/-- A READ of one entry that fits (R175). -/
theorem read_one (n : NoReset s) (h : Taken s f) (kind : f.kind = kindMgmtReq) (origin : nodeInRange f.origin = true)
    (idle : s.mu.work = none) {sp first : Byte} {e : Space} (payload : f.payload = [t1, t2, 1, sp, first, 1])
    (space : spaceOf sp = some e) (index : first.toNat < spaceSize e) (allowed : readProtected e f.origin s = false)
    (fits : (entryBytes (readEntry e first.toNat (atWork f (t1 ++ t2) s))).length ≤ 1019) :
    exec (hear s f) s = .next (offerResponse ⟨⟨kindMgmtRsp, f.origin, own s, 63,
      [t1, t2, 0, 0, 1] ++ entryBytes (readEntry e first.toNat (atWork f (t1 ++ t2) s))⟩, false⟩ (atWork f (t1 ++ t2) s)) := by
  have passes : FormPasses f.payload := by
    rw [payload]
    exact ⟨by simp, t1, t2, 1, [sp, first, 1], rfl, .inl ⟨rfl, by simp⟩⟩
  obtain ⟨es, entry, count, -, -, full, answer⟩ :=
    (readsAndWrites n h h.judged kind origin payload idle passes).read sp e first 1 [] rfl space index allowed
  have one : es.length ≤ 1 := count
  match es, one with
  | [], _ =>
    rcases full with wrong | atEnd | long
    · exact absurd wrong (by decide)
    · simp at atEnd
      omega
    · simp at long
      omega
  | [x], _ =>
    have content : x = _ := entry 0 (by simp)
    rw [answer, content]
    simp [byte]

/-- CLEAR_COUNTERS is DONE (R186). -/
theorem clear_answered (n : NoReset s) (h : Taken s f) (kind : f.kind = kindMgmtReq) (origin : nodeInRange f.origin = true)
    (idle : s.mu.work = none) (payload : f.payload = [t1, t2, 9]) :
    Answered f t1 t2 s .done 0 (clearCounters (atWork f (t1 ++ t2) s)) := by
  have passes : FormPasses f.payload := by
    rw [payload]
    exact ⟨by simp, t1, t2, 9, [], rfl, by simp⟩
  refine answered_by n h h.judged kind origin payload idle passes ?_
  rw [payload]
  rfl

/-- What stands after CLEAR_COUNTERS where its response is appended at once: every counter at 0 but that of the response (R186). -/
theorem clear_one (n : NoReset s) (h : Taken s f) (kind : f.kind = kindMgmtReq) (origin : nodeInRange f.origin = true)
    (idle : s.mu.work = none) (offer : s.mu.offer = none) (due : s.mu.due = false) (room : s.rf.insQ.length < 12)
    (payload : f.payload = [t1, t2, 9]) : ∃ t, exec (hear s f) s = .next t ∧
      t.wlp = { s.wlp with badFrames := 0, linkDown := 0, crcErrors := 0, truncated := 0 } ∧
      t.elp = { s.elp with linkDown := 0 } ∧ t.rf.c = rfCountersZero ∧
      (∀ n : Fin 62, t.rf.presence[n] = { s.rf.presence[n] with gaps := 0 }) ∧
      (∀ i : Fin 32, t.sr.entries[i] = s.sr.entries[i].map fun e => { e with c := streamCountersZero }) ∧
      t.iu = { s.iu with c := iuCountersZero } ∧ t.cu = { s.cu with c := cuCountersZero } ∧
      t.pu = { s.pu with c := puCountersZero } ∧
      t.mu = { s.mu with c := { muCountersZero with responses := 1 } } ∧ t.fu = s.fu ∧ t.cp = s.cp ∧ t.desk = s.desk := by
  have answer := clear_answered n h kind origin idle payload
  have address : own (clearCounters (atWork f (t1 ++ t2) s)) = own s := rfl
  obtain ⟨wlp, elp, rf, sr, iu, cu, pu, mu, fu, cp, desk⟩ := clearCounters_blocks (atWork f (t1 ++ t2) s)
  unfold Answered at answer
  generalize clearCounters (atWork f (t1 ++ t2) s) = u at *
  have q : NoReset u := ⟨by rw [mu]; exact (atWork_quiet f (t1 ++ t2) n).mu.counts _, by rw [rf]; exact n.insQ⟩
  rw [(responsesOffered _ _ q address.symm rfl).1 rfl (by rw [mu]; exact offer) (by rw [rf]; exact room) (by rw [mu]; exact due)] at answer
  obtain ⟨presence, counts⟩ := takeIn_counts u ⟨response f t1 t2 .done 0 s, false⟩
  have work : ({ s.mu with work := none } : Mu) = s.mu := by rw [← idle]
  refine ⟨_, answer, wlp, elp, counts.trans (by rw [rf]), fun i => ?_, fun i => ?_, iu, cu, pu, ?_, fu, cp, desk⟩
  · rw [State.setRf_rf, presence, rf]
    simp [mapTable, atWork, goodSeen]
  · rw [State.setRf_sr, State.setMu_sr, sr]
    simp [mapTable, atWork, goodSeen]
  · rw [← work, State.setRf_mu, State.setMu_mu, mu]
    rfl

end

/-- Settles O59: the writes and offers by their own lemmas; then where the frame comes from, whether a request is in work, whether it
carries its tag, and its form. -/
theorem managementRequestsAreAnswered : Obligations.ManagementRequestsAreAnswered := by
  refine ⟨responsesOffered, streamWritesAct, headWritesAct, headReportsAct, listWritesAct, numberWritesAct, settingWritesAct,
    tableWritesAct, fun f s n h kind => ⟨request_malformed n h kind, request_overruns n h kind, request_short n h kind, ?_⟩⟩
  intro t1 t2 rest origin idle payload
  refine ⟨form_refused n h h.judged kind origin payload idle, fun passes =>
    ⟨readsAndWrites n h h.judged kind origin payload idle passes, requestsAct n h h.judged kind origin payload idle passes⟩,
    fun offer due room => ⟨?_, fun clear => ?_⟩⟩
  · rintro sp e first r rfl space index allowed rfl fits
    rw [read_one n h kind origin idle payload space index allowed fits,
      offerResponse_atWork (t1 ++ t2) n rfl rfl rfl idle offer due room]
  · subst clear
    exact clear_one n h kind origin idle offer due room payload

end Sys2Proof.Machine
end

section
/-! Keys (O45): the cases of a key down, and what each hot-key action does. -/

namespace Sys2Proof.Machine

open Sys2Proof

/-! ## A key down case by case (R113, R119) -/

/-- The state in which the cases of a key down are told apart: the record reported, a modifier in the physical set. -/
def keyHeard (u : Byte) (s : State) : State :=
  (reported s).setIu { s.iu with mods := if isModifier u then s.iu.mods ||| modBit u else s.iu.mods }

section
variable {u : Byte} {s t : State}

theorem keyDown_exec (awake : Awake s) (valid : u ≠ 0) : exec (.deskKeyDown u) s = .next (keyDown u (reported s)) := by
  show completed (takeRecord (decide (u ≠ 0)) _ _ s) = _
  rw [decide_eq_true valid, takeRecord_awake awake]
  exact completed_keeps (reported_quiet awake.quiet) (keyDown_keeps u (.refl _))

/-- A modifier that is physically down already is a duplicate press. -/
theorem keyDown_repeated (modifier : isModifier u = true) (down : s.iu.mods &&& modBit u ≠ 0) :
    keyDown u (reported s) = duplicatePress (reported s) := by
  unfold keyDown
  rw [if_pos modifier, if_pos (by exact down)]

/-- Any other key comes to the cases, a modifier once it has joined the physical set. -/
theorem keyDown_heard (fresh : isModifier u = true → s.iu.mods &&& modBit u = 0) :
    keyDown u (reported s) = keyDownCases u (keyHeard u s) := by
  unfold keyDown keyHeard
  split
  · rename_i modifier
    exact if_neg (not_not.2 (fresh modifier))
  · rfl

/-- A key that is consumed or owned already is a duplicate press. -/
theorem keyDownCases_duplicate (known : u ∈ t.iu.consumed ∨ u ∈ t.iu.keys.map (·.1)) : keyDownCases u t = duplicatePress t :=
  if_pos known

/-- A hot key is consumed, acted on and counted. -/
theorem keyDownCases_hotKey (unknown : ¬ (u ∈ t.iu.consumed ∨ u ∈ t.iu.keys.map (·.1))) (plain : isModifier u = false) {k : HotKey}
    (found : matchHotKey u t = some k) :
    keyDownCases u t = countIu (fun c => { c with hotKeys := bump c.hotKeys }) (runAction k (consume u t)) := by
  unfold keyDownCases
  rw [if_neg unknown, if_neg (by simp [plain]), found]

/-- A key that is no hot key is counted without a focus slot or with a full key owner map, and otherwise owned and appended. -/
theorem keyDownCases_other (unknown : ¬ (u ∈ t.iu.consumed ∨ u ∈ t.iu.keys.map (·.1)))
    (other : isModifier u = true ∨ matchHotKey u t = none) :
    (t.fu.focus = none → keyDownCases u t = countIu (fun c => { c with keysNoFocus := bump c.keysNoFocus }) t) ∧
    (∀ f, t.fu.focus = some f → 16 ≤ t.iu.keys.length →
      keyDownCases u t = countIu (fun c => { c with keysMapFull := bump c.keysMapFull }) t) ∧
    (∀ f, t.fu.focus = some f → t.iu.keys.length < 16 →
      keyDownCases u t = append f.slot (.key u false) (t.setIu { t.iu with keys := t.iu.keys ++ [(u, f.slot)] })) := by
  have noHotKey : (if isModifier u then none else matchHotKey u t) = none := by
    split
    · rfl
    · rename_i plain
      exact other.resolve_left plain
  unfold keyDownCases
  rw [if_neg unknown, noHotKey]
  refine ⟨fun focus => ?_, fun f focus full => ?_, fun f focus room => ?_⟩ <;> rw [focus]
  · exact if_pos full
  · exact if_neg (by omega)

/-- The chord of a key that is no modifier is looked up with the modifiers that were physically down before it (R115). -/
theorem keyHeard_mods (plain : isModifier u = false) : (keyHeard u s).iu.mods = s.iu.mods := by
  simp [keyHeard, plain]

/-- A key without an entry for its chord matches no hot key, nor does a modifier (R115). -/
theorem keyHeard_other
    (other : isModifier u = true ∨ ∀ (i : Fin 16) (k : HotKey), s.iu.hotkeys[i] = some k → k.usage ≠ u ∨ k.mods ≠ s.iu.mods) :
    isModifier u = true ∨ matchHotKey u (keyHeard u s) = none := by
  cases plain : isModifier u with
  | true => exact .inl rfl
  | false =>
    have noEntry := other.resolve_left (by simp [plain])
    refine .inr (matchHotKey_none fun i k entry => ?_)
    rw [keyHeard_mods plain]
    exact noEntry i k entry

end

/-- A record that does not coalesce overflows a full queue (R127, R130). -/
theorem appendRecord_full (i : Fin 16) (r : InputRecord) {t : State} (apart : coalesce t.iu.queues[i] r = none)
    (full : 24 ≤ t.iu.queues[i].length) :
    appendRecord i r t = pumpBuilder pumpBound (overflow i (t.iu.queues[i].length + 1) t) := by
  unfold appendRecord
  dsimp only
  rw [apart]
  dsimp only
  rw [if_neg (not_lt.2 full)]

theorem coalesce_key (q : List InputRecord) (u : Byte) (up : Bool) : coalesce q (.key u up) = none := by
  unfold coalesce
  split
  · contradiction
  · rfl

/-- A key's record at a full queue raises QUEUE_OVERFLOW (R130). -/
theorem append_key_full (i : Fin 16) (u : Byte) (up : Bool) {t : State} (full : 24 ≤ t.iu.queues[i].length) :
    (append i (.key u up) t).mu.events &&& EventKind.bit .queueOverflow ≠ 0 := by
  have raised : (appendRecord i (.key u up) t).mu.events &&& EventKind.bit .queueOverflow ≠ 0 := by
    rw [appendRecord_full i _ (coalesce_key _ u up) full, (pumpBuilder_builds _ _).events]
    exact raise_pending _ _
  unfold append
  dsimp only
  split
  · exact (dragEnd_keeps (.refl _)).events _ raised
  · exact raised

/-! ## What NEXT_WINDOW reads (R109) -/

section
variable {s t : State}

theorem SameView.symm (view : SameView s t) : SameView t s := ⟨view.sr.symm, view.cp.symm, view.cu.symm, view.power.symm⟩

theorem SameView.focusable (view : SameView s t) (w : Window) : Machine.focusable t w = Machine.focusable s w :=
  focusable_congr view.sr view.cu view.power w

theorem SameView.owns (view : SameView s t) (h : Fin 4) (k px py : Nat) : Owns t h k px py ↔ Owns s h k px py := by
  unfold Owns
  rw [view.cp]

theorem SameView.listed_of (view : SameView s t) {h : Fin 4} {k : Nat} {w : Window} (l : Listed s h k w) : Listed t h k w :=
  ⟨by rw [view.cp]; exact l.enabled, by rw [view.cp]; exact l.place, by rw [view.focusable]; exact l.input,
    by simpa only [view.owns] using l.seen⟩

theorem SameView.listed (view : SameView s t) (h : Fin 4) (k : Nat) (w : Window) : Listed t h k w ↔ Listed s h k w :=
  ⟨view.symm.listed_of, view.listed_of⟩

theorem SameView.nextWindow (view : SameView s t) (fu : t.fu = s.fu) {h : Fin 4} {k : Nat} {w : Window} (next : NextWindow s h k w) :
    NextWindow t h k w := by
  refine ⟨view.listed_of next.listed, ?_, ?_⟩ <;> simp only [view.listed, hasFocus, fu]
  · exact next.first
  · exact next.follows

theorem SameView.nextPixel (view : SameView s t) {h : Fin 4} {k : Nat} {w : Window} {q : Nat × Nat} (pixel : NextPixel s h k w q) :
    NextPixel t h k w q := by
  constructor <;> simp only [view.owns]
  · exact pixel.centre
  · exact pixel.first

end

/-! ## Hot-key actions (R116, R117) -/

/-- What a hot key's action finds unchanged after the key has been reported and consumed: all that the focus unit's rules read, the focus
unit itself, and the button owners; of the panel unit the idle timer has started again (R112, R117). -/
structure Consumed (s v : State) : Prop where
  view : SameView s v
  fu : v.fu = s.fu
  owners : v.iu.owners = s.iu.owners
  pu : v.pu = (reported s).pu

theorem consume_consumed (u : Byte) (s : State) : Consumed s (consume u (keyHeard u s)) := by
  unfold consume
  split <;> exact ⟨⟨rfl, rfl, rfl, rfl⟩, rfl, rfl, rfl⟩

section
variable {s v : State} {k : HotKey}

/-- SELECT_PRESET stages a preset on every head (R75). -/
theorem selectPreset_stages (n : Fin 8) (v : State) : (selectPreset n.val v).2 = v.setCp { v.cp with
    staged := Vector.ofFn fun h => v.cp.presets[presetIndex n h], pending := Vector.replicate 4 true, current := some n } := by
  unfold selectPreset
  rw [dif_pos n.isLt]

theorem runAction_selectPreset (c : Consumed s v) {n : Fin 8} (action : k.action = .selectPreset) (arg : k.arg.toNat = n.val) :
    runAction k v = v.setCp { s.cp with
      staged := Vector.ofFn fun h => s.cp.presets[presetIndex n h], pending := Vector.replicate 4 true, current := some n } := by
  simp only [runAction, action]
  rw [arg, selectPreset_stages, c.view.cp]

/-- A claim action acts on the focus slot, or else on the last one (R116). -/
theorem claimAction_target (c : Consumed s v) {j : Fin 16}
    (target : s.fu.focus.map (·.slot) = some j ∨ (s.fu.focus = none ∧ s.fu.last = some j)) (act : Fin 16 → State → State) :
    claimAction act v = act j v := by
  have slot : targetSlot v = some j := by
    unfold targetSlot
    rw [c.fu]
    rcases target with focus | ⟨noFocus, last⟩
    · rw [focus]
      rfl
    · rw [noFocus, last]
      rfl
  unfold claimAction
  rw [slot]

/-- Without either it is counted (R116). -/
theorem claimAction_noTarget (c : Consumed s v) (noFocus : s.fu.focus = none) (noLast : s.fu.last = none)
    (act : Fin 16 → State → State) : claimAction act v = countIu (fun c => { c with hotNoTarget := bump c.hotNoTarget }) v := by
  unfold claimAction targetSlot
  rw [c.fu, noFocus, noLast]
  rfl

/-- STANDBY enters STANDBY: no focus, no lock, and every slot at VIEW without a request (R107, R152, R157). -/
theorem runAction_standby (c : Consumed s v) (active : s.pu.power = .active) (action : k.action = .standby) :
    (runAction k v).pu = { v.pu with power := .standby, idle := none, c := { s.pu.c with standbys := bump s.pu.c.standbys } } ∧
    (runAction k v).fu.focus = none ∧ (runAction k v).fu.lock = false ∧
    ∀ (j : Fin 16) (x : Slot), (runAction k v).cu.slots[j] = some x → x.held = .view ∧ x.request = none := by
  obtain ⟨pu, fu, slots, -⟩ := enterStandby_spec (c.view.power.trans active)
  simp only [runAction, action]
  refine ⟨?_, by rw [fu], by rw [fu], fun j x entry => ?_⟩
  · rw [pu, c.pu]
    rfl
  · rw [slots j] at entry
    obtain ⟨y, -, rfl⟩ := Option.map_eq_some_iff.1 entry
    exact ⟨rfl, rfl⟩

/-- NEXT_WINDOW with the lock set, under drag capture or with no window to go to does nothing (R109). -/
theorem runAction_nextWindow_idle (c : Consumed s v) (action : k.action = .nextWindow)
    (idle : s.fu.lock = true ∨ (∃ j : Fin 5, s.iu.owners[j] ≠ none) ∨ ∀ h n x, ¬ Listed s h n x) : runAction k v = v := by
  simp only [runAction, action]
  refine nextWindowAction_idle ?_
  rcases idle with locked | ⟨j, owned⟩ | noWindow
  · exact .inl (by rw [c.fu]; exact locked)
  · refine .inr (.inl (eq_true_of_ne_false fun free => owned ?_))
    rw [← anyOwned_false.1 free j, c.owners]
  · exact .inr (.inr fun h n x => (c.view.listed h n x).not.2 (noWindow h n x))

/-- NEXT_WINDOW moves pointer and focus to the window that R109 names, asks for a POSITION there, and takes the keys of a slot that
loses focus. -/
theorem runAction_nextWindow_moves (c : Consumed s v) (action : k.action = .nextWindow) {h : Fin 4} {n : Nat} {x : Window}
    {q : Nat × Nat} {g : Fin 16} (unlocked : s.fu.lock = false) (free : ∀ j : Fin 5, s.iu.owners[j] = none)
    (next : NextWindow s h n x) (pixel : NextPixel s h n x q) (slot : focusable s x = some g) :
    (runAction k v).fu.focus = some ⟨g, h, x.id⟩ ∧ (runAction k v).fu.x = s.cp.heads[h].ox + q.1 ∧
    (runAction k v).fu.y = s.cp.heads[h].oy + q.2 ∧ (runAction k v).fu.accum = 0 ∧ (runAction k v).fu.lock = false ∧
    (runAction k v).fu.last = (if s.fu.focus.map (·.slot) = some g then s.fu.last else some g) ∧
    (∀ pt, requestedPoint (s.setFu { s.fu with
        x := s.cp.heads[h].ox + q.1, y := s.cp.heads[h].oy + q.2, focus := some ⟨g, h, x.id⟩ }) = some (g, pt) →
      (runAction k v).fu.reported = some pt) ∧
    ∀ f, s.fu.focus = some f → f.slot ≠ g → ∀ y ∈ (runAction k v).iu.keys, y.2 ≠ f.slot := by
  have unowned : anyOwned v = false := anyOwned_false.2 fun j => by rw [c.owners]; exact free j
  obtain ⟨fu, keys⟩ := nextWindowAction_moves (by rw [c.fu]; exact unlocked) unowned (c.view.nextWindow c.fu next)
    (c.view.nextPixel pixel) ((c.view.focusable x).trans slot)
  simp only [runAction, action]
  rw [c.view.cp, c.fu] at fu
  refine ⟨by rw [fu], by rw [fu], by rw [fu], by rw [fu], by rw [fu]; exact unlocked, by rw [fu], fun pt point => ?_,
    fun f focus => keys f (by rw [c.fu]; exact focus)⟩
  have moved (w : Fu) : SameView (s.setFu w) (v.setFu w) := ⟨c.view.sr, c.view.cp, c.view.cu, c.view.power⟩
  rw [fu, (moved _).point rfl rfl rfl, point]
  rfl

end

/-! ## The obligation -/

/-- Settles O45: a key that is down already, a hot key by its action, and any other key by focus, map and queue. -/
theorem keyDownIsHandledByItsCases : Obligations.KeyDownIsHandledByItsCases := by
  rintro u _ m s awake valid rfl heard
  replace heard : m = keyHeard u s := heard
  subst heard
  rw [keyDown_exec awake valid]
  refine ⟨fun modifier down => by rw [keyDown_repeated modifier down]; rfl, fun fresh => ?_⟩
  rw [keyDown_heard fresh]
  refine ⟨fun known => congrArg _ (keyDownCases_duplicate (t := keyHeard u s) known), fun notConsumed notOwned => ?_⟩
  have unknown : ¬ (u ∈ (keyHeard u s).iu.consumed ∨ u ∈ (keyHeard u s).iu.keys.map (·.1)) := not_or.2 ⟨notConsumed, notOwned⟩
  refine ⟨fun i k v w plain entry usage mods first consumed ran => ?_, fun other => ?_⟩
  · have found : matchHotKey u (keyHeard u s) = some k := by
      refine matchHotKey_some i k entry usage ?_ ?_ <;> rw [keyHeard_mods plain]
      · exact mods
      · exact first
    replace consumed : v = consume u (keyHeard u s) := consumed
    have c : Consumed s v := by rw [consumed]; exact consume_consumed u s
    subst ran
    refine ⟨by rw [keyDownCases_hotKey unknown plain found, consumed], fun n => runAction_selectPreset c, fun j target => ?_,
      fun noFocus noLast claims => ?_, runAction_standby c awake.active, fun next =>
      ⟨runAction_nextWindow_idle c next, fun _ _ _ _ _ => runAction_nextWindow_moves c next⟩⟩
    · refine ⟨fun action => ?_, fun action => ?_, fun action => ?_⟩ <;> simp only [runAction, action] <;>
        exact claimAction_target c target _
    · rcases claims with action | action | action <;> simp only [runAction, action] <;>
        exact claimAction_noTarget c noFocus noLast _
  · obtain ⟨noFocus, full, owned⟩ := keyDownCases_other unknown (keyHeard_other other)
    refine ⟨fun focus => congrArg _ (noFocus focus), fun f focus long => congrArg _ (full f focus long),
      fun f focus room queue => ?_, fun f focus room queue => ?_⟩ <;> rw [owned f focus room]
    · refine congrArg _ (append_enqueue _ _ (queued_room _ _ ?_))
      exact queue
    · exact ⟨_, rfl, append_key_full _ _ _ queue⟩

end Sys2Proof.Machine
end

section
/-! Claims (O57): how a source's frame comes to the claim unit, what is rejected there, and what its answers do. -/

namespace Sys2Proof.Machine

open Sys2Proof

/-! ## From the line to the claim unit -/

section
variable {s u : State} {f : Frame}

/-- A frame that comes to its block brings no RESET response about. -/
theorem ComesTo.quiet (comes : ComesTo s f u) (n : NoReset s) : NoReset u := by
  rcases comes with ⟨-, rfl⟩ | ⟨-, -, -, r, rfl, forwards⟩
  · exact goodSeen_quiet n
  · exact Forwards.quiet forwards n

/-- The claim unit is as it was when a frame comes to it. -/
theorem ComesTo.cu (comes : ComesTo s f u) : u.cu = s.cu := by
  rcases comes with ⟨-, rfl⟩ | ⟨-, -, -, r, rfl, -⟩ <;> rfl

/-- A CLAIM frame in RUNNING goes to the claim unit (R24). -/
theorem takeFrame_claim {t : State} (run : t.cl.loader = .running) (kind : f.kind = kindClaim) : takeFrame f t = claimTaken f t := by
  unfold takeFrame
  rw [if_neg (by simp [running, run]), if_pos kind]

/-- A CLAIM frame comes to the claim unit once its goodness has been counted and, where it is to all nodes, it has been forwarded
(R24, R26, R28). -/
theorem hear_claim (n : NoReset s) (comes : ComesTo s f u) (kind : f.kind = kindClaim) :
    exec (hear s f) s = completed (claimTaken (hopped f) u) := by
  have noStrip : f.kind ≠ kindStrip := by rw [kind]; decide
  rcases comes with ⟨taken, rfl⟩ | ⟨arrives, all, run, r, rfl, forwards⟩
  · rw [hear_own taken.toArrives noStrip taken.here taken.not_all]
    exact congrArg completed (takeFrame_claim (f := hopped f) taken.loaded kind)
  · rw [hear_all arrives noStrip all, forward_eq n forwards]
    exact congrArg completed (takeFrame_claim (f := hopped f) run kind)

end

/-! ## Rejected frames (R145) -/

/-- An address that no loaded slot holds names none (R136). -/
theorem slotOfAddr_unnamed {t : State} {a : Byte} (h : ∀ (i : Fin 16) (k : Slot), t.cu.slots[i] = some k → k.content.addr ≠ a) :
    slotOfAddr t a = none := by
  refine List.find?_eq_none.2 fun i _ => ?_
  cases entry : t.cu.slots[i] with
  | none => exact Bool.false_ne_true
  | some k => simpa using h i k entry

section
variable {t : State} {f : Frame}

theorem claimTaken_unnamed (h : slotOfAddr t f.origin = none) : claimTaken f t = rejectClaim t := by
  unfold claimTaken
  rw [h]

theorem claimTaken_length (h : f.payload.length ≠ 4) : claimTaken f t = rejectClaim t := by
  unfold claimTaken
  split
  · rename_i payload
    exact absurd (by rw [payload]; rfl) h
  · rfl

variable {kind level prio holder : Byte} {i : Fin 16} {k : Slot}

theorem claimTaken_noLevel (payload : f.payload = [kind, level, prio, holder]) (named : slotOfAddr t f.origin = some i)
    (unknown : levelOf level = none) : claimTaken f t = rejectClaim t := by
  unfold claimTaken
  rw [named, payload]
  dsimp only
  rw [unknown]
  cases t.cu.slots[i] <;> rfl

/-- A frame of a known level, by its kind: a GRANT, a DENY and a REVOKE are taken, the first two only where they are not to all
nodes, and any other kind is rejected (R145). -/
theorem claimTaken_kinds {l : Level} (payload : f.payload = [kind, level, prio, holder]) (named : slotOfAddr t f.origin = some i)
    (entry : t.cu.slots[i] = some k) (known : levelOf level = some l) :
    claimTaken f t =
      if kind = 3 ∧ f.dest ≠ allNodes then grant i k l t
      else if kind = 4 ∧ f.dest ≠ allNodes then deny i k l (holderField holder) t
      else if kind = 5 then revoke i k l (holderField holder) t
      else rejectClaim t := by
  unfold claimTaken
  rw [named, payload]
  dsimp only
  rw [entry, known]

theorem claimTaken_otherKind {l : Level} (payload : f.payload = [kind, level, prio, holder]) (named : slotOfAddr t f.origin = some i)
    (entry : t.cu.slots[i] = some k) (known : levelOf level = some l)
    (other : (kind ≠ 3 ∧ kind ≠ 4 ∧ kind ≠ 5) ∨ (f.dest = allNodes ∧ kind ≠ 5)) : claimTaken f t = rejectClaim t := by
  rw [claimTaken_kinds payload named entry known]
  rcases other with ⟨noGrant, noDeny, noRevoke⟩ | ⟨all, noRevoke⟩
  · rw [if_neg fun h => noGrant h.1, if_neg fun h => noDeny h.1, if_neg noRevoke]
  · rw [if_neg fun h => h.2 all, if_neg fun h => h.2 all, if_neg noRevoke]

/-! ## Answers (R146 to R148) -/

/-- A kind that is none of the three answers does nothing to the record. -/
theorem answerActs_otherKind {l : Level} {o : Host.Outcome State Fault Refusal} (noGrant : kind ≠ 3) (noDeny : kind ≠ 4)
    (noRevoke : kind ≠ 5) : AnswerActs i k kind l holder t o :=
  ⟨fun h => absurd h noGrant, fun h => absurd h noGrant, fun h => absurd h noGrant, fun h => absurd h noDeny, fun h => absurd h noDeny,
    fun h => absurd h noRevoke, fun h => absurd h noRevoke⟩

/-- A frame of a known level that is not to all nodes, or is a REVOKE, does to its slot's record what R146 to R148 say. -/
theorem claimTaken_answer {l : Level} (n : NoReset t) (payload : f.payload = [kind, level, prio, holder])
    (named : slotOfAddr t f.origin = some i) (entry : t.cu.slots[i] = some k) (known : levelOf level = some l)
    (addressed : f.dest ≠ allNodes ∨ kind = 5) : AnswerActs i k kind l holder t (completed (claimTaken f t)) := by
  have acts := answer_acts kind l holder n entry
  rw [claimTaken_kinds payload named entry known]
  by_cases revoked : kind = 5
  · subst revoked
    exact acts
  · have here : f.dest ≠ allNodes := addressed.resolve_right revoked
    by_cases granted : kind = 3
    · rw [if_pos granted] at acts
      rwa [if_pos ⟨granted, here⟩]
    · by_cases denied : kind = 4
      · rw [if_neg granted, if_pos denied] at acts
        rwa [if_neg fun h => granted h.1, if_pos ⟨denied, here⟩]
      · exact answerActs_otherKind granted denied revoked

end

/-! ## The obligation -/

/-- Settles O57: the laws of the outbox, of local requests and releases and of slot writes, and a CLAIM frame by what it holds. -/
theorem sourceAnswersChangeTheClaim : Obligations.SourceAnswersChangeTheClaim := by
  refine ⟨outboxEmpties, localRequestsAct, localReleasesAct, slotWritesAct, ?_⟩
  rintro f s u _ n comes isClaim rfl
  have quiet := comes.quiet n
  have cu := comes.cu
  have named (a : Byte) : slotOfAddr u a = slotOfAddr s a := by unfold slotOfAddr; rw [cu]
  have rejects (h : claimTaken (hopped f) u = rejectClaim u) :
      completed (claimTaken (hopped f) u) = .next (u.setCu { u.cu with c := { u.cu.c with rejected := bump u.cu.c.rejected } }) := by
    rw [h]
    exact completed_settled quiet.mu.due
  rw [hear_claim n comes isClaim]
  refine ⟨?_, fun kind level prio holder i k payload slot entry => ⟨fun h => rejects ?_, fun l known addressed => ?_⟩⟩
  · rintro (short | unnamed)
    · exact rejects (claimTaken_length (f := hopped f) short)
    · exact rejects (claimTaken_unnamed (f := hopped f) ((named _).trans (slotOfAddr_unnamed unnamed)))
  · have slot' : slotOfAddr u (hopped f).origin = some i := (named _).trans slot
    have entry' : u.cu.slots[i] = some k := by rw [cu]; exact entry
    cases known : levelOf level with
    | none => exact claimTaken_noLevel (f := hopped f) payload slot' known
    | some l =>
      exact claimTaken_otherKind (f := hopped f) payload slot' entry' known (h.resolve_left (by simp [known]))
  · exact claimTaken_answer (f := hopped f) quiet payload ((named _).trans slot) (by rw [cu]; exact entry) known addressed

end Sys2Proof.Machine
end

section
/-! The idle timer's expiry (O54). -/

namespace Sys2Proof.Machine

open Sys2Proof

section
variable {s : State}

theorem idleReached_iff : idleReached s = true ↔ s.desk.standby ≠ 0 ∧ ∃ n, s.pu.idle = some n ∧ s.desk.standby * 60000 ≤ n := by
  unfold idleReached reached
  cases s.pu.idle <;> simp

/-- The idle timer's expiry at or above the delay enters STANDBY (R159). -/
theorem idleTimer_expires (n : NoReset s) (active : s.pu.power = .active) (due : idleReached s = true) :
    exec .idleTimerExpires s = .next (enterStandby s) := by
  have expired : idleExpired s = enterStandby s := if_pos ⟨active, due⟩
  exact (congrArg completed expired).trans (completed_keeps n (enterStandby_keeps (.refl s)))

/-- Below the delay, or in STANDBY, it does not happen (R159). -/
theorem idleTimer_waits (n : NoReset s) (h : ¬ (s.pu.power = .active ∧ idleReached s = true)) : exec .idleTimerExpires s = .next s :=
  (congrArg completed (if_neg h)).trans (completed_next n)

end

/-- Settles O54: the expiry is the entry to STANDBY, whose focus, releases and release synthesis are known. -/
theorem idleExpiryEntersStandby : Obligations.IdleExpiryEntersStandby := by
  intro s quiet
  refine ⟨fun n active idle delay late => ?_, fun h => idleTimer_waits quiet ?_⟩
  · obtain ⟨pu, fu, slots, events, synthesis⟩ := enterStandby_spec active
    refine ⟨_, idleTimer_expires quiet active (idleReached_iff.2 ⟨delay, n, idle, late⟩), pu, by rw [fu], by rw [fu], by rw [fu],
      by rw [fu], by rw [fu], fun f focus => ?_, fun i empty => ?_, fun i k entry => ⟨?_, events i k entry⟩,
      (enterStandby_keeps (.refl s)).same⟩
    · obtain ⟨keys, owners⟩ := enterStandby_leaves active focus
      exact ⟨by rw [fu, focus], keys, owners, fun kept room => by rw [synthesis f focus kept room]; simp⟩
    · rw [slots i, empty]
      rfl
    · rw [slots i, entry]
      rfl
  · rintro ⟨active, due⟩
    obtain ⟨delay, n, idle, late⟩ := idleReached_iff.1 due
    rcases h with standby | stopped | off | ⟨m, running, early⟩
    · simp [active] at standby
    · simp [idle] at stopped
    · exact delay off
    · obtain rfl : n = m := Option.some.inj (idle.symm.trans running)
      omega

end Sys2Proof.Machine
end

section
/-! A button release (O48): what goes to the button's owner, and the end of drag capture with the last owned button. -/

namespace Sys2Proof.Machine

open Sys2Proof

/-! ## The release in parts (R113, R122) -/

/-- The state once a record that does not wake has been heard, with a button no longer physically down. -/
def buttonUp (k : Fin 5) (s : State) : State :=
  (heardQuietly s).setIu { s.iu with buttons := s.iu.buttons &&& ~~~(1#5 <<< k.val) }

/-- The same, the button owned by no slot. -/
def disowned (k : Fin 5) (s : State) : State := (buttonUp k s).setIu { (buttonUp k s).iu with owners := s.iu.owners.set k none }

section
variable {s : State} {k : Fin 5} {i : Fin 16}

/-- A record that does not wake restarts the idle timer at most. -/
theorem heardQuietly_leaves (s : State) : (heardQuietly s).iu = s.iu ∧ (heardQuietly s).fu = s.fu ∧ SameView s (heardQuietly s) := by
  unfold heardQuietly
  split <;> exact ⟨rfl, rfl, rfl, rfl, rfl, rfl⟩

theorem disowned_fu (k : Fin 5) (s : State) : (disowned k s).fu = s.fu := (heardQuietly_leaves s).2.1

theorem disowned_view (k : Fin 5) (s : State) : SameView s (disowned k s) := by
  obtain ⟨-, -, view⟩ := heardQuietly_leaves s
  exact ⟨view.sr, view.cp, view.cu, view.power⟩

theorem disowned_free : anyOwned (disowned k s) = false ↔ ∀ j : Fin 5, j ≠ k → s.iu.owners[j] = none := anyOwned_without rfl

theorem buttonRelease_exec {b : Byte} (quiet : NoReset s) (run : s.cl.loader = .running) (place : b.toNat = k.val + 1) :
    exec (.deskButtonRelease b) s = .next (buttonRelease k (heardQuietly s)) := by
  obtain ⟨index, range⟩ := buttonIndex_of place
  show completed (takeRecord (buttonInRange b) none (atButton b buttonRelease) s) = _
  rw [range, takeRecord_quietly run, atButton, index]
  exact completed_keeps (heardQuietly_quiet quiet) (buttonRelease_keeps k (.refl _))

theorem buttonRelease_unowned (owner : s.iu.owners[k] = none) : buttonRelease k (heardQuietly s) = buttonUp k s := by
  unfold buttonRelease
  rw [(heardQuietly_leaves s).1]
  dsimp only [State.setIu_iu]
  rw [owner]
  rfl

/-- The owner of a released button gets its POSITION, and with the last owned button drag capture ends. -/
theorem buttonRelease_owned (owner : s.iu.owners[k] = some i) : buttonRelease k (heardQuietly s) =
    if anyOwned (disowned k s) then appendReported i (disowned k s) else dragEnd (appendReported i (disowned k s)) := by
  unfold buttonRelease
  rw [(heardQuietly_leaves s).1]
  dsimp only [State.setIu_iu]
  rw [owner]
  rfl

end

/-! ## The POSITION at the reported position (R122) -/

section
variable {o : State} (i : Fin 16)

theorem appendReported_none (h : o.fu.reported = none) : appendReported i o = o := by
  unfold appendReported
  rw [h]

section
variable {pt : StreamPoint} (point : o.fu.reported = some pt)
include point

theorem appendReported_some : appendReported i o = append i (.position pt (ownedBy i o)) o := by
  unfold appendReported
  rw [point]

theorem appendReported_room (room : (queued o.iu.queues[i] (.position pt (ownedBy i o))).length ≤ 24) :
    appendReported i o = enqueue i (.position pt (ownedBy i o)) o := by
  rw [appendReported_some i point, append_enqueue i _ room]

/-- At a full queue that cannot take it, the POSITION overflows the queue (R130). -/
theorem appendReported_full (full : o.iu.queues[i].length = 24)
    (long : 24 < (queued o.iu.queues[i] (.position pt (ownedBy i o))).length) :
    (appendReported i o).mu.events &&& EventKind.bit .queueOverflow ≠ 0 := by
  rw [appendReported_some i point]
  exact append_overflow_event i _ long full.le

end

theorem appendReported_delivers (o : State) : Delivers o (appendReported i o) := by
  unfold appendReported
  split
  · exact append_delivers i _ (.refl o)
  · exact .refl o

/-- With no button owned it leaves the focus unit as it is. -/
theorem appendReported_fu (free : anyOwned o = false) : (appendReported i o).fu = o.fu := by
  unfold appendReported
  split
  · rw [append_unowned i _ free]
    exact (appendRecord_owners i _ o).1
  · rfl

end

/-! ## The end of drag capture (R101 to R103) -/

theorem dragEnd_delivers (o : State) : Delivers o (dragEnd o) :=
  reevaluate_delivers (fun i r _ _ h => appendRecord_delivers i r h) (.refl o)

/-- What the last owned button's release makes of the desk, from a state `o` in which no button is owned: its owner has its POSITION,
and then drag capture ends. -/
structure CaptureEnded (o t : State) : Prop where
  delivers : Delivers o t
  free : ∀ j : Fin 5, t.iu.owners[j] = none
  clear : o.fu.lock = false → t.fu.focus = targetAtPointer o ∧ t.fu.x = o.fu.x ∧ t.fu.y = o.fu.y ∧ t.fu.lock = false
  locked : ∀ f w, o.fu.lock = true → o.fu.focus = some f → windowOf o f = some w → focusHolds o f = true →
    t.fu.focus = some f ∧ t.fu.lock = true ∧ (t.fu.x, t.fu.y) = limitTo o.cp.heads[f.head] w o.fu.x o.fu.y
  lost : ∀ f, o.fu.focus = some f → focusHolds o f = false →
    t.fu.focus = targetAtPointer o ∧ t.fu.lock = false ∧ t.fu.x = o.fu.x ∧ t.fu.y = o.fu.y

theorem dragEnd_captureEnded {o : State} (free : anyOwned o = false) : CaptureEnded o (dragEnd o) := by
  have delivers := dragEnd_delivers o
  refine ⟨delivers, anyOwned_false.1 (anyOwned_mono delivers.hands.owners free), fun clear => ?_, fun f w lock focus window holds =>
    reevaluate_locked reportsOnly_record free lock focus window holds, fun f focus lost => ?_⟩
  · obtain ⟨focus, lock, x, y⟩ := reevaluate_clear reportsOnly_record free clear
    exact ⟨focus, x, y, lock⟩
  · unfold dragEnd
    rw [reevaluate_lost focus lost]
    exact forceFocus_unowned reportsOnly_record free

/-- What the end of drag capture comes to depends on the state only through what it reads. -/
theorem CaptureEnded.of_view {o a t : State} (ended : CaptureEnded a t) (view : SameView o a) (fu : a.fu = o.fu)
    (delivers : Delivers o a) : CaptureEnded o t := by
  have target : targetAtPointer a = targetAtPointer o := view.target (by rw [fu]) (by rw [fu])
  obtain ⟨after, free, clear, locked, lost⟩ := ended
  rw [fu, target] at clear lost
  rw [fu, view.cp] at locked
  simp only [view.holds, view.window] at locked lost
  exact ⟨delivers.trans after, free, clear, locked, lost⟩

/-- The POSITION before it changes nothing of that (R122). -/
theorem appendReported_captureEnded (i : Fin 16) {o : State} (free : anyOwned o = false) :
    CaptureEnded o (dragEnd (appendReported i o)) := by
  have delivers := appendReported_delivers i o
  exact (dragEnd_captureEnded (anyOwned_mono delivers.hands.owners free)).of_view
    (.of delivers (appendReported_keeps i (.refl o))) (appendReported_fu i free) delivers

/-! ## The obligation -/

/-- Settles O48: a button without an owner, one of several that are owned, and the last one. -/
theorem buttonReleaseGoesToItsOwner : Obligations.ButtonReleaseGoesToItsOwner := by
  intro b k p s quiet run place up
  replace up : p = buttonUp k s := up
  subst up
  rw [buttonRelease_exec quiet run place]
  refine ⟨fun owner => congrArg _ (buttonRelease_unowned owner), fun i o owner gone => ?_⟩
  replace gone : o = disowned k s := gone
  subst gone
  rw [buttonRelease_owned owner]
  have fu := disowned_fu k s
  have silent (h : s.fu.reported = none) := appendReported_none i (o := disowned k s) (by rw [fu]; exact h)
  have point {pt : StreamPoint} (h : s.fu.reported = some pt) : (disowned k s).fu.reported = some pt := by rw [fu]; exact h
  refine ⟨fun ⟨j, other, owned⟩ => ?_, fun last => ?_⟩
  · rw [if_pos (eq_true_of_ne_false fun free => owned (disowned_free.1 free j other))]
    exact ⟨fun h => by rw [silent h], fun pt h room => by rw [appendReported_room i (point h) room],
      fun pt h full long => ⟨_, rfl, appendReported_full i (point h) full long⟩⟩
  · have free := disowned_free.2 last
    have noButton : ownedBy i (disowned k s) = 0 := ownedBy_unowned i free
    have view := disowned_view k s
    have target : targetAtPointer (disowned k s) = targetAtPointer s := view.target (by rw [fu]) (by rw [fu])
    obtain ⟨delivers, owners, clear, locked, lost⟩ := appendReported_captureEnded i free
    rw [fu, target] at clear lost
    rw [fu, view.cp] at locked
    simp only [view.holds, view.window] at locked lost
    rw [if_neg (ne_true_of_eq_false free), ← noButton]
    exact ⟨_, rfl, fun h => by rw [silent h], fun pt h room => by rw [appendReported_room i (point h) room],
      fun pt h full long => (dragEnd_keeps (.refl _)).events _ (appendReported_full i (point h) full long),
      delivers.hands.buttons, owners, clear, locked, fun f _ => lost f, delivers.cu.trans view.cu, delivers.cp.trans view.cp, delivers.pu⟩

end Sys2Proof.Machine
end

section
/-! Motion with the lock clear (O49): which crossings the guard holds back, and where any other motion takes pointer and focus. -/

namespace Sys2Proof.Machine

open Sys2Proof

/-! ## A motion taken (R112, R123) -/

section
variable {s : State} {dx dy : BitVec 16}

theorem motion_exec (awake : Awake s) (valid : (Instr.deskMotion dx dy).wellFormed = true) :
    exec (.deskMotion dx dy) s = .next (fuMotion dx.toInt dy.toInt (reported s)) := by
  show completed (takeRecord (motionInRange dx && motionInRange dy) _ _ s) = _
  rw [show (motionInRange dx && motionInRange dy) = true from valid, takeRecord_awake awake]
  exact completed_keeps (reported_quiet awake.quiet) (fuMotion_keeps _ _ (.refl _))

theorem motion_free (awake : Awake s) (valid : (Instr.deskMotion dx dy).wellFormed = true) (clear : s.fu.lock = false) :
    exec (.deskMotion dx dy) s = .next (freeMotion dx.toInt dy.toInt (reported s)) := by
  rw [motion_exec awake valid]
  exact congrArg _ (if_neg (show ¬ s.fu.lock = true by simp [clear]))

theorem motion_locked (awake : Awake s) (valid : (Instr.deskMotion dx dy).wellFormed = true) (locked : s.fu.lock = true) :
    exec (.deskMotion dx dy) s = .next (lockedMotion dx.toInt dy.toInt (reported s)) := by
  rw [motion_exec awake valid]
  exact congrArg _ (if_pos (show s.fu.lock = true from locked))

end

/-! ## The crossing guard (R98) -/

/-- A blocked crossing with what stands in it: from window `w` of head `h`, of focus `f`, to the target `g` at the point. -/
structure Crossing (s : State) (p : Int × Int) (f : Focus) (h : Fin 4) (w : Window) (g : Focus) : Prop where
  guardOn : 0 < s.desk.guard
  free : anyOwned s = false
  focus : s.fu.focus = some f
  under : hitTest s s.fu.x s.fu.y = some (h, w)
  slot : windowSlot s w = some f.slot
  target : asTarget s (hitTest s p.1 p.2) = some g
  other : g.slot ≠ f.slot

section
variable {s : State} {p : Int × Int} {f g : Focus} {h : Fin 4} {w : Window}

theorem Crossing.blocked (c : Crossing s p f h w g) : blockedCrossing s p = some (h, w) := by
  unfold blockedCrossing
  rw [c.focus, c.under, c.target]
  exact if_pos ⟨c.guardOn, by simp [c.free], c.slot, c.other⟩

theorem blockedCrossing_crosses {hw : Fin 4 × Window} (found : blockedCrossing s p = some hw) :
    ∃ f g, Crossing s p f hw.1 hw.2 g := by
  unfold blockedCrossing at found
  split at found
  · rename_i f hw' g focus under target
    split at found
    · rename_i blocked
      obtain ⟨guardOn, free, slot, other⟩ := blocked
      obtain rfl : hw' = hw := Option.some.inj found
      exact ⟨f, g, guardOn, by simpa using free, focus, under, slot, target, other⟩
    · cases found
  · cases found

theorem Crossing.is_blocked (c : Crossing s p f h w g) : BlockedCrossing s p :=
  ⟨c.guardOn, anyOwned_false.1 c.free, f, h, w, g, c.focus, c.under, c.slot, c.target, c.other⟩

/-- A motion that is no blocked crossing is not held back. -/
theorem heldBack_of_not (passes : ¬ BlockedCrossing s p) : heldBack s p = false := by
  unfold heldBack
  cases found : blockedCrossing s p with
  | none => rfl
  | some hw =>
    obtain ⟨_, _, c⟩ := blockedCrossing_crosses found
    exact absurd c.is_blocked passes

/-- A blocked crossing is held back while the sum of the sizes is below the guard distance. -/
theorem Crossing.heldBack_eq (c : Crossing s p f h w g) :
    heldBack s p = decide (s.fu.accum + keptSize s p < s.desk.guard) := by
  unfold heldBack
  rw [c.blocked]
  rfl

/-- A motion that is not held back goes to its point (R98). -/
theorem guardedMove_passes (pass : heldBack s p = false) : guardedMove s p = pointerAt p s := by
  unfold heldBack at pass
  unfold guardedMove
  cases found : blockedCrossing s p with
  | none => rfl
  | some hw =>
    rw [found] at pass
    exact if_pos (by simpa using pass)

end

/-! ## The focus after the pointer (R96, R99, R100) -/

section
variable {s : State}

/-- With no button owned the focus follows the hit test. -/
theorem followPointer_free (free : anyOwned s = false) : followPointer false s = changeFocus (targetAtPointer s) s :=
  if_neg (by simp [free])

/-- Under drag capture it stays. -/
theorem followPointer_drag (held : Bool) (owned : anyOwned s = true) : followPointer held s = s := if_pos (.inl owned)

/-- Pointer and lock stay as they are where the focus follows, and a clear accumulator stays clear. -/
theorem followPointer_fu (held : Bool) (s : State) : (followPointer held s).fu.x = s.fu.x ∧ (followPointer held s).fu.y = s.fu.y ∧
    (followPointer held s).fu.lock = s.fu.lock ∧ (s.fu.accum = 0 → (followPointer held s).fu.accum = 0) := by
  unfold followPointer
  dsimp only
  split
  · exact ⟨rfl, rfl, rfl, id⟩
  · exact (changeFocus_fu _ s).2

/-- A focus change within the focus slot sets the focus alone (R94). -/
theorem changeFocus_sameSlot {f : Focus} (same : s.fu.focus.map (·.slot) = some f.slot) :
    changeFocus (some f) s = s.setFu { s.fu with focus := some f } := by
  obtain ⟨e, focus, slot⟩ := Option.map_eq_some_iff.1 same
  unfold changeFocus
  rw [focus]
  exact if_pos slot

/-- A POSITION request with the lock clear leaves the pointer, the lock and a clear accumulator, also where its overflow ends drag
capture (R95, R130). -/
theorem requestPosition_clear (clear : s.fu.lock = false) : (requestPosition s).fu.x = s.fu.x ∧ (requestPosition s).fu.y = s.fu.y ∧
    (requestPosition s).fu.lock = false ∧ (s.fu.accum = 0 → (requestPosition s).fu.accum = 0) := by
  obtain ⟨r, same | ⟨v, ended, fu, free, -⟩⟩ := requestPosition_cases s
  · rw [same]
    exact ⟨rfl, rfl, clear, id⟩
  · have accum := reevaluate_accum reportsOnly_record free
    obtain ⟨-, lock, x, y⟩ := reevaluate_clear reportsOnly_record free (by rw [fu]; exact clear)
    rw [fu] at accum x y
    rw [ended]
    exact ⟨x, y, lock, accum⟩

/-- A POSITION request with no button owned, at a queue that takes it (R95). -/
theorem requestPosition_room {k : Fin 16} {pt : StreamPoint} (free : anyOwned s = false) (point : requestedPoint s = some (k, pt))
    (room : (queued s.iu.queues[k] (.position pt 0)).length ≤ 24) :
    requestPosition s = enqueue k (.position pt 0) (s.setFu { s.fu with reported := some pt }) := by
  unfold requestPosition positionRequest
  rw [point, ← ownedBy_unowned k free]
  exact append_enqueue k _ (by rw [ownedBy_unowned k free]; exact room)

end

/-! ## Free motion (R96) -/

/-- A motion with the lock clear leaves the compositor, the claim unit, the panel unit and the keys and buttons physically down alone. -/
theorem freeMotion_delivers (dx dy : Int) {s : State} (clear : s.fu.lock = false) : Delivers s (freeMotion dx dy s) := by
  have delivers := fuMotion_delivers dx dy (.refl s)
  rwa [fuMotion, if_neg (by simp [clear])] at delivers

section
variable {s : State} {dx dy : Int} {p : Int × Int} (moves : MovesTo s dx dy p) (pass : heldBack s p = false)
include moves pass

theorem freeMotion_passes : freeMotion dx dy s = requestPosition (followPointer false (pointerAt p s)) := by
  unfold freeMotion
  dsimp only
  rw [trialPoint_of moves, guardedMove_passes pass, pass]

/-- The pointer of a motion that passes stands at its point, and the accumulator is clear. -/
theorem freeMotion_pointer (clear : s.fu.lock = false) : (freeMotion dx dy s).fu.x = p.1.toNat ∧ (freeMotion dx dy s).fu.y = p.2.toNat ∧
    (freeMotion dx dy s).fu.lock = false ∧ (freeMotion dx dy s).fu.accum = 0 := by
  obtain ⟨x, y, lock, accum⟩ := followPointer_fu false (pointerAt p s)
  obtain ⟨x', y', lock', accum'⟩ := requestPosition_clear (lock.trans clear)
  rw [freeMotion_passes moves pass]
  exact ⟨x'.trans x, y'.trans y, lock', accum' (accum rfl)⟩

/-- With no button owned it is a focus change to what the hit test finds at the point, and a POSITION request (R99). -/
theorem freeMotion_follows (free : anyOwned s = false) :
    freeMotion dx dy s = requestPosition (changeFocus (targetAtPointer (pointerAt p s)) (pointerAt p s)) := by
  rw [freeMotion_passes moves pass, followPointer_free (s := pointerAt p s) free]

/-- The focus unit after it. -/
theorem freeMotion_fu (free : anyOwned s = false) : ∃ r, (freeMotion dx dy s).fu =
    { (changeFocus (targetAtPointer (pointerAt p s)) (pointerAt p s)).fu with reported := r } := by
  rw [freeMotion_follows moves pass free]
  exact ⟨_, requestPosition_fu (.inl (changeFocus_unowned _ (s := pointerAt p s) free))⟩

theorem freeMotion_focus (free : anyOwned s = false) : (freeMotion dx dy s).fu.focus = targetAtPointer (pointerAt p s) := by
  obtain ⟨r, fu⟩ := freeMotion_fu moves pass free
  rw [fu]
  exact (changeFocus_fu _ _).1

/-- Under drag capture it stays, where no queue overflows (R100). -/
theorem freeMotion_drag (owned : anyOwned s = true) (room : ∀ i : Fin 16, s.iu.queues[i].length < 24) :
    (freeMotion dx dy s).fu.focus = s.fu.focus := by
  rw [freeMotion_passes moves pass, followPointer_drag _ (show anyOwned (pointerAt p s) = true from owned),
    requestPosition_fu (s := pointerAt p s) (.inr room)]
  rfl

end

/-! ## The obligation -/

/-- Settles O49: a motion that is no blocked crossing passes, and the focus follows or stays. -/
theorem motionMovesPointerAndFocus : Obligations.MotionMovesPointerAndFocus := by
  rintro dx dy p _ s awake valid clear noCrossing moves rfl
  have pass : heldBack (reported s) p = false := heldBack_of_not fun ⟨guardOn, free, crosses⟩ => noCrossing ⟨guardOn, free, crosses⟩
  replace moves : MovesTo (reported s) dx.toInt dy.toInt p := moves
  rw [motion_free awake valid clear]
  refine ⟨?_, fun f k pt free target same point room => ?_⟩
  · obtain ⟨x, y, lock, accum⟩ := freeMotion_pointer moves pass clear
    obtain ⟨cp, cu, pu, hands⟩ := freeMotion_delivers dx.toInt dy.toInt (s := reported s) clear
    refine ⟨_, rfl, x, y, lock, accum, cp, cu, pu, hands.mods, hands.buttons,
      fun free => freeMotion_focus moves pass (anyOwned_false.2 free), fun ⟨j, owned⟩ room => ?_⟩
    exact freeMotion_drag moves pass (eq_true_of_ne_false fun free => owned (anyOwned_false.1 free j)) room
  · have unowned : anyOwned (reported s) = false := anyOwned_false.2 free
    rw [freeMotion_follows moves pass unowned, target, changeFocus_sameSlot (s := pointerAt p (reported s)) same]
    exact congrArg _ (requestPosition_room unowned point room)

end Sys2Proof.Machine
end

section
/-! The lock and the crossing guard (O50): crossings held back and crossings released, motion under the lock, and FOCUS_LOCK. -/

namespace Sys2Proof.Machine

open Sys2Proof

/-! ## A crossing held back (R98) -/

section
variable {s : State} {p : Int × Int} {f g : Focus} {h : Fin 4} {w : Window} {dx dy : Int}

/-- The point to which a crossing held back is limited: within the window it comes from (R98). -/
def heldPoint (s : State) (p : Int × Int) (h : Fin 4) (w : Window) : Nat × Nat := limitTo s.cp.heads[h] w p.1 p.2

/-- Whether that point is of the focus slot. -/
def heldAtSlot (s : State) (p : Int × Int) (f : Focus) (h : Fin 4) (w : Window) : Prop :=
  (hitTest s (heldPoint s p h w).1 (heldPoint s p h w).2).bind (fun hw => windowSlot s hw.2) = some f.slot

/-- A crossing that is held back (R98): the sum of the sizes is kept, and the pointer moves within the window it lies on, or stays where
the point so limited is not of the focus slot. -/
theorem Crossing.guardedMove_held (c : Crossing s p f h w g) (short : s.fu.accum + keptSize s p < s.desk.guard) :
    ∃ x y, guardedMove s p = s.setFu { s.fu with x := x, y := y, accum := s.fu.accum + keptSize s p } ∧
      (heldAtSlot s p f h w → (x, y) = heldPoint s p h w) ∧ (¬ heldAtSlot s p f h w → x = s.fu.x ∧ y = s.fu.y) := by
  unfold guardedMove heldAtSlot heldPoint
  rw [c.blocked]
  dsimp only
  rw [if_neg (by omega), c.focus]
  cases hitTest s (limitTo s.cp.heads[h] w p.1 p.2).1 (limitTo s.cp.heads[h] w p.1 p.2).2 with
  | none => exact ⟨_, _, rfl, nofun, fun _ => ⟨rfl, rfl⟩⟩
  | some hw =>
    by_cases own : windowSlot s hw.2 = some f.slot
    · exact ⟨_, _, if_pos own, fun _ => rfl, fun other => absurd own other⟩
    · exact ⟨_, _, if_neg own, fun e => absurd e own, fun _ => ⟨rfl, rfl⟩⟩

/-- A crossing held back follows the hit test to a window of the focus slot alone, so that the focus slot, the sum kept, pointer and
lock stay (R98, notes/assumptions/44.md). -/
theorem followPointer_held (free : anyOwned s = false) (focus : s.fu.focus = some f) :
    anyOwned (followPointer true s) = false ∧ (followPointer true s).fu.focus.map (·.slot) = some f.slot ∧
    (followPointer true s).fu.x = s.fu.x ∧ (followPointer true s).fu.y = s.fu.y ∧ (followPointer true s).fu.lock = s.fu.lock ∧
    (followPointer true s).fu.accum = s.fu.accum := by
  unfold followPointer
  dsimp only
  split
  · exact ⟨free, by rw [focus]; rfl, rfl, rfl, rfl, rfl⟩
  · rename_i follows
    have same : (targetAtPointer s).map (·.slot) = some f.slot := by
      simp only [not_or, not_and, not_not, focus] at follows
      exact follows.2 trivial
    obtain ⟨x, y, lock, -⟩ := (changeFocus_fu (targetAtPointer s) s).2
    refine ⟨changeFocus_unowned _ free, by rw [(changeFocus_fu _ s).1]; exact same, x, y, lock, ?_⟩
    obtain ⟨g, target, slot⟩ := Option.map_eq_some_iff.1 same
    rw [target, changeFocus_some]
    exact if_pos (by rw [focus, slot]; rfl)

/-- A motion below the guard distance: the focus slot and the lock stay, and the sum of the sizes is kept. -/
theorem Crossing.motion_held (c : Crossing s p f h w g) (moves : MovesTo s dx dy p) (short : s.fu.accum + keptSize s p < s.desk.guard) :
    (freeMotion dx dy s).fu.focus.map (·.slot) = some f.slot ∧ (freeMotion dx dy s).fu.accum = s.fu.accum + keptSize s p ∧
    (freeMotion dx dy s).fu.lock = s.fu.lock ∧
    (heldAtSlot s p f h w → ((freeMotion dx dy s).fu.x, (freeMotion dx dy s).fu.y) = heldPoint s p h w) ∧
    (¬ heldAtSlot s p f h w → (freeMotion dx dy s).fu.x = s.fu.x ∧ (freeMotion dx dy s).fu.y = s.fu.y) := by
  obtain ⟨x, y, back, inside, outside⟩ := c.guardedMove_held short
  obtain ⟨free, slot, x', y', lock, accum⟩ := followPointer_held
    (s := s.setFu { s.fu with x := x, y := y, accum := s.fu.accum + keptSize s p }) (f := f) c.free c.focus
  have held : heldBack s p = true := by
    rw [c.heldBack_eq]
    exact decide_eq_true short
  unfold freeMotion
  dsimp only
  rw [trialPoint_of moves, held, back, requestPosition_fu (.inl free)]
  dsimp only
  rw [x', y']
  exact ⟨slot, accum, lock, inside, outside⟩

/-! ## A crossing released (R94, R98, R125) -/

/-- The target at a point that the hit test finds a window at is the target of a pointer that stands there. -/
theorem targetAtPointer_pointerAt (target : asTarget s (hitTest s p.1 p.2) = some g) : targetAtPointer (pointerAt p s) = some g := by
  obtain ⟨x, y⟩ : 0 ≤ p.1 ∧ 0 ≤ p.2 := by
    cases hit : hitTest s p.1 p.2 with
    | none =>
      rw [hit] at target
      cases target
    | some hw => exact hitTest_nonneg hit
  show asTarget s (hitTest s (p.1.toNat : Int) (p.2.toNat : Int)) = some g
  rwa [Int.toNat_of_nonneg x, Int.toNat_of_nonneg y]

/-- A motion whose sum reaches the guard distance: the pointer goes to the point and the focus to the target there, and the slot that
loses focus owns nothing. -/
theorem Crossing.motion_crosses (c : Crossing s p f h w g) (clear : s.fu.lock = false) (moves : MovesTo s dx dy p)
    (sum : s.desk.guard ≤ s.fu.accum + keptSize s p) :
    (freeMotion dx dy s).fu.x = p.1.toNat ∧ (freeMotion dx dy s).fu.y = p.2.toNat ∧ (freeMotion dx dy s).fu.accum = 0 ∧
    (freeMotion dx dy s).fu.focus = some g ∧ (freeMotion dx dy s).fu.last = some g.slot ∧
    (∀ k ∈ (freeMotion dx dy s).iu.keys, k.2 ≠ f.slot) ∧
    (s.iu.held.isSome = true → (synthesised f.slot s).length ≤ 24 → (freeMotion dx dy s).iu.queues[f.slot] = synthesised f.slot s) := by
  have pass : heldBack s p = false := by
    rw [c.heldBack_eq]
    exact decide_eq_false (by omega)
  have target := targetAtPointer_pointerAt c.target
  obtain ⟨x, y, -, accum⟩ := freeMotion_pointer moves pass clear
  obtain ⟨r, fu⟩ := freeMotion_fu moves pass c.free
  have follows := freeMotion_follows moves pass c.free
  rw [target] at fu follows
  have other : s.fu.focus.map (·.slot) ≠ some g.slot := by
    rw [c.focus]
    exact fun e => c.other (Option.some.inj e).symm
  have left := changeFocus_leaves (some g) (s := pointerAt p s) c.focus fun e => c.other (Option.some.inj e)
  have unowned := changeFocus_unowned (some g) (s := pointerAt p s) c.free
  refine ⟨x, y, accum, ?_, ?_, fun k key => ?_, fun kept room => ?_⟩
  · rw [fu, changeFocus_some]
  · rw [fu, changeFocus_some]
    exact if_neg other
  · rw [follows] at key
    have key := (requestPosition_hands unowned).keys k key
    rw [left] at key
    exact (synthesis_clears f.slot _).2.2.1 k key
  · have synth := left.trans (synthesis_room f.slot (t := pointerAt p s) kept room)
    rw [follows, requestPosition_other unowned (by rw [synth]; exact kept) ?_, synth]
    · show (s.iu.queues.set f.slot (synthesised f.slot s))[f.slot] = _
      rw [Fin.getElem_fin, Vector.getElem_set_self]
    · rw [changeFocus_some]
      exact fun e => c.other (Option.some.inj e)

end

/-! ## Motion under the lock (R97) -/

/-- Lock and focus stay, and the pointer moves within the focus window, where no button is owned or the window holds. -/
theorem lockedMotion_confines {s : State} {f : Focus} {w : Window} {dx dy : Int} (locked : s.fu.lock = true) (focus : s.fu.focus = some f)
    (window : windowOf s f = some w) (stays : anyOwned s = false ∨ focusHolds s f = true) : (lockedMotion dx dy s).fu.lock = true ∧
    ((lockedMotion dx dy s).fu.x, (lockedMotion dx dy s).fu.y) = limitTo s.cp.heads[f.head] w (s.fu.x + dx) (s.fu.y + dy) ∧
    (lockedMotion dx dy s).fu.focus = some f ∧ (lockedMotion dx dy s).fu.accum = 0 := by
  rcases stays with free | holds
  · obtain ⟨lock, focus, point, accum⟩ := lockedMotion_spec dx dy free focus window
    exact ⟨lock.trans locked, point, focus, accum⟩
  · obtain ⟨lock, focus, point, accum⟩ := lockedMotion_holds dx dy locked focus window holds
    exact ⟨lock, point, focus, accum⟩

/-! ## FOCUS_LOCK (R108) -/

section
variable {v : State}

/-- FOCUS_LOCK clears a lock that is set, and re-evaluation follows. -/
theorem focusLock_clears (locked : v.fu.lock = true) : focusLockAction v = fuReevaluate (v.setFu { v.fu with lock := false }) :=
  if_pos locked

/-- Without a focus slot a lock that is clear stays clear. -/
theorem focusLock_noFocus (clear : v.fu.lock = false) (noFocus : v.fu.focus = none) : focusLockAction v = v := by
  unfold focusLockAction
  rw [if_neg (by simp [clear]), if_neg (by simp [noFocus])]

end

/-! ## The obligation -/

/-- Settles O50: motion under the lock, a crossing released or held back, and FOCUS_LOCK by lock and focus. -/
theorem lockAndGuardHoldThePointer : Obligations.LockAndGuardHoldThePointer := by
  refine ⟨fun dx dy f s awake valid focus => ⟨fun w locked window stays => ?_, ?_⟩, fun k v t action ran => ?_⟩
  · rw [motion_locked awake valid locked]
    exact ⟨_, rfl, lockedMotion_confines (s := reported s) locked focus window (stays.imp_left anyOwned_false.2)⟩
  · rintro p h w g _ clear free guardOn moves under slot target other rfl
    have c : Crossing (reported s) p f h w g := ⟨guardOn, anyOwned_false.2 free, focus, under, slot, target, other⟩
    rw [motion_free awake valid clear]
    refine ⟨_, rfl, c.motion_crosses clear moves, fun short => ?_⟩
    obtain ⟨focus, accum, lock, inside, outside⟩ := c.motion_held moves short
    exact ⟨focus, accum, lock.trans clear, inside, outside⟩
  · simp only [runAction, action] at ran
    subst ran
    refine ⟨fun locked free => ?_, fun f locked focus holds ⟨j, owned⟩ room => ?_, fun f w clear focus window calm => ?_,
      focusLock_noFocus⟩
    · obtain ⟨focus, lock, x, y⟩ := reevaluate_clear reportsOnly_append (s := v.setFu { v.fu with lock := false })
        (anyOwned_false.2 free) rfl
      rw [focusLock_clears locked]
      exact ⟨lock, focus, x, y⟩
    · obtain ⟨focus, lock, x, y⟩ := fuReevaluate_drag (s := v.setFu { v.fu with lock := false })
        (eq_true_of_ne_false fun free => owned (anyOwned_false.1 free j)) rfl focus holds room
      rw [focusLock_clears locked]
      exact ⟨lock, focus, x, y⟩
    · obtain ⟨lock, focus, accum, point⟩ := focusLock_sets clear focus window (calm.imp_left anyOwned_false.2)
      exact ⟨lock, focus, point, accum⟩

end Sys2Proof.Machine
end

section
/-! Desk records (O43): which command a record's bytes name, how a record that names none, or comes in LOADING, is rejected, and how any
other is handled. -/

namespace Sys2Proof.Machine

open Sys2Proof

/-! ## Fields in range (R112) -/

theorem buttonInRange_iff {b : Byte} : buttonInRange b = true ↔ 1 ≤ b.toNat ∧ b.toNat ≤ 5 := by
  simp [buttonInRange]

theorem motionInRange_iff {d : BitVec 16} : motionInRange d = true ↔ -2048 ≤ d.toInt ∧ d.toInt ≤ 2047 := by
  simp [motionInRange]

theorem wheelInRange_iff {d : Byte} : wheelInRange d = true ↔ -127 ≤ d.toInt := by
  simp [wheelInRange]

/-! ## The command of a record (R112, R200) -/

section
variable {b0 b1 b2 b3 b4 : Byte}

theorem byDirection_other {d : Byte} (down up rejected : Instr) (other : 2 ≤ d.toNat) : byDirection d down up rejected = rejected := by
  unfold byDirection
  rw [if_neg (by rintro rfl; simp at other), if_neg (by rintro rfl; simp at other)]

theorem deskCommand_key (usage : b1 ≠ 0) : deskCommand 1 b1 b2 b3 b4 =
    byDirection b2 (.deskKeyDown b1) (.deskKeyUp b1) (.deskRecordRejected 1 b1 b2 b3 b4) := if_pos usage

theorem deskCommand_button (range : buttonInRange b1 = true) : deskCommand 2 b1 b2 b3 b4 =
    byDirection b2 (.deskButtonPress b1) (.deskButtonRelease b1) (.deskRecordRejected 2 b1 b2 b3 b4) := if_pos range

theorem deskCommand_motion : deskCommand 3 b1 b2 b3 b4 =
    if motionInRange (b1 ++ b2) ∧ motionInRange (b3 ++ b4) then .deskMotion (b1 ++ b2) (b3 ++ b4)
    else .deskRecordRejected 3 b1 b2 b3 b4 := rfl

theorem deskCommand_wheel : deskCommand 4 b1 b2 b3 b4 =
    if wheelInRange b1 ∧ wheelInRange b2 then .deskWheel b1 b2 else .deskRecordRejected 4 b1 b2 b3 b4 := rfl

/-- A kind that is none of the four names no command. -/
theorem deskCommand_noKind (kind : b0 = 0 ∨ 4 < b0.toNat) : deskCommand b0 b1 b2 b3 b4 = .deskRecordRejected b0 b1 b2 b3 b4 := by
  have apart (n : Byte) (low : 1 ≤ n.toNat) (high : n.toNat ≤ 4) : b0 ≠ n := by
    rintro rfl
    rcases kind with rfl | kind
    · simp at low
    · omega
  unfold deskCommand
  dsimp only
  rw [if_neg (apart 1 (by decide) (by decide)), if_neg (apart 2 (by decide) (by decide)),
    if_neg (apart 3 (by decide) (by decide)), if_neg (apart 4 (by decide) (by decide))]

/-- A key without a usage or a direction names no command. -/
theorem deskCommand_badKey (bad : b1 = 0 ∨ 2 ≤ b2.toNat) : deskCommand 1 b1 b2 b3 b4 = .deskRecordRejected 1 b1 b2 b3 b4 := by
  by_cases usage : b1 = 0
  · simp [deskCommand, usage]
  · rw [deskCommand_key usage, byDirection_other _ _ _ (bad.resolve_left usage)]

/-- A button out of range or without a direction names no command. -/
theorem deskCommand_badButton (bad : b1 = 0 ∨ 5 < b1.toNat ∨ 2 ≤ b2.toNat) :
    deskCommand 2 b1 b2 b3 b4 = .deskRecordRejected 2 b1 b2 b3 b4 := by
  by_cases range : buttonInRange b1 = true
  · obtain ⟨low, high⟩ := buttonInRange_iff.1 range
    have other : 2 ≤ b2.toNat := by
      rcases bad with rfl | bad | bad
      · simp at low
      · omega
      · exact bad
    rw [deskCommand_button range, byDirection_other _ _ _ other]
  · simp [deskCommand, range]

theorem deskRecordValid_false : deskRecordValid b0 b1 b2 b3 b4 = false ↔
    deskCommand b0 b1 b2 b3 b4 = .deskRecordRejected b0 b1 b2 b3 b4 := by
  simp [deskRecordValid]

end

/-! ## Rejection (R112) -/

section
variable {s : State}

/-- A record in LOADING, or with a field out of range, counts and is not handled. -/
theorem takeRecord_rejects {valid : Bool} (kind : Option WakeKind) (handle : State → State)
    (refused : s.cl.loader = .loading ∨ valid = false) : takeRecord valid kind handle s = rejectRecord s := by
  unfold takeRecord
  refine if_neg ?_
  rintro ⟨run, rfl⟩
  rcases refused with loading | h
  · simp [running, loading] at run
  · cases h

theorem deskRecord_rejects {i : Instr} (record : deskRecord i = true) (refused : s.cl.loader = .loading ∨ i.wellFormed = false) :
    exec i s = completed (rejectRecord s) := by
  cases i with
  | deskKeyDown | deskKeyUp | deskButtonPress | deskButtonRelease | deskMotion | deskWheel =>
    exact congrArg completed (takeRecord_rejects _ _ refused)
  | _ => cases record

theorem deskRecordRejected_exec (b0 b1 b2 b3 b4 : Byte) (s : State) : exec (.deskRecordRejected b0 b1 b2 b3 b4) s =
    completed (if running s ∧ deskRecordValid b0 b1 b2 b3 b4 then s else rejectRecord s) := rfl

theorem rejectRecord_next (settled : s.mu.resetDue = false) :
    completed (rejectRecord s) = .next (countIu (fun c => { c with rejected := bump c.rejected }) s) := completed_settled settled

end

/-! ## Handling (R112, R119 to R124) -/

/-- The handling of a desk record, once it has been reported (R119 to R124). -/
def handling : Instr → State → State
  | .deskKeyDown u => keyDown u
  | .deskKeyUp u => keyUp u
  | .deskButtonPress b => atButton b buttonPress
  | .deskButtonRelease b => atButton b buttonRelease
  | .deskMotion dx dy => fuMotion dx.toInt dy.toInt
  | .deskWheel v h => wheelTurn v h
  | _ => id

/-- A desk record in range is reported with the kind that it wakes by, and handled (R112). -/
theorem deskRecord_exec {i : Instr} (record : deskRecord i = true) (valid : i.wellFormed = true) (s : State) :
    exec i s = completed (takeRecord true (wakes i) (handling i) s) := by
  cases i with
  | deskKeyDown | deskKeyUp | deskButtonPress | deskButtonRelease | deskMotion | deskWheel =>
    rw [← valid]
    rfl
  | _ => cases record

theorem handling_keeps (i : Instr) {s t : State} (h : Keeps s t) : Keeps s (handling i t) := by
  cases i with
  | deskKeyDown u => exact keyDown_keeps u h
  | deskKeyUp u => exact keyUp_keeps u h
  | deskButtonPress b => exact atButton_keeps b buttonPress_keeps h
  | deskButtonRelease b => exact atButton_keeps b buttonRelease_keeps h
  | deskMotion dx dy => exact fuMotion_keeps _ _ h
  | deskWheel v x => exact wheelTurn_keeps v x h
  | _ => exact h

section
variable {i : Instr} {s : State} (record : deskRecord i = true) (valid : i.wellFormed = true)
include record valid

/-- In ACTIVE a desk record in range is handled once it has been reported. -/
theorem deskRecord_awake (awake : Awake s) : exec i s = .next (handling i (reported s)) := by
  have reports : takeRecord true (wakes i) (handling i) s = handling i (reported s) := takeRecord_awake awake (wakes i) (handling i)
  rw [deskRecord_exec record valid, reports]
  exact completed_keeps (reported_quiet awake.quiet) (handling_keeps i (.refl _))

/-- One that does not wake is handled in STANDBY too. -/
theorem deskRecord_quietly (quiet : NoReset s) (run : s.cl.loader = .running) (kind : wakes i = none) :
    exec i s = .next (handling i (heardQuietly s)) := by
  rw [deskRecord_exec record valid, kind, takeRecord_quietly run]
  exact completed_keeps (heardQuietly_quiet quiet) (handling_keeps i (.refl _))

end

/-! ## The obligation -/

/-- Settles O43: kind by kind what the bytes name, and a rejected record counted. -/
theorem rejectedDeskRecordIsCounted : Obligations.RejectedDeskRecordIsCounted := by
  refine ⟨fun b0 b1 b2 b3 b4 => ⟨?_, ?_, ?_, ?_, ?_, deskRecordValid_false⟩, fun s settled =>
    ⟨fun b0 b1 b2 b3 b4 => ⟨fun refused => ?_, fun run valid => ?_⟩, fun i record refused => ?_⟩⟩
  · rintro rfl usage
    rw [deskCommand_key usage]
    exact ⟨by rintro rfl; rfl, by rintro rfl; rfl⟩
  · rintro rfl low high
    rw [deskCommand_button (buttonInRange_iff.2 ⟨low, high⟩)]
    exact ⟨by rintro rfl; rfl, by rintro rfl; rfl⟩
  · rintro rfl dxLow dxHigh dyLow dyHigh
    rw [deskCommand_motion, if_pos ⟨motionInRange_iff.2 ⟨dxLow, dxHigh⟩, motionInRange_iff.2 ⟨dyLow, dyHigh⟩⟩]
  · rintro rfl vertical horizontal
    rw [deskCommand_wheel, if_pos ⟨wheelInRange_iff.2 vertical, wheelInRange_iff.2 horizontal⟩]
  · rintro (kind | kind | ⟨rfl, bad⟩ | ⟨rfl, bad⟩ | ⟨rfl, bad⟩ | ⟨rfl, bad⟩)
    · exact deskCommand_noKind (.inl kind)
    · exact deskCommand_noKind (.inr kind)
    · exact deskCommand_badKey bad
    · exact deskCommand_badButton bad
    · exact if_neg (by rw [motionInRange_iff, motionInRange_iff]; omega)
    · exact if_neg (by rw [wheelInRange_iff, wheelInRange_iff]; omega)
  · rw [deskRecordRejected_exec, if_neg, rejectRecord_next settled]
    rintro ⟨run, valid⟩
    rcases refused with loading | invalid
    · simp [running, loading] at run
    · simp [invalid] at valid
  · rw [deskRecordRejected_exec, if_pos ⟨by simp [running, run], valid⟩, completed_settled settled]
  · rw [deskRecord_rejects record refused, rejectRecord_next settled]

end Sys2Proof.Machine
end

section
/-! Key releases and button presses (O46, O47): who gets the record. -/

namespace Sys2Proof.Machine

open Sys2Proof

/-! ## A key up case by case (R113, R120) -/

/-- The state in which the cases of a key up are told apart: the record heard, a modifier out of the physical set. -/
def keyLifted (u : Byte) (s : State) : State :=
  (heardQuietly s).setIu { s.iu with mods := if isModifier u then s.iu.mods &&& ~~~modBit u else s.iu.mods }

section
variable {u : Byte} {s t : State}

theorem keyUp_heard (u : Byte) (s : State) : keyUp u (heardQuietly s) = keyUpCases u (keyLifted u s) := by
  obtain ⟨iu, -⟩ := heardQuietly_leaves s
  unfold keyUp keyLifted
  split
  · rw [iu]
  · rw [← iu]
    rfl

theorem keyUp_exec (quiet : NoReset s) (run : s.cl.loader = .running) (valid : u ≠ 0) :
    exec (.deskKeyUp u) s = .next (keyUpCases u (keyLifted u s)) := by
  rw [← keyUp_heard]
  exact deskRecord_quietly (i := .deskKeyUp u) rfl (decide_eq_true valid) quiet run rfl

/-- A consumed key is forgotten. -/
theorem keyUpCases_consumed (consumed : u ∈ t.iu.consumed) :
    keyUpCases u t = t.setIu { t.iu with consumed := t.iu.consumed.erase u } := if_pos consumed

/-- A key that nothing knows of counts. -/
theorem keyUpCases_unowned (notConsumed : u ∉ t.iu.consumed) (unowned : u ∉ t.iu.keys.map (·.1)) :
    keyUpCases u t = countIu (fun c => { c with unownedUps := bump c.unownedUps }) t := by
  have absent : t.iu.keys.find? (fun k => k.1 = u) = none :=
    List.find?_eq_none.2 fun k mem => by simpa using fun same : k.1 = u => unowned (same ▸ List.mem_map_of_mem mem)
  unfold keyUpCases
  rw [if_neg notConsumed, absent]

/-- The first entry of an owned key leaves the key owner map, and its owner gets the record. -/
theorem keyUpCases_owned {before after : List (Byte × Fin 16)} {owner : Fin 16} (notConsumed : u ∉ t.iu.consumed)
    (entry : t.iu.keys = before ++ (u, owner) :: after) (first : u ∉ before.map (·.1)) :
    keyUpCases u t = append owner (.key u true) (t.setIu { t.iu with keys := before ++ after }) := by
  have apart : ∀ k ∈ before, k.1 ≠ u := fun k mem same => first (same ▸ List.mem_map_of_mem mem)
  have found : t.iu.keys.find? (fun k => k.1 = u) = some (u, owner) := by
    rw [entry, List.find?_append, List.find?_eq_none.2 (by simpa using apart)]
    simp
  have rest : t.iu.keys.erase (u, owner) = before ++ after := by
    rw [entry, List.erase_append_right _ fun mem => apart _ mem rfl, List.erase_cons_head]
  unfold keyUpCases
  rw [if_neg notConsumed, found]
  dsimp only
  rw [rest]

end

/-- Settles O46: a consumed key, a key that nothing knows of, and an owned key at a queue with room or a full one. -/
theorem keyUpGoesToItsOwner : Obligations.KeyUpGoesToItsOwner := by
  intro u m s quiet run valid lifted
  replace lifted : m = keyLifted u s := lifted
  subst lifted
  rw [keyUp_exec quiet run valid]
  refine ⟨fun consumed => congrArg _ (keyUpCases_consumed (t := keyLifted u s) consumed), fun notConsumed =>
    ⟨fun unowned => congrArg _ (keyUpCases_unowned (t := keyLifted u s) notConsumed unowned),
      fun before owner after entry first room => ?_, fun before owner after entry first full => ?_⟩⟩ <;>
    rw [keyUpCases_owned (t := keyLifted u s) notConsumed entry first]
  · exact congrArg _ (append_enqueue _ _ (queued_room _ _ (by exact room)))
  · exact ⟨_, rfl, append_key_full _ _ _ full⟩

/-! ## The buttons that a slot owns -/

/-- Buttons gathered one by one: one stands in the set where it stood there before, or was gathered. -/
theorem gathered_getLsbD (P : Fin 5 → Prop) [DecidablePred P] (j : Fin 5) (l : List (Fin 5)) (b : BitVec 5) :
    (l.foldl (fun b k => if P k then b ||| (1#5 <<< k.val) else b) b).getLsbD j.val =
      (b.getLsbD j.val || decide (j ∈ l ∧ P j)) := by
  have bit (k : Fin 5) : (1#5 <<< k.val).getLsbD j.val = decide (j = k) := by
    revert j k
    decide
  induction l generalizing b with
  | nil => simp
  | cons k l ih =>
    have step : (if P k then b ||| (1#5 <<< k.val) else b).getLsbD j.val = (b.getLsbD j.val || decide (j = k ∧ P k)) := by
      split <;> rename_i owned
      · rw [BitVec.getLsbD_or, bit]
        simp only [owned, and_true]
      · simp only [owned, and_false, decide_false, Bool.or_false]
    rw [List.foldl_cons, ih, step, Bool.or_assoc, ← Bool.decide_or]
    congr 2
    rw [List.mem_cons, or_and_right]
    exact propext (or_congr_left (and_congr_right fun same => by rw [same]))

theorem ownedBy_getLsbD (i : Fin 16) (o : State) (j : Fin 5) :
    (ownedBy i o).getLsbD j.val = decide (o.iu.owners[j] = some i) := by
  unfold ownedBy
  rw [gathered_getLsbD (fun k => o.iu.owners[k] = some i)]
  simp

/-! ## A button press case by case (R113, R121) -/

/-- The state once a button press has been reported, with the button physically down. -/
def buttonDown (k : Fin 5) (s : State) : State := (reported s).setIu { s.iu with buttons := s.iu.buttons ||| (1#5 <<< k.val) }

/-- The same, the button owned by a slot. -/
def pressedBy (i : Fin 16) (k : Fin 5) (s : State) : State :=
  (buttonDown k s).setIu { (buttonDown k s).iu with owners := s.iu.owners.set k (some i) }

section
variable {k : Fin 5} {s : State}

theorem buttonPress_exec {b : Byte} (awake : Awake s) (place : b.toNat = k.val + 1) :
    exec (.deskButtonPress b) s = .next (buttonPress k (reported s)) := by
  obtain ⟨index, range⟩ := buttonIndex_of place
  have handled : handling (.deskButtonPress b) (reported s) = buttonPress k (reported s) := by
    show atButton b buttonPress (reported s) = _
    rw [atButton, index]
  rw [deskRecord_awake (i := .deskButtonPress b) rfl range awake, handled]

/-- The set of one button meets a set exactly where the button is in it. -/
theorem button_down_iff (k : Fin 5) (b : BitVec 5) : b &&& (1#5 <<< k.val) ≠ 0 ↔ b.getLsbD k.val = true := by
  revert k b
  decide

theorem buttonPress_repeated (down : s.iu.buttons.getLsbD k.val = true) : buttonPress k (reported s) = duplicatePress (reported s) :=
  if_pos ((button_down_iff k _).2 down)

/-- A button that was up counts without a focus slot, and is otherwise owned by it. -/
theorem buttonPress_fresh (up : s.iu.buttons.getLsbD k.val = false) :
    (s.fu.focus = none → buttonPress k (reported s) =
      countIu (fun c => { c with buttonsNoFocus := bump c.buttonsNoFocus }) (buttonDown k s)) ∧
    (∀ f, s.fu.focus = some f → buttonPress k (reported s) = appendReported f.slot (pressedBy f.slot k s)) := by
  have fresh : ¬ (reported s).iu.buttons &&& (1#5 <<< k.val) ≠ 0 := fun x =>
    Bool.false_ne_true (up.symm.trans ((button_down_iff k _).1 x))
  have fu : ((reported s).setIu { (reported s).iu with buttons := (reported s).iu.buttons ||| (1#5 <<< k.val) }).fu = s.fu := rfl
  refine ⟨fun noFocus => ?_, fun f focus => ?_⟩ <;> unfold buttonPress <;> dsimp only <;> rw [if_neg fresh, fu]
  · rw [noFocus]
    rfl
  · rw [focus]
    rfl

end

/-- Settles O47: a repeated press, a press without a focus slot, and one that the focus slot owns. -/
theorem buttonPressIsOwnedByTheFocusSlot : Obligations.ButtonPressIsOwnedByTheFocusSlot := by
  intro b k p s awake place down
  replace down : p = buttonDown k s := down
  subst down
  rw [buttonPress_exec awake place]
  refine ⟨fun repeated => congrArg _ (buttonPress_repeated repeated), fun fresh => ?_⟩
  obtain ⟨without, withFocus⟩ := buttonPress_fresh fresh
  refine ⟨fun noFocus => congrArg _ (without noFocus), fun f o focus owned => ?_⟩
  replace owned : o = pressedBy f.slot k s := owned
  subst owned
  rw [withFocus f focus]
  exact ⟨fun silent => congrArg _ (appendReported_none f.slot (o := pressedBy f.slot k s) silent),
    fun pt point room => congrArg _ (appendReported_room f.slot (o := pressedBy f.slot k s) point room),
    fun pt point full long => ⟨_, rfl, appendReported_full f.slot (o := pressedBy f.slot k s) point full long⟩,
    fun i j => ownedBy_getLsbD i (pressedBy f.slot k s) j⟩

end Sys2Proof.Machine
end

section
/-! The overflow of an outbound queue (O51): what it leaves of the slot's queue, keys and buttons, also where it ends drag capture. -/

namespace Sys2Proof.Machine

open Sys2Proof

/-! ## The overflow (R130) -/

/-- Owners of which none names a slot stay as they are where the slot's are dropped. -/
theorem dropOwners_absent {i : Fin 16} {o : Vector (Option (Fin 16)) 5} (absent : ∀ j : Fin 5, o[j] ≠ some i) : dropOwners i o = o := by
  unfold dropOwners mapTable
  ext1 j inside
  rw [Vector.getElem_ofFn]
  exact if_neg (absent ⟨j, inside⟩)

section
variable (i : Fin 16) (n : Nat) (t : State)

theorem overflow_iu : (overflow i n t).iu = { t.iu with
    queues := t.iu.queues.set i [.resync], keys := t.iu.keys.filter fun k => k.2 ≠ i, owners := dropOwners i t.iu.owners,
    c := { t.iu.c with overflows := bump t.iu.c.overflows, overflowDiscards := bumpBy n t.iu.c.overflowDiscards } } :=
  (raise_posts _ _).iu

theorem overflow_fu : (overflow i n t).fu = t.fu := (raise_posts _ _).fu

/-- Builds after an overflow bring back neither a key nor a button of the slot. -/
theorem pumpBuilder_overflow_disowns : (∀ k ∈ (pumpBuilder pumpBound (overflow i n t)).iu.keys, k.2 ≠ i) ∧
    ∀ j : Fin 5, (pumpBuilder pumpBound (overflow i n t)).iu.owners[j] ≠ some i := by
  have builds := pumpBuilder_builds pumpBound (overflow i n t)
  rw [builds.keys, builds.owners, overflow_iu]
  exact ⟨fun k mem => of_decide_eq_true (List.mem_filter.1 mem).2, dropOwners_ne i t.iu.owners⟩

end

/-! ## An append in two steps (R127, R130) -/

/-- The end of drag capture that an append may bring about touches keys and buttons as a delivery does. -/
theorem append_hands (i : Fin 16) (r : InputRecord) (t : State) : Hands (appendRecord i r t).iu (append i r t).iu := by
  unfold append
  dsimp only
  split
  · exact (dragEnd_delivers _).hands
  · exact .refl _

/-- An append sets one queue, to the queue with the record or to a RESYNC alone, and then the builder builds. -/
theorem appendRecord_queue (i : Fin 16) (r : InputRecord) (t : State) : ∃ (u : State) (q : List InputRecord),
    appendRecord i r t = pumpBuilder pumpBound u ∧ u.iu.held = t.iu.held ∧ u.iu.queues = t.iu.queues.set i q ∧
    (q = queued t.iu.queues[i] r ∨ q = [.resync]) := by
  unfold appendRecord
  dsimp only
  cases tail : coalesce t.iu.queues[i] r with
  | some q => exact ⟨_, q, rfl, rfl, rfl, .inl (by rw [queued_coalesce, tail]; rfl)⟩
  | none =>
    dsimp only
    split
    · exact ⟨_, _, rfl, rfl, rfl, .inl (by rw [queued_coalesce, tail]; rfl)⟩
    · exact ⟨_, [.resync], rfl, by rw [overflow_iu], by rw [overflow_iu], .inr rfl⟩

/-! ## The RESYNC at the head (R130) -/

/-- A record appended behind a RESYNC leaves it at the head: only a POSITION is ever replaced. -/
theorem queued_resync {q : List InputRecord} (r : InputRecord) (first : q.head? = some .resync) :
    (queued q r).head? = some .resync := by
  obtain ⟨rest, rfl⟩ := List.head?_eq_some_iff.1 first
  have behind : ((.resync :: rest) ++ [r]).head? = some InputRecord.resync := rfl
  unfold queued
  split
  · rename_i p b p' b' tail
    cases rest with
    | nil => cases tail
    | cons x xs => split <;> rfl
  · exact behind

/-- The builder keeps a frame, and a slot's queue begins with a RESYNC. -/
structure ResyncFirst (i : Fin 16) (t : State) : Prop where
  kept : t.iu.held.isSome = true
  first : t.iu.queues[i].head? = some .resync

section
variable {i : Fin 16} {t : State}

theorem ResyncFirst.congr {u : State} (h : ResyncFirst i t) (held : u.iu.held = t.iu.held) (queues : u.iu.queues = t.iu.queues) :
    ResyncFirst i u := ⟨by rw [held]; exact h.kept, by rw [queues]; exact h.first⟩

/-- No append takes the RESYNC away while the builder keeps a frame. -/
theorem ResyncFirst.appendRecord (h : ResyncFirst i t) (k : Fin 16) (r : InputRecord) :
    ResyncFirst i (Machine.appendRecord k r t) := by
  obtain ⟨kept, first⟩ := h
  obtain ⟨u, q, append, held, queues, form⟩ := appendRecord_queue k r t
  have keptU : u.iu.held.isSome = true := by rw [held]; exact kept
  refine ⟨by rw [append, pumpBuilder_kept _ keptU]; exact keptU, ?_⟩
  by_cases same : k = i
  · subst same
    rw [append, pumpBuilder_kept _ keptU, queues]
    simp only [Fin.getElem_fin, Vector.getElem_set_self]
    rcases form with rfl | rfl
    · exact queued_resync r first
    · rfl
  · rw [appendRecord_other kept same]
    exact first

theorem ResyncFirst.synthKeys (n : Nat) (a : Fin 16) (h : ResyncFirst i t) : ResyncFirst i (Machine.synthKeys n a t) := by
  induction n generalizing t with
  | zero => exact h
  | succ n ih =>
    unfold Machine.synthKeys
    split
    · exact h
    · refine ih (ResyncFirst.appendRecord ?_ a _)
      exact h.congr rfl rfl

theorem ResyncFirst.synthesis (a : Fin 16) (h : ResyncFirst i t) : ResyncFirst i (Machine.synthesis a t) := by
  have released := h.synthKeys t.iu.keys.length a
  unfold Machine.synthesis
  dsimp only
  split
  · exact released
  · split
    · exact (released.appendRecord a _).congr rfl rfl
    · exact released.congr rfl rfl

theorem ResyncFirst.changeFocus (target : Option Focus) (h : ResyncFirst i t) : ResyncFirst i (Machine.changeFocus target t) := by
  unfold Machine.changeFocus
  split
  · exact h
  · exact h.congr rfl rfl
  · split
    · exact h.congr rfl rfl
    · exact (h.synthesis _).congr rfl rfl
  · exact (h.synthesis _).congr rfl rfl

theorem ResyncFirst.positionRequest (h : ResyncFirst i t) : ResyncFirst i (Machine.positionRequest Machine.appendRecord t) := by
  unfold Machine.positionRequest
  split
  · exact h
  · refine ResyncFirst.appendRecord ?_ _ _
    exact h.congr rfl rfl

theorem ResyncFirst.confine (x y : Int) (h : ResyncFirst i t) : ResyncFirst i (Machine.confine x y t) := by
  unfold Machine.confine
  split
  · exact h
  · split
    · exact h
    · exact h.congr rfl rfl

theorem ResyncFirst.forceFocus (h : ResyncFirst i t) : ResyncFirst i (Machine.forceFocus Machine.appendRecord t) := by
  unfold Machine.forceFocus
  refine (ResyncFirst.changeFocus _ ?_).positionRequest
  exact h.congr rfl rfl

/-- The end of drag capture leaves the RESYNC at the head, whatever it appends. -/
theorem ResyncFirst.dragEnd (h : ResyncFirst i t) : ResyncFirst i (Machine.dragEnd t) := by
  unfold Machine.dragEnd reevaluate
  split
  · split
    · exact (h.confine _ _).positionRequest
    · split
      · exact h.positionRequest
      · exact (h.changeFocus _).positionRequest
  · exact h.forceFocus

/-- Nor does an append that ends drag capture. -/
theorem ResyncFirst.append {k : Fin 16} {r : InputRecord} (h : ResyncFirst i (Machine.appendRecord k r t)) :
    ResyncFirst i (Machine.append k r t) := by
  unfold Machine.append
  dsimp only
  split
  · exact h.dragEnd
  · exact h

end

/-! ## An append to a full queue (R127, R130) -/

section
variable {i : Fin 16} {r : InputRecord} {t : State} (full : t.iu.queues[i].length = 24) (long : 24 < (queued t.iu.queues[i] r).length)
include full long

theorem append_full_disowns : (∀ k ∈ (append i r t).iu.keys, k.2 ≠ i) ∧ ∀ j : Fin 5, (append i r t).iu.owners[j] ≠ some i := by
  have hands := append_hands i r t
  obtain ⟨keys, owners⟩ := pumpBuilder_overflow_disowns i 25 t
  rw [appendRecord_overflow i r long full.le] at hands
  exact ⟨fun k mem => keys k (hands.keys k mem), fun j own => owners j (hands.owners j i own)⟩

/-- While the builder keeps a frame, the overflow is all that the append comes to before drag capture ends. -/
theorem appendRecord_full_kept (kept : t.iu.held.isSome = true) : appendRecord i r t = overflow i 25 t := by
  rw [appendRecord_overflow i r long full.le, pumpBuilder_kept _ (by rw [overflow_iu]; exact kept)]

theorem append_full_resync (kept : t.iu.held.isSome = true) : (append i r t).iu.queues[i].head? = some .resync := by
  refine (ResyncFirst.append (i := i) (t := t) ?_).first
  rw [appendRecord_full_kept full long kept]
  constructor <;> rw [overflow_iu]
  · exact kept
  · simp

end

/-! ## The wheel (R124) -/

theorem queued_wheel (q : List InputRecord) (v h : Byte) : queued q (.wheel v h) = q ++ [.wheel v h] := by
  unfold queued
  split
  · contradiction
  · rfl

theorem wheel_exec {v h : Byte} {s : State} (awake : Awake s) (valid : (Instr.deskWheel v h).wellFormed = true) :
    exec (.deskWheel v h) s = .next (wheelTurn v h (reported s)) := deskRecord_awake rfl valid awake

theorem wheelTurn_noFocus {v h : Byte} {t : State} (noFocus : t.fu.focus = none) :
    wheelTurn v h t = countIu (fun c => { c with wheelNoFocus := bump c.wheelNoFocus }) t := by
  unfold wheelTurn
  rw [noFocus]

theorem wheelTurn_focus {v h : Byte} {t : State} {f : Focus} (focus : t.fu.focus = some f) :
    wheelTurn v h t = append f.slot (.wheel v h) t := by
  unfold wheelTurn
  rw [focus]

/-- Settles O51: a wheel turn without a focus slot, at a queue with room, and at a full one. -/
theorem wheelIsAppendedOrOverflows : Obligations.WheelIsAppendedOrOverflows := by
  intro v h s awake valid
  rw [wheel_exec awake valid]
  refine ⟨fun noFocus => congrArg _ (wheelTurn_noFocus (t := reported s) noFocus), fun f focus room => ?_, fun f focus full => ?_⟩ <;>
    rw [wheelTurn_focus (t := reported s) focus]
  · exact congrArg _ (append_enqueue _ _ (queued_room _ _ (by exact room)))
  · replace full : (reported s).iu.queues[f.slot].length = 24 := full
    have long : 24 < (queued (reported s).iu.queues[f.slot] (.wheel v h)).length := by
      rw [queued_wheel, List.length_append, full]
      exact Nat.lt_succ_self 24
    have delivers := append_delivers f.slot (.wheel v h) (.refl (reported s))
    obtain ⟨keys, owners⟩ := append_full_disowns full long
    refine ⟨_, rfl, append_overflow_event _ _ long full.le, keys, owners, delivers.cu, delivers.cp,
      fun kept => append_full_resync full long kept, fun kept free => ?_⟩
    have unowned : anyOwned (reported s) = false := anyOwned_false.2 free
    have absent : dropOwners f.slot (reported s).iu.owners = s.iu.owners :=
      dropOwners_absent fun j owned => Option.some_ne_none _ (owned.symm.trans (free j))
    rw [append_unowned _ _ unowned, appendRecord_full_kept full long kept, overflow_iu, overflow_fu, absent]
    exact ⟨rfl, rfl⟩

end Sys2Proof.Machine
end

section
/-! The INPUT frame builder (O52): which slot it serves next, what one build comes to, and why its bound is enough. -/

namespace Sys2Proof.Machine

open Sys2Proof

/-! ## The order of the slots (R132) -/

/-- How far a slot stands in the builder's search: 0 for the slot after the round-robin pointer, 15 for the pointer's own. -/
def servePlace (rr i : Fin 16) : Fin 16 := i - rr - 1

theorem serveOrder_place (rr p : Fin 16) : servePlace rr (rr + 1 + p) = p := by
  revert rr p
  decide

theorem serveOrder_slot (rr i : Fin 16) : rr + 1 + servePlace rr i = i := by
  revert rr i
  decide

section
variable {s : State}

theorem nextServed_none (empty : ∀ (i : Fin 16) (k : Slot), s.cu.slots[i] = some k → s.iu.queues[i] = []) : nextServed s = none := by
  refine List.find?_eq_none.2 fun i _ served => ?_
  obtain ⟨loaded, records⟩ := Bool.and_eq_true_iff.1 served
  obtain ⟨k, slot⟩ := Option.isSome_iff_exists.1 loaded
  simp [empty i k slot] at records

/-- The builder serves the first loaded slot with records, from the slot after the last it served. -/
theorem nextServed_some {i : Fin 16} {k : Slot} (slot : s.cu.slots[i] = some k) (records : s.iu.queues[i] ≠ [])
    (first : ∀ j : Fin 16, (servePlace s.iu.rr j).val < (servePlace s.iu.rr i).val → s.cu.slots[j] = none ∨ s.iu.queues[j] = []) :
    nextServed s = some i := by
  obtain ⟨split, earlier⟩ := finRange_split (servePlace s.iu.rr i)
  have order : serveOrder s.iu.rr = _ := congrArg (List.map fun p => s.iu.rr + 1 + p) split
  rw [List.map_append, List.map_cons, serveOrder_slot] at order
  unfold nextServed
  rw [order, List.find?_append, List.find?_eq_none.2, Option.none_or, List.find?_cons_of_pos]
  · simpa [slot] using records
  · intro j mem
    obtain ⟨p, before, rfl⟩ := List.mem_map.1 mem
    have passed := first (s.iu.rr + 1 + p) (by rw [serveOrder_place]; exact earlier p before)
    rcases passed with noSlot | noRecords
    · simp [noSlot]
    · simp [noRecords]

end

/-! ## One build (R132, R133) -/

section
variable {s : State} {i : Fin 16} (n : Nat) (free : s.iu.held = none) (next : nextServed s = some i)
include free next

/-- A build offers the frame: where it is accepted the builder goes on, and where it is refused the frame is kept. -/
theorem pumpBuilder_succ {t : State} :
    (offerInsertion ⟨inputFrame i s, false⟩ (builtFrom i s) = (true, t) → pumpBuilder (n + 1) s = pumpBuilder n t) ∧
    (offerInsertion ⟨inputFrame i s, false⟩ (builtFrom i s) = (false, t) →
      pumpBuilder (n + 1) s = t.setIu { t.iu with held := some (inputFrame i s) }) := by
  constructor <;> intro offer <;> rw [pumpBuilder, if_neg (by simp [free]), next] <;> dsimp only <;> rw [offer]

/-- A frame that finds room is appended, and the builder goes on. -/
theorem pumpBuilder_accepted (quiet : NoReset s) (room : s.rf.insQ.length < 12) : pumpBuilder (n + 1) s =
    pumpBuilder n ((builtFrom i s).setRf (takeIn s ⟨inputFrame i s, false⟩)) := by
  have offer := offerInsertion_accepted (quiet.congr rfl rfl : NoReset (builtFrom i s)) ⟨inputFrame i s, false⟩ rfl room
  exact (pumpBuilder_succ n free next).1 offer

/-- A frame that finds the insertion queue full is kept. -/
theorem pumpBuilder_refused (full : 12 ≤ s.rf.insQ.length) : pumpBuilder (n + 1) s =
    (s.setIu { (builtFrom i s).iu with held := some (inputFrame i s) }).setRf
      { s.rf with c := { s.rf.c with insFull := bump s.rf.c.insFull } } := by
  have offer := offerInsertion_refused ⟨inputFrame i s, false⟩ (builtFrom i s) (not_lt.2 full)
  exact (pumpBuilder_succ n free next).2 offer

end

theorem pumpBuilder_none (n : Nat) {s : State} (free : s.iu.held = none) (next : nextServed s = none) : pumpBuilder n s = s := by
  cases n with
  | zero => rfl
  | succ n => rw [pumpBuilder, if_neg (by simp [free]), next]

theorem slotAddr_loaded {s : State} {i : Fin 16} {k : Slot} (slot : s.cu.slots[i] = some k) : slotAddr s i = k.content.addr := by
  unfold slotAddr
  rw [slot]
  rfl

/-! ## The bound of the builder -/

/-- How many frames the insertion queue can still accept while the line's frame is not finished: one for each free place, and one more
at an idle line, where the first frame appended lets one go (R29, R31). -/
def acceptable (s : State) : Nat := 12 - s.rf.insQ.length + if s.elp.state = .up ∧ s.rf.sending = none then 1 else 0

/-- The arbiter's choice with a frame in the insertion queue: one begins to be sent, and at most one leaves that queue (R31). -/
theorem arbiterTable_busy {r : Rf} (h : r.insQ ≠ []) :
    (arbiterTable r).sending ≠ none ∧ r.insQ.length ≤ (arbiterTable r).insQ.length + 1 := by
  unfold arbiterTable
  split
  · contradiction
  · contradiction
  · rename_i queue
    simp [queue]
  · rename_i queue
    split <;> simp [queue]

theorem takeIn_idle {s : State} (e : InsEntry) (idle : s.elp.state = .up ∧ s.rf.sending = none) :
    takeIn s e = arbiterTable { s.rf with insQ := s.rf.insQ ++ [e] } := if_pos idle

theorem takeIn_busy {s : State} (e : InsEntry) (busy : ¬ (s.elp.state = .up ∧ s.rf.sending = none)) :
    takeIn s e = { s.rf with insQ := s.rf.insQ ++ [e] } := if_neg busy

/-- Each frame appended leaves room for one fewer. -/
theorem acceptable_takeIn {s t : State} (e : InsEntry) (room : s.rf.insQ.length < 12) (elp : t.elp = s.elp) (rf : t.rf = takeIn s e) :
    acceptable t < acceptable s := by
  unfold acceptable
  rw [elp, rf]
  by_cases idle : s.elp.state = .up ∧ s.rf.sending = none
  · obtain ⟨busy, most⟩ := arbiterTable_busy (r := { s.rf with insQ := s.rf.insQ ++ [e] }) (by simp)
    rw [← takeIn_idle e idle] at busy most
    simp only [List.length_append, List.length_singleton] at most
    rw [if_pos idle, if_neg (fun x => busy x.2)]
    omega
  · have sending : (takeIn s e).sending = s.rf.sending := by rw [takeIn_busy e idle]
    have longer : (takeIn s e).insQ.length = s.rf.insQ.length + 1 := by
      rw [takeIn_busy e idle]
      exact List.length_append
    rw [sending, longer, if_neg idle]
    omega

/-- With more rounds than frames that can be accepted, the builder stops with a frame kept or nothing left to build. -/
theorem pumpBuilder_stops (n : Nat) {s : State} (quiet : NoReset s) (enough : acceptable s < n) :
    (pumpBuilder n s).iu.held.isSome = true ∨ nextServed (pumpBuilder n s) = none := by
  induction n generalizing s with
  | zero => exact absurd enough (Nat.not_lt_zero _)
  | succ n ih =>
    cases free : s.iu.held with
    | some f =>
      have kept : s.iu.held.isSome = true := by rw [free]; rfl
      rw [pumpBuilder_kept _ kept]
      exact .inl kept
    | none =>
      cases next : nextServed s with
      | none =>
        rw [pumpBuilder_none _ free next]
        exact .inr next
      | some i =>
        by_cases room : s.rf.insQ.length < 12
        · rw [pumpBuilder_accepted n free next quiet room]
          have fewer := acceptable_takeIn (t := (builtFrom i s).setRf (takeIn s ⟨inputFrame i s, false⟩)) _ room rfl rfl
          exact ih ((quiet.setRf_takeIn rfl).congr rfl rfl) (by omega)
        · rw [pumpBuilder_refused n free next (not_lt.1 room)]
          exact .inl rfl

theorem acceptable_lt_pumpBound (s : State) : acceptable s < pumpBound := by
  unfold acceptable pumpBound
  split <;> omega

/-! ## The obligation -/

/-- Settles O52: a frame kept, nothing to build, one build accepted or refused, and the stop. -/
theorem builderServesSlotsInTurn : Obligations.BuilderServesSlotsInTurn := by
  intro n s quiet
  refine ⟨pumpBuilder_kept n, fun free empty => pumpBuilder_none n free (nextServed_none empty), ?_,
    pumpBuilder_stops pumpBound quiet (acceptable_lt_pumpBound s)⟩
  intro i k f b free slot records first frame built
  have next := nextServed_some slot records first
  replace frame : f = inputFrame i s := by rw [frame, inputFrame, slotAddr_loaded slot]
  replace built : b = (builtFrom i s).iu := built
  subst frame built
  exact ⟨pumpBuilder_accepted n free next quiet, pumpBuilder_refused n free next⟩

end Sys2Proof.Machine
end

section
/-! The wake by a desk record (O53): what the record's handling leaves of the wake, a hot key's action included. -/

namespace Sys2Proof.Machine

open Sys2Proof

/-! ## What a record's handling leaves of claims and panel -/

/-- Neither the claim unit nor the panel unit has changed. -/
structure LeavesClaims (s t : State) : Prop where
  cu : t.cu = s.cu
  pu : t.pu = s.pu

theorem LeavesClaims.refl (s : State) : LeavesClaims s s := ⟨rfl, rfl⟩

theorem LeavesClaims.trans {s t u : State} (h : LeavesClaims s t) (k : LeavesClaims t u) : LeavesClaims s u :=
  ⟨k.cu.trans h.cu, k.pu.trans h.pu⟩

theorem Delivers.leavesClaims {s t : State} (h : Delivers s t) : LeavesClaims s t := ⟨h.cu, h.pu⟩

theorem setIu_leavesClaims (t : State) (v : Iu) : LeavesClaims t (t.setIu v) := ⟨rfl, rfl⟩

theorem append_leavesClaims (i : Fin 16) (r : InputRecord) (t : State) : LeavesClaims t (append i r t) :=
  (append_delivers i r (.refl t)).leavesClaims

theorem wheelTurn_leavesClaims (v h : Byte) (t : State) : LeavesClaims t (wheelTurn v h t) := by
  unfold wheelTurn
  split
  · exact append_leavesClaims _ _ t
  · exact setIu_leavesClaims t _

theorem buttonPress_leavesClaims (k : Fin 5) (t : State) : LeavesClaims t (buttonPress k t) := by
  unfold buttonPress
  dsimp only
  split
  · exact setIu_leavesClaims t _
  · split
    · exact ((setIu_leavesClaims t _).trans (setIu_leavesClaims _ _)).trans (appendReported_delivers _ _).leavesClaims
    · exact (setIu_leavesClaims t _).trans (setIu_leavesClaims _ _)

theorem buttonRelease_leavesClaims (k : Fin 5) (t : State) : LeavesClaims t (buttonRelease k t) := by
  unfold buttonRelease
  dsimp only
  split
  · exact setIu_leavesClaims t _
  · have appended (i : Fin 16) (u v : Iu) : LeavesClaims t (appendReported i ((t.setIu u).setIu v)) :=
      ((setIu_leavesClaims t u).trans (setIu_leavesClaims _ v)).trans (appendReported_delivers i _).leavesClaims
    split
    · exact appended _ _ _
    · exact (appended _ _ _).trans (dragEnd_delivers _).leavesClaims

theorem atButton_leavesClaims {act : Fin 5 → State → State} (acts : ∀ k t, LeavesClaims t (act k t)) (b : Byte) (t : State) :
    LeavesClaims t (atButton b act t) := by
  unfold atButton
  split
  · exact acts _ t
  · exact .refl t

theorem keyUpCases_leavesClaims (u : Byte) (t : State) : LeavesClaims t (keyUpCases u t) := by
  unfold keyUpCases
  split
  · exact setIu_leavesClaims t _
  · split
    · exact (setIu_leavesClaims t _).trans (append_leavesClaims _ _ _)
    · exact setIu_leavesClaims t _

theorem keyUp_leavesClaims (u : Byte) (t : State) : LeavesClaims t (keyUp u t) := by
  unfold keyUp
  split
  · exact (setIu_leavesClaims t _).trans (keyUpCases_leavesClaims u _)
  · exact keyUpCases_leavesClaims u t

/-! ## What a hot key's action leaves of them (R116) -/

/-- A matched entry is one of the table, with the key's usage (R115). -/
theorem matchHotKey_entry {u : Byte} {t : State} {k : HotKey} (found : matchHotKey u t = some k) :
    k.usage = u ∧ ∃ j : Fin 16, t.iu.hotkeys[j] = some k := by
  obtain ⟨j, first, entry⟩ := Option.bind_eq_some_iff.1 found
  have chord := (findIndex_least first).1
  rw [entry] at chord
  obtain ⟨usage, -⟩ := Bool.and_eq_true_iff.1 chord
  exact ⟨of_decide_eq_true usage, j, entry⟩

theorem focusLockAction_delivers (t : State) : Delivers t (focusLockAction t) := by
  unfold focusLockAction
  split
  · exact fuReevaluate_delivers (setFu_delivers (.refl t) _)
  · split
    · exact requestPosition_delivers (confine_delivers _ _ (setFu_delivers (.refl t) _))
    · exact .refl t

theorem nextWindowAction_delivers (t : State) : Delivers t (nextWindowAction t) := by
  unfold nextWindowAction
  split
  · exact .refl t
  · split
    · exact .refl t
    · exact requestPosition_delivers (changeFocus_delivers _ (setFu_delivers (.refl t) _))

theorem claimAction_pu {act : Fin 16 → State → State} (acts : ∀ i u, (act i u).pu = u.pu) (t : State) :
    (claimAction act t).pu = t.pu := by
  unfold claimAction
  split
  · exact acts _ t
  · rfl

theorem localRequest_pu (i : Option (Fin 16)) (l : Option Level) (t : State) : (localRequest i l t).2.pu = t.pu := by
  obtain ⟨-, -, pu, -⟩ := localRequest_iu i l t
  exact pu

theorem localRelease_pu (i : Option (Fin 16)) (l : Option Level) (t : State) : (localRelease i l t).2.pu = t.pu := by
  unfold localRelease
  split
  · rfl
  · split
    · rfl
    · rfl
    · rfl
    · obtain ⟨-, pu, -⟩ := releaseSlot_hands _ _ _ t
      exact pu

/-- An entry to STANDBY does not change the wake cause or the count of wakes (R157). -/
theorem enterStandby_wakes (t : State) : (enterStandby t).pu.wake = t.pu.wake ∧ (enterStandby t).pu.c.wakes = t.pu.c.wakes := by
  cases power : t.pu.power with
  | active =>
    obtain ⟨-, -, pu⟩ := enterStandby_hands power
    rw [pu]
    exact ⟨rfl, rfl⟩
  | standby =>
    unfold enterStandby
    rw [if_pos power]
    exact ⟨rfl, rfl⟩

section
variable (k : HotKey) (t : State)

/-- An action that makes no claim and enters no STANDBY leaves both units alone. -/
theorem runAction_leavesClaims (plain : k.action = .selectPreset ∨ k.action = .focusLock ∨ k.action = .nextWindow) :
    LeavesClaims t (runAction k t) := by
  rcases plain with action | action | action <;> simp only [runAction, action]
  · unfold selectPreset
    split <;> exact ⟨rfl, rfl⟩
  · exact (focusLockAction_delivers t).leavesClaims
  · exact (nextWindowAction_delivers t).leavesClaims

/-- An action other than STANDBY leaves the panel unit alone. -/
theorem runAction_pu (stays : k.action ≠ .standby) : (runAction k t).pu = t.pu := by
  cases action : k.action with
  | selectPreset => exact (runAction_leavesClaims k t (.inl action)).pu
  | focusLock => exact (runAction_leavesClaims k t (.inr (.inl action))).pu
  | nextWindow => exact (runAction_leavesClaims k t (.inr (.inr action))).pu
  | requestShared | requestExclusive =>
    simp only [runAction, action]
    exact claimAction_pu (fun i u => localRequest_pu _ _ u) t
  | release =>
    simp only [runAction, action]
    exact claimAction_pu (fun i u => localRelease_pu _ _ u) t
  | standby => exact absurd action stays

/-- No action changes the wake cause or the count of wakes. -/
theorem runAction_wakes : (runAction k t).pu.wake = t.pu.wake ∧ (runAction k t).pu.c.wakes = t.pu.c.wakes := by
  by_cases action : k.action = .standby
  · simp only [runAction, action]
    exact enterStandby_wakes t
  · rw [runAction_pu k t action]
    exact ⟨rfl, rfl⟩

end

/-! ## What a record's handling comes to -/

/-- What a record comes to for claims and panel: nothing, or, of a key down, the action of a hot-key entry with its usage. -/
def RecordActs (i : Instr) (s t : State) : Prop :=
  LeavesClaims s t ∨ ∃ (u : Byte) (j : Fin 16) (k : HotKey) (v : State), i = .deskKeyDown u ∧ s.iu.hotkeys[j] = some k ∧ k.usage = u ∧
    LeavesClaims s v ∧ LeavesClaims (runAction k v) t

theorem keyDownCases_acts (u : Byte) (t : State) : RecordActs (.deskKeyDown u) t (keyDownCases u t) := by
  by_cases known : u ∈ t.iu.consumed ∨ u ∈ t.iu.keys.map (·.1)
  · rw [keyDownCases_duplicate known]
    exact .inl (setIu_leavesClaims t _)
  · by_cases other : isModifier u = true ∨ matchHotKey u t = none
    · obtain ⟨noFocus, full, owned⟩ := keyDownCases_other known other
      cases focus : t.fu.focus with
      | none =>
        rw [noFocus focus]
        exact .inl (setIu_leavesClaims t _)
      | some f =>
        by_cases long : 16 ≤ t.iu.keys.length
        · rw [full f focus long]
          exact .inl (setIu_leavesClaims t _)
        · rw [owned f focus (not_le.1 long)]
          exact .inl ((setIu_leavesClaims t _).trans (append_leavesClaims _ _ _))
    · obtain ⟨modifier, matched⟩ := not_or.1 other
      obtain ⟨k, found⟩ := Option.ne_none_iff_exists'.1 matched
      obtain ⟨usage, j, entry⟩ := matchHotKey_entry found
      have consumed : LeavesClaims t (consume u t) := by
        unfold consume
        split <;> exact setIu_leavesClaims t _
      rw [keyDownCases_hotKey known (Bool.eq_false_iff.2 modifier) found]
      exact .inr ⟨u, j, k, consume u t, rfl, entry, usage, consumed, setIu_leavesClaims _ _⟩

theorem keyDown_acts (u : Byte) (t : State) : RecordActs (.deskKeyDown u) t (keyDown u t) := by
  unfold keyDown
  split
  · split
    · exact .inl (setIu_leavesClaims t _)
    · obtain same | ⟨u', j, k, v, key, entry, usage, before, after⟩ :=
        keyDownCases_acts u (t.setIu { t.iu with mods := t.iu.mods ||| modBit u })
      · exact .inl ((setIu_leavesClaims t _).trans same)
      · exact .inr ⟨u', j, k, v, key, entry, usage, (setIu_leavesClaims t _).trans before, after⟩
  · exact keyDownCases_acts u t

theorem handling_acts (i : Instr) (t : State) : RecordActs i t (handling i t) := by
  cases i with
  | deskKeyDown u => exact keyDown_acts u t
  | deskKeyUp u => exact .inl (keyUp_leavesClaims u t)
  | deskButtonPress b => exact .inl (atButton_leavesClaims buttonPress_leavesClaims b t)
  | deskButtonRelease b => exact .inl (atButton_leavesClaims buttonRelease_leavesClaims b t)
  | deskMotion dx dy => exact .inl (fuMotion_delivers _ _ (.refl t)).leavesClaims
  | deskWheel v h => exact .inl (wheelTurn_leavesClaims v h t)
  | _ => exact .inl (.refl t)

section
variable {i : Instr} {s t : State} (acts : RecordActs i s t)
include acts

theorem RecordActs.wake : t.pu.wake = s.pu.wake ∧ t.pu.c.wakes = s.pu.c.wakes := by
  obtain same | ⟨u, j, k, v, -, -, -, before, after⟩ := acts
  · rw [same.pu]
    exact ⟨rfl, rfl⟩
  · rw [after.pu, ← before.pu]
    exact runAction_wakes k v

theorem RecordActs.pu (stays : ∀ u, i = .deskKeyDown u → ∀ (j : Fin 16) (k : HotKey), s.iu.hotkeys[j] = some k →
    k.usage ≠ u ∨ k.action ≠ .standby) : t.pu = s.pu := by
  obtain same | ⟨u, j, k, v, key, entry, usage, before, after⟩ := acts
  · exact same.pu
  · have action := (stays u key j k entry).resolve_left (not_not.2 usage)
    rw [after.pu, runAction_pu k v action, before.pu]

theorem RecordActs.cu (plain : ∀ u, i = .deskKeyDown u → ∀ (j : Fin 16) (k : HotKey), s.iu.hotkeys[j] = some k →
    k.usage ≠ u ∨ k.action = .selectPreset ∨ k.action = .focusLock ∨ k.action = .nextWindow) : t.cu = s.cu := by
  obtain same | ⟨u, j, k, v, key, entry, usage, before, after⟩ := acts
  · exact same.cu
  · have action := (plain u key j k entry).resolve_left (not_not.2 usage)
    rw [after.cu, (runAction_leavesClaims k v action).cu, before.cu]

end

/-! ## A record in STANDBY (R112, R158) -/

section
variable {s : State} (asleep : s.pu.power = .standby) (run : s.cl.loader = .running)
include asleep

theorem heardQuietly_asleep : heardQuietly s = s := if_neg (by rw [asleep]; decide)

include run

theorem takeRecord_woken (k : WakeKind) (f : State → State) : takeRecord true (some k) f s = f (wake (.deskInput k) s) := by
  unfold takeRecord deskReport
  rw [if_pos ⟨by simp [running, run], rfl⟩, asleep]

end

theorem AutoShared.of_cu {s t u : State} (h : AutoShared s t) (cu : u.cu = t.cu) : AutoShared s u := by
  unfold AutoShared at h ⊢
  rw [cu]
  exact h

/-! ## The obligation -/

/-- Settles O53: a record that does not wake leaves the panel unit alone, and what the handling of one that wakes leaves of the wake. -/
theorem deskRecordWakesTheDesk : Obligations.DeskRecordWakesTheDesk := by
  intro i s quiet run asleep record valid
  cases kind : wakes i with
  | none =>
    have other : ∀ u, i ≠ .deskKeyDown u := by
      rintro u rfl
      cases kind
    rw [deskRecord_quietly record valid quiet run kind, heardQuietly_asleep asleep]
    exact ⟨_, rfl, fun _ => (handling_acts i s).pu fun u key => absurd key (other u), nofun⟩
  | some k =>
    have woken := wake_keeps (.deskInput k) (.refl s)
    have keeps := handling_keeps i (.refl (wake (.deskInput k) s))
    obtain ⟨pu, -, iu, event⟩ := wake_spec (.deskInput k) asleep run
    have acts := handling_acts i (wake (.deskInput k) s)
    have stays := acts.pu
    have plain := acts.cu
    obtain ⟨cause, count⟩ := acts.wake
    rw [pu] at cause count stays
    rw [iu] at stays plain
    rw [deskRecord_exec record valid, kind, takeRecord_woken asleep run]
    refine ⟨_, completed_keeps (woken.quiet quiet) keeps, nofun, fun k' same => ?_⟩
    obtain rfl := Option.some.inj same
    refine ⟨cause, count, keeps.events _ event, fun noStandby => ?_, fun noClaim => ?_⟩
    · rw [stays noStandby]
      exact ⟨rfl, rfl⟩
    · exact (wake_shares (.deskInput k) asleep).of_cu (plain noClaim)

end Sys2Proof.Machine
end

section
/-! The timers of the claim unit and of the management unit (O58): a request that times out, and what the notice interval's end lets go. -/

namespace Sys2Proof.Machine

open Sys2Proof

/-! ## The request timer (R149) -/

section
variable {i : Fin 16} {s : State}

/-- The slot's record goes first, then CLAIM_TIMEOUT is raised, then the timeout counted. -/
theorem requestExpired_waiting {k : Slot} {l : Level} {d : Nat} (slot : s.cu.slots[i] = some k) (waits : k.request = some ⟨l, some d⟩) :
    requestExpired i s = countCu (fun c => { c with timeouts := bump c.timeouts })
      (raise .claimTimeout (setSlot i (some { k with request := none, outcome := .timedOut }) s)) := by
  unfold requestExpired
  rw [slot]
  dsimp only
  rw [waits]

/-- A slot without a deadline has no request timer. -/
theorem requestExpired_stopped (stopped : ∀ k l d, s.cu.slots[i] = some k → k.request ≠ some ⟨l, some d⟩) :
    requestExpired i s = s := by
  unfold requestExpired
  split
  · split
    · exact absurd ‹_› (stopped _ _ _ ‹_›)
    · rfl
  · rfl

/-- The expiry of a running request timer changes the claim unit and raises its event; no other block hears of it. -/
theorem requestTimer_expires {k : Slot} {l : Level} {d : Nat} (quiet : NoReset s) (slot : s.cu.slots[i] = some k)
    (waits : k.request = some ⟨l, some d⟩) : ∃ t, exec (.requestTimerExpires i) s = .next t ∧
      t.cu = { s.cu with
        slots := s.cu.slots.set i (some { k with request := none, outcome := .timedOut }),
        c := { s.cu.c with timeouts := bump s.cu.c.timeouts } } ∧
      t.mu.events &&& EventKind.bit .claimTimeout ≠ 0 ∧ t.fu = s.fu ∧ t.iu = s.iu ∧ t.pu = s.pu ∧ SameRing s t := by
  have keeps := requestExpired_keeps i (.refl s)
  have posts := raise_posts .claimTimeout (setSlot i (some { k with request := none, outcome := .timedOut }) s)
  have event := raise_pending .claimTimeout (setSlot i (some { k with request := none, outcome := .timedOut }) s)
  refine ⟨_, completed_keeps quiet keeps, ?_, ?_, ?_, ?_, ?_, keeps.same⟩ <;> rw [requestExpired_waiting slot waits]
  · unfold countCu
    rw [State.setCu_cu, posts.cu]
    rfl
  · exact event
  · exact posts.fu
  · exact posts.iu
  · exact posts.pu

end

/-! ## The notice interval (R170, R184) -/

section
variable {s : State}

/-- The state in which the interval's end looks for a due notice: the interval stopped. -/
def intervalOver (s : State) : State := s.setMu { s.mu with interval := none }

theorem intervalOver_quiet (quiet : NoReset s) : NoReset (intervalOver s) :=
  ⟨⟨quiet.mu.due, quiet.mu.work, quiet.mu.offer, quiet.mu.waiting⟩, quiet.insQ⟩

theorem noticeInterval_expires (quiet : NoReset s) (runs : s.mu.interval.isSome = true) :
    exec .noticeIntervalExpires s = .next (tryNotice (intervalOver s)) := by
  have expired : intervalDue s = tryNotice (intervalOver s) := if_pos runs
  exact (congrArg completed expired).trans (completed_keeps (intervalOver_quiet quiet) (tryNotice_keeps (.refl _)))

theorem noticeInterval_stopped (quiet : NoReset s) (stopped : s.mu.interval = none) : exec .noticeIntervalExpires s = .next s := by
  have still : intervalDue s = s := if_neg (by rw [stopped]; decide)
  exact (congrArg completed still).trans (completed_next quiet)

end

/-! ## The obligation -/

/-- Settles O58: a request timer that runs or does not, and the interval's end by what `noticesOffered` says of the state it leaves. -/
theorem requestAndNoticeTimersExpire : Obligations.RequestAndNoticeTimersExpire := by
  refine ⟨noticesOffered, fun s quiet => ?_⟩
  obtain ⟨stays, goes⟩ := noticesOffered (intervalOver s) _ (intervalOver_quiet quiet) rfl
  refine ⟨fun i k l d slot waits => requestTimer_expires quiet slot waits,
    fun i stopped => (congrArg completed (requestExpired_stopped stopped)).trans (completed_next quiet),
    noticeInterval_stopped quiet, fun runs waits => ?_, fun runs due free room => ?_, fun e runs due free full frame => ?_⟩
  · rw [noticeInterval_expires quiet runs, stays (waits.imp_right .inr)]
    rfl
  · rw [noticeInterval_expires quiet runs, (goes due rfl free).1 room]
    rfl
  · rw [noticeInterval_expires quiet runs, (goes due rfl free).2 full, frame]
    rfl

end Sys2Proof.Machine
end

section
/-! The takeover button (O55): the filter's samples, and what a press does. -/

namespace Sys2Proof.Machine

open Sys2Proof

/-! ## The filter (R161) -/

section
variable {s : State} {l f : ButtonLevel} (run : s.cl.loader = .running)
include run

/-- The first sample stands at once. -/
theorem sample_first (fresh : s.pu.filter = none) : sample l s = s.setPu { s.pu with filter := some l, run := 0 } := by
  unfold sample
  rw [if_neg (by simp [running, run]), fresh]

/-- A sample at the filtered level ends the run. -/
theorem sample_agrees (level : s.pu.filter = some l) : sample l s = s.setPu { s.pu with run := 0 } := by
  unfold sample
  rw [if_neg (by simp [running, run]), level]
  exact if_pos rfl

/-- A sample at the other level is counted up to three, and is the change itself as the fourth. -/
theorem sample_differs (level : s.pu.filter = some f) (other : l ≠ f) :
    sample l s = if s.pu.run < 3 then s.setPu { s.pu with run := s.pu.run + 1 } else filterChanges l s := by
  unfold sample
  rw [if_neg (by simp [running, run]), level]
  dsimp only
  rw [if_neg other]
  exact if_congr (by omega) rfl rfl

theorem filterTurns_at (level : s.pu.filter = some f) : filterTurns f l s = filterChanges l s :=
  if_pos ⟨by simp [running, run], level⟩

end

/-! ## A request and its deadline (R142) -/

/-- A slot asks for a level: its request has no deadline yet, or the whole claim timeout to run. -/
def Asks (i : Fin 16) (k : Slot) (l : Level) (s : State) : Prop :=
  s.cu.slots[i] = some { k with request := some ⟨l, none⟩ } ∨
    s.cu.slots[i] = some { k with request := some ⟨l, some s.desk.claimTimeout⟩ }

section
variable {i : Fin 16} {k : Slot} {l : Level} {s t : State}

theorem Asks.congr (h : Asks i k l s) (slots : t.cu.slots = s.cu.slots) (desk : t.desk = s.desk) : Asks i k l t := by
  unfold Asks at h ⊢
  rwa [slots, desk]

/-- The deadline that a leaving REQUEST sets is the claim timeout. -/
theorem Asks.claimAppended (h : Asks i k l s) (m : ClaimMsg) : Asks i k l (Machine.claimAppended m s) := by
  obtain ⟨release, request, unasked⟩ := claimAppended_forms m s
  cases kind : m.kind with
  | release =>
    rw [release kind]
    exact h.congr rfl rfl
  | request =>
    by_cases waits : ∃ k' l', s.cu.slots[m.slot] = some k' ∧ k'.request = some ⟨l', none⟩ ∧
        ∀ x ∈ s.cu.outbox, ¬ (x.kind = .request ∧ x.slot = m.slot)
    · obtain ⟨k', l', slot, undated, last⟩ := waits
      rw [request k' l' kind slot undated last]
      by_cases same : m.slot = i
      · subst same
        rcases h with h | h <;> obtain rfl := Option.some.inj (slot.symm.trans h)
        · cases undated
          exact .inr (by simp)
        · cases undated
      · have apart : (m.slot : Nat) ≠ i := fun x => same (Fin.ext x)
        unfold Asks at h ⊢
        simpa [Vector.getElem_set_ne, apart] using h
    · rw [unasked kind fun k' l' slot undated => by
        by_contra last
        exact waits ⟨k', l', slot, undated, fun x mem here => last ⟨x, mem, here⟩⟩]
      exact h.congr rfl rfl

theorem Asks.pumpOutbox (n : Nat) (h : Asks i k l s) : Asks i k l (Machine.pumpOutbox n s) := by
  induction n generalizing s with
  | zero => exact h
  | succ n ih =>
    unfold Machine.pumpOutbox
    split
    · exact h
    · split
      · exact h
      · rename_i m ms _
        have posts := offerInsertion_posts ⟨claimFrame m s, false⟩ (s.setCu { s.cu with outbox := ms })
        have offered : Asks i k l (offerInsertion ⟨claimFrame m s, false⟩ (s.setCu { s.cu with outbox := ms })).2 :=
          h.congr (by rw [posts.cu]; rfl) posts.desk
        dsimp only
        split <;> rename_i u taken <;> rw [taken] at offered
        · exact ih (offered.claimAppended m)
        · exact offered.congr rfl rfl

theorem requested_asks (i : Fin 16) (k : Slot) (l : Level) (s : State) : Asks i k l (requested i k l s) :=
  Asks.pumpOutbox pumpBound (.inl (by simp))

end

/-! ## A local request for EXCLUSIVE (R143) -/

theorem rank_lt_exclusive {l : Level} (below : l ≠ .exclusive) : Level.rank l < Level.rank .exclusive := by
  cases l with
  | view | shared => decide
  | exclusive => exact absurd rfl below

section
variable {i : Fin 16} {k : Slot} {s : State} (active : s.pu.power = .active) (slot : s.cu.slots[i] = some k)
include active slot

theorem localRequest_exclusive_accepted (present : nodePresent s k.content.addr = true) (below : k.held ≠ .exclusive)
    (idle : k.request = none) : (localRequest (some i) (some .exclusive) s).2 = requested i k .exclusive s := by
  obtain ⟨-, -, loaded⟩ := localRequestsAct (some i) (some .exclusive) s _ rfl
  obtain ⟨-, judged⟩ := loaded i k rfl slot
  obtain ⟨-, -, accepted⟩ := judged .exclusive rfl active present
  rw [accepted (rank_lt_exclusive below) idle]

theorem localRequest_exclusive_refused
    (refused : nodePresent s k.content.addr = false ∨ k.held = .exclusive ∨ k.request ≠ none) :
    (localRequest (some i) (some .exclusive) s).2 = s.setCu { s.cu with c := { s.cu.c with refused := bump s.cu.c.refused } } := by
  obtain ⟨-, -, loaded⟩ := localRequestsAct (some i) (some .exclusive) s _ rfl
  obtain ⟨absent, judged⟩ := loaded i k rfl slot
  cases present : nodePresent s k.content.addr with
  | false => rw [absent (.inr (.inr present))]
  | true =>
    obtain ⟨reached, asking, -⟩ := judged .exclusive rfl active present
    by_cases held : k.held = .exclusive
    · rw [reached (by rw [held])]
    · have outstanding : k.request ≠ none := (refused.resolve_left (by simp [present])).resolve_left held
      rw [asking (rank_lt_exclusive held) (Option.isSome_iff_ne_none.2 outstanding)]

end

/-! ## A press (R162) -/

/-- The state once a change to PRESSED is filtered and counted. -/
def pressCounted (s : State) : State :=
  s.setPu { s.pu with filter := some .pressed, run := 0, c := { s.pu.c with presses := bump s.pu.c.presses } }

section
variable {s : State}

theorem filterChanges_asleep (asleep : s.pu.power = .standby) : filterChanges .pressed s = wake .takeover (pressCounted s) :=
  if_pos asleep

section
variable (awake : Awake s)
include awake

/-- The idle timer restarts as at a desk record (R159). -/
theorem restartIdle_pressCounted : restartIdle (pressCounted s) = reported (pressCounted s) := by
  have counted : Awake (pressCounted s) := ⟨awake.loaded, awake.active, awake.quiet.congr rfl rfl⟩
  rw [← deskReport_reported counted none]
  unfold deskReport
  rw [counted.active]

/-- In ACTIVE a press asks for EXCLUSIVE of the focus slot or of the last one, and counts where neither is known. -/
theorem filterChanges_awake : filterChanges .pressed s = (s.fu.focus.map (·.slot) <|> s.fu.last).elim
    (countPu (fun c => { c with noTarget := bump c.noTarget }) (reported (pressCounted s)))
    fun i => (localRequest (some i) (some .exclusive) (reported (pressCounted s))).2 := by
  have restarted : restartIdle (countPu (fun c => { c with presses := bump c.presses })
      (s.setPu { s.pu with filter := some .pressed, run := 0 })) = reported (pressCounted s) :=
    restartIdle_pressCounted (s := s) awake
  have fu : (reported (pressCounted s)).fu = s.fu := rfl
  have power : s.pu.power ≠ .standby := by
    rw [awake.active]
    decide
  unfold filterChanges
  rw [if_pos rfl]
  unfold pressed
  dsimp only
  rw [if_neg (by exact power), restarted, fu]
  cases s.fu.focus.map (·.slot) <|> s.fu.last <;> rfl

theorem filterChanges_target {i : Fin 16} (target : s.fu.focus.map (·.slot) = some i ∨ s.fu.focus = none ∧ s.fu.last = some i) :
    filterChanges .pressed s = (localRequest (some i) (some .exclusive) (reported (pressCounted s))).2 := by
  have known : (s.fu.focus.map (·.slot) <|> s.fu.last) = some i := by
    rcases target with focus | ⟨focus, last⟩
    · rw [focus]
      rfl
    · rw [focus, last]
      rfl
  rw [filterChanges_awake awake, known, Option.elim_some]

theorem filterChanges_targetless (focus : s.fu.focus = none) (last : s.fu.last = none) :
    filterChanges .pressed s = countPu (fun c => { c with noTarget := bump c.noTarget }) (reported (pressCounted s)) := by
  have unknown : (s.fu.focus.map (·.slot) <|> s.fu.last) = none := by
    rw [focus, last]
    rfl
  rw [filterChanges_awake awake, unknown, Option.elim_none]

/-- Whether or not a slot is known, a press leaves the panel unit filtered, counted and ACTIVE. -/
theorem filterChanges_awake_pu : (filterChanges .pressed s).pu.filter = some .pressed ∧ (filterChanges .pressed s).pu.run = 0 ∧
    (filterChanges .pressed s).pu.c.presses = bump s.pu.c.presses ∧ (filterChanges .pressed s).pu.power = .active := by
  rw [filterChanges_awake awake]
  cases s.fu.focus.map (·.slot) <|> s.fu.last with
  | none => exact ⟨rfl, rfl, rfl, awake.active⟩
  | some i =>
    rw [Option.elim_some, localRequest_pu]
    exact ⟨rfl, rfl, rfl, awake.active⟩

/-- What a press leaves of the target's slot: an outstanding request, or all as it was and a refusal counted. -/
theorem filterChanges_claims {i : Fin 16} {k : Slot}
    (target : s.fu.focus.map (·.slot) = some i ∨ s.fu.focus = none ∧ s.fu.last = some i) (slot : s.cu.slots[i] = some k) :
    (nodePresent s k.content.addr = true → k.held ≠ .exclusive → k.request = none →
      Asks i k .exclusive (filterChanges .pressed s)) ∧
    (nodePresent s k.content.addr = false ∨ k.held = .exclusive ∨ k.request ≠ none →
      (filterChanges .pressed s).cu = { s.cu with c := { s.cu.c with refused := bump s.cu.c.refused } }) := by
  rw [filterChanges_target awake target]
  refine ⟨fun present below idle => ?_, fun refused => ?_⟩
  · rw [localRequest_exclusive_accepted (s := reported (pressCounted s)) awake.active slot present below idle]
    exact requested_asks i k .exclusive _
  · rw [localRequest_exclusive_refused (s := reported (pressCounted s)) awake.active slot refused]
    rfl

end

end

/-- What a wake shares is told from the claim unit alone. -/
theorem AutoShared.before {s t u : State} (h : AutoShared t u) (cu : t.cu = s.cu) : AutoShared s u := by
  unfold AutoShared wantsShare nodePresent at h ⊢
  rwa [cu] at h

/-! ## The obligation -/

/-- Settles O55: the samples one by one, a release, and a press in STANDBY or in ACTIVE, with a target or without. -/
theorem takeoverButtonIsFiltered : Obligations.TakeoverButtonIsFiltered := by
  intro s quiet run
  have next (l : ButtonLevel) (v : Pu) (sampled : sample l s = s.setPu v) : exec (.takeoverButtonSample l) s = .next (s.setPu v) :=
    (congrArg completed sampled).trans (completed_next (quiet.congr rfl rfl))
  have fourth {l f : ButtonLevel} (level : s.pu.filter = some f) (other : l ≠ f) (long : 3 ≤ s.pu.run) :
      completed (sample l s) = completed (filterTurns f l s) := by
    rw [sample_differs run level other, if_neg (not_lt.2 long), filterTurns_at run level]
  refine ⟨fun l fresh => next l _ (sample_first run fresh), fun l level => next l _ (sample_agrees run level),
    fun l f level other short => next l _ (by rw [sample_differs run level other, if_pos short]),
    fun level long => fourth level (by decide) long, fun level long => fourth level (by decide) long,
    fun level => (congrArg completed (filterTurns_at run level)).trans (completed_next (quiet.congr rfl rfl)), fun level => ?_⟩
  have keeps := filterChanges_keeps .pressed (.refl s)
  refine ⟨filterChanges .pressed s, (congrArg completed (filterTurns_at run level)).trans (completed_keeps quiet keeps), ?_⟩
  cases power : s.pu.power with
  | standby =>
    obtain ⟨pu, -, -, event⟩ := wake_spec .takeover (t := pressCounted s) power run
    have shared := (wake_shares .takeover (t := pressCounted s) power).before (s := s) rfl
    rw [filterChanges_asleep power, pu]
    exact ⟨rfl, rfl, rfl, rfl, fun _ => ⟨rfl, rfl, event, shared⟩, fun active => absurd active (by decide),
      fun _ _ active => absurd active (by decide)⟩
  | active =>
    have awake : Awake s := ⟨run, power, quiet⟩
    obtain ⟨filter, zero, presses, active⟩ := filterChanges_awake_pu awake
    refine ⟨filter, zero, presses, active, nofun, fun _ focus last => ?_, fun i k _ target slot => ?_⟩
    · rw [filterChanges_targetless awake focus last]
      exact ⟨rfl, rfl⟩
    · obtain ⟨asks, refused⟩ := filterChanges_claims awake target slot
      refine ⟨fun present below idle => ?_, refused⟩
      have asked := asks present below idle
      unfold Asks at asked
      rwa [keeps.same.desk] at asked

end Sys2Proof.Machine
end

section
/-! The lamps (O56): the blink clock, the conditions one by one, the behaviour shown, and the light it makes. -/

namespace Sys2Proof.Machine

open Sys2Proof

/-! ## The blink clock (R166) -/

theorem blinkAdvance_running {s : State} {b : Blink} (runs : s.pu.blink = some b) :
    blinkAdvance s = s.setPu { s.pu with blink := some ⟨(b.phase + 1) % 8, b.elapsed - 125⟩ } := by
  unfold blinkAdvance
  rw [runs]

theorem blinkAdvance_stopped {s : State} (stopped : s.pu.blink = none) : blinkAdvance s = s := by
  unfold blinkAdvance
  rw [stopped]

/-! ## What makes a condition true (R164, R165) -/

theorem heldExclusive_iff {o : Option Slot} : heldExclusive o = true ↔ ∃ k, o = some k ∧ k.held = .exclusive := by
  cases o <;> simp [heldExclusive]

theorem requesting_iff {o : Option Slot} : requesting o = true ↔ ∃ k, o = some k ∧ k.request ≠ none := by
  cases o <;> simp [requesting, Option.isSome_iff_ne_none]

section
variable {s : State} {h : Fin 4}

/-- A head's streams are those of the windows that its active list names. -/
theorem any_headStreams {p : StreamEntry → Bool} : (headStreams h s).any p = true ↔
    ∃ w ∈ s.cp.active[h], ∃ id e, w.stream = some id ∧ streamOf s id = some e ∧ p e = true := by
  simp only [headStreams, List.any_eq_true, List.mem_filterMap, Option.bind_eq_some_iff]
  constructor
  · rintro ⟨e, ⟨w, listed, id, named, loaded⟩, holds⟩
    exact ⟨w, listed, id, e, named, loaded, holds⟩
  · rintro ⟨w, listed, id, e, named, loaded, holds⟩
    exact ⟨e, ⟨w, listed, id, named, loaded⟩, holds⟩

/-- The same of a property of the streams' slots. -/
theorem any_headStreams_slot {p : Option Slot → Bool} {q : Slot → Prop} (told : ∀ o, p o = true ↔ ∃ k, o = some k ∧ q k) :
    ((headStreams h s).any fun e => p (streamSlot s e)) = true ↔ ∃ w ∈ s.cp.active[h], ∃ id e k,
      w.stream = some id ∧ streamOf s id = some e ∧ s.cu.slots[e.content.slot] = some k ∧ q k := by
  simp only [any_headStreams, told, streamSlot, exists_and_left]

/-- The same of the slots of the whole table. -/
theorem any_slots {p : Option Slot → Bool} {q : Slot → Prop} (told : ∀ o, p o = true ↔ ∃ k, o = some k ∧ q k) :
    s.cu.slots.toList.any p = true ↔ ∃ (i : Fin 16) (k : Slot), s.cu.slots[i] = some k ∧ q k := by
  simp only [List.any_eq_true, Vector.mem_toList_iff, Vector.mem_iff_getElem, told]
  constructor
  · rintro ⟨_, ⟨i, bound, rfl⟩, k, slot, holds⟩
    exact ⟨⟨i, bound⟩, k, slot, holds⟩
  · rintro ⟨i, k, slot, holds⟩
    exact ⟨_, ⟨i.val, i.isLt, rfl⟩, k, slot, holds⟩

/-- The focus window stands on the head. -/
theorem focus_head_iff : s.fu.focus.map (·.head) = some h ↔ ∃ f, s.fu.focus = some f ∧ f.head = h := by
  rw [Option.map_eq_some_iff]

end

/-! ## The conditions of each lamp -/

/-- What a head's conditions say while they are told at all: the head enabled and the desk ACTIVE. -/
def toldConditions (h : Fin 4) (s : State) : List Bool :=
  [decide (s.fu.focus.map (·.head) = some h),
   (headStreams h s).any fun e => heldExclusive (streamSlot s e),
   (headStreams h s).any fun e => e.state = .stale,
   (headStreams h s).any fun e => requesting (streamSlot s e)]

section
variable {s : State} {h : Fin 4}

theorem headConditions_told (told : s.cp.heads[h].enabled = true ∧ s.pu.power = .active) :
    headConditions h s = toldConditions h s := if_pos told

theorem headConditions_untold (untold : ¬ (s.cp.heads[h].enabled = true ∧ s.pu.power = .active)) :
    headConditions h s = List.replicate 4 false := if_neg untold

/-- A disabled head and a desk in STANDBY make none of the four true. -/
theorem headCondition_iff (j : Nat) : (headConditions h s)[j]? = some true ↔
    s.cp.heads[h].enabled = true ∧ s.pu.power = .active ∧ (toldConditions h s)[j]? = some true := by
  rw [← and_assoc]
  by_cases told : s.cp.heads[h].enabled = true ∧ s.pu.power = .active
  · rw [headConditions_told told, and_iff_right told]
  · rw [headConditions_untold told]
    exact ⟨fun holds => absurd (List.mem_of_getElem? holds) (by decide), fun holds => absurd holds.1 told⟩

theorem lampConditions_head {l : Fin 5} (head : l.val = h.val) : lampConditions l s = headConditions h s := by
  obtain ⟨_, bound⟩ := l
  subst head
  exact dif_pos h.isLt

theorem lampConditions_desk : lampConditions 4 s = deskConditions s := rfl

theorem lampConditions_length (l : Fin 5) (s : State) : (lampConditions l s).length = 4 := by
  unfold lampConditions headConditions
  split
  · split <;> rfl
  · rfl

end

/-! ## The behaviour shown (R166) -/

/-- One step of the search: a true condition's behaviour stands where it ranks above the best so far. -/
def better (best : Behaviour) (cb : Bool × Behaviour) : Behaviour :=
  if cb.1 ∧ best.rank < cb.2.rank then cb.2 else best

theorem better_ge (best : Behaviour) (cb : Bool × Behaviour) : best.rank ≤ (better best cb).rank := by
  unfold better
  split_ifs with taken
  · exact le_of_lt taken.2
  · exact le_rfl

theorem better_ge_true {best : Behaviour} {cb : Bool × Behaviour} (holds : cb.1 = true) : cb.2.rank ≤ (better best cb).rank := by
  unfold better
  split_ifs with taken
  · exact le_rfl
  · exact not_lt.1 fun above => taken ⟨holds, above⟩

theorem better_cases (best : Behaviour) (cb : Bool × Behaviour) : better best cb = best ∨ cb.1 = true ∧ better best cb = cb.2 := by
  unfold better
  split_ifs with taken
  · exact .inr ⟨taken.1, rfl⟩
  · exact .inl rfl

theorem foldl_better_ge (cbs : List (Bool × Behaviour)) (best : Behaviour) : best.rank ≤ (cbs.foldl better best).rank := by
  induction cbs generalizing best with
  | nil => exact le_rfl
  | cons cb cbs ih => exact (better_ge best cb).trans (ih _)

/-- No true condition's behaviour ranks above the one found. -/
theorem foldl_better_ge_true {cbs : List (Bool × Behaviour)} {b : Behaviour} (mem : (true, b) ∈ cbs) (best : Behaviour) :
    b.rank ≤ (cbs.foldl better best).rank := by
  induction cbs generalizing best with
  | nil => cases mem
  | cons cb cbs ih =>
    rcases List.mem_cons.1 mem with rfl | later
    · exact (better_ge_true (cb := (true, b)) rfl).trans (foldl_better_ge cbs _)
    · exact ih later _

/-- The behaviour found is the first or that of a true condition. -/
theorem foldl_better_cases (cbs : List (Bool × Behaviour)) (best : Behaviour) :
    cbs.foldl better best = best ∨ (true, cbs.foldl better best) ∈ cbs := by
  induction cbs generalizing best with
  | nil => exact .inl rfl
  | cons cb cbs ih =>
    rw [List.foldl_cons]
    rcases ih (better best cb) with kept | found
    · rw [kept]
      refine (better_cases best cb).imp_right fun ⟨holds, taken⟩ => ?_
      rw [taken, ← holds]
      exact List.mem_cons_self
    · exact .inr (List.mem_cons_of_mem _ found)

section
variable {l : Fin 5} {s : State}

theorem lampShown_eq (l : Fin 5) (s : State) :
    lampShown l s = ((lampConditions l s).zip s.pu.lamps[l].toList).foldl better .off := rfl

/-- The search runs over the four conditions, each with the behaviour of its own position. -/
theorem mem_zip_lamps {b : Behaviour} : (true, b) ∈ (lampConditions l s).zip s.pu.lamps[l].toList ↔
    ∃ j : Fin 4, (lampConditions l s)[j.val]? = some true ∧ s.pu.lamps[l][j] = b := by
  simp only [List.mem_iff_getElem?, List.getElem?_zip_eq_some, Vector.getElem?_toList]
  constructor
  · rintro ⟨j, holds, configured⟩
    obtain ⟨bound, configured⟩ := Vector.getElem?_eq_some_iff.1 configured
    exact ⟨⟨j, bound⟩, holds, configured⟩
  · rintro ⟨j, holds, configured⟩
    exact ⟨j.val, holds, Vector.getElem?_eq_some_iff.2 ⟨j.isLt, configured⟩⟩

theorem lampShown_ge {j : Fin 4} (holds : (lampConditions l s)[j.val]? = some true) :
    s.pu.lamps[l][j].rank ≤ (lampShown l s).rank :=
  foldl_better_ge_true (mem_zip_lamps.2 ⟨j, holds, rfl⟩) .off

theorem lampShown_cases (l : Fin 5) (s : State) :
    lampShown l s = .off ∨ ∃ j : Fin 4, (lampConditions l s)[j.val]? = some true ∧ s.pu.lamps[l][j] = lampShown l s :=
  (foldl_better_cases _ .off).imp_right mem_zip_lamps.1

/-! ## The light (R166) -/

/-- What a behaviour does with the phase. -/
def litIn (b : Blink) : Behaviour → Bool
  | .off => false
  | .on => true
  | .slow => decide (b.phase < 4)
  | .fast => decide (b.phase % 2 = 0)

theorem lampLit_stopped (stopped : s.pu.blink = none) : lampLit l s = false := by
  unfold lampLit
  rw [stopped]

theorem lampLit_running {b : Blink} (runs : s.pu.blink = some b) : lampLit l s = litIn b (lampShown l s) := by
  unfold lampLit
  rw [runs]
  rfl

end

/-! ## The obligation -/

/-- Settles O56: the clock's step, the search for the highest rank, each condition by what makes it true, and the light by the phase. -/
theorem blinkClockDrivesTheLamps : Obligations.BlinkClockDrivesTheLamps := by
  intro s l
  refine ⟨fun b runs settled => (congrArg completed (blinkAdvance_running runs)).trans (completed_settled settled),
    fun stopped settled => (congrArg completed (blinkAdvance_stopped stopped)).trans (completed_settled settled),
    fun j holds => lampShown_ge holds, lampShown_cases l s, lampConditions_length l s, fun h head => ?_, ?_,
    fun stopped => lampLit_stopped stopped, fun b runs => ?_⟩
  · simp only [lampConditions_head head, headCondition_iff, toldConditions, List.getElem?_cons_zero, List.getElem?_cons_succ,
      Option.some.injEq, decide_eq_true_eq, focus_head_iff, any_headStreams_slot fun _ => heldExclusive_iff,
      any_headStreams_slot fun _ => requesting_iff, any_headStreams, and_self]
  · rintro rfl
    simp only [lampConditions_desk, deskConditions, List.getElem?_cons_zero, List.getElem?_cons_succ, Option.some.injEq,
      decide_eq_true_eq, any_slots fun _ => heldExclusive_iff, any_slots fun _ => requesting_iff, and_self]
  · rw [lampLit_running runs]
    refine ⟨fun shown => ?_, fun shown => ?_, fun shown => ?_, fun shown => ?_⟩ <;> rw [shown]
    · rfl
    · rfl
    · exact decide_eq_true_iff
    · exact decide_eq_true_iff

end Sys2Proof.Machine
end

section
/-! Start-up and the stored configuration (O3, O4, O60): the state that power-on reset leaves, that the state right after it meets every
invariant, and what each step of a save leaves in the serial memory. -/

namespace Sys2Proof.Machine

open Sys2Proof

/-! ## Power-on reset (R189) -/

/-- What stands outside the part stays through power-on reset: the energy on each line, the symbols sent and the waiting commands. -/
theorem powerOn_outside (loadSel : Bool) (straps : BitVec 6) (s : State) :
    (powerOn loadSel straps s).wlp = { wlpStart with energy := s.wlp.energy } ∧
      (powerOn loadSel straps s).elp = { elpStart with energy := s.elp.energy } ∧
      (powerOn loadSel straps s).lineOut = s.lineOut ∧ (powerOn loadSel straps s).pending = s.pending := by
  obtain ⟨wlp, elp, -, -, -, -, -, -, lineOut, pending⟩ := abandonSave_blocks s
  refine ⟨?_, ?_, lineOut, pending⟩
  · show ({ wlpStart with energy := (abandonSave s).wlp.energy } : Wlp) = _
    rw [wlp]
  · show ({ elpStart with energy := (abandonSave s).elp.energy } : Elp) = _
    rw [elp]

/-- Settles O3: every block is handed its start state, and the serial memory shows only the save that was cut short. -/
theorem powerOnResetGivesTheStartState : Obligations.PowerOnResetGivesTheStartState := by
  intro loadSel straps s
  obtain ⟨wlp, elp, lineOut, pending⟩ := powerOn_outside loadSel straps s
  exact ⟨powerOn loadSel straps s, completed_settled rfl, rfl, wlp, elp, rfl, rfl, rfl, rfl, rfl, rfl, rfl, rfl, rfl,
    (abandonSave_cutShort s).congr rfl, lineOut, pending⟩

/-! ## The state after reset -/

/-- A port in DISABLED has no partner record (R2). -/
theorem partnerWhen_disabled : partnerWhen .disabled none := by
  simp [partnerWhen]

theorem reset_linksConsistent : LinksConsistent State.reset where
  westPartner := partnerWhen_disabled
  eastPartner := partnerWhen_disabled
  westSilence := nofun
  eastSilence := nofun
  trial := ⟨nofun, nofun⟩
  cold _ := ⟨rfl, rfl, rfl⟩

theorem reset_ringConsistent : RingConsistent State.reset where
  sending := nofun
  beacons := nofun
  noEgress _ := ⟨rfl, rfl⟩
  closed present := by
    rw [presenceStart_own rfl] at present
    cases present
  ring := by
    rw [derivedRing_open (presenceStart_own rfl)]
    rfl

theorem reset_settingsInRange : SettingsInRange State.reset where
  guardDistance := by decide
  standby := by decide
  downshift := by decide
  energyReset := by decide
  beaconPeriod := by decide
  absence := by decide
  claimTimeout := by decide
  noticeInterval := by decide
  noticeTarget := .inl rfl
  authority := .inl rfl

theorem reset_memoryOk : MemoryOk State.reset where
  cells := ⟨.nil, nofun⟩
  inside := nofun
  lines := ⟨.nil, nofun⟩

theorem reset_noReset : NoReset State.reset := ⟨⟨rfl, nofun, nofun, nofun⟩, nofun⟩

theorem reset_countsInRange : CountsInRange State.reset where
  downshift := by decide
  attempts := by decide
  guardDistance := by decide
  accum := by decide

/-- Settles O4: the blocks' start states meet what is stated of a block, and the rest holds with both ports in DISABLED. -/
theorem resetStateMeetsTheInvariants : Obligations.ResetStateMeetsTheInvariants := by
  obtain ⟨rf, iu, -⟩ := start_values
  obtain ⟨lists, heads, pool, owned, claims⟩ := start_whole
  exact ⟨⟨rf, iu, Nat.zero_le _⟩, ⟨reset_linksConsistent, reset_ringConsistent, rfl⟩, reset_settingsInRange, reset_memoryOk,
    reset_noReset, reset_countsInRange, lists, heads, pool [], owned none, claims _ _⟩

/-! ## Ranges of the serial memory -/

@[simp] theorem Memory.readRange_length (m : List (Nat × Byte)) (base len : Nat) : (Memory.readRange m base len).length = len := by
  simp [Memory.readRange]

/-- Two memories that agree on a range give the same bytes for it. -/
theorem Memory.readRange_congr {m m' : List (Nat × Byte)} {base len : Nat}
    (h : ∀ a, base ≤ a → a < base + len → Memory.read m a = Memory.read m' a) :
    Memory.readRange m base len = Memory.readRange m' base len :=
  List.map_congr_left fun _ hi => h _ (Nat.le_add_right _ _) (Nat.add_lt_add_left (List.mem_range.1 hi) _)

/-- A range within the bytes written gives those bytes. -/
theorem Memory.readRange_write (m : List (Nat × Byte)) (base : Nat) (bytes : List Byte) {k len : Nat} (h : k + len ≤ bytes.length) :
    Memory.readRange (Memory.write m base bytes) (base + k) len = (bytes.drop k).take len := by
  have lengths : ((bytes.drop k).take len).length = len := by
    rw [List.length_take, List.length_drop]
    omega
  refine List.ext_getElem ((Memory.readRange_length _ _ _).trans lengths.symm) fun i hi _ => ?_
  rw [Memory.readRange_length] at hi
  have inside : k + i < bytes.length := by omega
  simpa [Memory.readRange, Nat.add_assoc] using Memory.read_write_inside m base bytes (k + i) inside

/-! ## The header and an area as written (R195, R202) -/

/-- An area's content with the zero fill behind it. -/
def filled (len : Nat) (content : List Byte) : List Byte := content ++ List.replicate (len - content.length) 0

theorem filled_length {len : Nat} {content : List Byte} (fits : content.length ≤ len) : (filled len content).length = len := by
  simp [filled, fits]

/-- A content that fits is written whole, with the CRC of the filled area behind it. -/
theorem areaBytes_fits {len : Nat} {content : List Byte} (fits : content.length ≤ len) :
    areaBytes len content = filled len content ++ be32 (crc 0xFFFFFFFF#32 (filled len content)) := by
  have whole : (filled len content).take len = filled len content := List.take_of_length_le (filled_length fits).le
  show (filled len content).take len ++ be32 (crc _ ((filled len content).take len)) = _
  rw [whole]

/-- An area just written reads back as its filled content, and its CRC agrees. -/
theorem area_reads_back {base len : Nat} {content : List Byte} (fits : content.length ≤ len) {m : List (Nat × Byte)} {t : State}
    (written : t.serial.cells = Memory.write m base (areaBytes len content)) :
    Memory.readRange t.serial.cells base len = filled len content ∧ crcGood base len t = true := by
  have size := areaBytes_length len content
  have body : Memory.readRange t.serial.cells base len = filled len content := by
    rw [written]
    refine (Memory.readRange_write m base _ (k := 0) (by omega)).trans ?_
    rw [areaBytes_fits fits]
    exact List.take_left' (filled_length fits)
  have check : Memory.readRange t.serial.cells (base + len) 4 = be32 (crc 0xFFFFFFFF#32 (filled len content)) := by
    rw [written, Memory.readRange_write m base _ (by omega), areaBytes_fits fits, List.drop_left' (filled_length fits)]
    rfl
  refine ⟨body, ?_⟩
  unfold crcGood
  rw [body, check]
  exact decide_eq_true rfl

/-- A header just written reads back byte for byte. -/
theorem header_reads_back (m : List (Nat × Byte)) : Memory.readRange (Memory.write m 0 headerBytes) 0 16 = headerBytes :=
  Memory.readRange_write m 0 headerBytes (k := 0) (by decide)

/-- Outside an area and its CRC field, the memory stands as before the area was written. -/
theorem read_outside_area (m : List (Nat × Byte)) {base len a : Nat} (content : List Byte) (h : a < base ∨ base + len + 4 ≤ a) :
    Memory.read (Memory.write m base (areaBytes len content)) a = Memory.read m a :=
  Memory.read_write_outside m base _ a (by rw [areaBytes_length]; omega)

/-! ## The steps of a save -/

theorem layoutWritten_writing {s : State} {p : Snapshot} (save : s.cl.save = .writingLayout) (snapshot : s.cl.snapshot = some p) :
    layoutWritten s =
      (s.setSerial ⟨Memory.write (Memory.write s.serial.cells 0 headerBytes) layoutBase (areaBytes layoutLen p.layout), false,
        s.serial.deskBad, false⟩).setCl { s.cl with layoutFlag := .valid, save := .writingDesk } := by
  unfold layoutWritten
  rw [save, snapshot]
  rfl

theorem deskWritten_writing {s : State} {p : Snapshot} (save : s.cl.save = .writingDesk) (snapshot : s.cl.snapshot = some p) :
    deskWritten s =
      raise .saveDone ((s.setSerial { s.serial with
        cells := Memory.write s.serial.cells deskBase (areaBytes deskLen p.desk), deskBad := false }).setCl
          { s.cl with deskFlag := .valid, save := .idle, snapshot := none }) := by
  unfold deskWritten
  rw [save, snapshot]
  rfl

/-- Out of a save none of the three does anything. -/
theorem save_idle {s : State} (idle : s.cl.save = .idle) : layoutWritten s = s ∧ deskWritten s = s ∧ ∀ d, saveFaults d s = s := by
  refine ⟨?_, ?_, fun d => if_pos idle⟩
  · unfold layoutWritten
    rw [idle]
  · unfold deskWritten
    rw [idle]

theorem faultedImage_quiet (d : Bool) {s : State} (n : NoReset s) : NoReset (faultedImage d s) := by
  unfold faultedImage
  split
  · exact n
  · split <;> exact n.congr rfl rfl
  · exact n.congr rfl rfl

/-- The flags of what a fault leaves part-written: a header takes both areas with it (R195). -/
theorem faultedImage_flags (s : State) :
    (s.cl.save = .writingLayout →
      (faultedImage true s).cl = { s.cl with deskFlag := .invalid, layoutFlag := .invalid } ∧
      (faultedImage false s).cl = { s.cl with layoutFlag := .invalid }) ∧
    (s.cl.save = .writingDesk → ∀ d, (faultedImage d s).cl = { s.cl with deskFlag := .invalid }) := by
  unfold faultedImage
  refine ⟨fun save => ?_, fun save d => ?_⟩ <;> rw [save]
  · exact ⟨rfl, rfl⟩
  · rfl

/-- A fault in a save ends it and raises SAVE_FAULT; the flags are those of the part-written image (R195). -/
theorem serialMemoryFault_ends (d : Bool) {s : State} (n : NoReset s) (saves : s.cl.save ≠ .idle) {c : Cl}
    (flags : (faultedImage d s).cl = c) :
    ∃ t, exec (.serialMemoryFault d) s = .next t ∧ t.cl = { c with save := .idle, snapshot := none } ∧
      t.mu.events &&& EventKind.bit .saveFault ≠ 0 := by
  have ends : saveFaults d s = raise .saveFault ((faultedImage d s).setCl { c with save := .idle, snapshot := none }) := by
    rw [← flags]
    exact if_neg saves
  have quiet : NoReset (saveFaults d s) := by
    rw [ends]
    exact raise_quiet _ ((faultedImage_quiet d n).congr rfl rfl)
  refine ⟨saveFaults d s, completed_next quiet, ?_, ?_⟩ <;> rw [ends]
  · exact (raise_posts _ _).cl
  · exact raise_pending _ _

/-- The LAYOUT area and the header stand in the memory once SAVE_LAYOUT_WRITTEN is taken; the DESK area is still untouched. -/
theorem saveLayoutWritten_stores {s : State} {p : Snapshot} (n : NoReset s) (save : s.cl.save = .writingLayout)
    (snapshot : s.cl.snapshot = some p) (fits : p.layout.length ≤ layoutLen) :
    ∃ t, exec .saveLayoutWritten s = .next t ∧ t.cl = { s.cl with layoutFlag := .valid, save := .writingDesk } ∧
      Memory.readRange t.serial.cells 0 16 = headerBytes ∧
      Memory.readRange t.serial.cells layoutBase layoutLen = filled layoutLen p.layout ∧ crcGood layoutBase layoutLen t = true ∧
      ∀ a, deskBase ≤ a → a < deskBase + deskLen + 4 → Memory.read t.serial.cells a = Memory.read s.serial.cells a := by
  have e := layoutWritten_writing save snapshot
  have cells : (layoutWritten s).serial.cells =
      Memory.write (Memory.write s.serial.cells 0 headerBytes) layoutBase (areaBytes layoutLen p.layout) := by
    rw [e]
    rfl
  have below {a : Nat} (h : a < layoutBase) :
      Memory.read (layoutWritten s).serial.cells a = Memory.read (Memory.write s.serial.cells 0 headerBytes) a := by
    rw [cells]
    exact read_outside_area _ _ (.inl h)
  have quiet : NoReset (layoutWritten s) := by
    rw [e]
    exact n.congr rfl rfl
  obtain ⟨area, check⟩ := area_reads_back fits cells
  refine ⟨layoutWritten s, completed_next quiet, by rw [e]; rfl, ?_, area, check, fun a lower upper => ?_⟩
  · rw [← header_reads_back s.serial.cells]
    exact Memory.readRange_congr fun a _ upper => below (upper.trans (by decide))
  · rw [below (upper.trans_le (by decide))]
    exact Memory.read_write_outside _ _ _ _ (.inr lower)

/-- The DESK area stands in the memory once SAVE_COMPLETES is taken, and nothing else of it has moved. -/
theorem saveCompletes_stores {s : State} {p : Snapshot} (n : NoReset s) (save : s.cl.save = .writingDesk)
    (snapshot : s.cl.snapshot = some p) (fits : p.desk.length ≤ deskLen) :
    ∃ t, exec .saveCompletes s = .next t ∧ t.cl = { s.cl with deskFlag := .valid, save := .idle, snapshot := none } ∧
      t.mu.events &&& EventKind.bit .saveDone ≠ 0 ∧
      Memory.readRange t.serial.cells deskBase deskLen = filled deskLen p.desk ∧ crcGood deskBase deskLen t = true ∧
      ∀ a, a < deskBase ∨ deskBase + deskLen + 4 ≤ a → Memory.read t.serial.cells a = Memory.read s.serial.cells a := by
  have e := deskWritten_writing save snapshot
  have cells : (deskWritten s).serial.cells = Memory.write s.serial.cells deskBase (areaBytes deskLen p.desk) := by
    rw [e, (raise_posts _ _).serial]
    rfl
  have quiet : NoReset (deskWritten s) := by
    rw [e]
    exact raise_quiet _ (n.congr rfl rfl)
  obtain ⟨area, check⟩ := area_reads_back fits cells
  refine ⟨deskWritten s, completed_next quiet, ?_, ?_, area, check, fun a outside => ?_⟩
  · rw [e]
    exact (raise_posts _ _).cl
  · rw [e]
    exact raise_pending _ _
  · rw [cells]
    exact read_outside_area _ _ outside

/-- Settles O60: each write by what it leaves in the memory, each fault by the flags of the part-written image, and the three commands
out of a save. -/
theorem saveWritesTheStoredImage : Obligations.SaveWritesTheStoredImage := by
  intro p s n
  obtain ⟨inLayout, inDesk⟩ := faultedImage_flags s
  refine ⟨fun save snapshot fits => ?_, fun save snapshot fits => ?_, fun idle => ?_⟩
  · obtain ⟨header, area⟩ := inLayout save
    have saves : s.cl.save ≠ .idle := by simp [save]
    exact ⟨saveLayoutWritten_stores n save snapshot fits, serialMemoryFault_ends true n saves header,
      serialMemoryFault_ends false n saves area⟩
  · have saves : s.cl.save ≠ .idle := by simp [save]
    exact ⟨saveCompletes_stores n save snapshot fits, fun d => serialMemoryFault_ends d n saves (inDesk save d)⟩
  · obtain ⟨layout, desk, faults⟩ := save_idle idle
    exact ⟨(congrArg completed layout).trans (completed_next n), (congrArg completed desk).trans (completed_next n),
      fun d => (congrArg completed (faults d)).trans (completed_next n)⟩

end Sys2Proof.Machine
end

section
/-! The form of the two sparse memories (O9): every step keeps the serial memory and the buffers' lines as their writes leave them. -/

namespace Sys2Proof.Machine

open Sys2Proof

/-- Settles O9: every step is sound, and a sound step keeps the memories' form, because it changes the serial memory's cells only by writes
within the 8 KiB (`writeCells_sound`; a bad mark alone is `setSerial_flags`) and the buffers' lines only by a strip's rows
(`Lines.write_wf`) or by emptying them at power-on. -/
theorem stepKeepsMemoryForm : Obligations.StepKeepsMemoryForm := by
  intro s t form h
  obtain ⟨sound, -, -⟩ := step_safe h
  exact sound.memory form

end Sys2Proof.Machine
end

section
/-! The step (O1, O2): the front of the queue, and what the block does on an empty one. -/

namespace Sys2Proof.Machine

open Sys2Proof

/-- Settles O1: the queue of `s.setPending (c :: rest)` is `c :: rest`, so `step` takes its first branch. -/
theorem stepTakesTheFrontCommand : Obligations.StepTakesTheFrontCommand := fun _ _ _ => rfl

section
variable {s : State}

theorem step_empty (empty : s.pending = []) : step s = .next (idle s) := by
  unfold step
  rw [empty]

/-- What is owed joins the queue, and no time passes (R15, R29). -/
theorem idle_owed (owes : owed s ≠ []) : idle s = s.setPending (owed s) := if_pos owes

/-- With nothing owed, 1 ms passes and what has come due joins the queue. -/
theorem idle_passes (nothing : owed s = []) : idle s = (advance s).setPending (due (advance s)) := if_neg (not_not.2 nothing)

end

/-- Settles O2, by the two branches of `idle`. With nothing owed, `setPending` leaves every block as `advance` has made it, and each
block of `advance s` is, by definition, the one the statement writes out with the ageing functions opened. -/
theorem emptyQueueLetsTimePass : Obligations.EmptyQueueLetsTimePass := by
  intro s empty
  refine ⟨idle s, step_empty empty, idle_owed, fun nothing => ?_⟩
  rw [idle_passes nothing]
  exact ⟨rfl, rfl, rfl, rfl, rfl, rfl, rfl, rfl, rfl, rfl, rfl, rfl, rfl, rfl, rfl, rfl, rfl⟩

end Sys2Proof.Machine
end

section
/-! The operator's commands (O44): each is, before the end of the step, a part on the operator's side (`Keeps`). -/

namespace Sys2Proof.Machine

open Sys2Proof

/-- A part that a condition on the state may leave out. -/
theorem ite_keeps {p : Prop} [Decidable p] {s u : State} (h : Keeps s u) : Keeps s (if p then u else s) := by
  split
  · exact h
  · exact .refl s

theorem filterTurns_keeps (old new : ButtonLevel) (s : State) : Keeps s (filterTurns old new s) :=
  ite_keeps (filterChanges_keeps new (.refl s))

/-- A desk record of its own command is taken by the record's check, kind and handling (R112). -/
theorem deskRecord_taken {i : Instr} (record : deskRecord i = true) (s : State) :
    exec i s = completed (takeRecord i.wellFormed (wakes i) (handling i) s) := by
  cases i with
  | deskKeyDown | deskKeyUp | deskButtonPress | deskButtonRelease | deskMotion | deskWheel => rfl
  | _ => cases record

/-- The command completes, and what it did before the end of the step keeps the ring and the picture. -/
def CompletesKeeping (i : Instr) (s : State) : Prop := ∃ u, exec i s = completed u ∧ Keeps s u

theorem deskRecord_completesKeeping {i : Instr} (record : deskRecord i = true) (s : State) : CompletesKeeping i s :=
  ⟨_, deskRecord_taken record s, takeRecord_keeps _ _ (handling_keeps i) (.refl s)⟩

theorem deskRecordRejected_completesKeeping (b0 b1 b2 b3 b4 : Byte) (s : State) :
    CompletesKeeping (.deskRecordRejected b0 b1 b2 b3 b4) s := by
  refine ⟨_, deskRecordRejected_exec b0 b1 b2 b3 b4 s, ?_⟩
  split
  · exact .refl s
  · exact rejectRecord_keeps (.refl s)

/-- Each command of the desk port, the panel and the idle, blink and request timers. -/
theorem operatorCommand_completesKeeping {i : Instr} (operator : operatorCommand i = true) (s : State) : CompletesKeeping i s := by
  cases i with
  | deskRecordRejected b0 b1 b2 b3 b4 => exact deskRecordRejected_completesKeeping b0 b1 b2 b3 b4 s
  | deskKeyDown | deskKeyUp | deskButtonPress | deskButtonRelease | deskMotion | deskWheel =>
    exact deskRecord_completesKeeping rfl s
  | takeoverPress => exact ⟨_, rfl, filterTurns_keeps .released .pressed s⟩
  | takeoverButtonReleased => exact ⟨_, rfl, filterTurns_keeps .pressed .released s⟩
  | takeoverButtonSample level => exact ⟨_, rfl, sample_keeps level (.refl s)⟩
  | idleTimerExpires => exact ⟨_, rfl, idleExpired_keeps (.refl s)⟩
  | blinkPhaseAdvance => exact ⟨_, rfl, blinkAdvance_keeps (.refl s)⟩
  | requestTimerExpires slot => exact ⟨_, rfl, requestExpired_keeps slot (.refl s)⟩
  | _ => cases operator

/-- Settles O44: what an operator's command does keeps the ring, and no RESET response comes of it, so the step ends as it stands. -/
theorem operatorCommandsLeaveTheRing : Obligations.OperatorCommandsLeaveTheRing := by
  intro i s quiet operator
  obtain ⟨u, completes, keeps⟩ := operatorCommand_completesKeeping operator s
  exact ⟨u, completes.trans (completed_keeps quiet keeps), keeps.same⟩

end Sys2Proof.Machine
end
